-- ==== Sys2Proof/Word.lean ====
section
/-! DEFINITION. The word and byte types of the DTE (spec 00_scope.md R8): every CSR, entry word and port value is 32
bits. -/

namespace Sys2Proof

/-- A 32-bit word: a CSR, an entry-table word or a value on a port (R8, R52). -/
abbrev Word := BitVec 32

/-- A byte of the host window (R51). -/
abbrev Byte := BitVec 8

end Sys2Proof
end

