-- ==== Sys2Proof/Syntax.lean ====
section
/-! DEFINITION. The commands of DTE-CMD version 1 (spec 30_encoding.md R96 to R99): one constructor per row of
spec/opcode_table.json. -/

namespace Sys2Proof

/-- A DTE command. Entry operands are not in the word: they come from `SRC_IDX` and `DST_IDX` (R103, R104). -/
inductive Instr where
  /-- `nop` (R222). -/
  | nop
  /-- `est.dvfs_partial`: the estimator in mode 0 (R109). -/
  | estDvfsPartial
  /-- `est.dvfs_final`: mode 1. -/
  | estDvfsFinal
  /-- `est.train_partial`: mode 2. -/
  | estTrainPartial
  /-- `est.train_final`: mode 3. -/
  | estTrainFinal
  /-- `est.periodic`: mode 4. -/
  | estPeriodic
  /-- `trim <id>`: the trim-register identity is the word's `ARG` (R98, R138). -/
  | trim (id : BitVec 8)
  /-- `rampdn` and `rampdn flip`: the flip-backward flag is `MODE[0]` (R97, R154). -/
  | rampdn (flip : Bool)
  /-- `rampup` and `rampup flip`. -/
  | rampup (flip : Bool)
  /-- `switch <mask>`: the training mask is the word's `ARG` (R99, R168). -/
  | switch (mask : BitVec 8)
  /-- `pcomp` (R210). -/
  | pcomp
  deriving DecidableEq, Repr, Inhabited

/-- The estimator's five update modes (R97, R109), in the source's order. -/
inductive EstMode where
  | dvfsPartial
  | dvfsFinal
  | trainPartial
  | trainFinal
  | periodic
  deriving DecidableEq, Repr, Inhabited

end Sys2Proof
end

