-- ==== Sys2Proof/WellFormed.lean ====
section
/-! DEFINITION. Which terms of `Instr` stand for a legal command word (spec 30_encoding.md R97, R98). -/

namespace Sys2Proof

/-- A command is well formed when its operands have values R97 and R98 call legal. Only `trim` has an operand whose
field admits illegal values: identities 10 to 255. -/
def Instr.wellFormed : Instr → Bool
  | .nop => true
  | .estDvfsPartial => true
  | .estDvfsFinal => true
  | .estTrainPartial => true
  | .estTrainFinal => true
  | .estPeriodic => true
  | .trim id => decide (id.toNat ≤ 9)
  | .rampdn _ => true
  | .rampup _ => true
  | .switch _ => true
  | .pcomp => true

end Sys2Proof
end

