-- ==== Sys2Proof/Decode.lean ====
section
/-! DEFINITION. Decoding a command word, total on every word and byte list, rejecting by name; and the encoder
(spec 30_encoding.md R95 to R103). -/

namespace Sys2Proof

/-- Why a command word is illegal (R100). Every name ends the command with cause `ILLEGAL` (R225). -/
inductive DecodeError where
  /-- `OP` is 0x7 to 0xF (R96). -/
  | reservedOp
  /-- `MODE` has a value R97 calls illegal for the `OP`. -/
  | illegalMode
  /-- `ARG` has a value R98 calls illegal for the `OP`. -/
  | illegalArg
  /-- `RSV` is not 0 (R95). -/
  | reservedBits
  /-- Fewer than four bytes were given: a command is one 32-bit word (R102). -/
  | shortInput
  deriving DecidableEq, Repr

/-- `OP`, bits 3:0 (R95). -/
def opField (w : Word) : BitVec 4 := w.extractLsb' 0 4
/-- `MODE`, bits 7:4 (R95). -/
def modeField (w : Word) : BitVec 4 := w.extractLsb' 4 4
/-- `ARG`, bits 15:8 (R95). -/
def argField (w : Word) : BitVec 8 := w.extractLsb' 8 8
/-- `RSV`, bits 31:16 (R95). -/
def rsvField (w : Word) : BitVec 16 := w.extractLsb' 16 16

/-- Decoding reads `OP`, then checks `MODE`, `ARG` and `RSV` (R95, R97, R98, R100, R102). -/
def decode (w : Word) : Except DecodeError Instr :=
  let mode := (modeField w).toNat
  let arg := argField w
  let noMode (r : Except DecodeError Instr) : Except DecodeError Instr :=
    if mode = 0 then r else .error .illegalMode
  let noArg (r : Except DecodeError Instr) : Except DecodeError Instr :=
    if arg = 0 then r else .error .illegalArg
  let done (i : Instr) : Except DecodeError Instr :=
    if rsvField w = 0 then .ok i else .error .reservedBits
  match (opField w).toNat with
  | 0 => noMode (noArg (done .nop))
  | 1 =>
    match mode with
    | 0 => noArg (done .estDvfsPartial)
    | 1 => noArg (done .estDvfsFinal)
    | 2 => noArg (done .estTrainPartial)
    | 3 => noArg (done .estTrainFinal)
    | 4 => noArg (done .estPeriodic)
    | _ => .error .illegalMode
  | 2 => noMode (if arg.toNat ≤ 9 then done (.trim arg) else .error .illegalArg)
  | 3 => if mode ≤ 1 then noArg (done (.rampdn (decide (mode = 1)))) else .error .illegalMode
  | 4 => if mode ≤ 1 then noArg (done (.rampup (decide (mode = 1)))) else .error .illegalMode
  | 5 => noMode (done (.switch arg))
  | 6 => noMode (noArg (done .pcomp))
  | _ => .error .reservedOp

/-- A word from its four bytes, the lowest address first (R51: the host window is little-endian). -/
def wordOfBytes (b0 b1 b2 b3 : Byte) : Word := b3 ++ b2 ++ b1 ++ b0

/-- The four bytes of a word, the lowest address first (R51). -/
def bytesOfWord (w : Word) : List Byte :=
  [w.extractLsb' 0 8, w.extractLsb' 8 8, w.extractLsb' 16 8, w.extractLsb' 24 8]

/-- Decoding bytes as the host window stores them: one command and the bytes after it. -/
def decodeBytes : List Byte → Except DecodeError (Instr × List Byte)
  | b0 :: b1 :: b2 :: b3 :: rest =>
    match decode (wordOfBytes b0 b1 b2 b3) with
    | .ok i => .ok (i, rest)
    | .error e => .error e
  | _ => .error .shortInput

/-- The command word of opcode-table bits `w`, `nbits` of them, every bit above being 0. -/
def tableWord (nbits w : Nat) : Word := BitVec.ofNat 32 (w % 2 ^ nbits)

/-- The instruction the decoder reads from an instruction whose opcode-table bits are `w`. -/
def decodeTableWord (nbits w : Nat) : Option Instr :=
  match decodeBytes (bytesOfWord (tableWord nbits w)) with
  | .ok (i, _) => some i
  | .error _ => none

/-- A command word from its fields (R95); `RSV` is 0. -/
def packWord (op mode : BitVec 4) (arg : BitVec 8) : Word := (0 : BitVec 16) ++ arg ++ mode ++ op

/-- The word of a command (R96 to R99, R105). -/
def encode : Instr → Word
  | .nop => packWord 0 0 0
  | .estDvfsPartial => packWord 1 0 0
  | .estDvfsFinal => packWord 1 1 0
  | .estTrainPartial => packWord 1 2 0
  | .estTrainFinal => packWord 1 3 0
  | .estPeriodic => packWord 1 4 0
  | .trim id => packWord 2 0 id
  | .rampdn flip => packWord 3 (if flip then 1 else 0) 0
  | .rampup flip => packWord 4 (if flip then 1 else 0) 0
  | .switch mask => packWord 5 0 mask
  | .pcomp => packWord 6 0 0

end Sys2Proof
end

