-- ==== Sys2Proof/Config.lean ====
section
/-! DEFINITION. What an implementation fixes: the types of the parameters of spec 00_scope.md R7, the parameter record
of a session, its reference values, and the one free value (the bytes of the entry table that nothing has loaded).

Functions that the spec leaves OPEN are held as tables, so that a session's parameters are plain data: a table row
with `key := none` answers for every argument, a row with `key := some k` for the argument `k` alone, and the first row
that answers wins. Every OPEN function has finitely many arguments, so every one of them is such a table. -/

namespace Sys2Proof

/-- The four external register spaces (20_memory.md R47): the memory controller, its second channel view, the
traffic-scheduling unit and the clock/reset unit. -/
inductive Space where
  | emc
  | emc1
  | mc
  | car
  deriving DecidableEq, Repr, Inhabited

/-- An entry of the command-delay queue: register address, value, delay in emc cycles (20_memory.md R63). -/
structure QEntry where
  addr : Word
  value : Word
  delay : Word
  deriving DecidableEq, Repr, Inhabited

/-- The micro-operations of a step list (20_memory.md R71). DESIGN CHOICE (log entry 31, unsafe): the `n` of a
`DELAY(n)`, in microseconds, and the masks and expected values are u32, the spec states no range. -/
inductive MicroOp where
  | rd (sp : Space) (a : Word)
  | wr (sp : Space) (a v : Word)
  | enq (a v d : Word)
  | poll (sp : Space) (a mask expect : Word) (budget : Nat)
  | spin (sp : Space) (a mask expect : Word)
  | delay (n : Word)
  | save (slot : Nat) (sp : Space) (a : Word)
  | restore (slot : Nat) (sp : Space) (a : Word)
  | tupd
  deriving DecidableEq, Repr

/-- The labels of the `STEP_OPS` lists (43_clock_switch.md R172, 44_periodic_control.md R214): `step k` is the label
"k", the others are "14.mc", "14.lat", "25.tri", "25.dll", "P1", "P2", "P3" and "P7". -/
inductive Label where
  | step (k : Nat)
  | mc14
  | lat14
  | tri25
  | dll25
  | p1
  | p2
  | p3
  | p7
  deriving DecidableEq, Repr

/-- The three shadow image sets (43_clock_switch.md R185). -/
inductive Shadow where
  | ca
  | quse
  | rdwr
  deriving DecidableEq, Repr

/-- The image set of a pass (43_clock_switch.md R185). -/
inductive ImageSet where
  | main
  | shadow (s : Shadow)
  deriving DecidableEq, Repr

/-- What an entry holds, fixed fields and opaque area: the bytes loaded, by entry offset (10_state.md R34). -/
abbrev Image := List Host.Cell

/-- The context of a step list (43_clock_switch.md R173). The pass classes of R169 are functions of `mask`; `R`, `D`,
`LP4`, `ZQA` and `ZQS` are the bits of `cfg` (10_state.md R25). -/
structure Ctx where
  label : Label
  src : Image
  dst : Image
  mask : BitVec 8
  cfg : BitVec 5
  fspOp : Bool
  fspWr : Bool
  compw : Bool
  down : Bool
  images : ImageSet
  deriving DecidableEq, Repr

/-- The direction of a power ramp (42_power_ramp.md R154). -/
inductive Dir where
  | down
  | up
  deriving DecidableEq, Repr

/-- The period tiers (42_power_ramp.md R156). -/
inductive Tier where
  | high
  | mid
  | low
  deriving DecidableEq, Repr

/-- One row of a function held as a table. -/
structure Row (κ υ : Type) where
  key : Option κ
  out : υ
  deriving DecidableEq, Repr

/-- What a row of `SAMPLE_FN` answers: the reported count itself, or a value (40_estimator.md R118). -/
inductive SampleOut where
  | count
  | value (v : Word)
  deriving DecidableEq, Repr

/-- One row of `RAMP_FN` (42_power_ramp.md R157): direction, tier and flip, and either every source image, destination
image and period or one triple of them. -/
structure RampRow where
  dir : Dir
  tier : Tier
  flip : Bool
  key : Option (Image × Image × Nat)
  entries : List QEntry
  wait : Word
  deriving DecidableEq, Repr

/-- One row of `STEP_OPS` (43_clock_switch.md R171): a label, and either every context or one of them. -/
structure StepRow where
  label : Label
  key : Option Ctx
  ops : List MicroOp
  deriving DecidableEq, Repr

/-- A field of a trim layout (41_trim.md R147): the stored value packed, its least significant bit, its width. -/
structure TrimField where
  k : Nat
  lsb : Nat
  width : Nat
  deriving DecidableEq, Repr

/-- An item of `PRECHARGE_FN` (43_clock_switch.md R182). `pack` lists the images of 0 to 63. -/
structure PreItem where
  sp : Space
  addr : Word
  x : Int
  pack : List Word
  vSrc : Word
  deriving DecidableEq, Repr

/-- An item of `CAPTURE_FN` (43_clock_switch.md R198): where to read, the opaque-area offset, and whether the VREF
correction applies. -/
structure CapItem where
  sp : Space
  addr : Word
  off : Nat
  corr : Bool
  deriving DecidableEq, Repr

/-- What a row of `VREF_CORR_FN` answers: the value read, or another one (43_clock_switch.md R198). -/
inductive VrefOut where
  | raw
  | value (v : Word)
  deriving DecidableEq, Repr

/-- The address, mask and space of the clock-change-complete status (43_clock_switch.md R196). DESIGN CHOICE (log entry
31): the mask is a u32, the spec states no range. -/
structure CcStatus where
  sp : Space
  addr : Word
  mask : Word
  deriving DecidableEq, Repr

/-- The timing-update trigger and acknowledge test (20_memory.md R70). DESIGN CHOICE (log entry 31): mask and
expectation are u32, the spec states no range. -/
structure Tupd where
  regAddr : Word
  regValue : Word
  ackAddr : Word
  ackMask : Word
  ackExpect : Word
  deriving DecidableEq, Repr

/-- The implementation parameters of 00_scope.md R7, fixed from reset to reset. -/
structure Params where
  /-- `ENTRY_STRIDE`. -/
  entryStride : Nat
  /-- `DTE_BASE`, any natural number: the spec states no range (log entry 18). -/
  dteBase : Nat
  /-- `QDEPTH`. -/
  qDepth : Nat
  /-- `N_SNAP`. -/
  nSnap : Nat
  /-- `CC_TIMEOUT_US`. DESIGN CHOICE (log entry 31): a u32, the spec states no range. -/
  ccTimeoutUs : Word
  /-- `POLL_GAP_US`. DESIGN CHOICE (log entry 31): a u32, the spec states no range. -/
  pollGapUs : Word
  /-- `SAMPLE_FN`, by source frequency, destination frequency and count. -/
  sampleFn : List (Row (Word × Word × Word) SampleOut)
  /-- `RAMP_T_HIGH`. -/
  rampTHigh : Nat
  /-- `RAMP_T_MID`. -/
  rampTMid : Nat
  /-- `RAMP_FN`. -/
  rampFn : List RampRow
  /-- `STEP_OPS`. -/
  stepOps : List StepRow
  /-- `TRIM_ADDR`, by identity. -/
  trimAddr : List Word
  /-- `TRIM_LAYOUT`, by identity. -/
  trimLayout : List (List TrimField)
  /-- `SHADOW_SELECT`. -/
  shadowSelect : List (Row (BitVec 8) Shadow)
  /-- `FSP_SWAP_FN`. -/
  fspSwapFn : List (Row Ctx Nat)
  /-- `PRECHARGE_FN`, by the source and the destination image. -/
  prechargeFn : List (Row (Image × Image) (List PreItem))
  /-- `COND_24`. -/
  cond24 : List (Row Ctx Bool)
  /-- `CAPTURE_FN`. -/
  captureFn : List (Row Ctx (List CapItem))
  /-- `VREF_CORR_FN`, by the value read, the destination image and the item. -/
  vrefCorrFn : List (Row (Word × Image × CapItem) VrefOut)
  /-- `TRAIN_CMD_FN`, by the training mask: value and queue delay. -/
  trainCmdFn : List (Row (BitVec 8) (Word × Word))
  /-- `TRAIN_CMD_ADDR`. -/
  trainCmdAddr : Word
  /-- `CC_TRIG`. -/
  ccTrig : QEntry
  /-- `CLKSRC_ADDR`. -/
  clkSrcAddr : Word
  /-- `CC_STATUS`. -/
  ccStatus : CcStatus
  /-- `TUPD_REG` and `TUPD_ACK`. -/
  tupd : Tupd
  /-- `PCOMP_SETTLE_US`, by the entry. DESIGN CHOICE (log entry 31): u32 values, the spec states no range. -/
  pcompSettleUs : List (Row Image Word)
  /-- `DVFS_ACC_CLEAR`. -/
  dvfsAccClear : Bool
  /-- `FLIP_18`. -/
  flip18 : Bool
  deriving DecidableEq, Repr

/-- The reference layout of 41_trim.md R148: two 8-bit fields for a long-DLL identity, eight 4-bit fields for a
byte-shift identity. -/
def Params.referenceLayout : List (List TrimField) :=
  let pair (n : Nat) : List TrimField := [⟨2 * n, 0, 8⟩, ⟨2 * n + 1, 16, 8⟩]
  let eight : List TrimField := (List.range 8).map fun k => ⟨k, 4 * k, 4⟩
  [pair 0, pair 1, pair 2, pair 3, pair 0, pair 1, pair 2, pair 3, eight, eight]

/-- The parameters `State.reset` holds. DESIGN CHOICE (log entry 5, unsafe): the reference values of 00_scope.md R7
where it gives one; for the OPEN ones the illustrative test configuration of 95_test_vectors.md §0 where it names one;
and where neither gives a value, zeros for `DTE_BASE`, `TUPD_REG` and `TUPD_ACK`, and no rows for `RAMP_FN` and
`VREF_CORR_FN` (log entry 32, unsafe). No rule and no statement rests on them. -/
def Params.reference : Params where
  entryStride := 0x1000
  dteBase := 0
  qDepth := 64
  nSnap := 8
  ccTimeoutUs := 1000
  pollGapUs := 0
  sampleFn := []
  rampTHigh := 1000
  rampTMid := 2500
  rampFn := []
  stepOps := []
  trimAddr := (List.range 10).map fun id => BitVec.ofNat 32 (0x300 + 4 * id)
  trimLayout := Params.referenceLayout
  shadowSelect := []
  fspSwapFn := []
  prechargeFn := []
  cond24 := []
  captureFn := []
  vrefCorrFn := []
  trainCmdFn := []
  trainCmdAddr := 0x610
  ccTrig := ⟨0x600, 0x1, 3⟩
  clkSrcAddr := 0x20
  ccStatus := ⟨.car, 0x24, 0x1⟩
  tupd := ⟨0, 0, 0, 0, 0⟩
  pcompSettleUs := [⟨none, 10⟩]
  dvfsAccClear := true
  flip18 := true

/-- FREE VALUE (10_state.md R46, 93_implementation_defined.md V7 and V14; log entry 6): the byte that a host read finds
at a window offset of the entry table that nothing has written since the reset that began session `session`. -/
opaque Config.unloadedByte (session offset : Nat) : Byte

end Sys2Proof
end

