-- ==== Sys2Proof/Machine/State.lean ====
section
/-! DEFINITION. The state of the DTE (spec 10_state.md, 70_reset_and_hazards.md R254), what reaches it from outside,
the continuation of a command in progress, and the reasons a step stops. -/

namespace Sys2Proof.Machine

open Sys2Proof

/-- The causes of `STATUS.CAUSE` (60_exceptions.md R228). The reserved causes 8 to 15 are never produced. -/
inductive Cause where
  | none
  | ccTimeout
  | config
  | illegal
  | div0
  | overflow
  | uninit
  | queueOvf
  deriving DecidableEq, Repr, Inhabited

/-- Why a step of the machine stops. An error of a command is no fault of this type: it is an abort, a next state
(60_exceptions.md R232). -/
inductive Fault where
  /-- A host access at an address outside the DTE's window: what lies there is the platform's (20_memory.md R56).
  Raised by `hostAccess`. Safe: the DTE's state is not concerned. -/
  | outsideWindow
  deriving DecidableEq, Repr

/-- Why a step has no meaning. -/
inductive Refusal where
  /-- An instruction whose meaning is not written; raised by an arm of `exec` only. Safe. -/
  | notModelled (mnemonic : String)
  /-- The session's parameters are ill-formed (20_memory.md R79, 60_exceptions.md R241 (a) and (b)): raised by `step`.
  Safe: the spec gives such a session no meaning. -/
  | illFormedParams
  deriving DecidableEq, Repr

/-- The width of a host access; only a word at a 4-byte-aligned offset is honoured (20_memory.md R60). -/
inductive AccessSize where
  | byte
  | half
  | word
  deriving DecidableEq, Repr

/-- A host access at an address of the host's address map (20_memory.md R48). -/
structure HostAccess where
  write : Bool
  size : AccessSize
  addr : Nat
  data : Word
  deriving DecidableEq, Repr

/-- What happens next, in the order of `State.inbox`. MODEL's own (log entries 1 to 4, 9). -/
inductive Event where
  /-- A host access. -/
  | host (a : HostAccess)
  /-- The engine goes on with a command in progress, for at most the given number of operations. -/
  | engine (quantum : Option Nat)
  /-- The queue drain acts once (20_memory.md R86, R87). -/
  | drain
  /-- Emc clocks pass (20_memory.md R86). -/
  | emcClocks (n : Nat)
  /-- The environment supplies the value of a register read (20_memory.md R61). -/
  | regAnswer (v : Word)
  /-- The environment supplies an oscillator count (20_memory.md R69). -/
  | sampleAnswer (v : Word)
  /-- The environment supplies a timer reading, as its advance over the last one (60_exceptions.md R245). -/
  | timerAdvance (v : Word)
  /-- The reset input; the parameters are those of the session it begins (70_reset_and_hazards.md R253, R258). -/
  | reset (p : Params)
  deriving DecidableEq, Repr

/-- A port operation the DTE has performed (20_memory.md R55). MODEL's own record (log entry 10). -/
inductive PortEvent where
  /-- `RegRead` and the value returned. -/
  | read (sp : Space) (a v : Word)
  /-- `RegWrite` by the engine. -/
  | write (sp : Space) (a v : Word)
  /-- A lane-sample exchange and the count returned. -/
  | sample (lane : Nat) (n : Word)
  /-- A reading of `TIMER_US`. -/
  | timer (t : Word)
  /-- A write of the queue drain, always into `EMC` (20_memory.md R50), and the entry's delay. -/
  | drained (a v d : Word)
  deriving DecidableEq, Repr

/-- A `DelayUs` that is due (20_memory.md R67): none, one not begun, or one begun at the reading `t0`; its time is a u32
(log entry 31). -/
inductive Delay where
  | none
  | start (n : Word)
  | since (t0 n : Word)
  deriving DecidableEq, Repr

/-- Where the clock-change-complete wait stands (43_clock_switch.md R196). -/
inductive CcPhase where
  | start
  | read (t0 : Word)
  | timer (t0 : Word)
  deriving DecidableEq, Repr

/-- A lane the estimator has computed: `acc'`, and `cur'` where the pass replaces it (40_estimator.md R115, R124). -/
structure LaneResult where
  lane : Nat
  acc : Int
  cur : Option Int
  deriving DecidableEq, Repr

/-- An estimator run in progress: its mode and entries, the active lanes still to do, the lanes done, and the maximum
delta so far (40_estimator.md R128). -/
structure EstWork where
  mode : EstMode
  src : Nat
  dst : Nat
  todo : List Nat
  done : List LaneResult
  maxDelta : Int
  deriving DecidableEq, Repr

/-- What a command writes to `RESULT` when it ends in success (10_state.md R23): nothing, the return value of its unit,
or the maximum delta of step 3. -/
inductive ResultSel where
  | keep
  | value
  | stepThree
  deriving DecidableEq, Repr

/-- One operation of the engine, in a form that can be left waiting and taken up again. -/
inductive Task where
  /-- The drain interlock (70_reset_and_hazards.md R264). -/
  | awaitDrain
  /-- The checks before any port operation (60_exceptions.md R226). -/
  | check
  | read (sp : Space) (a : Word)
  | write (sp : Space) (a v : Word)
  | enqueue (a v d : Word)
  | poll (sp : Space) (a mask expect : Word) (left : Nat) (due : Delay)
  | spin (sp : Space) (a mask expect : Word)
  | delay (due : Delay)
  | save (slot : Nat) (sp : Space) (a : Word)
  | restore (slot : Nat) (sp : Space) (a : Word)
  /-- An estimator run, and how many runs of the same mode follow it. -/
  | est (w : EstWork) (more : Nat)
  /-- `TRIM`'s value into the pass's return value. -/
  | trim (id : Nat)
  /-- The write of a trim register with the trim compensator's value (43_clock_switch.md R186, 44 R217). -/
  | trimWrite (id : Nat)
  /-- The wait a ramp returns (42_power_ramp.md R158, R163). -/
  | rampWait (inPass : Bool) (w : Word)
  | clearAcc
  | curFromTrn
  /-- `maxdelta3` and `COMPW` (43_clock_switch.md R175, R176 (e)). -/
  | compareDrift
  | stageFsp
  | clkSrc
  | ccWait (ph : CcPhase)
  | commitFsp
  | capture (item : CapItem)
  /-- The successful end of the command. -/
  | finish (r : ResultSel)
  deriving DecidableEq, Repr

/-- A part of a step's body, turned into tasks when the engine reaches it. -/
inductive Part where
  | one (t : Task)
  /-- The list `STEP_OPS(label, ctx)`. -/
  | ops (l : Label)
  /-- Estimator runs with a fresh working copy: once, or `SAMPLE_COUNT` times (43_clock_switch.md R176 (d)). -/
  | est (m : EstMode)
  | estRepeat (m : EstMode)
  /-- A power ramp; `ofDst` says whose period counts; `inPass` where its wait goes. -/
  | ramp (dir : Dir) (flip ofDst inPass : Bool)
  | precharge
  | captureAll
  | trimAll
  | settle
  deriving DecidableEq, Repr

/-- A stage of a command: what comes before its steps, one step of a SWITCH, one phase of a PCOMP (its `STEP` value),
the body of a command without steps, the end. -/
inductive Stage where
  | interlock
  | checks
  | body
  | step (k : Nat)
  | phase (k : Nat)
  | finish (r : ResultSel)
  deriving DecidableEq, Repr

/-- What is left of a command. -/
structure Cont where
  tasks : List Task
  parts : List Part
  stages : List Stage
  deriving DecidableEq, Repr

/-- `PASS`: the context of the running command (10_state.md R43), with what is left of it. -/
structure Pass where
  /-- The command word latched at acceptance, decoded (60_exceptions.md R227). -/
  cmd : Instr
  srcIdx : BitVec 10
  dstIdx : BitVec 10
  /-- The training mask, 0 for a command other than SWITCH. The tristate flag is `mask ≠ 0` (43_clock_switch.md
  R169). -/
  mask : BitVec 8
  /-- `PASS.pending_wait` (42_power_ramp.md R163), a sum of waits not yet put into an entry's delay. -/
  pendingWait : Nat
  /-- `PASS.maxdelta3` (43_clock_switch.md R176). -/
  maxDelta3 : Word
  /-- The return value of the last unit run: `maxdelta`, the packed trim value or the ramp's wait. -/
  value : Word
  /-- The entry table as it was when the command was accepted: what a host read finds while it runs (20_memory.md R59,
  R90). -/
  table : List Host.Cell
  cont : Cont
  deriving DecidableEq, Repr

/-- The value `PASS` holds while no command runs ("invalid", R254; log entry 30). No rule reads it. -/
def Pass.idle : Pass where
  cmd := .nop
  srcIdx := 0
  dstIdx := 0
  mask := 0
  pendingWait := 0
  maxDelta3 := 0
  value := 0
  table := []
  cont := ⟨[], [], []⟩

/-- The state of the DTE. -/
structure State where
  /-- `STATUS.BUSY` (10_state.md R21). -/
  busy : Bool
  /-- `STATUS.DONE`. -/
  done : Bool
  /-- `STATUS.COMPW` (R22). -/
  compw : Bool
  /-- `STATUS.PTO`. -/
  pto : Bool
  /-- `STATUS.OVR`. -/
  ovr : Bool
  /-- `STATUS.ACCERR`. -/
  accerr : Bool
  /-- `STATUS.FAULT`. -/
  fault : Bool
  /-- `STATUS.CODE`. -/
  code : BitVec 4
  /-- `STATUS.CAUSE`. -/
  cause : Cause
  /-- `RESULT` (R23). -/
  result : Word
  /-- `STEP`, the engine's program counter (R24, R31). -/
  stepNo : Word
  /-- `CFG`, bits 4:0 (R25). -/
  cfg : BitVec 5
  /-- `SRC_IDX`, bits 9:0 (R26). -/
  srcIdx : BitVec 10
  /-- `DST_IDX`, bits 9:0 (R26). -/
  dstIdx : BitVec 10
  /-- `ENTRY_COUNT` (R27). -/
  entryCount : Word
  /-- `FSP.FSP_OP` (R28). -/
  fspOp : Bool
  /-- `FSP.FSP_WR`, `FSP_WR_STAGED` (R28, R40). -/
  fspWr : Bool
  /-- The entry table by window offset (R33, R34); the listed bytes are the written ones (R36). -/
  mem : List Host.Cell
  /-- The snapshot slots; a slot not saved by the running command holds nothing readable (R41, 20_memory.md R80). -/
  snap : List (Option Word)
  /-- `QUEUE`, head first (R42). -/
  queue : List QEntry
  /-- `DRAIN` (R42). -/
  drain : Bool
  /-- Emc clocks the drain has waited for the head entry (20_memory.md R86). -/
  drainClk : Nat
  /-- `PASS` (R43). -/
  pass : Pass
  /-- The session's parameters (00_scope.md R7). -/
  params : Params
  /-- MODEL's own: the number of resets, the index of `Config.unloadedByte`. -/
  session : Nat
  /-- `TIMER_US` as last read (60_exceptions.md R244). -/
  timerUs : Word
  /-- MODEL's own: the environment's answers to register reads, the next first. -/
  regIn : List Word
  /-- MODEL's own: the environment's oscillator counts, the next first. -/
  sampleIn : List Word
  /-- MODEL's own: the advances of the timer readings, the next first. -/
  timerIn : List Word
  /-- MODEL's own: what happens next. -/
  inbox : List Event
  /-- MODEL's own: how many operations the engine performs before another agent acts; `none`: no other agent acts
  before the engine waits or ends. -/
  quantum : Option Nat
  /-- MODEL's own: the port operations performed, the oldest first. -/
  trace : List PortEvent
  /-- MODEL's own: the values host reads have returned, the oldest first. -/
  hostOut : List Word
  deriving DecidableEq, Repr

/-- Every snapshot slot of a session, unreadable (20_memory.md R80). -/
def emptySnap (p : Params) : List (Option Word) := List.replicate p.nSnap none

/-- The machine right after reset (70_reset_and_hazards.md R254). The values the spec does not give: `timerUs` (log
entry 4), `params` (5), `pass` (30), `drainClk` (9) and the model's own fields (1, 2, 3, 6, 10). -/
def State.reset : State where
  busy := false
  done := false
  compw := false
  pto := false
  ovr := false
  accerr := false
  fault := false
  code := 0
  cause := .none
  result := 0
  stepNo := 0
  cfg := 0
  srcIdx := 0
  dstIdx := 0
  entryCount := 0
  fspOp := false
  fspWr := false
  mem := []
  snap := emptySnap Params.reference
  queue := []
  drain := false
  drainClk := 0
  pass := Pass.idle
  params := Params.reference
  session := 0
  timerUs := 0
  regIn := []
  sampleIn := []
  timerIn := []
  inbox := []
  quantum := none
  trace := []
  hostOut := []

end Sys2Proof.Machine
end

