-- ==== Sys2Proof/Machine/Arith.lean ====
section
/-! DEFINITION. The arithmetic of spec 00_scope.md R9 to R13: integers, checked against their 32-bit types. -/

namespace Sys2Proof.Machine

open Sys2Proof

/-- The s32 range (R8). -/
abbrev InS32 (v : Int) : Prop := -2147483648 ≤ v ∧ v ≤ 2147483647

/-- `chk32`: the value, or the cause `OVERFLOW` (R9). -/
def chk32 (v : Int) : Except Cause Int := if InS32 v then .ok v else .error .overflow

/-- `chk32u`: the value as a u32, or the cause `OVERFLOW` (R9, 42_power_ramp.md R163). -/
def chk32u (v : Nat) : Except Cause Word :=
  if v < 4294967296 then .ok (BitVec.ofNat 32 v) else .error .overflow

/-- `tdiv`: division truncated toward zero, or the cause `DIV0` (R10). -/
def tdiv (a b : Int) : Except Cause Int := if b = 0 then .error .div0 else .ok (Int.tdiv a b)

/-- `trem`: the remainder of `tdiv`, with the sign of the dividend (R10). -/
def trem (a b : Int) : Except Cause Int := if b = 0 then .error .div0 else .ok (a - b * Int.tdiv a b)

/-- `shl7`: multiplication by 128 (R11). -/
def shl7 (v : Int) : Int := 128 * v

/-- `abs` under `chk32` (R11). -/
def chkAbs (v : Int) : Except Cause Int := chk32 v.natAbs

/-- `fmhz` of a frequency in kHz (R12). -/
def fmhz (kHz : Word) : Nat := kHz.toNat / 1000

/-- `scaled`: a delay difference scaled to frequency, every intermediate under `chk32` (R13). -/
def scaled (d : Int) (f : Nat) : Except Cause Int := do
  let a ← chk32 (shl7 d)
  let b ← chk32 (a * f)
  tdiv b 1000000

/-- `clamp(x, 0, 63)` (43_clock_switch.md R183). -/
def clamp6 (x : Int) : Nat := if x < 0 then 0 else if 63 < x then 63 else x.toNat

/-- `period_ps`: the clock period in picoseconds, or the cause `DIV0` (42_power_ramp.md R155). -/
def periodPs (kHz : Word) : Except Cause Nat :=
  if kHz = 0 then .error .div0 else .ok (1000000000 / kHz.toNat)

end Sys2Proof.Machine
end

