-- ==== Sys2Proof/Machine/Flags.lean ====
section
/-! DEFINITION. The fields of `STATUS`: how they read as one word, what a host write clears, and what acceptance,
success, an abort and a refused or ignored access do to them (spec 10_state.md R21, 60_exceptions.md R224 to R232). -/

namespace Sys2Proof.Machine

open Sys2Proof

/-- The number of a cause (60_exceptions.md R228). -/
def causeCode : Cause → BitVec 4
  | .none => 0
  | .ccTimeout => 1
  | .config => 2
  | .illegal => 3
  | .div0 => 4
  | .overflow => 5
  | .uninit => 6
  | .queueOvf => 7

/-- The causes of class fault, 4 to 7 (60_exceptions.md R230). -/
def causeIsFault : Cause → Bool
  | .none => false
  | .ccTimeout => false
  | .config => false
  | .illegal => false
  | .div0 => true
  | .overflow => true
  | .uninit => true
  | .queueOvf => true

/-- `CODE` for a cause: 0 on success, 4 otherwise (60_exceptions.md R229). -/
def statusCode (c : Cause) : BitVec 4 := if c = .none then 0 else 4

/-- `STATUS` as it reads (10_state.md R21): reserved bits 7 and 31:16 are 0. -/
def statusWord (s : State) : Word :=
  (0 : BitVec 16) ++ causeCode s.cause ++ s.code ++ (0 : BitVec 1) ++ BitVec.ofBool s.fault ++
    BitVec.ofBool s.accerr ++ BitVec.ofBool s.ovr ++ BitVec.ofBool s.pto ++ BitVec.ofBool s.compw ++
    BitVec.ofBool s.done ++ BitVec.ofBool s.busy

/-- `FSP` as it reads (10_state.md R28). -/
def fspWord (s : State) : Word := (0 : BitVec 30) ++ BitVec.ofBool s.fspWr ++ BitVec.ofBool s.fspOp

/-- A host write to `STATUS`: a 1 clears `DONE`, `PTO`, `OVR` or `ACCERR`, everything else is ignored (10_state.md
R21). -/
def State.writeStatus (s : State) (w : Word) : State :=
  { s with
    done := s.done && !w.getLsbD 1
    pto := s.pto && !w.getLsbD 3
    ovr := s.ovr && !w.getLsbD 4
    accerr := s.accerr && !w.getLsbD 5 }

/-- A write ignored because `BUSY = 1` (60_exceptions.md R224). -/
def State.setOvr (s : State) : State := { s with ovr := true }

/-- A host access that is not an aligned 32-bit access (20_memory.md R60). -/
def State.setAccerr (s : State) : State := { s with accerr := true }

/-- A bounded poll that exhausted its budget (20_memory.md R75). -/
def State.setPto (s : State) : State := { s with pto := true }

/-- The flags of a command's end with a cause (60_exceptions.md R228 to R232); `BUSY` falls, `DONE` rises, `FAULT` is
sticky. -/
def State.endFlags (s : State) (c : Cause) : State :=
  { s with
    busy := false
    done := true
    code := statusCode c
    cause := c
    fault := s.fault || causeIsFault c }

end Sys2Proof.Machine
end

