-- ==== Sys2Proof/Machine/Ops.lean ====
section
/-! DEFINITION. The named operations over the state: the entry table's bytes and words, the port primitives
(spec 20_memory.md §5), the queue, accepting a command, ending it in success, and the ABORT, the DTE's trap
(60_exceptions.md R232). There is no return from it (R234). -/

namespace Sys2Proof.Machine

open Sys2Proof

/-! ## The entry table's memory -/

/-- The byte listed at an offset, if any. An unlisted byte has no value (10_state.md R36, R46). -/
def memByte : List Host.Cell → Nat → Option Byte
  | [], _ => none
  | (a', b) :: m, a => if a' = a then some b else memByte m a

/-- One byte written; the cells stay strictly rising. -/
def memSet : List Host.Cell → Nat → Byte → List Host.Cell
  | [], a, b => [(a, b)]
  | (a', b') :: m, a, b =>
    if a < a' then (a, b) :: (a', b') :: m
    else if a = a' then (a, b) :: m
    else (a', b') :: memSet m a b

/-- The canonical form: offsets strictly rising. An unlisted byte reads as no value, so no entry equals it. -/
def memWf : List Host.Cell → Bool
  | [] => true
  | [_] => true
  | (a, _) :: (a', b') :: m => decide (a < a') && memWf ((a', b') :: m)

/-- One word written, little-endian (20_memory.md R51, R54). -/
def memSetWord (m : List Host.Cell) (a : Nat) (w : Word) : List Host.Cell :=
  memSet (memSet (memSet (memSet m a (w.extractLsb' 0 8)) (a + 1) (w.extractLsb' 8 8))
    (a + 2) (w.extractLsb' 16 8)) (a + 3) (w.extractLsb' 24 8)

/-- The word at an offset, if its four bytes are listed. -/
def memWord (m : List Host.Cell) (a : Nat) : Option Word :=
  match memByte m a, memByte m (a + 1), memByte m (a + 2), memByte m (a + 3) with
  | some b0, some b1, some b2, some b3 => some (wordOfBytes b0 b1 b2 b3)
  | _, _, _, _ => none

/-- Several words written, in order. -/
def memSetWords (m : List Host.Cell) : List (Nat × Word) → List Host.Cell
  | [] => m
  | (a, w) :: ws => memSetWords (memSetWord m a w) ws

/-- Where an entry begins in the window (20_memory.md R66). -/
def entryBase (p : Params) (i : Nat) : Nat := 0x100000 + i * p.entryStride

/-- What an entry holds, by entry offset (10_state.md R34). -/
def entryImage (p : Params) (m : List Host.Cell) (i : Nat) : Image :=
  (m.filter fun c => decide (entryBase p i ≤ c.1 ∧ c.1 < entryBase p i + p.entryStride)).map
    fun c => (c.1 - entryBase p i, c.2)

/-- A word of an entry, by entry offset. Reading a fixed field whose mark is clear is the cause `UNINIT` (10_state.md
R36). -/
def State.field (s : State) (i off : Nat) : Except Cause Word :=
  match memWord s.mem (entryBase s.params i + off) with
  | some w => .ok w
  | none => .error .uninit

/-- Whether a fixed field has its written mark (10_state.md R36). -/
def State.marked (s : State) (i off : Nat) : Bool := (memWord s.mem (entryBase s.params i + off)).isSome

/-- Words of an entry written as one atomic update, by entry offset (20_memory.md R54). -/
def State.setFields (s : State) (i : Nat) (ws : List (Nat × Word)) : State :=
  { s with mem := memSetWords s.mem (ws.map fun p => (entryBase s.params i + p.1, p.2)) }

/-! ## Port primitives -/

/-- `RegRead` (20_memory.md R61): the environment's next answer, or none if it has not come. -/
def State.regRead (s : State) (sp : Space) (a : Word) : Option (Word × State) :=
  match s.regIn with
  | [] => none
  | v :: vs => some (v, { s with regIn := vs, trace := s.trace ++ [.read sp a v] })

/-- `RegWrite` (20_memory.md R62). -/
def State.regWrite (s : State) (sp : Space) (a v : Word) : State :=
  { s with trace := s.trace ++ [.write sp a v] }

/-- The exchange of `Sample` (20_memory.md R69): the count, or none if the environment has not answered. -/
def State.sample (s : State) (lane : Nat) : Option (Word × State) :=
  match s.sampleIn with
  | [] => none
  | n :: ns => some (n, { s with sampleIn := ns, trace := s.trace ++ [.sample lane n] })

/-- How far a reading advances the timer: the first reading of a wait by any amount, a later one by less than 2^31
(60_exceptions.md R245). -/
def timerStep (later : Bool) (a : Word) : Word := if later then a &&& 0x7FFFFFFF else a

/-- A reading of `TIMER_US`, or none if the environment supplies none yet (60_exceptions.md R244). -/
def State.readTimer (s : State) (later : Bool) : Option (Word × State) :=
  match s.timerIn with
  | [] => none
  | a :: as =>
    let t := s.timerUs + timerStep later a
    some (t, { s with timerIn := as, timerUs := t, trace := s.trace ++ [.timer t] })

/-- `Enqueue` with the pending ramp wait of the pass (20_memory.md R63, 42_power_ramp.md R163): the delay's overflow is
met before the full queue (log entry 11). -/
def State.enqueue (s : State) (a v d : Word) : Except Cause State := do
  let d' ← chk32u (d.toNat + s.pass.pendingWait)
  if s.params.qDepth ≤ s.queue.length then .error .queueOvf
  else .ok { s with queue := s.queue ++ [⟨a, v, d'⟩], pass := { s.pass with pendingWait := 0 } }

/-! ## Waits on the timer -/

/-- The readings of a `DelayUs(n)` begun at `t0`, until one is late enough; the flag says whether one was. -/
def delayLoop (t0 n : Word) : List Word → State → State × Bool
  | [], s => (s, false)
  | a :: as, s =>
    let t := s.timerUs + timerStep true a
    let s' := { s with timerIn := as, timerUs := t, trace := s.trace ++ [.timer t] }
    if n ≤ t - t0 then (s', true) else delayLoop t0 n as s'

/-- A delay as far as the environment's readings carry it: what is left of it (20_memory.md R67). `DelayUs(0)` is one
reading (44_periodic_control.md R215). -/
def runDelay (d : Delay) (s : State) : Delay × State :=
  match d with
  | .none => (.none, s)
  | .since t0 n =>
    match delayLoop t0 n s.timerIn s with
    | (s', true) => (.none, s')
    | (s', false) => (.since t0 n, s')
  | .start n =>
    match s.readTimer false with
    | none => (.start n, s)
    | some (t0, s1) =>
      if n = 0 then (.none, s1)
      else
        match delayLoop t0 n s1.timerIn s1 with
        | (s', true) => (.none, s')
        | (s', false) => (.since t0 n, s')

/-! ## Acceptance, success, abort -/

/-- The training mask a command carries (30_encoding.md R98). -/
def cmdMask : Instr → BitVec 8
  | .switch m => m
  | _ => 0

/-- Whether a command is a SWITCH, which clears `COMPW` at acceptance (43_clock_switch.md R170). -/
def cmdIsSwitch : Instr → Bool
  | .switch _ => true
  | _ => false

/-- A command is accepted (60_exceptions.md R227, 43_clock_switch.md R170): `BUSY` rises, `DONE`, `CODE`, `CAUSE` and
`STEP` are cleared, `PASS` latches the operands and the entry table the host reads meanwhile (20_memory.md R59), and no
snapshot of an earlier command is readable (R80). The sticky flags stay. -/
def State.accept (s : State) (i : Instr) : State :=
  { s with
    busy := true
    done := false
    code := 0
    cause := .none
    stepNo := 0
    compw := s.compw && !cmdIsSwitch i
    snap := emptySnap s.params
    pass :=
      { cmd := i
        srcIdx := s.srcIdx
        dstIdx := s.dstIdx
        mask := cmdMask i
        pendingWait := 0
        maxDelta3 := 0
        value := 0
        table := s.mem
        cont := ⟨[], [], []⟩ } }

/-- `abort(cause)` (60_exceptions.md R232): the command ends at once with `CODE = 4`, its cause, `DONE`, and `FAULT` for
the causes 4 to 7. `STEP`, `RESULT` and everything done before stay; nothing is saved and the engine goes nowhere. -/
def State.abort (s : State) (c : Cause) : State := { s.endFlags c with pass := Pass.idle }

/-- The successful end of a command (10_state.md R23, 40_estimator.md R132, 43_clock_switch.md R201). -/
def State.succeed (s : State) (r : ResultSel) : State :=
  { s.endFlags .none with
    result :=
      match r with
      | .keep => s.result
      | .value => s.pass.value
      | .stepThree => s.pass.maxDelta3
    pass := Pass.idle }

/-- An illegal command word (60_exceptions.md R225): it executes nothing and ends at once. `BUSY`, `STEP`, `RESULT`,
`COMPW` and `FAULT` stay. -/
def State.illegalWord (s : State) : State :=
  { s with done := true, code := statusCode .illegal, cause := .illegal }

/-- The engine is left waiting with what remains of the command; `BUSY` stays 1 (60_exceptions.md R235). -/
def State.suspend (s : State) (c : Cont) : State := { s with pass := { s.pass with cont := c } }

/-- One operation of the engine's quantum is used. -/
def State.tick (s : State) : State := { s with quantum := s.quantum.map fun n => n - 1 }

end Sys2Proof.Machine
end

