-- ==== Sys2Proof/Machine/Params.lean ====
section
/-! DEFINITION. The OPEN functions of spec 00_scope.md R7 as the session's parameters give them, and which parameters
are well formed (20_memory.md R79, 60_exceptions.md R241). -/

namespace Sys2Proof.Machine

open Sys2Proof

/-- The first row that answers for `k`, or `dflt`. -/
def rowFor {κ υ : Type} [DecidableEq κ] (k : κ) (dflt : υ) : List (Row κ υ) → υ
  | [] => dflt
  | r :: rs =>
    match r.key with
    | none => r.out
    | some k' => if k' = k then r.out else rowFor k dflt rs

/-- `SAMPLE_FN` (40_estimator.md R118), as an s32. -/
def sampleFn (p : Params) (src dst n : Word) : Int :=
  match rowFor (src, dst, n) .count p.sampleFn with
  | .count => n.toInt
  | .value v => v.toInt

/-- `RAMP_FN`: the queue entries and the wait (42_power_ramp.md R157). -/
def rampFn (p : Params) (dir : Dir) (tier : Tier) (flip : Bool) (src dst : Image) (period : Nat) :
    List QEntry × Word :=
  let rows : List RampRow := p.rampFn.filter fun r => decide (r.dir = dir ∧ r.tier = tier ∧ r.flip = flip)
  rowFor (src, dst, period) ([], 0) (rows.map fun r => ⟨r.key, (r.entries, r.wait)⟩)

/-- `STEP_OPS(label, ctx)`; the label is the context's (43_clock_switch.md R171, R173). -/
def stepOps (p : Params) (ctx : Ctx) : List MicroOp :=
  let rows : List StepRow := p.stepOps.filter fun r => decide (r.label = ctx.label)
  rowFor ctx [] (rows.map fun r => ⟨r.key, r.ops⟩)

/-- The reference `SHADOW_SELECT`: CA over QUSE over RDWR (43_clock_switch.md R185). -/
def referenceShadow (mask : BitVec 8) : Shadow :=
  if mask &&& 0x03 ≠ 0 then .ca else if mask &&& 0x0C ≠ 0 then .quse else .rdwr

/-- `SHADOW_SELECT` (43_clock_switch.md R185). -/
def shadowSelect (p : Params) (mask : BitVec 8) : Shadow := rowFor mask (referenceShadow mask) p.shadowSelect

/-- `FSP_SWAP_FN`; the reference is `1 - FSP_OP` (43_clock_switch.md R184). -/
def fspSwap (p : Params) (ctx : Ctx) : Bool :=
  rowFor ctx (if ctx.fspOp then 0 else 1) p.fspSwapFn == 1

/-- `PRECHARGE_FN` (43_clock_switch.md R182). -/
def prechargeFn (p : Params) (src dst : Image) : List PreItem := rowFor (src, dst) [] p.prechargeFn

/-- `COND_24` (43_clock_switch.md R199). -/
def cond24 (p : Params) (ctx : Ctx) : Bool := rowFor ctx false p.cond24

/-- `CAPTURE_FN` (43_clock_switch.md R198). -/
def captureFn (p : Params) (ctx : Ctx) : List CapItem := rowFor ctx [] p.captureFn

/-- `VREF_CORR_FN` (43_clock_switch.md R198). -/
def vrefCorr (p : Params) (v : Word) (dst : Image) (item : CapItem) : Word :=
  match rowFor (v, dst, item) .raw p.vrefCorrFn with
  | .raw => v
  | .value v' => v'

/-- `TRAIN_CMD_FN`: value and queue delay (43_clock_switch.md R193). -/
def trainCmd (p : Params) (mask : BitVec 8) : Word × Word := rowFor mask (mask.setWidth 32, 0) p.trainCmdFn

/-- `PCOMP_SETTLE_US` (44_periodic_control.md R215). -/
def settleUs (p : Params) (entry : Image) : Word := rowFor entry 0 p.pcompSettleUs

/-- `TRIM_ADDR[id]` (41_trim.md R139). -/
def trimAddr (p : Params) (id : Nat) : Word := p.trimAddr.getD id 0

/-- The identity whose register an `EMC` address is, the lowest if there are several (log entry 14). -/
def trimIdOf (p : Params) (a : Word) : Option Nat := (List.range 10).find? fun id => trimAddr p id == a

/-! ## The identities of the trim registers (41_trim.md R139) -/

/-- Whether an identity is byte-shift (8, 9) or long-DLL (0 to 7). -/
def trimIsByteShift (id : Nat) : Bool := decide (8 ≤ id)

/-- The rank of an identity. -/
def trimRank (id : Nat) : Nat := if id < 4 then 0 else if id < 8 then 1 else id - 8

/-- The index set `K(id)` of the stored trim values an identity packs. -/
def trimIndices (id : Nat) : List Nat :=
  if trimIsByteShift id then List.range 8 else [2 * (id % 4), 2 * (id % 4) + 1]

/-! ## Well-formedness -/

/-- The number of bits set. -/
def bitCount (w : Word) : Nat := ((List.range 32).filter fun i => w.getLsbD i).length

/-- Whether a label is of a step numbered 22 or later or of a PCOMP phase: its list holds no `ENQ`
(20_memory.md R79, 44_periodic_control.md R214). -/
def labelIsLate : Label → Bool
  | .step k => decide (22 ≤ k)
  | .mc14 => false
  | .lat14 => false
  | .tri25 => true
  | .dll25 => true
  | .p1 => true
  | .p2 => true
  | .p3 => true
  | .p7 => true

/-- A micro-operation that may stand in the list of a label (20_memory.md R79). -/
def microOpOk (p : Params) (l : Label) : MicroOp → Bool
  | .enq _ _ _ => !labelIsLate l
  | .save slot _ _ => decide (slot < p.nSnap)
  | .restore slot _ _ => decide (slot < p.nSnap)
  | .rd _ _ => true
  | .wr _ _ _ => true
  | .poll _ _ _ _ _ => true
  | .spin _ _ _ _ => true
  | .delay _ => true
  | .tupd => true

/-- The bits a layout field covers. -/
def TrimField.bits (f : TrimField) : List Nat := (List.range f.width).map fun i => f.lsb + i

/-- A layout has one field per stored value of the identity; the fields lie within bits 31:0 and do not overlap
(41_trim.md R147). -/
def layoutOk (id : Nat) (fs : List TrimField) : Bool :=
  decide ((fs.map TrimField.k).Perm (trimIndices id)) &&
  fs.all (fun f => decide (f.lsb + f.width ≤ 32)) &&
  decide ((fs.flatMap TrimField.bits).Nodup)

/-- A capture offset lies in the opaque area (43_clock_switch.md R198, 60_exceptions.md R241). -/
def captureOk (p : Params) (c : CapItem) : Bool := decide (0x100 ≤ c.off ∧ c.off + 4 ≤ p.entryStride)

/-- The parameters are inside the ranges 00_scope.md R7 states and the lists are well formed (20_memory.md R79,
60_exceptions.md R241). -/
def paramsOk (p : Params) : Bool :=
  decide (0x100 ≤ p.entryStride ∧ p.entryStride % 4 = 0) &&
  decide (1 ≤ p.qDepth) &&
  decide (1 ≤ p.nSnap) &&
  decide (p.rampTHigh ≤ p.rampTMid) &&
  decide (p.trimAddr.length = 10) &&
  decide (p.trimLayout.length = 10) &&
  (List.range 10).all (fun id => layoutOk id (p.trimLayout.getD id [])) &&
  p.stepOps.all (fun r => r.ops.all (microOpOk p r.label)) &&
  p.fspSwapFn.all (fun r => decide (r.out ≤ 1)) &&
  p.captureFn.all (fun r => r.out.all (captureOk p)) &&
  p.prechargeFn.all (fun r => r.out.all (fun i => decide (i.pack.length = 64))) &&
  p.trainCmdFn.all (fun r =>
    match r.key with
    | some m => decide (bitCount r.out.1 = bitCount (m.setWidth 32))
    | none => (List.range 256).all fun m => decide (bitCount r.out.1 = bitCount (BitVec.ofNat 32 m)))

end Sys2Proof.Machine
end

