-- ==== Sys2Proof/Machine/Operands.lean ====
section
/-! DEFINITION. The operands of a command: entry fields, the bits of `CFG`, the lanes, the pass classes, the contexts,
and the fields each command reads (spec 10_state.md R25, R34, R35, 40_estimator.md R111, R113, 43_clock_switch.md R169,
R170, R173). -/

namespace Sys2Proof.Machine

open Sys2Proof

/-! ## Entry fields (10_state.md R34) -/

/-- Offset of `FREQ_KHZ`. -/
def offFreq : Nat := 0x000
/-- Offset of `CLK_SRC`. -/
def offClkSrc : Nat := 0x004
/-- Offset of `FLAGS`. -/
def offFlags : Nat := 0x008
/-- Offset of `MARGIN`. -/
def offMargin : Nat := 0x00C
/-- Offset of `SAMPLE_COUNT`. -/
def offSampleCount : Nat := 0x010
/-- Offset of `WEIGHT`. -/
def offWeight : Nat := 0x014
/-- Offset of `CUR[l]`. -/
def offCur (l : Nat) : Nat := 0x020 + 4 * l
/-- Offset of `TRN[l]`. -/
def offTrn (l : Nat) : Nat := 0x040 + 4 * l
/-- Offset of `ACC[l]`. -/
def offAcc (l : Nat) : Nat := 0x060 + 4 * l
/-- Offset of `TRIMVAL[r][k]`. -/
def offTrimVal (r k : Nat) : Nat := 0x080 + 32 * r + 4 * k

/-- The bits of `FLAGS` that are not reserved (10_state.md R35). -/
def flagsMask : Word := 0x00FFFF07

/-- A u32 field. -/
def State.fieldU (s : State) (i off : Nat) : Except Cause Nat := do
  let w ← s.field i off
  .ok w.toNat

/-- An s32 field. -/
def State.fieldS (s : State) (i off : Nat) : Except Cause Int := do
  let w ← s.field i off
  .ok w.toInt

/-- A word of an entry where the checks at acceptance have made sure of its mark (43_clock_switch.md R170). -/
def State.fieldD (s : State) (i off : Nat) : Word := (memWord s.mem (entryBase s.params i + off)).getD 0

/-! ## `CFG` (10_state.md R25) -/

/-- The rank count `R = RANKS + 1`. -/
def cfgRanks (c : BitVec 5) : Nat := if c.getLsbD 0 then 2 else 1
/-- `DUAL`. -/
def cfgDual (c : BitVec 5) : Bool := c.getLsbD 1
/-- `LPDDR4`. -/
def cfgLp4 (c : BitVec 5) : Bool := c.getLsbD 2
/-- `ZQ_AUTOCAL`. -/
def cfgZqa (c : BitVec 5) : Bool := c.getLsbD 3
/-- `ZQ_SHARED`. -/
def cfgZqs (c : BitVec 5) : Bool := c.getLsbD 4

/-! ## Lanes -/

/-- Whether lane `4c + 2d + u` is active: `(c = 0 or DUAL = 1)` and `d < R` (40_estimator.md R113). -/
def laneActive (c : BitVec 5) (l : Nat) : Bool :=
  (decide (l / 4 = 0) || cfgDual c) && decide (l / 2 % 2 < cfgRanks c)

/-- The eight lanes. -/
def allLanes : List Nat := [0, 1, 2, 3, 4, 5, 6, 7]

/-- The active lanes in increasing order (40_estimator.md R114). -/
def activeLanes (c : BitVec 5) : List Nat := allLanes.filter (laneActive c)

/-- Lane `i` of rank group `r` (41_trim.md R141). -/
def groupLane (r i : Nat) : Nat := 4 * (i / 2) + 2 * r + i % 2

/-! ## Pass classes (43_clock_switch.md R169) -/

/-- A tristate training pass. -/
def tristate (mask : BitVec 8) : Bool := mask != 0
/-- CA or CA_VREF. -/
def caTrain (mask : BitVec 8) : Bool := mask &&& 0x03 != 0
/-- QUSE or QUSE_VREF. -/
def quseTrain (mask : BitVec 8) : Bool := mask &&& 0x0C != 0
/-- WR or WR_VREF, a write-training pass. -/
def wrTrain (mask : BitVec 8) : Bool := mask &&& 0x30 != 0
/-- RD, RD_VREF, WR or WR_VREF. -/
def rdwrTrain (mask : BitVec 8) : Bool := mask &&& 0xF0 != 0

/-! ## The latched operands -/

/-- The destination entry's index. -/
def State.dstEntry (s : State) : Nat := s.pass.dstIdx.toNat

/-- The source entry's index; a PCOMP uses the destination entry as both (44_periodic_control.md R211). -/
def State.srcEntry (s : State) : Nat :=
  match s.pass.cmd with
  | .pcomp => s.pass.dstIdx.toNat
  | _ => s.pass.srcIdx.toNat

/-- `T.FLAGS.PT_EN` (10_state.md R35). -/
def State.ptEn (s : State) : Bool := (s.fieldD s.dstEntry offFlags).getLsbD 1

/-- The condition of step 3 (43_clock_switch.md R175). -/
def State.cond3 (s : State) : Bool := s.ptEn && !tristate s.pass.mask

/-- The condition of step 13 (43_clock_switch.md R188). -/
def State.cond13 (s : State) : Bool := wrTrain s.pass.mask && s.ptEn

/-- The context of a step list (43_clock_switch.md R173, 44_periodic_control.md R214). -/
def State.ctx (s : State) (l : Label) : Ctx where
  label := l
  src := entryImage s.params s.mem s.srcEntry
  dst := entryImage s.params s.mem s.dstEntry
  mask := s.pass.mask
  cfg := s.cfg
  fspOp := s.fspOp
  fspWr := s.fspWr
  compw := s.compw
  down := decide ((s.fieldD s.dstEntry offFreq).toNat < (s.fieldD s.srcEntry offFreq).toNat)
  images := if tristate s.pass.mask then .shadow (shadowSelect s.params s.pass.mask) else .main

/-! ## The read sets (60_exceptions.md R226) -/

/-- The fields an `EST` reads, by entry and entry offset (40_estimator.md R111). -/
def estReads (m : EstMode) (cfg : BitVec 5) (src dst : Nat) : List (Nat × Nat) :=
  let lanes := activeLanes cfg
  let acc := lanes.map fun l => (dst, offAcc l)
  let cur := lanes.map fun l => (dst, offCur l)
  let base := [(src, offFreq), (dst, offFreq)] ++ acc
  match m with
  | .dvfsPartial => base
  | .trainPartial => base
  | .dvfsFinal => base ++ cur ++ [(dst, offMargin), (dst, offSampleCount)]
  | .trainFinal => base ++ allLanes.map (fun l => (dst, offCur l)) ++ [(dst, offMargin), (dst, offSampleCount)]
  | .periodic => base ++ cur ++ [(dst, offMargin), (dst, offWeight)]

/-- The fields a `TRIM` reads (41_trim.md R149). -/
def trimReads (id dst : Nat) : List (Nat × Nat) :=
  let r := trimRank id
  [(dst, offFreq), (dst, offMargin)] ++
    ([0, 1, 2, 3].flatMap fun i => [(dst, offCur (groupLane r i)), (dst, offTrn (groupLane r i))]) ++
    (allLanes.map fun k => (dst, offTrimVal r k))

/-- All sixteen stored trim values. -/
def trimValReads (dst : Nat) : List (Nat × Nat) :=
  (allLanes.map fun k => (dst, offTrimVal 0 k)) ++ (allLanes.map fun k => (dst, offTrimVal 1 k))

/-- The accumulators of the active lanes, where the run does not clear them first (43_clock_switch.md R170). -/
def State.accReads (s : State) : List (Nat × Nat) :=
  if s.params.dvfsAccClear then [] else (activeLanes s.cfg).map fun l => (s.dstEntry, offAcc l)

/-- The fields a `SWITCH` reads (43_clock_switch.md R170 (b)). -/
def State.switchReads (s : State) : List (Nat × Nat) :=
  let t := s.dstEntry
  [(s.srcEntry, offFreq), (t, offFreq), (t, offClkSrc), (t, offFlags), (t, offMargin)] ++
    (if s.cond3 then
      (allLanes.map fun l => (t, offTrn l)) ++ [(t, offSampleCount)] ++ trimValReads t ++ s.accReads
    else []) ++
    (if s.cond13 then
      [(t, offSampleCount)] ++ (allLanes.map fun l => (t, offCur l)) ++ s.accReads
    else [])

/-- The fields a `PCOMP` reads (44_periodic_control.md R219 (b)). -/
def State.pcompReads (s : State) : List (Nat × Nat) :=
  let t := s.dstEntry
  [(t, offFreq), (t, offMargin), (t, offWeight)] ++ ((activeLanes s.cfg).map fun l => (t, offAcc l)) ++
    (allLanes.map fun l => (t, offCur l)) ++ (allLanes.map fun l => (t, offTrn l)) ++ trimValReads t

/-- The fixed fields the running command reads. -/
def State.readSet (s : State) : List (Nat × Nat) :=
  match s.pass.cmd with
  | .nop => []
  | .estDvfsPartial => estReads .dvfsPartial s.cfg s.srcEntry s.dstEntry
  | .estDvfsFinal => estReads .dvfsFinal s.cfg s.srcEntry s.dstEntry
  | .estTrainPartial => estReads .trainPartial s.cfg s.srcEntry s.dstEntry
  | .estTrainFinal => estReads .trainFinal s.cfg s.srcEntry s.dstEntry
  | .estPeriodic => estReads .periodic s.cfg s.srcEntry s.dstEntry
  | .trim id => trimReads id.toNat s.dstEntry
  | .rampdn _ => [(s.srcEntry, offFreq)]
  | .rampup _ => [(s.dstEntry, offFreq)]
  | .switch _ => s.switchReads
  | .pcomp => s.pcompReads

/-- The entry indices the running command uses (60_exceptions.md R226 (1)). -/
def State.usedEntries (s : State) : List Nat :=
  match s.pass.cmd with
  | .nop => []
  | .trim _ => [s.dstEntry]
  | .pcomp => [s.dstEntry]
  | .estDvfsPartial => [s.srcEntry, s.dstEntry]
  | .estDvfsFinal => [s.srcEntry, s.dstEntry]
  | .estTrainPartial => [s.srcEntry, s.dstEntry]
  | .estTrainFinal => [s.srcEntry, s.dstEntry]
  | .estPeriodic => [s.srcEntry, s.dstEntry]
  | .rampdn _ => [s.srcEntry, s.dstEntry]
  | .rampup _ => [s.srcEntry, s.dstEntry]
  | .switch _ => [s.srcEntry, s.dstEntry]

/-- The checks before any port operation, `CONFIG` and then `UNINIT` (60_exceptions.md R226): the cause raised, or
`none`. -/
def State.checkCause (s : State) : Cause :=
  if 900 < s.entryCount.toNat || s.usedEntries.any (fun i => decide (s.entryCount.toNat ≤ i)) then .config
  else if s.readSet.all (fun r => s.marked r.1 r.2) then .none
  else .uninit

end Sys2Proof.Machine
end

