-- ==== Sys2Proof/Machine/Estimator.lean ====
section
/-! DEFINITION. The clock-tree delay estimator (spec 40_estimator.md R109 to R131): the arithmetic of one lane, a run
over the active lanes that can be left waiting for a sample, and its commit. -/

namespace Sys2Proof.Machine

open Sys2Proof

/-- The class of a mode (R110). -/
def modeIsPartial : EstMode → Bool
  | .dvfsPartial => true
  | .trainPartial => true
  | .dvfsFinal => false
  | .trainFinal => false
  | .periodic => false

/-- The final modes (R110). -/
def modeIsFinal : EstMode → Bool
  | .dvfsFinal => true
  | .trainFinal => true
  | .dvfsPartial => false
  | .trainPartial => false
  | .periodic => false

/-- The accumulator of a partial pass (R119). -/
def partialAcc (acc smp : Int) : Except Cause Int := do
  let p ← chk32 (100 * smp)
  chk32 (acc + p)

/-- The accumulator of a final pass (R120). -/
def finalAcc (acc : Int) (sampleCount : Nat) : Except Cause Int := tdiv acc sampleCount

/-- The accumulator of a periodic pass (R121). -/
def periodicAcc (acc smp : Int) (weight : Nat) : Except Cause Int := do
  let p ← chk32 (100 * smp)
  let q ← chk32 (weight * acc)
  let n ← chk32 (p + q)
  let d ← chk32 (weight + 1)
  tdiv n d

/-- The normalized estimate against the current delay (R122 to R124): the delay that replaces it, if it is replaced,
and the absolute difference. -/
def judge (final : Bool) (acc cur : Int) (f margin : Nat) : Except Cause (Option Int × Int) := do
  let est := Int.tdiv acc 100
  let diff ← chk32 (cur - est)
  let adiff ← chkAbs diff
  let sc ← scaled adiff f
  .ok (if final || decide ((margin : Int) < sc) then some est else none, adiff)

/-- One lane, its sample taken (R118 to R125): what is committed for it, and its absolute difference. -/
def estLane (s : State) (w : EstWork) (l : Nat) (n : Word) : Except Cause (LaneResult × Int) := do
  let fs ← s.field w.src offFreq
  let ft ← s.field w.dst offFreq
  let smp := sampleFn s.params fs ft n
  let acc ← s.fieldS w.dst (offAcc l)
  if modeIsPartial w.mode then do
    let a ← partialAcc acc smp
    .ok (⟨l, a, none⟩, 0)
  else do
    let cur ← s.fieldS w.dst (offCur l)
    let margin ← s.fieldU w.dst offMargin
    if modeIsFinal w.mode then do
      let sc ← s.fieldU w.dst offSampleCount
      let a ← finalAcc acc sc
      let (c, d) ← judge true a cur (fmhz ft) margin
      .ok (⟨l, a, c⟩, d)
    else do
      let wt ← s.fieldU w.dst offWeight
      let a ← periodicAcc acc smp wt
      let (c, d) ← judge false a cur (fmhz ft) margin
      .ok (⟨l, a, c⟩, d)

/-- The words a run commits for the lanes done: `ACC`, and `CUR` where it is replaced (R116, R129). A lane whose `CUR`
is not replaced keeps it (log entry 12). -/
def commitWords : List LaneResult → List (Nat × Word)
  | [] => []
  | r :: rs =>
    (offAcc r.lane, BitVec.ofInt 32 r.acc) ::
      ((match r.cur with
        | some c => [(offCur r.lane, BitVec.ofInt 32 c)]
        | none => []) ++ commitWords rs)

/-- The delay lane `l` has after the run (R131). -/
def newCur (s : State) (dst : Nat) (rs : List LaneResult) (l : Nat) : Word :=
  match rs.find? (fun r => r.lane == l) with
  | some ⟨_, _, some c⟩ => BitVec.ofInt 32 c
  | _ => s.fieldD dst (offCur l)

/-- Training-final copies all eight current delays into `TRN` (R131). -/
def trainWords (s : State) (w : EstWork) : List (Nat × Word) :=
  match w.mode with
  | .trainFinal => allLanes.map fun l => (offTrn l, newCur s w.dst w.done l)
  | .dvfsPartial => []
  | .dvfsFinal => []
  | .trainPartial => []
  | .periodic => []

/-- The commit, one atomic update, and the run's return value `maxdelta` (R126, R129). -/
def estCommit (w : EstWork) (s : State) : State :=
  let s' := s.setFields w.dst (commitWords w.done ++ trainWords s w)
  { s' with pass := { s'.pass with value := BitVec.ofInt 32 w.maxDelta } }

/-- The result of an engine operation: done, left waiting, the command ended in success, or a cause raised. -/
inductive TaskResult where
  | done (s : State)
  | hold (t : Task) (s : State)
  | ended (s : State)
  | abort (c : Cause) (s : State)
  deriving DecidableEq, Repr

/-- A run over the lanes still to do (R128): each active lane is sampled and then computed; a cause ends the run after
the lane's sample (R130, R133). `more` runs of the same mode follow. -/
def estLoop (more : Nat) : List Nat → EstWork → State → TaskResult
  | [], w, s => .done (estCommit w s)
  | l :: ls, w, s =>
    match s.sample l with
    | none => .hold (.est { w with todo := l :: ls } more) s
    | some (n, s1) =>
      match estLane s1 w l n with
      | .error c => .abort c s1
      | .ok (r, d) => estLoop more ls { w with todo := ls, done := w.done ++ [r], maxDelta := max w.maxDelta d } s1

/-- A fresh run of a mode on the latched entries (R109). -/
def freshEst (s : State) (m : EstMode) : EstWork where
  mode := m
  src := s.srcEntry
  dst := s.dstEntry
  todo := activeLanes s.cfg
  done := []
  maxDelta := 0

/-- A run and the ones that follow it; each commits at its own end (43_clock_switch.md R176, R188). -/
def runEst : Nat → EstWork → State → TaskResult
  | 0, w, s => estLoop 0 w.todo w s
  | k + 1, w, s =>
    match estLoop (k + 1) w.todo w s with
    | .done s' => runEst k (freshEst s' w.mode) s'
    | .hold t s' => .hold t s'
    | .ended s' => .ended s'
    | .abort c s' => .abort c s'

end Sys2Proof.Machine
end

