-- ==== Sys2Proof/Machine/RampUnit.lean ====
section
/-! DEFINITION. The power-ramp sequencer (spec 42_power_ramp.md R154 to R165): period, tier, the entries queued and the
wait. -/

namespace Sys2Proof.Machine

open Sys2Proof

/-- The period tier (R156). -/
def rampTier (p : Params) (period : Nat) : Tier :=
  if period < p.rampTHigh then .high else if period < p.rampTMid then .mid else .low

/-- What a ramp queues and returns (R155 to R157). The period is of the destination entry or of the source entry. -/
def State.rampOutput (s : State) (dir : Dir) (flip ofDst : Bool) : Except Cause (List QEntry × Word) := do
  let f ← s.field (if ofDst then s.dstEntry else s.srcEntry) offFreq
  let p ← periodPs f
  .ok (rampFn s.params dir (rampTier s.params p) flip (entryImage s.params s.mem s.srcEntry)
    (entryImage s.params s.mem s.dstEntry) p)

/-- The tasks of a ramp: each entry enqueued in order, then its wait (R157, R158, R163). -/
def State.rampTasks (s : State) (dir : Dir) (flip ofDst inPass : Bool) : Except Cause (List Task) := do
  let (q, w) ← s.rampOutput dir flip ofDst
  .ok (q.map (fun e => .enqueue e.addr e.value e.delay) ++ [.rampWait inPass w])

end Sys2Proof.Machine
end

