-- ==== Sys2Proof/Machine/TrimUnit.lean ====
section
/-! DEFINITION. The trim compensator (spec 41_trim.md R138 to R150): a pure function of an entry's fields. -/

namespace Sys2Proof.Machine

open Sys2Proof

/-- The tap of a lane (R142). -/
def tapOf (cur trn : Int) (f : Nat) : Except Cause Int := do
  let d ← chk32 (cur - trn)
  let delta ← chk32 (shl7 d)
  let n ← chk32 (delta * f)
  tdiv n 1000000

/-- The tap of lane `i` of a rank group, from the entry (R141, R142). -/
def State.laneTap (s : State) (dst r i : Nat) : Except Cause Int := do
  let ft ← s.field dst offFreq
  let cur ← s.fieldS dst (offCur (groupLane r i))
  let trn ← s.fieldS dst (offTrn (groupLane r i))
  tapOf cur trn (fmhz ft)

/-- What a tap adds to its two stored values (R143). -/
def adjustment (tap : Int) (margin : Nat) : Except Cause Int := do
  let a ← chkAbs tap
  .ok (if (margin : Int) < a then tap else 0)

/-- A stored value, adjusted (R144). -/
def adjusted (stored tap : Int) (margin : Nat) : Except Cause Int := do
  let adj ← adjustment tap margin
  chk32 (stored + adj)

/-- The coarse or the fine component of an adjusted value (R145, R146). -/
def component (byteShift : Bool) (t : Int) : Except Cause Int := if byteShift then tdiv t 64 else trem t 64

/-- One field of the packed value: the component modulo `2^width` at its place (R147). -/
def packField (f : TrimField) (out : Int) : Word := BitVec.ofNat 32 ((out % (2 ^ f.width : Nat)).toNat * 2 ^ f.lsb)

/-- The packed value, from the components by stored value number (R147). -/
def packFields (outs : List Int) : List TrimField → Word
  | [] => 0
  | f :: fs => packField f (outs.getD f.k 0) ||| packFields outs fs

/-- Adjusted stored values 0 to 7 of a rank group (R144). All eight are computed and checked for every identity
(R152 (g)). -/
def State.adjustedValues (s : State) (dst r : Nat) : Except Cause (List Int) := do
  let taps ← [0, 1, 2, 3].mapM (s.laneTap dst r)
  let margin ← s.fieldU dst offMargin
  allLanes.mapM fun k => do
    let stored ← s.fieldS dst (offTrimVal r k)
    adjusted stored (taps.getD (k / 2) 0) margin

/-- The value of `TRIM` for an identity (R150). The components outside `K(id)` are computed and not packed. -/
def State.trimValue (s : State) (dst id : Nat) : Except Cause Word := do
  let ts ← s.adjustedValues dst (trimRank id)
  let outs ← ts.mapM (component (trimIsByteShift id))
  .ok (packFields outs (s.params.trimLayout.getD id []))

end Sys2Proof.Machine
end

