-- ==== Sys2Proof/Machine/Steps.lean ====
section
/-! DEFINITION. What a command is made of: the 25 steps of a SWITCH with their conditions and bodies (spec
43_clock_switch.md R172 to R200), the phases of a PCOMP (44_periodic_control.md R212), the bodies of the other commands,
and how a part of a body becomes engine operations. -/

namespace Sys2Proof.Machine

open Sys2Proof

/-! ## The step table of a SWITCH (43_clock_switch.md R172) -/

/-- The condition of step `k`; a step without one is always performed. -/
def State.stepCond (s : State) (k : Nat) : Bool :=
  let mask := s.pass.mask
  match k with
  | 3 => s.cond3
  | 8 => caTrain mask && decide (cfgRanks s.cfg = 2)
  | 9 => cfgLp4 s.cfg
  | 12 => s.compw
  | 13 => s.cond13
  | 17 => cfgZqa s.cfg && !caTrain mask
  | 18 => tristate mask && cfgLp4 s.cfg
  | 23 => tristate mask
  | 24 => cond24 s.params (s.ctx (.step 24))
  | _ => true

/-- The clearing of the accumulators, where `DVFS_ACC_CLEAR` asks for it (43_clock_switch.md R176 (b), R188). -/
def accClearParts (p : Params) : List Part := if p.dvfsAccClear then [.one .clearAcc] else []

/-- `TimingUpdate()`: the trigger write and one acknowledge per channel present (20_memory.md R70). -/
def State.tupdTasks (s : State) : List Task :=
  let u := s.params.tupd
  [.write .emc u.regAddr u.regValue, .spin .emc u.ackAddr u.ackMask u.ackExpect] ++
    (if cfgDual s.cfg then [.spin .emc1 u.ackAddr u.ackMask u.ackExpect] else [])

/-- The body of step `k`, in order (43_clock_switch.md R174 to R200). -/
def State.stepBody (s : State) (k : Nat) : List Part :=
  let mask := s.pass.mask
  let p := s.params
  match k with
  | 3 => [.ops (.step 3)] ++ accClearParts p ++
      [.one .curFromTrn, .estRepeat .dvfsPartial, .est .dvfsFinal, .one .compareDrift]
  | 9 => [.ops (.step 9), .precharge]
  | 10 => [.one .stageFsp, .ops (.step 10)]
  | 13 => [.ops (.step 13)] ++ accClearParts p ++ [.estRepeat .trainPartial, .est .trainFinal]
  | 14 => (if tristate mask then [] else [.ops .mc14]) ++ [.ops .lat14]
  | 15 => [.ops (.step 15), .ramp .down false false true,
      .one (.enqueue p.ccTrig.addr p.ccTrig.value p.ccTrig.delay)]
  | 16 => [.ramp .up false true true, .ops (.step 16)]
  | 18 => [.one (.enqueue p.trainCmdAddr (trainCmd p mask).1 (trainCmd p mask).2),
      .ramp .down p.flip18 true true, .ramp .up p.flip18 true true, .ops (.step 18)]
  | 22 => [.one .clkSrc, .one (.ccWait .start), .one .commitFsp, .ops (.step 22)]
  | 23 => [.captureAll]
  | 24 => [.ops (.step 24)] ++ s.tupdTasks.map .one
  | 25 => [.ops (.step 25), if tristate mask then .ops .tri25 else .ops .dll25]
  | _ => [.ops (.step k)]

/-- The steps 1 to 25, each once, in this order (43_clock_switch.md R171). -/
def switchStages : List Stage := (List.range 25).map fun i => .step (i + 1)

/-! ## The phases of a PCOMP (44_periodic_control.md R212) -/

/-- The body of the phase whose `STEP` value is `k`. -/
def phaseBody (k : Nat) : List Part :=
  match k with
  | 0x101 => [.ops .p1]
  | 0x102 => [.ops .p2]
  | 0x103 => [.ops .p3]
  | 0x104 => [.settle]
  | 0x105 => [.est .periodic]
  | 0x106 => [.trimAll]
  | 0x107 => [.ops .p7]
  | _ => []

/-- The phases P1 to P7, each once, in this order. -/
def pcompStages : List Stage := (List.range 7).map fun i => .phase (0x101 + i)

/-! ## The commands without steps -/

/-- The body of a command that leaves `STEP` at 0 (10_state.md R31). -/
def commandBody : Instr → List Part
  | .nop => []
  | .estDvfsPartial => [.est .dvfsPartial]
  | .estDvfsFinal => [.est .dvfsFinal]
  | .estTrainPartial => [.est .trainPartial]
  | .estTrainFinal => [.est .trainFinal]
  | .estPeriodic => [.est .periodic]
  | .trim id => [.one (.trim id.toNat)]
  | .rampdn flip => [.ramp .down flip false false]
  | .rampup flip => [.ramp .up flip true false]
  | .switch _ => []
  | .pcomp => []

/-! ## Stages and parts -/

/-- Entering a stage: a step or phase writes `STEP` before its condition is tested (43_clock_switch.md R171). -/
def State.enter (s : State) : Stage → State
  | .step k => { s with stepNo := BitVec.ofNat 32 k }
  | .phase k => { s with stepNo := BitVec.ofNat 32 k }
  | .interlock => s
  | .checks => s
  | .body => s
  | .finish _ => s

/-- The parts of a stage entered. -/
def State.stageParts (s : State) : Stage → List Part
  | .interlock => [.one .awaitDrain]
  | .checks => [.one .check]
  | .body => commandBody s.pass.cmd
  | .step k => if s.stepCond k then s.stepBody k else []
  | .phase k => phaseBody k
  | .finish r => [.one (.finish r)]

/-- The engine operations of a micro-operation (20_memory.md R71 to R78). -/
def State.microTasks (s : State) : MicroOp → List Task
  | .rd sp a => [.read sp a]
  | .wr sp a v => [.write sp a v]
  | .enq a v d => [.enqueue a v d]
  | .poll sp a mask expect budget => [.poll sp a mask expect budget .none]
  | .spin sp a mask expect => [.spin sp a mask expect]
  | .delay n => [.delay (.start n)]
  | .save slot sp a => [.save slot sp a]
  | .restore slot sp a => [.restore slot sp a]
  | .tupd => s.tupdTasks

/-- The engine operation of a micro-operation of step 11's list when `COMPW = 1`: a write to a trim register carries
the trim compensator's value (43_clock_switch.md R186). -/
def State.substTasks (s : State) : MicroOp → List Task
  | .wr .emc a v =>
    match trimIdOf s.params a with
    | some id => [.trimWrite id]
    | none => [.write .emc a v]
  | op => s.microTasks op

/-- The operations of the list of a label, in list order (20_memory.md R71, 43_clock_switch.md R186). -/
def State.opsTasks (s : State) (l : Label) : List Task :=
  let ops := stepOps s.params (s.ctx l)
  if s.compw && l == .step 11 then ops.flatMap s.substTasks else ops.flatMap s.microTasks

/-- The writes of step 9: an item is written only if its clamped and packed value differs from the source's
(43_clock_switch.md R182). -/
def prechargeTasks : List PreItem → List Task
  | [] => []
  | i :: is =>
    let v := i.pack.getD (clamp6 i.x) 0
    (if v = i.vSrc then [] else [.write i.sp i.addr v]) ++ prechargeTasks is

/-- The ten trim writes of phase P6, if the drift exceeds the margin (44_periodic_control.md R212, R217). -/
def State.trimAllTasks (s : State) : Except Cause (List Task) := do
  let f ← s.field s.dstEntry offFreq
  let margin ← s.fieldU s.dstEntry offMargin
  let sc ← scaled s.pass.value.toNat (fmhz f)
  .ok (if (margin : Int) < sc then (List.range 10).map .trimWrite else [])

/-- The engine operations of a part, or the cause its computation raises. -/
def State.expand (s : State) : Part → Except Cause (List Task)
  | .one t => .ok [t]
  | .ops l => .ok (s.opsTasks l)
  | .est m => .ok [.est (freshEst s m) 0]
  | .estRepeat m => do
    let n ← s.fieldU s.dstEntry offSampleCount
    .ok (match n with
      | 0 => []
      | k + 1 => [.est (freshEst s m) k])
  | .ramp dir flip ofDst inPass => s.rampTasks dir flip ofDst inPass
  | .precharge =>
    .ok (prechargeTasks (prechargeFn s.params (entryImage s.params s.mem s.srcEntry)
      (entryImage s.params s.mem s.dstEntry)))
  | .captureAll => .ok ((captureFn s.params (s.ctx (.step 23))).map .capture)
  | .trimAll => s.trimAllTasks
  | .settle => .ok [.delay (.start (settleUs s.params (entryImage s.params s.mem s.dstEntry)))]

end Sys2Proof.Machine
end

