-- ==== Sys2Proof/Machine/Engine.lean ====
section
/-! DEFINITION. The engine (spec 20_memory.md R88: one sequential agent): one operation, and running what is left of a
command until it ends, waits for the environment (60_exceptions.md R235), or its quantum is used up. -/

namespace Sys2Proof.Machine

open Sys2Proof

/-! ## The operations that wait -/

/-- The reads of a `Spin`, until one matches; the flag says whether one did (20_memory.md R65). -/
def spinLoop (sp : Space) (a mask expect : Word) : List Word → State → State × Bool
  | [], s => (s, false)
  | v :: vs, s =>
    let s' := { s with regIn := vs, trace := s.trace ++ [.read sp a v] }
    if v &&& mask = expect then (s', true) else spinLoop sp a mask expect vs s'

/-- The gap before the next read of a bounded poll (20_memory.md R64). -/
def pollGap (p : Params) : Delay := if p.pollGapUs = 0 then .none else .start p.pollGapUs

/-- A bounded poll with a number of reads left: on exhaustion `PTO` is set and the command goes on (20_memory.md R64,
R75). -/
def pollLoop (sp : Space) (a mask expect : Word) : Nat → Delay → State → TaskResult
  | 0, _, s => .done s.setPto
  | n + 1, due, s =>
    match runDelay due s with
    | (.none, s1) =>
      match s1.regRead sp a with
      | none => .hold (.poll sp a mask expect (n + 1) .none) s1
      | some (v, s2) =>
        if v &&& mask = expect then .done s2 else pollLoop sp a mask expect n (pollGap s2.params) s2
    | (due', s1) => .hold (.poll sp a mask expect (n + 1) due') s1

/-- The clock-change-complete wait from a read on (43_clock_switch.md R196): read the status; if it does not match,
read the timer; time out or read again. -/
def ccLoop (t0 : Word) : List Word → State → TaskResult
  | [], s => .hold (.ccWait (.read t0)) s
  | v :: vs, s =>
    let c := s.params.ccStatus
    let s1 := { s with regIn := vs, trace := s.trace ++ [.read c.sp c.addr v] }
    if v &&& c.mask = c.mask then .done s1
    else
      match s1.readTimer true with
      | none => .hold (.ccWait (.timer t0)) s1
      | some (t, s2) =>
        if s.params.ccTimeoutUs ≤ t - t0 then .abort .ccTimeout s2 else ccLoop t0 vs s2

/-- The clock-change-complete wait (43_clock_switch.md R196). -/
def runCcWait (ph : CcPhase) (s : State) : TaskResult :=
  match ph with
  | .start =>
    match s.readTimer false with
    | none => .hold (.ccWait .start) s
    | some (t0, s1) => ccLoop t0 s1.regIn s1
  | .read t0 => ccLoop t0 s.regIn s
  | .timer t0 =>
    match s.readTimer true with
    | none => .hold (.ccWait (.timer t0)) s
    | some (t, s1) => if s.params.ccTimeoutUs ≤ t - t0 then .abort .ccTimeout s1 else ccLoop t0 s1.regIn s1

/-! ## The operations of the pass -/

/-- `CUR[l] <- TRN[l]` for all 8 lanes, as one update (43_clock_switch.md R176 (c)). -/
def State.curFromTrn (s : State) : Except Cause State := do
  let ws ← allLanes.mapM fun l => do
    let t ← s.field s.dstEntry (offTrn l)
    .ok (offCur l, t)
  .ok (s.setFields s.dstEntry ws)

/-- `ACC[l] <- 0` for all 8 lanes (43_clock_switch.md R176 (b)). -/
def State.clearAcc (s : State) : State := s.setFields s.dstEntry (allLanes.map fun l => (offAcc l, 0))

/-- The end of step 3: the pass's maximum delta and the compensation flag (43_clock_switch.md R175, R176 (e)). -/
def State.compareDrift (s : State) : Except Cause State := do
  let f ← s.field s.dstEntry offFreq
  let margin ← s.fieldU s.dstEntry offMargin
  let sc ← scaled s.pass.value.toNat (fmhz f)
  .ok { s with compw := decide ((margin : Int) < sc), pass := { s.pass with maxDelta3 := s.pass.value } }

/-- The clock-source-select write, which starts the drain; a pending ramp wait is discarded (43_clock_switch.md R195,
20_memory.md R85, 42_power_ramp.md R163). -/
def State.clockSource (s : State) : Except Cause State := do
  let v ← s.field s.dstEntry offClkSrc
  let s' := s.regWrite .car s.params.clkSrcAddr v
  .ok { s' with drain := true, drainClk := 0, pass := { s'.pass with pendingWait := 0 } }

/-- One item of the training-result capture (43_clock_switch.md R198). -/
def State.captureItem (s : State) (i : CapItem) (v : Word) : State :=
  let v' := if i.corr then vrefCorr s.params v (entryImage s.params s.mem s.dstEntry) i else v
  s.setFields s.dstEntry [(i.off, v')]

/-- The wait a ramp returns: the pass's pending wait, or the return value of a standalone ramp (42_power_ramp.md R158,
R163). -/
def State.rampWait (s : State) (inPass : Bool) (w : Word) : State :=
  if inPass then { s with pass := { s.pass with pendingWait := s.pass.pendingWait + w.toNat } }
  else { s with pass := { s.pass with value := w } }

/-- A computation's state, or its cause raised in `s`. -/
def TaskResult.ofExcept (s : State) : Except Cause State → TaskResult
  | .ok s' => .done s'
  | .error c => .abort c s

/-- One engine operation. -/
def runTask (t : Task) (s : State) : TaskResult :=
  match t with
  | .awaitDrain => if s.drain then .hold .awaitDrain s else .done s
  | .check => if s.checkCause = .none then .done s else .abort s.checkCause s
  | .read sp a =>
    match s.regRead sp a with
    | none => .hold (.read sp a) s
    | some (_, s') => .done s'
  | .write sp a v => .done (s.regWrite sp a v)
  | .enqueue a v d => .ofExcept s (s.enqueue a v d)
  | .poll sp a mask expect left due => pollLoop sp a mask expect left due s
  | .spin sp a mask expect =>
    match spinLoop sp a mask expect s.regIn s with
    | (s', true) => .done s'
    | (s', false) => .hold (.spin sp a mask expect) s'
  | .delay due =>
    match runDelay due s with
    | (.none, s') => .done s'
    | (due', s') => .hold (.delay due') s'
  | .save slot sp a =>
    match s.regRead sp a with
    | none => .hold (.save slot sp a) s
    | some (v, s') => .done { s' with snap := s'.snap.set slot (some v) }
  | .restore slot sp a =>
    match s.snap.getD slot none with
    | some v => .done (s.regWrite sp a v)
    | none => .abort .uninit s
  | .est w more => runEst more w s
  | .trim id =>
    match s.trimValue s.dstEntry id with
    | .ok v => .done { s with pass := { s.pass with value := v } }
    | .error c => .abort c s
  | .trimWrite id =>
    match s.trimValue s.dstEntry id with
    | .ok v => .done (s.regWrite .emc (trimAddr s.params id) v)
    | .error c => .abort c s
  | .rampWait inPass w => .done (s.rampWait inPass w)
  | .clearAcc => .done s.clearAcc
  | .curFromTrn => .ofExcept s s.curFromTrn
  | .compareDrift => .ofExcept s s.compareDrift
  | .stageFsp => .done { s with fspWr := fspSwap s.params (s.ctx (.step 10)) }
  | .clkSrc => .ofExcept s s.clockSource
  | .ccWait ph => runCcWait ph s
  | .commitFsp => .done { s with fspOp := s.fspWr }
  | .capture i =>
    match s.regRead i.sp i.addr with
    | none => .hold (.capture i) s
    | some (v, s') => .done (s'.captureItem i v)
  | .finish r => .ended (s.succeed r)

/-! ## Running a command -/

/-- What running a part of a command comes to: it is all done, it stops with a remainder, the command has ended in
success, or a cause is raised. -/
inductive Run where
  | done (s : State)
  | paused (c : Cont) (s : State)
  | ended (s : State)
  | abort (c : Cause) (s : State)
  deriving DecidableEq, Repr

/-- What comes after a run that is done, and how a remainder grows by it. -/
def Run.andThen (r : Run) (rest : Cont → Cont) (k : State → Run) : Run :=
  match r with
  | .done s => k s
  | .paused c s => .paused (rest c) s
  | .ended s => .ended s
  | .abort c s => .abort c s

/-- The engine operations of a part, in order. -/
def runTasks : List Task → State → Run
  | [], s => .done s
  | t :: ts, s =>
    if s.quantum = some 0 then .paused ⟨t :: ts, [], []⟩ s
    else
      match runTask t s.tick with
      | .done s' => runTasks ts s'
      | .hold t' s' => .paused ⟨t' :: ts, [], []⟩ s'
      | .ended s' => .ended s'
      | .abort c s' => .abort c s'

/-- The parts of a stage, in order; each is turned into operations when it is reached. -/
def runParts : List Part → State → Run
  | [], s => .done s
  | p :: ps, s =>
    match s.expand p with
    | .error c => .abort c s
    | .ok ts => (runTasks ts s).andThen (fun c => { c with parts := ps }) (runParts ps)

/-- The stages of a command, in order; entering one is an operation. -/
def runStages : List Stage → State → Run
  | [], s => .done s
  | g :: gs, s =>
    if s.quantum = some 0 then .paused ⟨[], [], g :: gs⟩ s
    else
      (runParts ((s.tick.enter g).stageParts g) (s.tick.enter g)).andThen (fun c => { c with stages := gs })
        (runStages gs)

/-- What is left of a command: its operations, then the parts, then the stages. -/
def runCont (c : Cont) (s : State) : Run :=
  ((runTasks c.tasks s).andThen (fun c' => { c' with parts := c.parts }) (runParts c.parts)).andThen
    (fun c' => { c' with stages := c.stages }) (runStages c.stages)

/-- The state after running: an abort ends the command, a remainder is kept in `PASS`. -/
def Run.state : Run → State
  | .done s => s.suspend ⟨[], [], []⟩
  | .paused c s => s.suspend c
  | .ended s => s
  | .abort c s => s.abort c

/-- The engine goes on with the command in progress, if there is one. -/
def State.resume (s : State) : State := if s.busy then (runCont s.pass.cont s).state else s

/-- A command written to `CMD`: accepted and run when the engine is idle, ignored with `OVR` while one runs
(60_exceptions.md R223, R224, R227). -/
def launch (i : Instr) (stages : List Stage) (s : State) : State :=
  if s.busy then s.setOvr else (runStages stages (s.accept i)).state

/-- An illegal command word written to `CMD` (60_exceptions.md R224, R225). -/
def State.illegalCommand (s : State) : State := if s.busy then s.setOvr else s.illegalWord

end Sys2Proof.Machine
end

