-- ==== Sys2Proof/Machine/EstCommands.lean ====
section
/-! DEFINITION. The meanings of the five `est` commands (spec 40_estimator.md R109, R128): the checks of R111, the
estimator run, and its end (R132). -/

namespace Sys2Proof.Machine

open Sys2Proof

/-- The stages of a command that checks, runs its body and ends with its unit's return value. -/
def unitStages : List Stage := [.checks, .body, .finish .value]

/-- `est.dvfs_partial` (R128, mode 0). -/
def execEstDvfsPartial (s : State) : Host.Outcome State Fault Refusal := .next (launch .estDvfsPartial unitStages s)

/-- `est.dvfs_final` (R128, mode 1). -/
def execEstDvfsFinal (s : State) : Host.Outcome State Fault Refusal := .next (launch .estDvfsFinal unitStages s)

/-- `est.train_partial` (R128, mode 2). -/
def execEstTrainPartial (s : State) : Host.Outcome State Fault Refusal := .next (launch .estTrainPartial unitStages s)

/-- `est.train_final` (R128, mode 3). -/
def execEstTrainFinal (s : State) : Host.Outcome State Fault Refusal := .next (launch .estTrainFinal unitStages s)

/-- `est.periodic` (R128, mode 4). -/
def execEstPeriodic (s : State) : Host.Outcome State Fault Refusal := .next (launch .estPeriodic unitStages s)

end Sys2Proof.Machine
end

