-- ==== Sys2Proof/Machine/PeriodicCommands.lean ====
section
/-! DEFINITION. The meanings of `pcomp` and `nop` (spec 44_periodic_control.md R210 to R222). -/

namespace Sys2Proof.Machine

open Sys2Proof

/-- `pcomp` (R220): the checks of R219, the phases P1 to P7, and the end with the estimator's maximum delta (R213). -/
def execPcomp (s : State) : Host.Outcome State Fault Refusal :=
  .next (launch .pcomp ([.checks] ++ pcompStages ++ [.finish .value]) s)

/-- `nop` (R222): accepted like any command, it ends at once; `RESULT` stays. -/
def execNop (s : State) : Host.Outcome State Fault Refusal := .next (launch .nop [.finish .keep] s)

end Sys2Proof.Machine
end

