-- ==== Sys2Proof/Machine/RampCommands.lean ====
section
/-! DEFINITION. The meanings of `rampdn` and `rampup` (spec 42_power_ramp.md R154, R165): the drain interlock
(70_reset_and_hazards.md R264), the checks of R162, the entries queued, the wait into `RESULT`. -/

namespace Sys2Proof.Machine

open Sys2Proof

/-- `rampdn`, `rampdn flip` (R165, `dir = DOWN`, the source entry's period). -/
def execRampdn (flip : Bool) (s : State) : Host.Outcome State Fault Refusal :=
  .next (launch (.rampdn flip) (.interlock :: unitStages) s)

/-- `rampup`, `rampup flip` (R165, `dir = UP`, the destination entry's period). -/
def execRampup (flip : Bool) (s : State) : Host.Outcome State Fault Refusal :=
  .next (launch (.rampup flip) (.interlock :: unitStages) s)

end Sys2Proof.Machine
end

