-- ==== Sys2Proof/Machine/SwitchCommand.lean ====
section
/-! DEFINITION. The meaning of `switch <mask>` (spec 43_clock_switch.md R168 to R203). -/

namespace Sys2Proof.Machine

open Sys2Proof

/-- `switch <mask>` (R203): the drain interlock (70_reset_and_hazards.md R264), the checks of R170, the steps 1 to 25,
and the end with the maximum delta of step 3 (R201). -/
def execSwitch (mask : BitVec 8) (s : State) : Host.Outcome State Fault Refusal :=
  .next (launch (.switch mask) ([.interlock, .checks] ++ switchStages ++ [.finish .stepThree]) s)

end Sys2Proof.Machine
end

