-- ==== Sys2Proof/Machine/TrimCommand.lean ====
section
/-! DEFINITION. The meaning of `trim <id>` (spec 41_trim.md R138, R150, R151). -/

namespace Sys2Proof.Machine

open Sys2Proof

/-- `trim <id>` (R150): the checks of R149, the packed value into `RESULT`. An identity above 9 is no legal `ARG`: its
word is illegal (30_encoding.md R98, R100; log entry 16). -/
def execTrim (id : BitVec 8) (s : State) : Host.Outcome State Fault Refusal :=
  if id.toNat ≤ 9 then .next (launch (.trim id) unitStages s) else .next s.illegalCommand

end Sys2Proof.Machine
end

