-- ==== Sys2Proof/Machine/Dispatch.lean ====
section
/-! DEFINITION. The dispatch from a command to its meaning (spec 60_exceptions.md R223). -/

namespace Sys2Proof.Machine

open Sys2Proof

def exec (i : Instr) (s : State) : Host.Outcome State Fault Refusal :=
  match i with
  | .nop => Sys2Proof.Machine.execNop s
  | .estDvfsPartial => Sys2Proof.Machine.execEstDvfsPartial s
  | .estDvfsFinal => Sys2Proof.Machine.execEstDvfsFinal s
  | .estTrainPartial => Sys2Proof.Machine.execEstTrainPartial s
  | .estTrainFinal => Sys2Proof.Machine.execEstTrainFinal s
  | .estPeriodic => Sys2Proof.Machine.execEstPeriodic s
  | .trim id => Sys2Proof.Machine.execTrim id s
  | .rampdn flip => Sys2Proof.Machine.execRampdn flip s
  | .rampup flip => Sys2Proof.Machine.execRampup flip s
  | .switch mask => Sys2Proof.Machine.execSwitch mask s
  | .pcomp => Sys2Proof.Machine.execPcomp s

end Sys2Proof.Machine
end

