-- ==== Sys2Proof/Machine/Window.lean ====
section
/-! DEFINITION. The host window (spec 20_memory.md R48 to R60, 10_state.md R19 to R30): what an offset reaches, host
reads and host writes; the queue drain (R85 to R87); the reset input (70_reset_and_hazards.md R253 to R255); and how a
command word written to `CMD` reaches the decoder. -/

namespace Sys2Proof.Machine

open Sys2Proof

/-- The CSRs (10_state.md R19). -/
inductive Csr where
  | cmd
  | status
  | result
  | step
  | cfg
  | srcIdx
  | dstIdx
  | entryCount
  | fsp
  | id
  deriving DecidableEq, Repr

/-- What a 4-byte-aligned window offset reaches (20_memory.md R56, R58): a CSR, a word of an entry, or a reserved word,
which reads 0 and ignores writes. -/
inductive Loc where
  | csr (c : Csr)
  | entry (i off : Nat)
  | reserved
  deriving DecidableEq, Repr

/-- The CSR at an offset (10_state.md R19). -/
def csrAt (off : Nat) : Option Csr :=
  match off with
  | 0x000 => some .cmd
  | 0x004 => some .status
  | 0x008 => some .result
  | 0x00C => some .step
  | 0x010 => some .cfg
  | 0x014 => some .srcIdx
  | 0x018 => some .dstIdx
  | 0x01C => some .entryCount
  | 0x020 => some .fsp
  | 0x024 => some .id
  | _ => none

/-- Whether an entry offset is reserved: 0x018 to 0x01F and 0x0C0 to 0x0FF (20_memory.md R58). -/
def entryOffReserved (off : Nat) : Bool :=
  decide (0x018 ≤ off ∧ off < 0x020) || decide (0x0C0 ≤ off ∧ off < 0x100)

/-- What a window offset reaches (20_memory.md R56, R66): 900 entries, whatever `ENTRY_COUNT` is. -/
def locate (p : Params) (off : Nat) : Loc :=
  if off < 0x100000 then
    match csrAt off with
    | some c => .csr c
    | none => .reserved
  else
    let i := (off - 0x100000) / p.entryStride
    let o := (off - 0x100000) % p.entryStride
    if 900 ≤ i then .reserved else if entryOffReserved o then .reserved else .entry i o

/-- The hard-wired `ID` (10_state.md R29). -/
def idWord : Word := 0x44544501

/-- A CSR as it reads (10_state.md R19 to R29). A CSR read has no side effect (R30). -/
def State.readCsr (s : State) : Csr → Word
  | .cmd => 0
  | .status => statusWord s
  | .result => s.result
  | .step => s.stepNo
  | .cfg => s.cfg.setWidth 32
  | .srcIdx => s.srcIdx.setWidth 32
  | .dstIdx => s.dstIdx.setWidth 32
  | .entryCount => s.entryCount
  | .fsp => fspWord s
  | .id => idWord

/-- The entry table as a host read finds it: while a command runs, as it was before the command's commits (20_memory.md
R59, R90; log entry 13). -/
def State.hostTable (s : State) : List Host.Cell := if s.busy then s.pass.table else s.mem

/-- The byte a host read finds in the entry table: the listed one, or a free value (log entry 6). -/
def State.hostByte (s : State) (off : Nat) : Byte :=
  match memByte s.hostTable off with
  | some b => b
  | none => Config.unloadedByte s.session off

/-- A word of the entry table as a host read returns it (20_memory.md R59); the reserved bits of `FLAGS` read 0
(10_state.md R35). -/
def State.hostEntryWord (s : State) (i off : Nat) : Word :=
  let a := entryBase s.params i + off
  let w := wordOfBytes (s.hostByte a) (s.hostByte (a + 1)) (s.hostByte (a + 2)) (s.hostByte (a + 3))
  if off = offFlags then w &&& flagsMask else w

/-- The value of an honoured host read. -/
def State.hostRead (s : State) : Loc → Word
  | .csr c => s.readCsr c
  | .entry i off => s.hostEntryWord i off
  | .reserved => 0

/-- A host write to a CSR other than `CMD`, the engine being idle or not (10_state.md R21 to R29, 60_exceptions.md
R224). -/
def State.writeCsr (s : State) (c : Csr) (w : Word) : State :=
  match c with
  | .cmd => s
  | .status => s.writeStatus w
  | .result => s
  | .step => s
  | .fsp => s
  | .id => s
  | .cfg => if s.busy then s.setOvr else { s with cfg := w.setWidth 5 }
  | .srcIdx => if s.busy then s.setOvr else { s with srcIdx := w.setWidth 10 }
  | .dstIdx => if s.busy then s.setOvr else { s with dstIdx := w.setWidth 10 }
  | .entryCount => if s.busy then s.setOvr else { s with entryCount := w }

/-- A host write to a word of an entry (20_memory.md R59, 10_state.md R35, R36): it lists the word's bytes, which is
the field's written mark. -/
def State.writeEntry (s : State) (i off : Nat) (w : Word) : State :=
  if s.busy then s.setOvr
  else s.setFields i [(off, if off = offFlags then w &&& flagsMask else w)]

/-- A command word written to `CMD` (60_exceptions.md R223): decoded and run by `run`, or illegal (R225). -/
def commandWrite (run : Instr → State → Host.Outcome State Fault Refusal) (w : Word) (s : State) :
    Host.Outcome State Fault Refusal :=
  match decodeBytes (bytesOfWord w) with
  | .ok (i, _) => run i s
  | .error _ => .next s.illegalCommand

/-- The value of a host read goes to the host. -/
def State.reply (s : State) (v : Word) : State := { s with hostOut := s.hostOut ++ [v] }

/-- An honoured host write. -/
def hostWrite (run : Instr → State → Host.Outcome State Fault Refusal) (loc : Loc) (w : Word) (s : State) :
    Host.Outcome State Fault Refusal :=
  match loc with
  | .csr .cmd => commandWrite run w s
  | .csr c => .next (s.writeCsr c w)
  | .entry i off => .next (s.writeEntry i off w)
  | .reserved => .next s

/-- A host access (20_memory.md R48, R57, R60, R68): only an aligned word is honoured; a refused one sets `ACCERR`,
changes nothing else and reads 0. An address outside the window is the platform's (log entry 18). -/
def hostAccess (run : Instr → State → Host.Outcome State Fault Refusal) (a : HostAccess) (s : State) :
    Host.Outcome State Fault Refusal :=
  if a.addr < s.params.dteBase ∨ s.params.dteBase + 4294967296 ≤ a.addr then .fault .outsideWindow
  else
    let off := a.addr - s.params.dteBase
    if a.size = .word ∧ off % 4 = 0 then
      if a.write then hostWrite run (locate s.params off) a.data s
      else .next (s.reply (s.hostRead (locate s.params off)))
    else if a.write then .next s.setAccerr
    else .next (s.setAccerr.reply 0)

/-! ## The queue drain -/

/-- The drain acts once (20_memory.md R86, R87): it writes the head entry once its delay has passed, and stops when the
queue is empty. -/
def State.drainStep (s : State) : State :=
  if s.drain then
    match s.queue with
    | [] => { s with drain := false, drainClk := 0 }
    | e :: es =>
      if e.delay.toNat ≤ s.drainClk then
        { s with queue := es, drainClk := 0, trace := s.trace ++ [.drained e.addr e.value e.delay] }
      else s
  else s

/-- Emc clocks pass for the drain's head entry (20_memory.md R86). -/
def State.passClocks (s : State) (n : Nat) : State := if s.drain then { s with drainClk := s.drainClk + n } else s

/-! ## Reset -/

/-- The reset input (70_reset_and_hazards.md R253 to R255): the state of R254 with the parameters of the new session.
The environment is not touched: its answers, the timer and the history of the ports stay, and so does what happens
next. -/
def State.resetInput (s : State) (p : Params) : State :=
  { State.reset with
    params := p
    snap := emptySnap p
    session := s.session + 1
    timerUs := s.timerUs
    regIn := s.regIn
    sampleIn := s.sampleIn
    timerIn := s.timerIn
    inbox := s.inbox
    trace := s.trace
    hostOut := s.hostOut }

/-! ## The events -/

/-- What an event does (log entries 1 to 4); commands are run by `run`. -/
def handleEvent (run : Instr → State → Host.Outcome State Fault Refusal) (e : Event) (s : State) :
    Host.Outcome State Fault Refusal :=
  match e with
  | .host a => hostAccess run a s
  | .engine q => .next { s with quantum := q }.resume
  | .drain => .next s.drainStep
  | .emcClocks n => .next (s.passClocks n)
  | .regAnswer v => .next { s with regIn := s.regIn ++ [v] }
  | .sampleAnswer v => .next { s with sampleIn := s.sampleIn ++ [v] }
  | .timerAdvance v => .next { s with timerIn := s.timerIn ++ [v] }
  | .reset p => if paramsOk p then .next (s.resetInput p) else .refused .illFormedParams

/-- The state with its next event taken. -/
def State.popInbox (s : State) : State := { s with inbox := s.inbox.tail }

/-- One step, given how a command is run: the next event happens, or with none waiting the engine goes on
undisturbed. A session with ill-formed parameters has no meaning (20_memory.md R79, 60_exceptions.md R241). -/
def stepWith (run : Instr → State → Host.Outcome State Fault Refusal) (s : State) : Host.Outcome State Fault Refusal :=
  match s.inbox with
  | [] => if paramsOk s.params then .next { s with quantum := none }.resume else .refused .illFormedParams
  | e :: _ => if paramsOk s.params then handleEvent run e s.popInbox else .refused .illFormedParams

/-- The host access that issues a command word. -/
def cmdAccess (p : Params) (w : Word) : HostAccess := ⟨true, .word, p.dteBase, w⟩

/-- A host write of a command word to `CMD` as the next event. -/
def State.withCommand (s : State) (w : Word) : State :=
  { s with inbox := .host (cmdAccess s.params w) :: s.inbox }

end Sys2Proof.Machine
end

