-- ==== Sys2Proof/Machine/Step.lean ====
section
/-! DEFINITION. One step of the machine, and how an instruction is put where the next step runs it. -/

namespace Sys2Proof.Machine

open Sys2Proof

/-- One step: the next event of the inbox happens, commands run by `exec` (`stepWith`). -/
def step (s : State) : Host.Outcome State Fault Refusal := stepWith exec s

/-- The state in which the next step runs the instruction whose opcode-table bits are `w`: a host write of its word to
`CMD` is the next event (10_state.md R20; log entry 1). -/
def State.withFetchWord (s : State) (nbits w : Nat) : State := s.withCommand (tableWord nbits w)

end Sys2Proof.Machine
end

