-- ==== Sys2Proof/Safety.lean ====
section
/-! DEFINITION. The terms in which statements about the machine are made: when the engine is free, when a command's
checks succeed, an entry's values, the invariant of the state, and the ends of commands and runs (spec 60_exceptions.md
R226, R230, R250 to R252). -/

namespace Sys2Proof.Machine

open Sys2Proof

/-- No command runs, and no other agent acts between the engine's operations. -/
def Idle (s : State) : Prop := s.busy = false ∧ s.quantum = none

/-- The command, once accepted, passes its checks (60_exceptions.md R226). -/
def Passes (i : Instr) (s : State) : Prop := (s.accept i).checkCause = .none

/-- An estimator command. -/
def IsEst (i : Instr) : Prop :=
  i = .estDvfsPartial ∨ i = .estDvfsFinal ∨ i = .estTrainPartial ∨ i = .estTrainFinal ∨ i = .estPeriodic

/-- A command that can put entries into the queue (70_reset_and_hazards.md R264). -/
def CanEnqueue (i : Instr) : Prop := (∃ f, i = .rampdn f) ∨ (∃ f, i = .rampup f) ∨ ∃ m, i = .switch m

/-- The source entry's index, from `SRC_IDX`. -/
def srcOf (s : State) : Nat := s.srcIdx.toNat

/-- The destination entry's index, from `DST_IDX`. -/
def dstOf (s : State) : Nat := s.dstIdx.toNat

/-- Offset `b` is one of the four bytes of the word at offset `a`. -/
abbrev InWord (a b : Nat) : Prop := a ≤ b ∧ b < a + 4

/-- The window offset of a word of an entry. -/
def wordAt (s : State) (i off : Nat) : Nat := entryBase s.params i + off

/-- A `FREQ_KHZ`. -/
def freqAt (s : State) (i : Nat) : Word := s.fieldD i offFreq
/-- `MARGIN`. -/
def marginAt (s : State) (i : Nat) : Nat := (s.fieldD i offMargin).toNat
/-- `SAMPLE_COUNT`. -/
def countAt (s : State) (i : Nat) : Nat := (s.fieldD i offSampleCount).toNat
/-- `WEIGHT`. -/
def weightAt (s : State) (i : Nat) : Nat := (s.fieldD i offWeight).toNat
/-- `CUR[l]`. -/
def curAt (s : State) (i l : Nat) : Int := (s.fieldD i (offCur l)).toInt
/-- `TRN[l]`. -/
def trnAt (s : State) (i l : Nat) : Int := (s.fieldD i (offTrn l)).toInt
/-- `ACC[l]`. -/
def accAt (s : State) (i l : Nat) : Int := (s.fieldD i (offAcc l)).toInt
/-- `TRIMVAL[r][k]`. -/
def trimValAt (s : State) (i r k : Nat) : Int := (s.fieldD i (offTrimVal r k)).toInt

/-- The state a command that ends in success leaves, but for the effects of its own: its flags, `STEP`, `RESULT`, and
the snapshots and `PASS` of no command. -/
def endedOk (s : State) (step result : Word) : State :=
  { s with
    busy := false
    done := true
    code := 0
    cause := .none
    stepNo := step
    result := result
    snap := emptySnap s.params
    pass := Pass.idle }

/-- The state a command that an abort ends leaves, but for the effects of its own (60_exceptions.md R232). -/
def endedAbort (s : State) (step : Word) (c : Cause) : State :=
  { s with
    busy := false
    done := true
    code := 4
    cause := c
    fault := s.fault || causeIsFault c
    stepNo := step
    snap := emptySnap s.params
    pass := Pass.idle }

/-- The lanes of a run with the counts they are answered. -/
def lanesWith (s : State) (ns : List Word) : List (Nat × Word) := (activeLanes s.cfg).zip ns

/-- The record of the lane-sample exchanges of a run. -/
def sampleTrace (ps : List (Nat × Word)) : List PortEvent := ps.map fun p => .sample p.1 p.2

/-- The largest of some differences, at least 0. -/
def largest (ds : List Int) : Int := ds.foldl max 0

/-- In memory `m` each word of the list has the value given. -/
def Holds (m : List Host.Cell) (ws : List (Nat × Word)) : Prop := ∀ p ∈ ws, memWord m p.1 = some p.2

/-- The frame of a store: every byte outside the words of the list reads in `m'` as in `m`. -/
def SameOutside (m m' : List Host.Cell) (ws : List (Nat × Word)) : Prop :=
  ∀ b, (∀ p ∈ ws, ¬ InWord p.1 b) → memByte m' b = memByte m b

/-! ## The estimator's numbers (40_estimator.md §3), from the state before the command -/

/-- The raw delay sample of a count (R118). -/
def rawSample (s : State) (src dst : Nat) (n : Word) : Int := sampleFn s.params (freqAt s src) (freqAt s dst) n

/-- The accumulator after a partial pass (R119). -/
def summed (s : State) (src dst : Nat) (p : Nat × Word) : Int := accAt s dst p.1 + 100 * rawSample s src dst p.2

/-- The accumulator after a final pass (R120). -/
def averaged (s : State) (dst l : Nat) : Int := Int.tdiv (accAt s dst l) (countAt s dst)

/-- The accumulator after a periodic pass (R121). -/
def blended (s : State) (src dst : Nat) (p : Nat × Word) : Int :=
  Int.tdiv (100 * rawSample s src dst p.2 + weightAt s dst * accAt s dst p.1) (weightAt s dst + 1)

/-- The absolute difference of `CUR` and the estimate an accumulator gives (R122, R123). -/
def driftOf (s : State) (dst l : Nat) (acc : Int) : Int := ((curAt s dst l - Int.tdiv acc 100).natAbs : Int)

/-- A difference scaled to the frequency of an entry (00_scope.md R13). -/
def scaledTo (s : State) (dst : Nat) (d : Int) : Int :=
  Int.tdiv (128 * d * ((freqAt s dst).toNat / 1000 : Nat)) 1000000

/-- The intermediates of R13 are in range for a difference. -/
def ScalesInRange (s : State) (dst : Nat) (d : Int) : Prop :=
  InS32 (128 * d) ∧ InS32 (128 * d * ((freqAt s dst).toNat / 1000 : Nat))

/-- The intermediates of R123 and R124 are in range for a lane and its new accumulator. -/
def JudgesInRange (s : State) (dst l : Nat) (acc : Int) : Prop :=
  InS32 (curAt s dst l - Int.tdiv acc 100) ∧ InS32 (driftOf s dst l acc) ∧ ScalesInRange s dst (driftOf s dst l acc)

/-- The intermediates of R121 are in range. -/
def BlendsInRange (s : State) (src dst : Nat) (p : Nat × Word) : Prop :=
  InS32 (100 * rawSample s src dst p.2) ∧ InS32 (weightAt s dst * accAt s dst p.1) ∧
    InS32 (100 * rawSample s src dst p.2 + weightAt s dst * accAt s dst p.1) ∧ InS32 (weightAt s dst + 1)

/-- What a partial pass stores (R116). -/
def partialStores (s : State) (src dst : Nat) (ps : List (Nat × Word)) : List (Nat × Word) :=
  ps.map fun p => (wordAt s dst (offAcc p.1), BitVec.ofInt 32 (summed s src dst p))

/-- What a final pass stores (R116, R124). -/
def finalStores (s : State) (dst : Nat) (ls : List Nat) : List (Nat × Word) :=
  (ls.map fun l => (wordAt s dst (offAcc l), BitVec.ofInt 32 (averaged s dst l))) ++
    ls.map fun l => (wordAt s dst (offCur l), BitVec.ofInt 32 (Int.tdiv (averaged s dst l) 100))

/-- What Training-final stores besides: all eight current delays into `TRN` (R131). -/
def trainedStores (s : State) (dst : Nat) (ls : List Nat) : List (Nat × Word) :=
  allLanes.map fun l =>
    (wordAt s dst (offTrn l),
      if l ∈ ls then BitVec.ofInt 32 (Int.tdiv (averaged s dst l) 100) else s.fieldD dst (offCur l))

/-- What a periodic pass stores (R116, R124). -/
def periodicStores (s : State) (src dst : Nat) (ps : List (Nat × Word)) : List (Nat × Word) :=
  (ps.map fun p => (wordAt s dst (offAcc p.1), BitVec.ofInt 32 (blended s src dst p))) ++
    (ps.filter fun p =>
        decide ((marginAt s dst : Int) < scaledTo s dst (driftOf s dst p.1 (blended s src dst p)))).map
      fun p => (wordAt s dst (offCur p.1), BitVec.ofInt 32 (Int.tdiv (blended s src dst p) 100))

/-- The maximum delta of a final pass (R125). -/
def finalDelta (s : State) (dst : Nat) (ls : List Nat) : Int :=
  largest (ls.map fun l => driftOf s dst l (averaged s dst l))

/-- The maximum delta of a periodic pass (R125). -/
def periodicDelta (s : State) (src dst : Nat) (ps : List (Nat × Word)) : Int :=
  largest (ps.map fun p => driftOf s dst p.1 (blended s src dst p))

/-- The current delay of a lane after a periodic pass (R124). -/
def delayAfter (s : State) (src dst : Nat) (ps : List (Nat × Word)) (l : Nat) : Int :=
  match ps.find? fun p => p.1 == l with
  | some p =>
    if (marginAt s dst : Int) < scaledTo s dst (driftOf s dst l (blended s src dst p)) then
      Int.tdiv (blended s src dst p) 100
    else curAt s dst l
  | none => curAt s dst l

/-! ## The trim compensator's numbers (41_trim.md §2, §3), for current delays `cur` -/

/-- The tap of lane `i` of rank group `r` (R142). -/
def tapAt (s : State) (dst r : Nat) (cur : Nat → Int) (i : Nat) : Int :=
  Int.tdiv (128 * (cur (groupLane r i) - trnAt s dst (groupLane r i)) * ((freqAt s dst).toNat / 1000 : Nat)) 1000000

/-- Adjusted stored value `k` (R143, R144). -/
def trimmedAt (s : State) (dst r : Nat) (cur : Nat → Int) (k : Nat) : Int :=
  trimValAt s dst r k +
    (if (marginAt s dst : Int) < ((tapAt s dst r cur (k / 2)).natAbs : Int) then tapAt s dst r cur (k / 2) else 0)

/-- The component of a value an identity packs (R145, R146). -/
def componentAt (id : Nat) (t : Int) : Int := if 8 ≤ id then Int.tdiv t 64 else t - 64 * Int.tdiv t 64

/-- The packed register value (R147). -/
def trimWord (s : State) (dst id : Nat) (cur : Nat → Int) : Word :=
  (s.params.trimLayout.getD id []).foldr
    (fun f w =>
      BitVec.ofNat 32 ((componentAt id (trimmedAt s dst (trimRank id) cur f.k) % (2 ^ f.width : Nat)).toNat * 2 ^ f.lsb)
        ||| w) 0

/-- Every intermediate of R142 to R144 is in range, for the four lanes and the eight stored values of a rank. -/
def TrimsInRange (s : State) (dst r : Nat) (cur : Nat → Int) : Prop :=
  (∀ i < 4, InS32 (cur (groupLane r i) - trnAt s dst (groupLane r i)) ∧
    InS32 (128 * (cur (groupLane r i) - trnAt s dst (groupLane r i))) ∧
    InS32 (128 * (cur (groupLane r i) - trnAt s dst (groupLane r i)) * ((freqAt s dst).toNat / 1000 : Nat)) ∧
    InS32 ((tapAt s dst r cur i).natAbs : Int)) ∧
  ∀ k < 8, InS32 (trimmedAt s dst r cur k)

/-! ## Ramps and passes -/

/-- What `RAMP_FN` gives for a ramp of the entries `SRC_IDX` and `DST_IDX` name, with the period of entry `e`
(42_power_ramp.md R155 to R157). -/
def rampOf (s : State) (dir : Dir) (flip : Bool) (e : Nat) : List QEntry × Word :=
  rampFn s.params dir (rampTier s.params (1000000000 / (freqAt s e).toNat)) flip
    (entryImage s.params s.mem (srcOf s)) (entryImage s.params s.mem (dstOf s)) (1000000000 / (freqAt s e).toNat)

/-- Every micro-operation of the session's lists is a register write. -/
def WritesOnly (p : Params) : Prop := ∀ r ∈ p.stepOps, ∀ o ∈ r.ops, ∃ sp a v, o = .wr sp a v

/-- The register writes of a list, in order. -/
def listWrites (p : Params) (c : Ctx) : List PortEvent :=
  (stepOps p c).filterMap fun o =>
    match o with
    | .wr sp a v => some (.write sp a v)
    | .rd _ _ => none
    | .enq _ _ _ => none
    | .poll _ _ _ _ _ => none
    | .spin _ _ _ _ => none
    | .delay _ => none
    | .save _ _ _ => none
    | .restore _ _ _ => none
    | .tupd => none

/-- A state as the lists of a pass see it from acceptance on, `COMPW` cleared (43_clock_switch.md R170). -/
def passStart (s : State) : State := { s with compw := false }

/-- The context of a list of a pass, with the memory and the `COMPW` of the state (43_clock_switch.md R173). -/
def passCtx (s : State) (mask : BitVec 8) (fspOp fspWr : Bool) (l : Label) : Ctx where
  label := l
  src := entryImage s.params s.mem (srcOf s)
  dst := entryImage s.params s.mem (dstOf s)
  mask := mask
  cfg := s.cfg
  fspOp := fspOp
  fspWr := fspWr
  compw := s.compw
  down := decide ((freqAt s (dstOf s)).toNat < (freqAt s (srcOf s)).toNat)
  images := if mask ≠ 0 then .shadow (shadowSelect s.params mask) else .main

/-- The bank a pass stages (43_clock_switch.md R184). -/
def stagedBank (s : State) (mask : BitVec 8) : Bool := fspSwap s.params (passCtx s mask s.fspOp s.fspWr (.step 10))

/-- The writes of the precharge items whose value differs from the source's (43_clock_switch.md R182, R183). -/
def prechargeWrites (items : List PreItem) : List PortEvent :=
  (items.filter fun i =>
      decide (i.pack.getD (if i.x < 0 then 0 else if 63 < i.x then 63 else i.x.toNat) 0 ≠ i.vSrc)).map
    fun i => .write i.sp i.addr (i.pack.getD (if i.x < 0 then 0 else if 63 < i.x then 63 else i.x.toNat) 0)

/-- What a pass of register writes puts on the ports in steps 1 to 21, in order (43_clock_switch.md R172). -/
def writesBefore (s : State) (mask : BitVec 8) : List PortEvent :=
  let old (l : Label) := listWrites s.params (passCtx s mask s.fspOp s.fspWr l)
  let new (l : Label) := listWrites s.params (passCtx s mask s.fspOp (stagedBank s mask) l)
  old (.step 1) ++ old (.step 2) ++ old (.step 4) ++ old (.step 5) ++ old (.step 6) ++ old (.step 7) ++
    (if mask &&& 0x03 ≠ 0 ∧ s.cfg.getLsbD 0 = true then old (.step 8) else []) ++
    (if s.cfg.getLsbD 2 = true then
      old (.step 9) ++ prechargeWrites (prechargeFn s.params (entryImage s.params s.mem (srcOf s))
        (entryImage s.params s.mem (dstOf s)))
    else []) ++
    new (.step 10) ++ new (.step 11) ++ (if mask = 0 then new .mc14 else []) ++ new .lat14 ++ new (.step 15) ++
    new (.step 16) ++ (if s.cfg.getLsbD 3 = true ∧ mask &&& 0x03 = 0 then new (.step 17) else []) ++
    (if mask ≠ 0 ∧ s.cfg.getLsbD 2 = true then new (.step 18) else []) ++ new (.step 19) ++ new (.step 20) ++
    new (.step 21)

/-- What it puts on the ports after the clock change (43_clock_switch.md R172, R197, R200). -/
def writesAfter (s : State) (mask : BitVec 8) : List PortEvent :=
  let new (l : Label) := listWrites s.params (passCtx s mask (stagedBank s mask) (stagedBank s mask) l)
  new (.step 22) ++ new (.step 25) ++ (if mask ≠ 0 then new .tri25 else new .dll25)

/-- Entries with a wait added to the delay of the first (42_power_ramp.md R163). -/
def delayFirst (w : Word) : List QEntry → List QEntry
  | [] => []
  | e :: es => ⟨e.addr, e.value, e.delay + w⟩ :: es

/-- The entries a pass of register writes queues: the ramp-down's, the clock-change trigger delayed by its wait, the
ramp-up's, and on a training pass of LPDDR4 the training command delayed by that wait and the entries of the second pair
of ramps, the wait of its ramp-down delaying the first of its ramp-up (42_power_ramp.md R163, 43_clock_switch.md R190,
R191, R193). -/
def passEntries (s : State) (mask : BitVec 8) : List QEntry :=
  let down := rampOf s .down false (srcOf s)
  let up := rampOf s .up false (dstOf s)
  let down18 := rampOf s .down s.params.flip18 (dstOf s)
  let up18 := rampOf s .up s.params.flip18 (dstOf s)
  down.1 ++ [⟨s.params.ccTrig.addr, s.params.ccTrig.value, s.params.ccTrig.delay + down.2⟩] ++ up.1 ++
    (if mask ≠ 0 ∧ s.cfg.getLsbD 2 = true then
      [⟨s.params.trainCmdAddr, (trainCmd s.params mask).1, (trainCmd s.params mask).2 + up.2⟩] ++ down18.1 ++
        delayFirst down18.2 up18.1
    else [])

/-- The queue and the delays have room for the entries of a pass, and no period is undefined. -/
structure PassRoom (s : State) (mask : BitVec 8) : Prop where
  freqs : freqAt s (srcOf s) ≠ 0 ∧ freqAt s (dstOf s) ≠ 0
  room : s.queue.length + (passEntries s mask).length ≤ s.params.qDepth
  trigDelay : s.params.ccTrig.delay.toNat + (rampOf s .down false (srcOf s)).2.toNat < 4294967296
  cmdDelay : mask ≠ 0 → s.cfg.getLsbD 2 = true →
    (trainCmd s.params mask).2.toNat + (rampOf s .up false (dstOf s)).2.toNat < 4294967296
  rampDelay : mask ≠ 0 → s.cfg.getLsbD 2 = true → ∀ e, (rampOf s .up s.params.flip18 (dstOf s)).1.head? = some e →
    e.delay.toNat + (rampOf s .down s.params.flip18 (dstOf s)).2.toNat < 4294967296

/-- A pass of register writes that can reach step 22: the engine is free and nothing drains, the checks succeed, the
lists only write, steps 3, 13 and 24 do not run and step 23 captures nothing, and the queue and the delays have room. -/
structure PlainPass (s : State) (mask : BitVec 8) : Prop where
  idle : Idle s
  drained : s.drain = false
  passes : Passes (.switch mask) s
  writes : WritesOnly s.params
  untrained : (s.fieldD (dstOf s) offFlags).getLsbD 1 = false ∨ (mask ≠ 0 ∧ mask &&& 0x30 = 0)
  noCapture : ∀ c, captureFn s.params c = []
  noUpdate : ∀ c, cond24 s.params c = false
  room : PassRoom s mask

/-! ## The estimates of steps 3 and 13 (43_clock_switch.md R176, R188) -/

/-- The count of a lane in a run. -/
def countOf (s : State) (ns : List Word) (l : Nat) : Word := ((lanesWith s ns).lookup l).getD 0

/-- The accumulator of a lane after some partial runs, begun at 0 or where it stood (`DVFS_ACC_CLEAR`). -/
def gathered (s : State) (runs : List (List Word)) (l : Nat) : Int :=
  (runs.map fun ns => 100 * rawSample s (srcOf s) (dstOf s) (countOf s ns l)).foldl (· + ·)
    (if s.params.dvfsAccClear = true then 0 else accAt s (dstOf s) l)

/-- The accumulator of a lane after the final run. -/
def settled (s : State) (runs : List (List Word)) (l : Nat) : Int :=
  Int.tdiv (gathered s runs l) (countAt s (dstOf s))

/-- The delay the final run gives a lane. -/
def estimated (s : State) (runs : List (List Word)) (l : Nat) : Int := Int.tdiv (settled s runs l) 100

/-- The largest difference the final run sees, of the active lanes, from the delays `cur` it starts with. -/
def estimateDelta (s : State) (runs : List (List Word)) (cur : Nat → Int) : Int :=
  largest ((activeLanes s.cfg).map fun l => ((cur l - estimated s runs l).natAbs : Int))

/-- The accumulators the runs leave. -/
def gatheredStores (s : State) (runs : List (List Word)) : List (Nat × Word) :=
  (allLanes.filter fun l => s.params.dvfsAccClear || laneActive s.cfg l).map fun l =>
    (wordAt s (dstOf s) (offAcc l), if laneActive s.cfg l = true then BitVec.ofInt 32 (settled s runs l) else 0)

/-- The memory step 3 leaves: the accumulators, and the current delays, estimated or reset to the trained ones. -/
def stepThreeMem (s : State) (runs : List (List Word)) : List Host.Cell :=
  memSetWords s.mem (gatheredStores s runs ++
    allLanes.map fun l =>
      (wordAt s (dstOf s) (offCur l),
        if laneActive s.cfg l = true then BitVec.ofInt 32 (estimated s runs l) else s.fieldD (dstOf s) (offTrn l)))

/-- The memory step 13 leaves: the accumulators, the current delays estimated, and all eight in the trained ones. -/
def stepThirteenMem (s : State) (runs : List (List Word)) : List Host.Cell :=
  memSetWords s.mem (gatheredStores s runs ++
    ((activeLanes s.cfg).map fun l => (wordAt s (dstOf s) (offCur l), BitVec.ofInt 32 (estimated s runs l))) ++
    allLanes.map fun l =>
      (wordAt s (dstOf s) (offTrn l),
        if laneActive s.cfg l = true then BitVec.ofInt 32 (estimated s runs l) else s.fieldD (dstOf s) (offCur l)))

/-- A pass with empty lists in which step 3 or step 13 estimates: `SAMPLE_COUNT` partial runs and a final one, each
answered with a count per active lane, no intermediate out of range; `cur` are the delays the final run starts with. -/
structure EstimatingPass (s : State) (mask : BitVec 8) (runs : List (List Word)) (last : List Word)
    (cur : Nat → Int) : Prop where
  idle : Idle s
  drained : s.drain = false
  canonical : memWf s.mem = true
  passes : Passes (.switch mask) s
  lists : s.params.stepOps = []
  ptEn : (s.fieldD (dstOf s) offFlags).getLsbD 1 = true
  runsCount : runs.length = countAt s (dstOf s) ∧ runs ≠ []
  counts : ∀ ns ∈ runs ++ [last], ns.length = (activeLanes s.cfg).length
  partials : ∀ l ∈ activeLanes s.cfg, ∀ k < runs.length,
    InS32 (100 * rawSample s (srcOf s) (dstOf s) (countOf s (runs.getD k []) l)) ∧
      InS32 (gathered s (runs.take (k + 1)) l)
  finals : ∀ l ∈ activeLanes s.cfg, InS32 (cur l - estimated s runs l) ∧
    InS32 ((cur l - estimated s runs l).natAbs : Int) ∧
    ScalesInRange s (dstOf s) ((cur l - estimated s runs l).natAbs : Int)
  noCapture : ∀ c, captureFn s.params c = []
  noUpdate : ∀ c, cond24 s.params c = false

/-- The context of a list of a periodic compensation, with memory `m` (44_periodic_control.md R214). -/
def periodicCtx (s : State) (m : List Host.Cell) (l : Label) : Ctx where
  label := l
  src := entryImage s.params m (dstOf s)
  dst := entryImage s.params m (dstOf s)
  mask := 0
  cfg := s.cfg
  fspOp := s.fspOp
  fspWr := s.fspWr
  compw := s.compw
  down := false
  images := .main

/-- What is left of a command refers to its own destination entry and its lanes, and captures into opaque areas. -/
def TaskFits (s : State) : Task → Prop
  | .est w _ => w.dst = s.dstEntry ∧ (∀ l ∈ w.todo, l < 8) ∧ ∀ r ∈ w.done, r.lane < 8
  | .capture i => captureOk s.params i = true
  | .awaitDrain => True
  | .check => True
  | .read _ _ => True
  | .write _ _ _ => True
  | .enqueue _ _ _ => True
  | .poll _ _ _ _ _ _ => True
  | .spin _ _ _ _ => True
  | .delay _ => True
  | .save _ _ _ => True
  | .restore _ _ _ => True
  | .trim _ => True
  | .trimWrite _ => True
  | .rampWait _ _ => True
  | .clearAcc => True
  | .curFromTrn => True
  | .compareDrift => True
  | .stageFsp => True
  | .clkSrc => True
  | .ccWait _ => True
  | .commitFsp => True
  | .finish _ => True

/-- A `STEP` value of 10_state.md R31: 0 to 25, or 0x101 to 0x107. -/
def StepLegal (w : Word) : Prop := w.toNat ≤ 25 ∨ (0x101 ≤ w.toNat ∧ w.toNat ≤ 0x107)

/-- A stage that writes a legal `STEP`. -/
def StageLegal : Stage → Prop
  | .step k => k ≤ 25
  | .phase k => 0x101 ≤ k ∧ k ≤ 0x107
  | .interlock => True
  | .checks => True
  | .body => True
  | .finish _ => True

/-- What is left of a command comes to its checks before anything that stores. -/
def BeforeChecks (c : Cont) : Prop :=
  c.parts = [] ∧
    (c.tasks = [.check] ∨
      ((c.tasks = [] ∨ c.tasks = [.awaitDrain]) ∧
        ∃ gs, c.stages = .checks :: gs ∨ c.stages = .interlock :: .checks :: gs))

/-- What is left of a command is its end. -/
def OnlyFinish (c : Cont) : Prop :=
  (∀ t ∈ c.tasks, ∃ r, t = .finish r) ∧ c.parts = [] ∧ ∀ g ∈ c.stages, ∃ r, g = .finish r

/-- The invariant of the state. -/
structure Inv (s : State) : Prop where
  /-- The session's parameters are well formed (60_exceptions.md R241). -/
  params : paramsOk s.params = true
  /-- The memory has its canonical form. -/
  memWf : memWf s.mem = true
  /-- Only the entry table, entries 0 to 899, is memory (20_memory.md R56, R66). -/
  memRange : ∀ c ∈ s.mem, 0x100000 ≤ c.1 ∧ c.1 < entryBase s.params 900
  /-- The entry table the host reads while a command runs has the canonical form too. -/
  tableWf : Machine.memWf s.pass.table = true
  /-- The destination entry is one of the 900 once the checks have succeeded (60_exceptions.md R226). -/
  dst : s.dstEntry < 900 ∨ (s.pass.cmd ≠ .nop ∧ BeforeChecks s.pass.cont) ∨ OnlyFinish s.pass.cont
  /-- `CODE` is 0 when `CAUSE` is 0 and 4 otherwise (60_exceptions.md R229). -/
  code : s.code = statusCode s.cause
  /-- A cause of class fault leaves `FAULT` set (60_exceptions.md R230). -/
  fault : causeIsFault s.cause = true → s.fault = true
  /-- While a command runs nothing is reported (60_exceptions.md R227). -/
  running : s.busy = true → s.done = false ∧ s.cause = .none
  /-- `PASS` is valid only while a command runs (10_state.md R43). -/
  idlePass : s.busy = false → s.pass = Pass.idle
  /-- `QUEUE` holds at most `QDEPTH` entries (10_state.md R42). -/
  queue : s.queue.length ≤ s.params.qDepth
  /-- There are `N_SNAP` snapshot slots (10_state.md R41). -/
  snap : s.snap.length = s.params.nSnap
  /-- `STEP` has a legal value (10_state.md R31). -/
  step : StepLegal s.stepNo
  /-- What is left of a command keeps it so. -/
  stages : ∀ g ∈ s.pass.cont.stages, StageLegal g
  /-- What is left of a command refers to its own destination entry (10_state.md R39). -/
  tasks : ∀ t ∈ s.pass.cont.tasks, TaskFits s t
  /-- The same of the parts not yet reached. -/
  parts : ∀ t, Part.one t ∈ s.pass.cont.parts → TaskFits s t
  /-- The drain counts clocks only while it runs (20_memory.md R86). -/
  clocks : s.drain = false → s.drainClk = 0

/-- A command has ended (60_exceptions.md R250). -/
def commandEnded (s : State) : Bool := !s.busy && s.done

/-- A host access that issues a command: a 32-bit write to `CMD` (10_state.md R20). -/
def issuesCommand (p : Params) (a : HostAccess) : Bool :=
  a.write && decide (a.size = .word) && decide (a.addr = p.dteBase)

/-- Whether the host issues another command; a reset on the way may move the window. -/
def commandToCome (p : Params) : List Event → Bool
  | [] => false
  | .host a :: es => issuesCommand p a || commandToCome p es
  | .reset p' :: es => commandToCome p' es
  | .engine _ :: es => commandToCome p es
  | .drain :: es => commandToCome p es
  | .emcClocks _ :: es => commandToCome p es
  | .regAnswer _ :: es => commandToCome p es
  | .sampleAnswer _ :: es => commandToCome p es
  | .timerAdvance _ :: es => commandToCome p es

/-- A host program's run has ended: the host has issued its last command, no command runs, nothing drains
(60_exceptions.md R251). Host accesses that issue none may be to come. -/
def runEnded (s : State) : Bool := !commandToCome s.params s.inbox && !s.busy && !s.drain

/-- A run is faulted: no claim may be drawn from its end state (60_exceptions.md R252). -/
def faulted (s : State) : Bool := s.fault

/-- The next event is the reset input. -/
def nextIsReset (s : State) : Bool :=
  match s.inbox with
  | .reset _ :: _ => true
  | _ => false

end Sys2Proof.Machine
end

