-- ==== Sys2Proof/Certificates/Slice0/Obligations.lean ====
section
/-! DEFINITION. The statements about the DTE for the provers, in the order of OBLIGATIONS.json. Each docstring names
the rules of spec/ a statement formalises, or says what of it is the model's own choice. -/

open Sys2Proof Sys2Proof.Machine

/-! ## Encoding -/

/-- R95 to R99, R102: the word of every well-formed command decodes to it, as a word and as the bytes the window holds,
whatever bytes follow. -/
def Obligations.DecodeOfEncodeIsTheCommand : Prop :=
  ∀ (i : Instr) (rest : List Byte), i.wellFormed = true →
    decode (encode i) = .ok i ∧ decodeBytes (bytesOfWord (encode i) ++ rest) = .ok (i, rest)

/-- R95, R101: a word that decodes is the word of the command it decodes to, and that command is well formed, so no two
words decode to one command. -/
def Obligations.EncodeOfDecodeIsTheWord : Prop :=
  ∀ (w : Word) (i : Instr), decode w = .ok i → i.wellFormed = true ∧ encode i = w

/-- R96 to R98, R100, R225: which words are illegal, field by field; and what writing one to `CMD` does while the engine
is free. -/
def Obligations.IllegalWordsAreThoseOfTheTable : Prop :=
  ∀ (w : Word) (s : State) (es : List Event),
    ((∃ e, decode w = .error e) ↔
      7 ≤ (opField w).toNat ∨ rsvField w ≠ 0 ∨
      ((opField w).toNat = 1 ∧ 5 ≤ (modeField w).toNat) ∨
      (((opField w).toNat = 3 ∨ (opField w).toNat = 4) ∧ 2 ≤ (modeField w).toNat) ∨
      (((opField w).toNat = 0 ∨ (opField w).toNat = 2 ∨ (opField w).toNat = 5 ∨ (opField w).toNat = 6) ∧
        modeField w ≠ 0) ∨
      ((opField w).toNat = 2 ∧ 10 ≤ (argField w).toNat) ∨
      (((opField w).toNat = 0 ∨ (opField w).toNat = 1 ∨ (opField w).toNat = 3 ∨ (opField w).toNat = 4 ∨
        (opField w).toNat = 6) ∧ argField w ≠ 0)) ∧
    ((∃ e, decode w = .error e) → paramsOk s.params = true → s.busy = false →
      s.inbox = .host ⟨true, .word, s.params.dteBase, w⟩ :: es →
      step s = .next { s with inbox := es, done := true, code := 4, cause := .illegal })

/-- R108: the worked encodings. -/
def Obligations.WorkedEncodingsDecode : Prop :=
  decode 0x00000305 = .ok (.switch 3) ∧ decode 0x0000F005 = .ok (.switch 0xF0) ∧ decode 0x00000902 = .ok (.trim 9) ∧
    decode 0x00000013 = .ok (.rampdn true) ∧ decode 0x00000051 = .error .illegalMode ∧
    decode 0x00010001 = .error .reservedBits ∧ decode 0x00000A02 = .error .illegalArg ∧
    decode 0x00000107 = .error .reservedOp

/-! ## Steps, the window and reset -/

/-- R20, R223: when the next event is a host write of a word to `CMD` and the word decodes to a command, the step takes
the event from the inbox and runs the command. `withCommand` and `withFetchWord` put such an event first (the inbox is
the model's: log entry 1). -/
def Obligations.StepRunsTheDecodedCommand : Prop :=
  ∀ (s : State) (es : List Event) (w : Word) (i : Instr), paramsOk s.params = true → decode w = .ok i →
    (s.inbox = .host ⟨true, .word, s.params.dteBase, w⟩ :: es → step s = exec i { s with inbox := es }) ∧
    step (s.withCommand w) = exec i s ∧
    ∀ n v, tableWord n v = w → step (s.withFetchWord n v) = exec i s

/-- R224, by window offset: while a command runs, host writes to `CMD`, `CFG`, `SRC_IDX`, `DST_IDX`, `ENTRY_COUNT` and
the entry words are ignored and set `OVR`; at all times a write to `STATUS` is honoured and writes to the read-only CSRs
and the reserved offsets are ignored. -/
def Obligations.WritesWhileBusyAreIgnored : Prop :=
  ∀ (s : State) (es : List Event) (off : Nat) (w : Word), paramsOk s.params = true →
    s.inbox = .host ⟨true, .word, s.params.dteBase + off, w⟩ :: es → off % 4 = 0 → off < 4294967296 →
      (s.busy = true →
        (off = 0x000 ∨ off = 0x010 ∨ off = 0x014 ∨ off = 0x018 ∨ off = 0x01C ∨
          ∃ i o, i < 900 ∧ o < s.params.entryStride ∧ entryOffReserved o = false ∧ off = entryBase s.params i + o) →
        step s = .next { s with inbox := es, ovr := true }) ∧
      (off = 0x004 →
        step s = .next
          { s with
            inbox := es, done := s.done && !w.getLsbD 1, pto := s.pto && !w.getLsbD 3,
            ovr := s.ovr && !w.getLsbD 4, accerr := s.accerr && !w.getLsbD 5 }) ∧
      ((off = 0x008 ∨ off = 0x00C ∨ off = 0x020 ∨ off = 0x024 ∨ (0x028 ≤ off ∧ off < 0x100000) ∨
          entryBase s.params 900 ≤ off ∨
          ∃ i o, i < 900 ∧ o < s.params.entryStride ∧ entryOffReserved o = true ∧ off = entryBase s.params i + o) →
        step s = .next { s with inbox := es })

/-- R60, R68: a host access that is not an aligned 32-bit access, whatever runs. -/
def Obligations.UnalignedAccessIsRefused : Prop :=
  ∀ (s : State) (es : List Event) (wr : Bool) (sz : AccessSize) (off : Nat) (w : Word), paramsOk s.params = true →
    s.inbox = .host ⟨wr, sz, s.params.dteBase + off, w⟩ :: es → off < 4294967296 → (sz ≠ .word ∨ off % 4 ≠ 0) →
      (wr = true → step s = .next { s with inbox := es, accerr := true }) ∧
      (wr = false → step s = .next { s with inbox := es, accerr := true, hostOut := s.hostOut ++ [0] })

/-- R30, with the map of R19: what a read of each CSR returns; it changes nothing. -/
def Obligations.CsrReadReturnsTheRegister : Prop :=
  ∀ (s : State) (es : List Event) (off : Nat) (d : Word), paramsOk s.params = true →
    s.inbox = .host ⟨false, .word, s.params.dteBase + off, d⟩ :: es → off % 4 = 0 → off < 0x100000 →
      step s = .next
        { s with
          inbox := es
          hostOut := s.hostOut ++
            [if off = 0x004 then statusWord s
              else if off = 0x008 then s.result
              else if off = 0x00C then s.stepNo
              else if off = 0x010 then s.cfg.setWidth 32
              else if off = 0x014 then s.srcIdx.setWidth 32
              else if off = 0x018 then s.dstIdx.setWidth 32
              else if off = 0x01C then s.entryCount
              else if off = 0x020 then (if s.fspOp then 1 else 0) ||| (if s.fspWr then 2 else 0)
              else if off = 0x024 then 0x44544501
              else 0] }

/-- R21, with the numbers of R228: the places of the fields of `STATUS`, and what a write clears. -/
def Obligations.StatusHasItsFields : Prop :=
  ∀ (s : State) (w : Word),
    (statusWord s).getLsbD 0 = s.busy ∧ (statusWord s).getLsbD 1 = s.done ∧ (statusWord s).getLsbD 2 = s.compw ∧
    (statusWord s).getLsbD 3 = s.pto ∧ (statusWord s).getLsbD 4 = s.ovr ∧ (statusWord s).getLsbD 5 = s.accerr ∧
    (statusWord s).getLsbD 6 = s.fault ∧ (statusWord s).getLsbD 7 = false ∧
    (statusWord s).extractLsb' 8 4 = s.code ∧
    (s.cause = .none → (statusWord s).extractLsb' 12 4 = 0) ∧
    (s.cause = .ccTimeout → (statusWord s).extractLsb' 12 4 = 1) ∧
    (s.cause = .config → (statusWord s).extractLsb' 12 4 = 2) ∧
    (s.cause = .illegal → (statusWord s).extractLsb' 12 4 = 3) ∧
    (s.cause = .div0 → (statusWord s).extractLsb' 12 4 = 4) ∧
    (s.cause = .overflow → (statusWord s).extractLsb' 12 4 = 5) ∧
    (s.cause = .uninit → (statusWord s).extractLsb' 12 4 = 6) ∧
    (s.cause = .queueOvf → (statusWord s).extractLsb' 12 4 = 7) ∧
    (statusWord s).extractLsb' 16 16 = 0 ∧
    statusWord (s.writeStatus w) = statusWord s &&& ~~~(w &&& 0x3A)

/-- R25 to R27, R262: CSR writes while the engine is free; each bit outside the register is dropped. -/
def Obligations.CsrWriteSetsTheRegister : Prop :=
  ∀ (s : State) (es : List Event) (off : Nat) (w : Word), paramsOk s.params = true → s.busy = false →
    s.inbox = .host ⟨true, .word, s.params.dteBase + off, w⟩ :: es →
      (off = 0x010 → step s = .next { s with inbox := es, cfg := w.setWidth 5 }) ∧
      (off = 0x014 → step s = .next { s with inbox := es, srcIdx := w.setWidth 10 }) ∧
      (off = 0x018 → step s = .next { s with inbox := es, dstIdx := w.setWidth 10 }) ∧
      (off = 0x01C → step s = .next { s with inbox := es, entryCount := w })

/-- R35, R36, R59, R66, R90: a word written to an entry while the engine is free has its written mark and is read back,
a word of `FLAGS` without its reserved bits; no other byte changes, and nothing else. While a command runs, no step but
the reset input changes what a host read of an entry word finds: it is what it was before the command was issued,
whatever the command has stored. Once none runs, a read finds the stored word. -/
def Obligations.EntryWordsReadBackAndHoldStillMeanwhile : Prop :=
  (∀ (s : State) (es : List Event) (i o : Nat) (w d : Word), paramsOk s.params = true → s.busy = false → i < 900 →
    o < s.params.entryStride → o % 4 = 0 → entryOffReserved o = false → entryBase s.params i + o < 4294967296 →
    s.inbox = .host ⟨true, .word, s.params.dteBase + (entryBase s.params i + o), w⟩ ::
      .host ⟨false, .word, s.params.dteBase + (entryBase s.params i + o), d⟩ :: es →
      ∃ m t, step s = .next t ∧ t = { s with inbox := s.inbox.tail, mem := m } ∧ t.marked i o = true ∧
        SameOutside s.mem m [(wordAt s i o, 0)] ∧
        step t = .next { t with inbox := es, hostOut := t.hostOut ++ [if o = 8 then w &&& 0x00FFFF07 else w] }) ∧
  (∀ (s : State) (es : List Event) (i o : Nat) (d : Word), paramsOk s.params = true → i < 900 →
    o < s.params.entryStride → o % 4 = 0 → entryOffReserved o = false → entryBase s.params i + o < 4294967296 →
    s.inbox = .host ⟨false, .word, s.params.dteBase + (entryBase s.params i + o), d⟩ :: es →
      step s = .next { s with inbox := es, hostOut := s.hostOut ++ [s.hostEntryWord i o] }) ∧
  (∀ s t : State, step s = .next t → nextIsReset s = false → t.busy = true →
    ∀ i o, t.hostEntryWord i o = s.hostEntryWord i o) ∧
  (∀ (s : State) (i o : Nat) (w : Word), s.busy = false → memWord s.mem (wordAt s i o) = some w →
    s.hostEntryWord i o = if o = 8 then w &&& 0x00FFFF07 else w)

/-- R56, R58: the reserved parts of the window read 0 and ignore writes, whatever runs. -/
def Obligations.ReservedWindowReadsZero : Prop :=
  ∀ (s : State) (es : List Event) (off : Nat) (wr : Bool) (w : Word), paramsOk s.params = true →
    s.inbox = .host ⟨wr, .word, s.params.dteBase + off, w⟩ :: es → off % 4 = 0 → off < 4294967296 →
    ((0x028 ≤ off ∧ off < 0x100000) ∨ entryBase s.params 900 ≤ off ∨
      ∃ i o, i < 900 ∧ o < s.params.entryStride ∧ off = entryBase s.params i + o ∧
        ((0x018 ≤ o ∧ o < 0x020) ∨ (0x0C0 ≤ o ∧ o < 0x100))) →
      step s = .next (if wr then { s with inbox := es } else { s with inbox := es, hostOut := s.hostOut ++ [0] })

/-- R254: the values the spec gives for reset, and the marks and slots that are clear. -/
def Obligations.ResetStateIsTheSpecs : Prop :=
  statusWord State.reset = 0 ∧ State.reset.result = 0 ∧ State.reset.stepNo = 0 ∧ State.reset.cfg = 0 ∧
    State.reset.srcIdx = 0 ∧ State.reset.dstIdx = 0 ∧ State.reset.entryCount = 0 ∧ fspWord State.reset = 0 ∧
    State.reset.readCsr .id = 0x44544501 ∧ (∀ i off, State.reset.marked i off = false) ∧
    (∀ k, State.reset.snap.getD k none = none) ∧ State.reset.queue = [] ∧ State.reset.drain = false

/-- R253 to R255: the reset input from any state. The parameters of the new session come with the event; keeping the
environment's answers, the events to come and the records is the model's reading of R255 (log entry 17). -/
def Obligations.ResetInputFromAnyState : Prop :=
  ∀ (s : State) (es : List Event) (p : Params), paramsOk s.params = true → paramsOk p = true →
    s.inbox = .reset p :: es →
      step s = .next
        { State.reset with
          params := p, snap := List.replicate p.nSnap none, session := s.session + 1, timerUs := s.timerUs,
          regIn := s.regIn, sampleIn := s.sampleIn, timerIn := s.timerIn, inbox := es, trace := s.trace,
          hostOut := s.hostOut }

/-- R7, R79, R147, R184, R193, R198, R214, R241: which parameters are ill-formed. That the model refuses them at every
step of a session that has them, and at the reset that would begin one, is its own choice for R241's refusal at session
start (log entry 24). -/
def Obligations.IllFormedSessionIsRefused : Prop :=
  ∀ (s : State) (es : List Event) (p : Params),
    (paramsOk s.params = false → step s = .refused .illFormedParams) ∧
    (paramsOk s.params = true → paramsOk p = false → s.inbox = .reset p :: es → step s = .refused .illFormedParams) ∧
    (∀ r ∈ p.stepOps, (∃ a v d, .enq a v d ∈ r.ops) →
      ((∃ k, 22 ≤ k ∧ r.label = .step k) ∨ r.label = .tri25 ∨ r.label = .dll25 ∨ r.label = .p1 ∨ r.label = .p2 ∨
        r.label = .p3 ∨ r.label = .p7) → paramsOk p = false) ∧
    (∀ r ∈ p.stepOps, ∀ slot sp a, .save slot sp a ∈ r.ops ∨ .restore slot sp a ∈ r.ops → p.nSnap ≤ slot →
      paramsOk p = false) ∧
    ((p.entryStride < 0x100 ∨ p.entryStride % 4 ≠ 0 ∨ p.qDepth = 0 ∨ p.nSnap = 0 ∨ p.rampTMid < p.rampTHigh) →
      paramsOk p = false) ∧
    (∀ id < 10, ∀ f g before mid after, p.trimLayout.getD id [] = before ++ f :: mid ++ g :: after →
      (∃ b, f.lsb ≤ b ∧ b < f.lsb + f.width ∧ g.lsb ≤ b ∧ b < g.lsb + g.width) → paramsOk p = false) ∧
    (∀ id < 10, ∀ f ∈ p.trimLayout.getD id [], 32 < f.lsb + f.width → paramsOk p = false) ∧
    (∀ id < 10, ∀ k, ((p.trimLayout.getD id []).filter fun f => f.k == k).length ≠
      (if k ∈ trimIndices id then 1 else 0) → paramsOk p = false) ∧
    (∀ r ∈ p.fspSwapFn, 1 < r.out → paramsOk p = false) ∧
    (∀ r ∈ p.captureFn, ∀ c ∈ r.out, c.off < 0x100 ∨ p.entryStride < c.off + 4 → paramsOk p = false) ∧
    (∀ r ∈ p.trainCmdFn, ∀ m, r.key = some m → bitCount r.out.1 ≠ bitCount (m.setWidth 32) → paramsOk p = false)

/-- R223, R235, R250: nothing but an access outside the window or an ill-formed new session stops the machine; whatever
a command does is a next state. -/
def Obligations.EveryStepAnswers : Prop :=
  ∀ s : State, paramsOk s.params = true →
    (∃ t, step s = .next t) ∨
    (∃ a es, s.inbox = .host a :: es ∧
      (a.addr < s.params.dteBase ∨ s.params.dteBase + 4294967296 ≤ a.addr) ∧ step s = .fault .outsideWindow) ∨
    (∃ p es, s.inbox = .reset p :: es ∧ paramsOk p = false ∧ step s = .refused .illFormedParams)

/-! ## Arithmetic -/

/-- R12: `fmhz`, and the constant it preserves. -/
def Obligations.FmhzKeepsTheReciprocal : Prop :=
  ∀ x : Word, fmhz x = x.toNat / 1000 ∧ fmhz x = x.toNat * 0x10624DD3 / 2 ^ 38

/-- R10: division truncates toward zero, the remainder has the sign of its dividend, division by 0 is the cause
`DIV0`. -/
def Obligations.DivisionTruncatesTowardZero : Prop :=
  ∀ a b : Int,
    (b = 0 → tdiv a b = .error .div0 ∧ trem a b = .error .div0) ∧
    (b ≠ 0 → ∃ q r : Int, tdiv a b = .ok q ∧ trem a b = .ok r ∧ q.natAbs = a.natAbs / b.natAbs ∧
      (0 ≤ a * b → 0 ≤ q) ∧ (a * b ≤ 0 → q ≤ 0) ∧ r = a - b * q ∧ (0 ≤ a → 0 ≤ r) ∧ (a ≤ 0 → r ≤ 0))

/-- R113: the active lanes. -/
def Obligations.ActiveLanesFollowCfg : Prop :=
  ∀ (cfg : BitVec 5) (c d u : Nat), c < 2 → d < 2 → u < 2 →
    (4 * c + 2 * d + u ∈ activeLanes cfg ↔ (c = 0 ∨ cfg.getLsbD 1 = true) ∧ d < (if cfg.getLsbD 0 then 2 else 1)) ∧
    (activeLanes cfg).Pairwise (· < ·)

/-- R121, R122, R136: repeated periodic passes with one sample `s ≥ 0`, weight `w ≥ 1` and start `a ≥ 0`: from below the
accumulator rises to the first value within `w` of `100 s` and stays; from above it falls strictly and not below
`100 s`. -/
def Obligations.PeriodicAccumulatorConverges : Prop :=
  ∀ (a s : Int) (w : Nat), 0 ≤ a → 0 ≤ s → 1 ≤ w → InS32 (100 * s) → InS32 (w * a) → InS32 (100 * s + w * a) →
    InS32 (w + 1) →
    ∃ n, periodicAcc a s w = .ok n ∧
      (a ≤ 100 * s → a ≤ n ∧ n ≤ 100 * s ∧ (n = a ↔ 100 * s - w ≤ a) ∧
        ∃ c : Int, n = 100 * s - c ∧ w * (100 * s - a) ≤ c * (w + 1) ∧ c * (w + 1) < w * (100 * s - a) + (w + 1)) ∧
      (100 * s < a → 100 * s ≤ n ∧ n < a)

/-! ## Acceptance, checks and ends -/

/-- R222: `nop`. -/
def Obligations.NopEndsAtOnce : Prop :=
  ∀ s : State, Idle s → exec .nop s = .next (endedOk s 0 s.result)

/-- R226 (1): the count or an index the command uses is out of range. -/
def Obligations.ConfigCheckEndsTheCommand : Prop :=
  ∀ (i : Instr) (s : State), i ≠ .nop → i.wellFormed = true → Idle s → (CanEnqueue i → s.drain = false) →
    (900 < s.entryCount.toNat ∨ s.entryCount.toNat ≤ dstOf s ∨
      ((IsEst i ∨ CanEnqueue i) ∧ s.entryCount.toNat ≤ srcOf s)) →
      exec i s = .next { endedAbort s 0 .config with compw := s.compw && !cmdIsSwitch i }

/-- R226 (2), R36: count and indices are in range and a field of the command's read set has no written mark. -/
def Obligations.UnloadedFieldEndsTheCommand : Prop :=
  ∀ (i : Instr) (s : State) (e off : Nat), i ≠ .nop → i.wellFormed = true → Idle s → (CanEnqueue i → s.drain = false) →
    s.entryCount.toNat ≤ 900 → dstOf s < s.entryCount.toNat →
    (IsEst i ∨ CanEnqueue i → srcOf s < s.entryCount.toNat) →
    (e, off) ∈ (s.accept i).readSet → s.marked e off = false →
      exec i s = .next { endedAbort s 0 .uninit with compw := s.compw && !cmdIsSwitch i }

/-- R111, R149, R162, R219: the read sets of `est`, `trim`, the ramps and `pcomp`, field by field: the checks succeed
exactly when the count and the indices are in range and these fields have their marks. -/
def Obligations.ChecksReadTheListedFields : Prop :=
  ∀ (s : State) (id : BitVec 8) (f : Bool), id.toNat ≤ 9 →
    let T := dstOf s
    let inRange := s.entryCount.toNat ≤ 900 ∧ T < s.entryCount.toNat
    let both := inRange ∧ srcOf s < s.entryCount.toNat
    let lanes := ∀ l < 8, laneActive s.cfg l = true → s.marked T (offAcc l) = true
    let freqs := s.marked (srcOf s) offFreq = true ∧ s.marked T offFreq = true
    let curs := ∀ l < 8, laneActive s.cfg l = true → s.marked T (offCur l) = true
    (Passes .estDvfsPartial s ↔ both ∧ freqs ∧ lanes) ∧
    (Passes .estTrainPartial s ↔ both ∧ freqs ∧ lanes) ∧
    (Passes .estDvfsFinal s ↔ both ∧ freqs ∧ lanes ∧ curs ∧ s.marked T offMargin = true ∧
      s.marked T offSampleCount = true) ∧
    (Passes .estTrainFinal s ↔ both ∧ freqs ∧ lanes ∧ (∀ l < 8, s.marked T (offCur l) = true) ∧
      s.marked T offMargin = true ∧ s.marked T offSampleCount = true) ∧
    (Passes .estPeriodic s ↔ both ∧ freqs ∧ lanes ∧ curs ∧ s.marked T offMargin = true ∧
      s.marked T offWeight = true) ∧
    (Passes (.trim id) s ↔ inRange ∧ s.marked T offFreq = true ∧ s.marked T offMargin = true ∧
      (∀ i < 4, s.marked T (offCur (groupLane (trimRank id.toNat) i)) = true ∧
        s.marked T (offTrn (groupLane (trimRank id.toNat) i)) = true) ∧
      ∀ k < 8, s.marked T (offTrimVal (trimRank id.toNat) k) = true) ∧
    (Passes (.rampdn f) s ↔ both ∧ s.marked (srcOf s) offFreq = true) ∧
    (Passes (.rampup f) s ↔ both ∧ s.marked T offFreq = true) ∧
    (Passes .pcomp s ↔ inRange ∧ s.marked T offFreq = true ∧ s.marked T offMargin = true ∧
      s.marked T offWeight = true ∧ lanes ∧
      ∀ l < 8, s.marked T (offCur l) = true ∧ s.marked T (offTrn l) = true ∧ s.marked T (offTrimVal 0 l) = true ∧
        s.marked T (offTrimVal 1 l) = true)

/-- R170: the read set of `switch`, with the conditions of steps 3 and 13 known at acceptance. -/
def Obligations.SwitchChecksReadTheListedFields : Prop :=
  ∀ (s : State) (mask : BitVec 8),
    let T := dstOf s
    let ptEn := (s.fieldD T offFlags).getLsbD 1 = true
    let accs := s.params.dvfsAccClear = false → ∀ l < 8, laneActive s.cfg l = true → s.marked T (offAcc l) = true
    Passes (.switch mask) s ↔
      s.entryCount.toNat ≤ 900 ∧ srcOf s < s.entryCount.toNat ∧ T < s.entryCount.toNat ∧
      s.marked (srcOf s) offFreq = true ∧ s.marked T offFreq = true ∧ s.marked T offClkSrc = true ∧
      s.marked T offFlags = true ∧ s.marked T offMargin = true ∧
      (ptEn ∧ mask = 0 →
        (∀ l < 8, s.marked T (offTrn l) = true ∧ s.marked T (offTrimVal 0 l) = true ∧
          s.marked T (offTrimVal 1 l) = true) ∧ s.marked T offSampleCount = true ∧ accs) ∧
      (ptEn ∧ mask &&& 0x30 ≠ 0 →
        s.marked T offSampleCount = true ∧ (∀ l < 8, s.marked T (offCur l) = true) ∧ accs)

/-- R227, R229, R230, R232, R235: how a command that was accepted stands after `exec`: it runs on with nothing reported,
or it has ended in success, or an abort has ended it. -/
def Obligations.CommandRunsOnOrEnds : Prop :=
  ∀ (i : Instr) (s t : State), i.wellFormed = true → s.busy = false → exec i s = .next t →
    (t.busy = true ∧ t.done = false ∧ t.code = 0 ∧ t.cause = .none ∧ t.result = s.result ∧ t.fault = s.fault) ∨
    (t.busy = false ∧ t.done = true ∧ t.code = 0 ∧ t.cause = .none ∧ t.fault = s.fault ∧ t.pass = Pass.idle) ∨
    (t.busy = false ∧ t.done = true ∧ t.code = 4 ∧ t.cause ≠ .none ∧ t.cause ≠ .illegal ∧ t.result = s.result ∧
      (t.fault = true ↔ s.fault = true ∨ t.cause = .div0 ∨ t.cause = .overflow ∨ t.cause = .uninit ∨
        t.cause = .queueOvf) ∧ t.pass = Pass.idle)

/-- R31, R201, R213: `STEP` after a command that ended in success. -/
def Obligations.StepAfterSuccess : Prop :=
  ∀ (i : Instr) (s t : State), i.wellFormed = true → s.busy = false → exec i s = .next t → t.busy = false →
    t.cause = .none →
      t.stepNo = (if cmdIsSwitch i then 25 else if i = .pcomp then 0x107 else 0)

/-- R133, R151, R165, R221, R228: the causes `est`, `trim`, the ramps and `pcomp` cannot raise. -/
def Obligations.CausesEachCommandRaises : Prop :=
  ∀ (i : Instr) (s t : State), i.wellFormed = true → s.busy = false → paramsOk s.params = true → exec i s = .next t →
    (IsEst i → t.cause ≠ .ccTimeout ∧ t.cause ≠ .queueOvf ∧
      (i ≠ .estDvfsFinal → i ≠ .estTrainFinal → t.cause ≠ .div0)) ∧
    (∀ id, i = .trim id → t.cause ≠ .ccTimeout ∧ t.cause ≠ .queueOvf ∧ t.cause ≠ .div0) ∧
    ((∃ f, i = .rampdn f ∨ i = .rampup f) → t.cause ≠ .ccTimeout ∧ t.cause ≠ .overflow) ∧
    (i = .pcomp → t.cause ≠ .ccTimeout ∧ t.cause ≠ .queueOvf ∧ t.cause ≠ .div0)

/-! ## The estimator -/

/-- R119, R128, R132: `est.dvfs_partial` and `est.train_partial`: the accumulators of the active lanes grow by 100
times the sample, `RESULT` is 0, one sample exchange per active lane is made, and nothing else changes. -/
def Obligations.EstPartialAddsSamples : Prop :=
  ∀ (i : Instr) (s : State) (ns rest : List Word), i = .estDvfsPartial ∨ i = .estTrainPartial → Idle s → Passes i s →
    s.sampleIn = ns ++ rest → ns.length = (activeLanes s.cfg).length →
    (∀ p ∈ lanesWith s ns, InS32 (100 * rawSample s (srcOf s) (dstOf s) p.2) ∧
      InS32 (summed s (srcOf s) (dstOf s) p)) →
      ∃ m, exec i s = .next
          { endedOk s 0 0 with mem := m, sampleIn := rest, trace := s.trace ++ sampleTrace (lanesWith s ns) } ∧
        Holds m (partialStores s (srcOf s) (dstOf s) (lanesWith s ns)) ∧
        SameOutside s.mem m (partialStores s (srcOf s) (dstOf s) (lanesWith s ns))

/-- R120, R122 to R126, R128, R132: `est.dvfs_final`: the accumulators are divided by the sample count, `CUR` of the
active lanes is replaced, `RESULT` is the largest difference before that, and nothing else changes. -/
def Obligations.EstDvfsFinalReplacesDelays : Prop :=
  ∀ (s : State) (ns rest : List Word), Idle s → Passes .estDvfsFinal s → s.sampleIn = ns ++ rest →
    ns.length = (activeLanes s.cfg).length → countAt s (dstOf s) ≠ 0 →
    (∀ l ∈ activeLanes s.cfg, JudgesInRange s (dstOf s) l (averaged s (dstOf s) l)) →
      ∃ m, exec .estDvfsFinal s = .next
          { endedOk s 0 (BitVec.ofInt 32 (finalDelta s (dstOf s) (activeLanes s.cfg))) with
            mem := m, sampleIn := rest, trace := s.trace ++ sampleTrace (lanesWith s ns) } ∧
        Holds m (finalStores s (dstOf s) (activeLanes s.cfg)) ∧
        SameOutside s.mem m (finalStores s (dstOf s) (activeLanes s.cfg))

/-- R131: `est.train_final`: as `est.dvfs_final`, and the current delays of all eight lanes go into `TRN`. -/
def Obligations.EstTrainFinalCopiesDelays : Prop :=
  ∀ (s : State) (ns rest : List Word), Idle s → Passes .estTrainFinal s → s.sampleIn = ns ++ rest →
    ns.length = (activeLanes s.cfg).length → countAt s (dstOf s) ≠ 0 →
    (∀ l ∈ activeLanes s.cfg, JudgesInRange s (dstOf s) l (averaged s (dstOf s) l)) →
      ∃ m, exec .estTrainFinal s = .next
          { endedOk s 0 (BitVec.ofInt 32 (finalDelta s (dstOf s) (activeLanes s.cfg))) with
            mem := m, sampleIn := rest, trace := s.trace ++ sampleTrace (lanesWith s ns) } ∧
        Holds m (finalStores s (dstOf s) (activeLanes s.cfg) ++ trainedStores s (dstOf s) (activeLanes s.cfg)) ∧
        SameOutside s.mem m
          (finalStores s (dstOf s) (activeLanes s.cfg) ++ trainedStores s (dstOf s) (activeLanes s.cfg))

/-- R121 to R126, R128, R132: `est.periodic`: the blend of sample and accumulator by the weight; `CUR` of a lane is
replaced exactly when the scaled difference exceeds the margin. -/
def Obligations.EstPeriodicBlendsAndReplaces : Prop :=
  ∀ (s : State) (ns rest : List Word), Idle s → Passes .estPeriodic s → s.sampleIn = ns ++ rest →
    ns.length = (activeLanes s.cfg).length →
    (∀ p ∈ lanesWith s ns, BlendsInRange s (srcOf s) (dstOf s) p ∧
      JudgesInRange s (dstOf s) p.1 (blended s (srcOf s) (dstOf s) p)) →
      ∃ m, exec .estPeriodic s = .next
          { endedOk s 0 (BitVec.ofInt 32 (periodicDelta s (srcOf s) (dstOf s) (lanesWith s ns))) with
            mem := m, sampleIn := rest, trace := s.trace ++ sampleTrace (lanesWith s ns) } ∧
        Holds m (periodicStores s (srcOf s) (dstOf s) (lanesWith s ns)) ∧
        SameOutside s.mem m (periodicStores s (srcOf s) (dstOf s) (lanesWith s ns))

/-- R130: a zero sample count in a final mode, after the first active lane's sample. -/
def Obligations.ZeroSampleCountIsDiv0 : Prop :=
  ∀ (i : Instr) (s : State) (n : Word) (rest : List Word), i = .estDvfsFinal ∨ i = .estTrainFinal → Idle s →
    Passes i s → countAt s (dstOf s) = 0 → s.sampleIn = n :: rest →
      exec i s = .next { endedAbort s 0 .div0 with sampleIn := rest, trace := s.trace ++ [.sample 0 n] }

/-- R129, R133: an `est` that is aborted or waits for a count has changed no entry field and not `RESULT`; of its own it
has only made sample exchanges, one per lane in order. R69, R235: with no answer it waits and has not ended. -/
def Obligations.EstIsAllOrNothing : Prop :=
  ∀ (i : Instr) (s t : State), IsEst i → Idle s → exec i s = .next t →
    (t.busy = true ∨ t.cause ≠ .none →
      t.mem = s.mem ∧ t.result = s.result ∧ t.queue = s.queue ∧ t.fspOp = s.fspOp ∧ t.fspWr = s.fspWr ∧
      ∃ k, k ≤ (activeLanes s.cfg).length ∧ k ≤ s.sampleIn.length ∧ t.sampleIn = s.sampleIn.drop k ∧
        t.trace = s.trace ++ sampleTrace (lanesWith s (s.sampleIn.take k))) ∧
    (Passes i s → s.sampleIn = [] → t.busy = true ∧ t.stepNo = 0 ∧ commandEnded t = false)

/-! ## The trim compensator -/

/-- R142 to R147, R150, R151: `trim <id>`: `RESULT` is the packed value, and nothing else changes. -/
def Obligations.TrimReturnsThePackedValue : Prop :=
  ∀ (id : BitVec 8) (s : State), id.toNat ≤ 9 → Idle s → Passes (.trim id) s → paramsOk s.params = true →
    TrimsInRange s (dstOf s) (trimRank id.toNat) (curAt s (dstOf s)) →
      exec (.trim id) s = .next (endedOk s 0 (trimWord s (dstOf s) id.toNat (curAt s (dstOf s))))

/-- R9, R151, R152 (g): a value out of range in any lane of the group ends `trim` with `OVERFLOW`. -/
def Obligations.TrimOutOfRangeOverflows : Prop :=
  ∀ (id : BitVec 8) (s : State), id.toNat ≤ 9 → Idle s → Passes (.trim id) s →
    ¬ TrimsInRange s (dstOf s) (trimRank id.toNat) (curAt s (dstOf s)) →
      exec (.trim id) s = .next (endedAbort s 0 .overflow)

/-- R149: `trim` is pure, whatever its outcome. -/
def Obligations.TrimIsPure : Prop :=
  ∀ (id : BitVec 8) (s t : State), s.busy = false → exec (.trim id) s = .next t →
    t = { s with
      busy := t.busy, done := t.done, code := t.code, cause := t.cause, fault := t.fault, stepNo := t.stepNo,
      result := t.result, snap := t.snap, pass := t.pass, quantum := t.quantum }

/-! ## The power ramps -/

/-- R155 to R158, R165: the ramps, with and without `flip`: the entries go to the end of the queue in order, `RESULT` is
the wait, and nothing else changes. -/
def Obligations.RampQueuesItsEntries : Prop :=
  ∀ (f : Bool) (s : State), Idle s → s.drain = false →
    (Passes (.rampdn f) s → freqAt s (srcOf s) ≠ 0 →
      s.queue.length + (rampOf s .down f (srcOf s)).1.length ≤ s.params.qDepth →
      exec (.rampdn f) s = .next
        { endedOk s 0 (rampOf s .down f (srcOf s)).2 with queue := s.queue ++ (rampOf s .down f (srcOf s)).1 }) ∧
    (Passes (.rampup f) s → freqAt s (dstOf s) ≠ 0 →
      s.queue.length + (rampOf s .up f (dstOf s)).1.length ≤ s.params.qDepth →
      exec (.rampup f) s = .next
        { endedOk s 0 (rampOf s .up f (dstOf s)).2 with queue := s.queue ++ (rampOf s .up f (dstOf s)).1 })

/-- R82, R84, R155, R165: a frequency of 0 ends a ramp with `DIV0`; a full queue ends it with `QUEUE_OVF`, the entries
that fitted staying in the queue. -/
def Obligations.RampAbortsKeepWhatIsQueued : Prop :=
  ∀ (f : Bool) (s : State), Idle s → s.drain = false →
    (Passes (.rampdn f) s → freqAt s (srcOf s) = 0 → exec (.rampdn f) s = .next (endedAbort s 0 .div0)) ∧
    (Passes (.rampup f) s → freqAt s (dstOf s) = 0 → exec (.rampup f) s = .next (endedAbort s 0 .div0)) ∧
    (Passes (.rampdn f) s → freqAt s (srcOf s) ≠ 0 → s.queue.length ≤ s.params.qDepth →
      s.params.qDepth < s.queue.length + (rampOf s .down f (srcOf s)).1.length →
      exec (.rampdn f) s = .next
        { endedAbort s 0 .queueOvf with
          queue := s.queue ++ (rampOf s .down f (srcOf s)).1.take (s.params.qDepth - s.queue.length) }) ∧
    (Passes (.rampup f) s → freqAt s (dstOf s) ≠ 0 → s.queue.length ≤ s.params.qDepth →
      s.params.qDepth < s.queue.length + (rampOf s .up f (dstOf s)).1.length →
      exec (.rampup f) s = .next
        { endedAbort s 0 .queueOvf with
          queue := s.queue ++ (rampOf s .up f (dstOf s)).1.take (s.params.qDepth - s.queue.length) })

/-- R264: a command that can enqueue waits at `STEP` 0 while the queue drains, with no effect of its own; when the drain
has stopped, with whatever queue and records it left, the engine goes on as if the command had been issued then. -/
def Obligations.DrainInterlockDelaysTheCommand : Prop :=
  ∀ (i : Instr) (s : State), CanEnqueue i → Idle s → s.drain = true →
    ∃ t, exec i s = .next t ∧ t.busy = true ∧ t.done = false ∧ t.stepNo = 0 ∧ t.mem = s.mem ∧ t.queue = s.queue ∧
      t.trace = s.trace ∧
      ∀ q tr, exec i { s with drain := false, drainClk := 0, queue := q, trace := tr } =
        .next { t with drain := false, drainClk := 0, queue := q, trace := tr }.resume

/-! ## The clock switch -/

/-- R163, R172, R182, R184, R190 to R197, R200, R201, R203: a pass whose lists only write registers, for every mask and
every `CFG`: the writes of its steps in order, the staged bank, the queued ramp entries, trigger and training command
with the ramp waits carried to the entries that follow, the clock-source write that starts the drain, the status read,
the writes after it, the end at `STEP` 25; nothing else changes. -/
def Obligations.SwitchPerformsItsSteps : Prop :=
  ∀ (mask : BitVec 8) (s : State) (a v : Word) (as vs : List Word), PlainPass s mask → s.timerIn = a :: as →
    s.regIn = v :: vs → v &&& s.params.ccStatus.mask = s.params.ccStatus.mask →
      exec (.switch mask) s = .next
        { endedOk s 25 0 with
          compw := false, fspOp := stagedBank (passStart s) mask, fspWr := stagedBank (passStart s) mask,
          queue := s.queue ++ passEntries s mask, drain := true, drainClk := 0,
          timerUs := s.timerUs + a, timerIn := as, regIn := vs,
          trace := s.trace ++ writesBefore (passStart s) mask ++
            [.write .car s.params.clkSrcAddr (s.fieldD (dstOf s) offClkSrc), .timer (s.timerUs + a),
              .read s.params.ccStatus.sp s.params.ccStatus.addr v] ++ writesAfter (passStart s) mask }

/-- R196, R202: the same pass when the first status read does not match and the timer has reached the bound: it ends at
`STEP` 22 with `CC_TIMEOUT`, steps 23 to 25 do not run, nothing is taken back, the operating bank stays. -/
def Obligations.SwitchTimesOutAtStep22 : Prop :=
  ∀ (mask : BitVec 8) (s : State) (a b v : Word) (as vs : List Word), PlainPass s mask → s.timerIn = a :: b :: as →
    s.regIn = v :: vs → v &&& s.params.ccStatus.mask ≠ s.params.ccStatus.mask →
    s.params.ccTimeoutUs ≤ b &&& 0x7FFFFFFF →
      exec (.switch mask) s = .next
        { endedAbort s 22 .ccTimeout with
          compw := false, fspWr := stagedBank (passStart s) mask, queue := s.queue ++ passEntries s mask, drain := true,
          drainClk := 0, timerUs := s.timerUs + a + (b &&& 0x7FFFFFFF), timerIn := as, regIn := vs,
          trace := s.trace ++ writesBefore (passStart s) mask ++
            [.write .car s.params.clkSrcAddr (s.fieldD (dstOf s) offClkSrc), .timer (s.timerUs + a),
              .read s.params.ccStatus.sp s.params.ccStatus.addr v,
              .timer (s.timerUs + a + (b &&& 0x7FFFFFFF))] }

/-- R196: the clock-change-complete wait over any number of failing reads within the bound: it succeeds at the first
read that matches, and times out at the first failing read after which the timer has reached the bound. The readings are
given as advances (log entry 4). -/
def Obligations.ClockChangeWaitIsBounded : Prop :=
  ∀ (s : State) (a v : Word) (fails : List (Word × Word)) (as vs : List Word),
    s.timerIn = a :: fails.map Prod.snd ++ as → s.regIn = fails.map Prod.fst ++ v :: vs →
    (∀ p ∈ fails, p.1 &&& s.params.ccStatus.mask ≠ s.params.ccStatus.mask) →
    (∀ k ≤ fails.length, ((fails.take k).map fun p => p.2 &&& 0x7FFFFFFF).foldl (· + ·) 0 < s.params.ccTimeoutUs ∨
      k = 0) →
    let elapsed := (fails.map fun p => p.2 &&& 0x7FFFFFFF).foldl (· + ·) 0
    let read : State :=
      { s with
        timerIn := as, regIn := vs
        timerUs := s.timerUs + a + elapsed
        trace := s.trace ++ [.timer (s.timerUs + a)] ++
          ((List.range fails.length).flatMap fun k =>
            [.read s.params.ccStatus.sp s.params.ccStatus.addr ((fails.map Prod.fst).getD k 0),
              .timer (s.timerUs + a + ((fails.take (k + 1)).map fun p => p.2 &&& 0x7FFFFFFF).foldl (· + ·) 0)]) ++
          [.read s.params.ccStatus.sp s.params.ccStatus.addr v] }
    (v &&& s.params.ccStatus.mask = s.params.ccStatus.mask → runTask (.ccWait .start) s = .done read) ∧
    (v &&& s.params.ccStatus.mask ≠ s.params.ccStatus.mask → ∀ b bs, as = b :: bs →
      s.params.ccTimeoutUs ≤ elapsed + (b &&& 0x7FFFFFFF) →
        runTask (.ccWait .start) s = .abort .ccTimeout
          { read with
            timerIn := bs
            timerUs := s.timerUs + a + (elapsed + (b &&& 0x7FFFFFFF))
            trace := read.trace ++ [.timer (s.timerUs + a + (elapsed + (b &&& 0x7FFFFFFF)))] })

/-- R163, R175, R176, R188, R201: the estimates inside a pass, for lists that are empty. Step 3: the accumulators are
cleared (`DVFS_ACC_CLEAR`), the current delays reset to the trained ones, `SAMPLE_COUNT` partial runs and a final one
made; `COMPW` says whether the scaled largest difference exceeds the margin, `RESULT` is that difference, and the pass
goes on to `STEP` 25 with the memory so left. Step 13: the same in the training modes from the current delays, all eight
then copied into the trained ones; `RESULT` is 0 and `COMPW` 0. With a zero sample count step 3's final run aborts at
`STEP` 3, the writes made before it kept. -/
def Obligations.StepsThreeAndThirteenEstimate : Prop :=
  (∀ (s : State) (runs : List (List Word)) (last rest as vs : List Word) (a v : Word),
    EstimatingPass s 0 runs last (trnAt s (dstOf s)) → s.sampleIn = runs.flatten ++ last ++ rest →
    s.timerIn = a :: as → s.regIn = v :: vs → v &&& s.params.ccStatus.mask = s.params.ccStatus.mask →
    let delta := estimateDelta s runs (trnAt s (dstOf s))
    let t : State :=
      { s with
        mem := stepThreeMem s runs
        compw := decide ((marginAt s (dstOf s) : Int) < scaledTo s (dstOf s) delta) }
    PassRoom t 0 →
      exec (.switch 0) s = .next
        { endedOk t 25 (BitVec.ofInt 32 delta) with
          fspOp := stagedBank t 0, fspWr := stagedBank t 0, queue := s.queue ++ passEntries t 0, drain := true,
          drainClk := 0, sampleIn := rest, timerUs := s.timerUs + a, timerIn := as, regIn := vs,
          trace := s.trace ++ ((runs ++ [last]).flatMap fun ns => sampleTrace (lanesWith s ns)) ++ writesBefore t 0 ++
            [.write .car s.params.clkSrcAddr (s.fieldD (dstOf s) offClkSrc), .timer (s.timerUs + a),
              .read s.params.ccStatus.sp s.params.ccStatus.addr v] }) ∧
  (∀ (s : State) (mask : BitVec 8) (runs : List (List Word)) (last rest as vs : List Word) (a v : Word),
    mask &&& 0x30 ≠ 0 → EstimatingPass s mask runs last (curAt s (dstOf s)) →
    s.sampleIn = runs.flatten ++ last ++ rest → s.timerIn = a :: as → s.regIn = v :: vs →
    v &&& s.params.ccStatus.mask = s.params.ccStatus.mask →
    let bank := stagedBank (passStart s) mask
    let t : State := { passStart s with mem := stepThirteenMem s runs }
    PassRoom t mask →
      exec (.switch mask) s = .next
        { endedOk t 25 0 with
          fspOp := bank, fspWr := bank, queue := s.queue ++ passEntries t mask, drain := true, drainClk := 0,
          sampleIn := rest, timerUs := s.timerUs + a, timerIn := as, regIn := vs,
          trace := s.trace ++ writesBefore (passStart s) mask ++
            ((runs ++ [last]).flatMap fun ns => sampleTrace (lanesWith s ns)) ++
            [.write .car s.params.clkSrcAddr (s.fieldD (dstOf s) offClkSrc), .timer (s.timerUs + a),
              .read s.params.ccStatus.sp s.params.ccStatus.addr v] }) ∧
  (∀ (s : State) (n : Word) (rest : List Word), Idle s → s.drain = false → Passes (.switch 0) s →
    s.params.stepOps = [] → s.params.dvfsAccClear = true → (s.fieldD (dstOf s) offFlags).getLsbD 1 = true →
    countAt s (dstOf s) = 0 → s.sampleIn = n :: rest →
      ∃ m, exec (.switch 0) s = .next
          { endedAbort s 3 .div0 with
            compw := false, mem := m, sampleIn := rest, trace := s.trace ++ [.sample 0 n] } ∧
        Holds m ((allLanes.map fun l => (wordAt s (dstOf s) (offAcc l), 0)) ++
          allLanes.map fun l => (wordAt s (dstOf s) (offCur l), s.fieldD (dstOf s) (offTrn l))) ∧
        SameOutside s.mem m ((allLanes.map fun l => (wordAt s (dstOf s) (offAcc l), 0)) ++
          allLanes.map fun l => (wordAt s (dstOf s) (offCur l), 0)))

/-- R186: the write of step 11's list to a trim register carries the trim compensator's value when compensation is
warranted, and its own value otherwise; for the identity found by the address (the lowest if several share it: log entry
14). -/
def Obligations.StepElevenSubstitutesTrimValues : Prop :=
  ∀ (s : State) (id : Nat) (v P : Word), id < 10 → (∀ k < id, trimAddr s.params k ≠ trimAddr s.params id) →
    s.quantum = none → stepOps s.params (s.ctx (.step 11)) = [.wr .emc (trimAddr s.params id) v] →
    s.trimValue s.dstEntry id = .ok P →
      runParts (s.stepBody 11) s =
        .done { s with trace := s.trace ++ [.write .emc (trimAddr s.params id) (if s.compw then P else v)] }

/-- R198: the training-result capture: each item is read, corrected where it asks for it, and written to its word of the
destination entry's opaque area, in order; here for items whose words lie apart. -/
def Obligations.CaptureStoresWhatItReads : Prop :=
  ∀ (s : State) (i j : CapItem) (v w : Word) (vs : List Word), s.quantum = none → captureOk s.params i = true →
    captureOk s.params j = true → i.off + 4 ≤ j.off → i.corr = false → captureFn s.params (s.ctx (.step 23)) = [i, j] →
    s.regIn = v :: w :: vs →
      ∃ m v', runParts (s.stepBody 23) s =
          .done { s with
            mem := m, regIn := vs, trace := s.trace ++ [.read i.sp i.addr v, .read j.sp j.addr w] } ∧
        v' = (if j.corr then
          vrefCorr s.params w (entryImage s.params (memSetWord s.mem (wordAt s s.dstEntry i.off) v) s.dstEntry) j
          else w) ∧
        Holds m [(wordAt s s.dstEntry i.off, v), (wordAt s s.dstEntry j.off, v')] ∧
        SameOutside s.mem m [(wordAt s s.dstEntry i.off, v), (wordAt s s.dstEntry j.off, v')]

/-! ## Periodic compensation -/

/-- R212 to R217, R220: `pcomp` with lists that only write registers: the phases' writes, the settle wait, the samples,
the blend with the one entry as source and destination, the ten trim writes exactly when the scaled largest difference
exceeds the margin, with the delays after the pass, the end at `STEP` 0x107; nothing else changes. -/
def Obligations.PcompCompensatesTheDrift : Prop :=
  ∀ (s : State) (ns rest : List Word) (a : Word) (bs as : List Word), Idle s → Passes .pcomp s →
    paramsOk s.params = true → WritesOnly s.params →
    s.timerIn = a :: bs ++ as →
    (if settleUs s.params (entryImage s.params s.mem (dstOf s)) = 0 then bs = []
      else ∃ b, bs = [b] ∧ settleUs s.params (entryImage s.params s.mem (dstOf s)) ≤ b &&& 0x7FFFFFFF) →
    s.sampleIn = ns ++ rest → ns.length = (activeLanes s.cfg).length →
    (∀ p ∈ lanesWith s ns, BlendsInRange s (dstOf s) (dstOf s) p ∧
      JudgesInRange s (dstOf s) p.1 (blended s (dstOf s) (dstOf s) p)) →
    ScalesInRange s (dstOf s) (periodicDelta s (dstOf s) (dstOf s) (lanesWith s ns)) →
    ((marginAt s (dstOf s) : Int) <
        scaledTo s (dstOf s) (periodicDelta s (dstOf s) (dstOf s) (lanesWith s ns)) →
      ∀ r < 2, TrimsInRange s (dstOf s) r (delayAfter s (dstOf s) (dstOf s) (lanesWith s ns))) →
      ∃ m, exec .pcomp s = .next
          { endedOk s 0x107 (BitVec.ofInt 32 (periodicDelta s (dstOf s) (dstOf s) (lanesWith s ns))) with
            mem := m, sampleIn := rest, timerIn := as
            timerUs := bs.foldl (fun t b => t + (b &&& 0x7FFFFFFF)) (s.timerUs + a)
            trace := s.trace ++ listWrites s.params (periodicCtx s s.mem .p1) ++
              listWrites s.params (periodicCtx s s.mem .p2) ++ listWrites s.params (periodicCtx s s.mem .p3) ++
              [.timer (s.timerUs + a)] ++ bs.map (fun b => .timer (s.timerUs + a + (b &&& 0x7FFFFFFF))) ++
              sampleTrace (lanesWith s ns) ++
              (if (marginAt s (dstOf s) : Int) <
                  scaledTo s (dstOf s) (periodicDelta s (dstOf s) (dstOf s) (lanesWith s ns)) then
                (List.range 10).map fun id =>
                  .write .emc (trimAddr s.params id)
                    (trimWord s (dstOf s) id (delayAfter s (dstOf s) (dstOf s) (lanesWith s ns)))
              else []) ++
              listWrites s.params (periodicCtx s m .p7) } ∧
        Holds m (periodicStores s (dstOf s) (dstOf s) (lanesWith s ns)) ∧
        SameOutside s.mem m (periodicStores s (dstOf s) (dstOf s) (lanesWith s ns))

/-- R77, R78, R80, R221: a `RESTORE` of a slot the same command has not saved ends it with `UNINIT` before the write,
whatever an earlier command left in the slots; here as the first operation of phase P1. A `RESTORE` after a `SAVE` of
the slot writes the value saved, whatever operations of the command other than a `SAVE` of that slot come between; and a
`pcomp` whose P1 saves a slot and whose P2 restores it does so. -/
def Obligations.SnapshotsCarryWithinOneCommand : Prop :=
  (∀ (s : State) (slot : Nat) (sp : Space) (a : Word) (ops : List MicroOp), Idle s → Passes .pcomp s →
    stepOps s.params (periodicCtx s s.mem .p1) = .restore slot sp a :: ops →
      exec .pcomp s = .next (endedAbort s 0x101 .uninit)) ∧
  (∀ (s t : State) (slot : Nat) (sp sp' : Space) (a b v : Word) (vs : List Word) (between : List Task),
    s.quantum = none → slot < s.snap.length → s.regIn = v :: vs → (∀ sp a, .save slot sp a ∉ between) →
    runTasks between
        { s with
          regIn := vs, trace := s.trace ++ [.read sp a v], snap := s.snap.set slot (some v) } = .done t →
      runTasks (.save slot sp a :: between ++ [.restore slot sp' b]) s =
        .done { t with trace := t.trace ++ [.write sp' b v] }) ∧
  (∀ (s : State) (slot : Nat) (sp sp' : Space) (a b v : Word), Idle s → Passes .pcomp s → slot < s.params.nSnap →
    stepOps s.params (periodicCtx s s.mem .p1) = [.save slot sp a] →
    stepOps s.params (periodicCtx s s.mem .p2) = [.restore slot sp' b] →
    stepOps s.params (periodicCtx s s.mem .p3) = [] → s.regIn = [v] → s.timerIn = [] →
      ∃ t, exec .pcomp s = .next t ∧ t.busy = true ∧ t.stepNo = 0x104 ∧
        t.trace = s.trace ++ [.read sp a v, .write sp' b v] ∧ t.mem = s.mem ∧ t.queue = s.queue)

/-- R211, R26, R149: `pcomp` and `trim` do not depend on `SRC_IDX`: with another value in it they do the same, and
`SRC_IDX` (with its latched copy while the command still runs) is all that differs. -/
def Obligations.SrcIdxDoesNotMatter : Prop :=
  ∀ (i : Instr) (s t : State) (x : BitVec 10), i = .pcomp ∨ (∃ id, i = .trim id) → s.busy = false →
    s.pass = Pass.idle → exec i s = .next t →
      exec i { s with srcIdx := x } =
        .next { t with srcIdx := x, pass := { t.pass with srcIdx := if t.busy then x else 0 } }

/-! ## Port primitives and waits -/

/-- R64, R65, R73, R75, R235: a bounded poll with no gap ends at the first read that matches, or with `PTO` set when its
budget is used up; a spin ends only at a read that matches, and holds after any number of others. -/
def Obligations.PollsAreBoundedAndSpinsAreNot : Prop :=
  ∀ (s : State) (sp : Space) (a mask e v : Word) (fails vs : List Word) (n : Nat),
    (∀ f ∈ fails, f &&& mask ≠ e) →
    (s.params.pollGapUs = 0 → s.regIn = fails ++ vs →
      runTask (.poll sp a mask e fails.length .none) s =
        .done { s with pto := true, regIn := vs, trace := s.trace ++ fails.map (.read sp a) }) ∧
    (s.params.pollGapUs = 0 → v &&& mask = e → s.regIn = fails ++ v :: vs →
      runTask (.poll sp a mask e (fails.length + 1 + n) .none) s =
        .done { s with regIn := vs, trace := s.trace ++ fails.map (.read sp a) ++ [.read sp a v] }) ∧
    (s.regIn = fails →
      runTask (.spin sp a mask e) s =
        .hold (.spin sp a mask e) { s with regIn := [], trace := s.trace ++ fails.map (.read sp a) }) ∧
    (v &&& mask = e → s.regIn = fails ++ v :: vs →
      runTask (.spin sp a mask e) s =
        .done { s with regIn := vs, trace := s.trace ++ fails.map (.read sp a) ++ [.read sp a v] })

/-- R67, R271: a delay that is over has taken a first reading and, unless it is a delay of 0, waited for a later one at
least `n` microseconds on; it has only read the timer. -/
def Obligations.DelayWaitsItsTime : Prop :=
  ∀ (s s' : State) (n : Word), runTask (.delay (.start n)) s = .done s' →
    ∃ t0 ts, s'.trace = s.trace ++ .timer t0 :: ts.map PortEvent.timer ∧ (n = 0 ↔ ts = []) ∧
      s'.timerUs = (t0 :: ts).getLast (by simp) ∧ n ≤ s'.timerUs - t0 ∧
      s' = { s with timerIn := s.timerIn.drop (1 + ts.length), timerUs := s'.timerUs, trace := s'.trace }

/-- R70: the timing update: the trigger write, the acknowledge of channel 0 and, with `DUAL`, of channel 1. -/
def Obligations.TimingUpdateAwaitsBothChannels : Prop :=
  ∀ (s : State) (v0 v1 : Word) (vs : List Word), s.quantum = none →
    v0 &&& s.params.tupd.ackMask = s.params.tupd.ackExpect →
    v1 &&& s.params.tupd.ackMask = s.params.tupd.ackExpect → s.regIn = v0 :: v1 :: vs →
      runTasks s.tupdTasks s = .done
        { s with
          regIn := if s.cfg.getLsbD 1 then vs else v1 :: vs
          trace := s.trace ++
            [.write .emc s.params.tupd.regAddr s.params.tupd.regValue, .read .emc s.params.tupd.ackAddr v0] ++
            (if s.cfg.getLsbD 1 then [.read .emc1 s.params.tupd.ackAddr v1] else []) }

/-! ## The queue -/

/-- R50, R86, R87: the drain's step. -/
def Obligations.DrainWritesTheHead : Prop :=
  ∀ (s : State) (es : List Event), paramsOk s.params = true → s.inbox = .drain :: es →
    (s.drain = false → step s = .next { s with inbox := es }) ∧
    (s.drain = true → s.queue = [] → step s = .next { s with inbox := es, drain := false, drainClk := 0 }) ∧
    (∀ e q, s.drain = true → s.queue = e :: q →
      (e.delay.toNat ≤ s.drainClk → step s = .next
        { s with inbox := es, queue := q, drainClk := 0, trace := s.trace ++ [.drained e.addr e.value e.delay] }) ∧
      (s.drainClk < e.delay.toNat → step s = .next { s with inbox := es }))

/-- R81, R87: given its clocks, the drain writes the whole queue in the order it was filled and stops. -/
def Obligations.QueueDrainsInOrder : Prop :=
  ∀ (s : State) (es : List Event), paramsOk s.params = true → s.drain = true → s.drainClk = 0 →
    s.inbox = (s.queue.flatMap fun e => [.emcClocks e.delay.toNat, .drain]) ++ .drain :: es →
      Host.Core.run Sys2Proof.core (2 * s.queue.length + 1) s = .next
        { s with
          inbox := es, queue := [], drain := false, drainClk := 0
          trace := s.trace ++ s.queue.map fun e => .drained e.addr e.value e.delay }

/-- R81, R82, R83: in every step but the reset input the queue changes at its ends only: the drain takes the head and
writes it, or the engine appends. -/
def Obligations.QueueIsFifo : Prop :=
  ∀ s t : State, step s = .next t → nextIsReset s = false →
    (∃ new, t.queue = s.queue ++ new) ∨
    (∃ e, s.queue = e :: t.queue ∧ t.trace = s.trace ++ [.drained e.addr e.value e.delay] ∧ s.drain = true)

/-! ## The whole machine -/

/-- R42, R43, R56, R227, R229, R230, R241, R31, and the memory's canonical form: the invariant is kept by every step. -/
def Obligations.EveryStepKeepsTheInvariant : Prop :=
  ∀ s t : State, Inv s → step s = .next t → Inv t

/-- The invariant holds after reset (of the parameters `State.reset` holds: log entry 5). -/
def Obligations.ResetHasTheInvariant : Prop := Inv State.reset

/-- R7, R230, R258, R275: within a session no step changes the parameters, clears `FAULT`, or takes a byte of the entry
table back to unwritten. -/
def Obligations.SessionKeepsParamsMarksAndFault : Prop :=
  ∀ s t : State, step s = .next t → nextIsReset s = false →
    t.params = s.params ∧ t.session = s.session ∧ (s.fault = true → t.fault = true) ∧
      ∀ b, (memByte s.mem b).isSome = true → (memByte t.mem b).isSome = true

/-- R39, R140: whatever a step of the engine does, every byte outside the destination entry is unchanged, and inside it
every fixed field but `CUR`, `TRN` and `ACC`; a command issued by the host is one such step, with the entry `DST_IDX`
names. -/
def Obligations.OnlyTheDestinationIsMutated : Prop :=
  ∀ (i : Instr) (s t : State), Inv s →
    (exec i s = .next t ∧ s.busy = false →
      ∀ b, (∀ o, 0x020 ≤ o → o < s.params.entryStride → (o < 0x080 ∨ 0x100 ≤ o) →
          b ≠ entryBase s.params (dstOf s) + o) →
        memByte t.mem b = memByte s.mem b) ∧
    (s.busy = true → t = s.resume →
      ∀ b, (∀ o, 0x020 ≤ o → o < s.params.entryStride → (o < 0x080 ∨ 0x100 ≤ o) →
          b ≠ entryBase s.params s.dstEntry + o) →
        memByte t.mem b = memByte s.mem b)

/-- R61, R88, R235: it does not matter when the environment's answers come nor where the engine is interrupted, as long
as no other agent acts in between: a command that stopped goes on, with the answers that came later, to the state it
would have reached had they all been there at once. -/
def Obligations.LateAnswersGiveTheSameRun : Prop :=
  ∀ (i : Instr) (s t : State) (rs ns ts : List Word), s.busy = false → exec i s = .next t →
    exec i { s with
        quantum := none, regIn := s.regIn ++ rs, sampleIn := s.sampleIn ++ ns, timerIn := s.timerIn ++ ts } =
      .next { t with
        quantum := none, regIn := t.regIn ++ rs, sampleIn := t.sampleIn ++ ns, timerIn := t.timerIn ++ ts }.resume
end

