-- ==== Sys2Proof/Laws/Arith.lean ====
section
/-! SUPPORT. The checked arithmetic, said once: when it answers and what; a field whose mark is set reads. -/

namespace Sys2Proof.Machine

open Sys2Proof

/-- A computation goes on with the value of what succeeded. A rewrite with it keeps the kernel from evaluating `chk32`
on an open term, which recurses as deep as its bound. -/
theorem bind_ok {α β : Type} (a : α) (f : α → Except Cause β) : (Except.ok a >>= f) = f a := by
  simp [bind, Except.bind]

/-- A computation ends with the cause raised. -/
theorem bind_error {α β : Type} (c : Cause) (f : α → Except Cause β) : (Except.error c >>= f) = .error c := by
  simp [bind, Except.bind]

theorem chk32_ok {v : Int} (h : InS32 v) : chk32 v = .ok v := if_pos h

theorem chk32_error {v : Int} (h : ¬ InS32 v) : chk32 v = .error .overflow := if_neg h

theorem chkAbs_ok {v : Int} (h : InS32 (v.natAbs : Int)) : chkAbs v = .ok (v.natAbs : Int) := chk32_ok h

theorem tdiv_ok (a : Int) {b : Int} (h : b ≠ 0) : tdiv a b = .ok (Int.tdiv a b) := if_neg h

theorem chk32u_ok {v : Nat} (h : v < 4294967296) : chk32u v = .ok (BitVec.ofNat 32 v) := if_pos h

/-- The scaled difference, in range (R13). -/
theorem scaled_ok {d : Int} {f : Nat} (h1 : InS32 (128 * d)) (h2 : InS32 (128 * d * f)) :
    scaled d f = .ok (Int.tdiv (128 * d * f) 1000000) := by
  simp only [scaled, shl7, chk32_ok h1, bind, Except.bind, chk32_ok h2]
  exact tdiv_ok _ (by decide)

/-- Scaling raises no cause but `OVERFLOW`. -/
theorem scaled_error {d : Int} {f : Nat} {c : Cause} (h : scaled d f = .error c) : c = .overflow := by
  unfold scaled chk32 tdiv at h
  simp only [bind, Except.bind] at h
  split at h
  · next h1 => split at h1 <;> simp_all
  · split at h
    · next h1 => split at h1 <;> simp_all
    · simp at h

/-- A field whose mark is set reads (10_state.md R36). -/
theorem field_ok {s : State} {i off : Nat} (h : s.marked i off = true) : s.field i off = .ok (s.fieldD i off) := by
  unfold State.field State.fieldD
  unfold State.marked at h
  cases hm : memWord s.mem (entryBase s.params i + off) with
  | none => simp [hm] at h
  | some w => rfl

theorem fieldU_ok {s : State} {i off : Nat} (h : s.marked i off = true) :
    s.fieldU i off = .ok (s.fieldD i off).toNat := by
  simp only [State.fieldU, field_ok h, bind, Except.bind]

theorem fieldS_ok {s : State} {i off : Nat} (h : s.marked i off = true) :
    s.fieldS i off = .ok (s.fieldD i off).toInt := by
  simp only [State.fieldS, field_ok h, bind, Except.bind]

/-- A field read raises no cause but `UNINIT` (10_state.md R36). -/
theorem field_error {s : State} {i off : Nat} {c : Cause} (h : s.field i off = .error c) : c = .uninit := by
  unfold State.field at h
  split at h <;> cases h
  rfl

/-- A field depends on the memory and the stride alone. -/
theorem field_congr {s t : State} (hm : t.mem = s.mem) (hp : t.params = s.params) (i off : Nat) :
    t.field i off = s.field i off := by
  simp only [State.field, hm, hp]

theorem fieldD_congr {s t : State} (hm : t.mem = s.mem) (hp : t.params = s.params) (i off : Nat) :
    t.fieldD i off = s.fieldD i off := by
  simp only [State.fieldD, hm, hp]

theorem marked_congr {s t : State} (hm : t.mem = s.mem) (hp : t.params = s.params) (i off : Nat) :
    t.marked i off = s.marked i off := by
  simp only [State.marked, hm, hp]

/-- The checks succeed exactly when the count and the indices are in range and every field read has its mark
(60_exceptions.md R226). -/
theorem checkCause_none_iff (s : State) :
    s.checkCause = .none ↔
      s.entryCount.toNat ≤ 900 ∧ (∀ i ∈ s.usedEntries, i < s.entryCount.toNat) ∧
        ∀ r ∈ s.readSet, s.marked r.1 r.2 = true := by
  unfold State.checkCause
  split
  · next h =>
    simp only [Bool.or_eq_true, decide_eq_true_eq, List.any_eq_true] at h
    simp only [reduceCtorEq, false_iff, not_and]
    intro h1 h2
    rcases h with h | ⟨i, hi, h⟩
    · omega
    · have := h2 i hi; omega
  · next h =>
    simp only [Bool.or_eq_true, decide_eq_true_eq, List.any_eq_true, not_or, not_exists, not_and] at h
    have h1 : s.entryCount.toNat ≤ 900 ∧ ∀ i ∈ s.usedEntries, i < s.entryCount.toNat :=
      ⟨by omega, fun i hi => by have := h.2 i hi; omega⟩
    split
    · next h2 => exact iff_of_true rfl ⟨h1.1, h1.2, List.all_eq_true.1 h2⟩
    · next h2 =>
      refine iff_of_false (by simp) fun h3 => h2 (List.all_eq_true.2 h3.2.2)

end Sys2Proof.Machine
end

