-- ==== Sys2Proof/Laws/State.lean ====
section
/-! SUPPORT. One lemma per field per update of the state, each true by `rfl`: no proof unfolds a record update. -/

namespace Sys2Proof.Machine

open Sys2Proof

variable (s : State)

@[simp] theorem State.setPto_busy : (s.setPto).busy = s.busy := rfl
@[simp] theorem State.setPto_done : (s.setPto).done = s.done := rfl
@[simp] theorem State.setPto_compw : (s.setPto).compw = s.compw := rfl
@[simp] theorem State.setPto_pto : (s.setPto).pto = true := rfl
@[simp] theorem State.setPto_ovr : (s.setPto).ovr = s.ovr := rfl
@[simp] theorem State.setPto_accerr : (s.setPto).accerr = s.accerr := rfl
@[simp] theorem State.setPto_fault : (s.setPto).fault = s.fault := rfl
@[simp] theorem State.setPto_code : (s.setPto).code = s.code := rfl
@[simp] theorem State.setPto_cause : (s.setPto).cause = s.cause := rfl
@[simp] theorem State.setPto_result : (s.setPto).result = s.result := rfl
@[simp] theorem State.setPto_stepNo : (s.setPto).stepNo = s.stepNo := rfl
@[simp] theorem State.setPto_cfg : (s.setPto).cfg = s.cfg := rfl
@[simp] theorem State.setPto_srcIdx : (s.setPto).srcIdx = s.srcIdx := rfl
@[simp] theorem State.setPto_dstIdx : (s.setPto).dstIdx = s.dstIdx := rfl
@[simp] theorem State.setPto_entryCount : (s.setPto).entryCount = s.entryCount := rfl
@[simp] theorem State.setPto_fspOp : (s.setPto).fspOp = s.fspOp := rfl
@[simp] theorem State.setPto_fspWr : (s.setPto).fspWr = s.fspWr := rfl
@[simp] theorem State.setPto_mem : (s.setPto).mem = s.mem := rfl
@[simp] theorem State.setPto_snap : (s.setPto).snap = s.snap := rfl
@[simp] theorem State.setPto_queue : (s.setPto).queue = s.queue := rfl
@[simp] theorem State.setPto_drain : (s.setPto).drain = s.drain := rfl
@[simp] theorem State.setPto_drainClk : (s.setPto).drainClk = s.drainClk := rfl
@[simp] theorem State.setPto_pass : (s.setPto).pass = s.pass := rfl
@[simp] theorem State.setPto_params : (s.setPto).params = s.params := rfl
@[simp] theorem State.setPto_session : (s.setPto).session = s.session := rfl
@[simp] theorem State.setPto_timerUs : (s.setPto).timerUs = s.timerUs := rfl
@[simp] theorem State.setPto_regIn : (s.setPto).regIn = s.regIn := rfl
@[simp] theorem State.setPto_sampleIn : (s.setPto).sampleIn = s.sampleIn := rfl
@[simp] theorem State.setPto_timerIn : (s.setPto).timerIn = s.timerIn := rfl
@[simp] theorem State.setPto_inbox : (s.setPto).inbox = s.inbox := rfl
@[simp] theorem State.setPto_quantum : (s.setPto).quantum = s.quantum := rfl
@[simp] theorem State.setPto_trace : (s.setPto).trace = s.trace := rfl
@[simp] theorem State.setPto_hostOut : (s.setPto).hostOut = s.hostOut := rfl

@[simp] theorem State.setOvr_busy : (s.setOvr).busy = s.busy := rfl
@[simp] theorem State.setOvr_done : (s.setOvr).done = s.done := rfl
@[simp] theorem State.setOvr_compw : (s.setOvr).compw = s.compw := rfl
@[simp] theorem State.setOvr_pto : (s.setOvr).pto = s.pto := rfl
@[simp] theorem State.setOvr_ovr : (s.setOvr).ovr = true := rfl
@[simp] theorem State.setOvr_accerr : (s.setOvr).accerr = s.accerr := rfl
@[simp] theorem State.setOvr_fault : (s.setOvr).fault = s.fault := rfl
@[simp] theorem State.setOvr_code : (s.setOvr).code = s.code := rfl
@[simp] theorem State.setOvr_cause : (s.setOvr).cause = s.cause := rfl
@[simp] theorem State.setOvr_result : (s.setOvr).result = s.result := rfl
@[simp] theorem State.setOvr_stepNo : (s.setOvr).stepNo = s.stepNo := rfl
@[simp] theorem State.setOvr_cfg : (s.setOvr).cfg = s.cfg := rfl
@[simp] theorem State.setOvr_srcIdx : (s.setOvr).srcIdx = s.srcIdx := rfl
@[simp] theorem State.setOvr_dstIdx : (s.setOvr).dstIdx = s.dstIdx := rfl
@[simp] theorem State.setOvr_entryCount : (s.setOvr).entryCount = s.entryCount := rfl
@[simp] theorem State.setOvr_fspOp : (s.setOvr).fspOp = s.fspOp := rfl
@[simp] theorem State.setOvr_fspWr : (s.setOvr).fspWr = s.fspWr := rfl
@[simp] theorem State.setOvr_mem : (s.setOvr).mem = s.mem := rfl
@[simp] theorem State.setOvr_snap : (s.setOvr).snap = s.snap := rfl
@[simp] theorem State.setOvr_queue : (s.setOvr).queue = s.queue := rfl
@[simp] theorem State.setOvr_drain : (s.setOvr).drain = s.drain := rfl
@[simp] theorem State.setOvr_drainClk : (s.setOvr).drainClk = s.drainClk := rfl
@[simp] theorem State.setOvr_pass : (s.setOvr).pass = s.pass := rfl
@[simp] theorem State.setOvr_params : (s.setOvr).params = s.params := rfl
@[simp] theorem State.setOvr_session : (s.setOvr).session = s.session := rfl
@[simp] theorem State.setOvr_timerUs : (s.setOvr).timerUs = s.timerUs := rfl
@[simp] theorem State.setOvr_regIn : (s.setOvr).regIn = s.regIn := rfl
@[simp] theorem State.setOvr_sampleIn : (s.setOvr).sampleIn = s.sampleIn := rfl
@[simp] theorem State.setOvr_timerIn : (s.setOvr).timerIn = s.timerIn := rfl
@[simp] theorem State.setOvr_inbox : (s.setOvr).inbox = s.inbox := rfl
@[simp] theorem State.setOvr_quantum : (s.setOvr).quantum = s.quantum := rfl
@[simp] theorem State.setOvr_trace : (s.setOvr).trace = s.trace := rfl
@[simp] theorem State.setOvr_hostOut : (s.setOvr).hostOut = s.hostOut := rfl

@[simp] theorem State.setAccerr_busy : (s.setAccerr).busy = s.busy := rfl
@[simp] theorem State.setAccerr_done : (s.setAccerr).done = s.done := rfl
@[simp] theorem State.setAccerr_compw : (s.setAccerr).compw = s.compw := rfl
@[simp] theorem State.setAccerr_pto : (s.setAccerr).pto = s.pto := rfl
@[simp] theorem State.setAccerr_ovr : (s.setAccerr).ovr = s.ovr := rfl
@[simp] theorem State.setAccerr_accerr : (s.setAccerr).accerr = true := rfl
@[simp] theorem State.setAccerr_fault : (s.setAccerr).fault = s.fault := rfl
@[simp] theorem State.setAccerr_code : (s.setAccerr).code = s.code := rfl
@[simp] theorem State.setAccerr_cause : (s.setAccerr).cause = s.cause := rfl
@[simp] theorem State.setAccerr_result : (s.setAccerr).result = s.result := rfl
@[simp] theorem State.setAccerr_stepNo : (s.setAccerr).stepNo = s.stepNo := rfl
@[simp] theorem State.setAccerr_cfg : (s.setAccerr).cfg = s.cfg := rfl
@[simp] theorem State.setAccerr_srcIdx : (s.setAccerr).srcIdx = s.srcIdx := rfl
@[simp] theorem State.setAccerr_dstIdx : (s.setAccerr).dstIdx = s.dstIdx := rfl
@[simp] theorem State.setAccerr_entryCount : (s.setAccerr).entryCount = s.entryCount := rfl
@[simp] theorem State.setAccerr_fspOp : (s.setAccerr).fspOp = s.fspOp := rfl
@[simp] theorem State.setAccerr_fspWr : (s.setAccerr).fspWr = s.fspWr := rfl
@[simp] theorem State.setAccerr_mem : (s.setAccerr).mem = s.mem := rfl
@[simp] theorem State.setAccerr_snap : (s.setAccerr).snap = s.snap := rfl
@[simp] theorem State.setAccerr_queue : (s.setAccerr).queue = s.queue := rfl
@[simp] theorem State.setAccerr_drain : (s.setAccerr).drain = s.drain := rfl
@[simp] theorem State.setAccerr_drainClk : (s.setAccerr).drainClk = s.drainClk := rfl
@[simp] theorem State.setAccerr_pass : (s.setAccerr).pass = s.pass := rfl
@[simp] theorem State.setAccerr_params : (s.setAccerr).params = s.params := rfl
@[simp] theorem State.setAccerr_session : (s.setAccerr).session = s.session := rfl
@[simp] theorem State.setAccerr_timerUs : (s.setAccerr).timerUs = s.timerUs := rfl
@[simp] theorem State.setAccerr_regIn : (s.setAccerr).regIn = s.regIn := rfl
@[simp] theorem State.setAccerr_sampleIn : (s.setAccerr).sampleIn = s.sampleIn := rfl
@[simp] theorem State.setAccerr_timerIn : (s.setAccerr).timerIn = s.timerIn := rfl
@[simp] theorem State.setAccerr_inbox : (s.setAccerr).inbox = s.inbox := rfl
@[simp] theorem State.setAccerr_quantum : (s.setAccerr).quantum = s.quantum := rfl
@[simp] theorem State.setAccerr_trace : (s.setAccerr).trace = s.trace := rfl
@[simp] theorem State.setAccerr_hostOut : (s.setAccerr).hostOut = s.hostOut := rfl

@[simp] theorem State.writeStatus_busy (w : Word) : (s.writeStatus w).busy = s.busy := rfl
@[simp] theorem State.writeStatus_done (w : Word) : (s.writeStatus w).done = (s.done && !w.getLsbD 1) := rfl
@[simp] theorem State.writeStatus_compw (w : Word) : (s.writeStatus w).compw = s.compw := rfl
@[simp] theorem State.writeStatus_pto (w : Word) : (s.writeStatus w).pto = (s.pto && !w.getLsbD 3) := rfl
@[simp] theorem State.writeStatus_ovr (w : Word) : (s.writeStatus w).ovr = (s.ovr && !w.getLsbD 4) := rfl
@[simp] theorem State.writeStatus_accerr (w : Word) : (s.writeStatus w).accerr = (s.accerr && !w.getLsbD 5) := rfl
@[simp] theorem State.writeStatus_fault (w : Word) : (s.writeStatus w).fault = s.fault := rfl
@[simp] theorem State.writeStatus_code (w : Word) : (s.writeStatus w).code = s.code := rfl
@[simp] theorem State.writeStatus_cause (w : Word) : (s.writeStatus w).cause = s.cause := rfl
@[simp] theorem State.writeStatus_result (w : Word) : (s.writeStatus w).result = s.result := rfl
@[simp] theorem State.writeStatus_stepNo (w : Word) : (s.writeStatus w).stepNo = s.stepNo := rfl
@[simp] theorem State.writeStatus_cfg (w : Word) : (s.writeStatus w).cfg = s.cfg := rfl
@[simp] theorem State.writeStatus_srcIdx (w : Word) : (s.writeStatus w).srcIdx = s.srcIdx := rfl
@[simp] theorem State.writeStatus_dstIdx (w : Word) : (s.writeStatus w).dstIdx = s.dstIdx := rfl
@[simp] theorem State.writeStatus_entryCount (w : Word) : (s.writeStatus w).entryCount = s.entryCount := rfl
@[simp] theorem State.writeStatus_fspOp (w : Word) : (s.writeStatus w).fspOp = s.fspOp := rfl
@[simp] theorem State.writeStatus_fspWr (w : Word) : (s.writeStatus w).fspWr = s.fspWr := rfl
@[simp] theorem State.writeStatus_mem (w : Word) : (s.writeStatus w).mem = s.mem := rfl
@[simp] theorem State.writeStatus_snap (w : Word) : (s.writeStatus w).snap = s.snap := rfl
@[simp] theorem State.writeStatus_queue (w : Word) : (s.writeStatus w).queue = s.queue := rfl
@[simp] theorem State.writeStatus_drain (w : Word) : (s.writeStatus w).drain = s.drain := rfl
@[simp] theorem State.writeStatus_drainClk (w : Word) : (s.writeStatus w).drainClk = s.drainClk := rfl
@[simp] theorem State.writeStatus_pass (w : Word) : (s.writeStatus w).pass = s.pass := rfl
@[simp] theorem State.writeStatus_params (w : Word) : (s.writeStatus w).params = s.params := rfl
@[simp] theorem State.writeStatus_session (w : Word) : (s.writeStatus w).session = s.session := rfl
@[simp] theorem State.writeStatus_timerUs (w : Word) : (s.writeStatus w).timerUs = s.timerUs := rfl
@[simp] theorem State.writeStatus_regIn (w : Word) : (s.writeStatus w).regIn = s.regIn := rfl
@[simp] theorem State.writeStatus_sampleIn (w : Word) : (s.writeStatus w).sampleIn = s.sampleIn := rfl
@[simp] theorem State.writeStatus_timerIn (w : Word) : (s.writeStatus w).timerIn = s.timerIn := rfl
@[simp] theorem State.writeStatus_inbox (w : Word) : (s.writeStatus w).inbox = s.inbox := rfl
@[simp] theorem State.writeStatus_quantum (w : Word) : (s.writeStatus w).quantum = s.quantum := rfl
@[simp] theorem State.writeStatus_trace (w : Word) : (s.writeStatus w).trace = s.trace := rfl
@[simp] theorem State.writeStatus_hostOut (w : Word) : (s.writeStatus w).hostOut = s.hostOut := rfl

@[simp] theorem State.endFlags_busy (c : Cause) : (s.endFlags c).busy = false := rfl
@[simp] theorem State.endFlags_done (c : Cause) : (s.endFlags c).done = true := rfl
@[simp] theorem State.endFlags_compw (c : Cause) : (s.endFlags c).compw = s.compw := rfl
@[simp] theorem State.endFlags_pto (c : Cause) : (s.endFlags c).pto = s.pto := rfl
@[simp] theorem State.endFlags_ovr (c : Cause) : (s.endFlags c).ovr = s.ovr := rfl
@[simp] theorem State.endFlags_accerr (c : Cause) : (s.endFlags c).accerr = s.accerr := rfl
@[simp] theorem State.endFlags_fault (c : Cause) : (s.endFlags c).fault = (s.fault || causeIsFault c) := rfl
@[simp] theorem State.endFlags_code (c : Cause) : (s.endFlags c).code = statusCode c := rfl
@[simp] theorem State.endFlags_cause (c : Cause) : (s.endFlags c).cause = c := rfl
@[simp] theorem State.endFlags_result (c : Cause) : (s.endFlags c).result = s.result := rfl
@[simp] theorem State.endFlags_stepNo (c : Cause) : (s.endFlags c).stepNo = s.stepNo := rfl
@[simp] theorem State.endFlags_cfg (c : Cause) : (s.endFlags c).cfg = s.cfg := rfl
@[simp] theorem State.endFlags_srcIdx (c : Cause) : (s.endFlags c).srcIdx = s.srcIdx := rfl
@[simp] theorem State.endFlags_dstIdx (c : Cause) : (s.endFlags c).dstIdx = s.dstIdx := rfl
@[simp] theorem State.endFlags_entryCount (c : Cause) : (s.endFlags c).entryCount = s.entryCount := rfl
@[simp] theorem State.endFlags_fspOp (c : Cause) : (s.endFlags c).fspOp = s.fspOp := rfl
@[simp] theorem State.endFlags_fspWr (c : Cause) : (s.endFlags c).fspWr = s.fspWr := rfl
@[simp] theorem State.endFlags_mem (c : Cause) : (s.endFlags c).mem = s.mem := rfl
@[simp] theorem State.endFlags_snap (c : Cause) : (s.endFlags c).snap = s.snap := rfl
@[simp] theorem State.endFlags_queue (c : Cause) : (s.endFlags c).queue = s.queue := rfl
@[simp] theorem State.endFlags_drain (c : Cause) : (s.endFlags c).drain = s.drain := rfl
@[simp] theorem State.endFlags_drainClk (c : Cause) : (s.endFlags c).drainClk = s.drainClk := rfl
@[simp] theorem State.endFlags_pass (c : Cause) : (s.endFlags c).pass = s.pass := rfl
@[simp] theorem State.endFlags_params (c : Cause) : (s.endFlags c).params = s.params := rfl
@[simp] theorem State.endFlags_session (c : Cause) : (s.endFlags c).session = s.session := rfl
@[simp] theorem State.endFlags_timerUs (c : Cause) : (s.endFlags c).timerUs = s.timerUs := rfl
@[simp] theorem State.endFlags_regIn (c : Cause) : (s.endFlags c).regIn = s.regIn := rfl
@[simp] theorem State.endFlags_sampleIn (c : Cause) : (s.endFlags c).sampleIn = s.sampleIn := rfl
@[simp] theorem State.endFlags_timerIn (c : Cause) : (s.endFlags c).timerIn = s.timerIn := rfl
@[simp] theorem State.endFlags_inbox (c : Cause) : (s.endFlags c).inbox = s.inbox := rfl
@[simp] theorem State.endFlags_quantum (c : Cause) : (s.endFlags c).quantum = s.quantum := rfl
@[simp] theorem State.endFlags_trace (c : Cause) : (s.endFlags c).trace = s.trace := rfl
@[simp] theorem State.endFlags_hostOut (c : Cause) : (s.endFlags c).hostOut = s.hostOut := rfl

@[simp] theorem State.setFields_busy (i : Nat) (ws : List (Nat × Word)) : (s.setFields i ws).busy = s.busy := rfl
@[simp] theorem State.setFields_done (i : Nat) (ws : List (Nat × Word)) : (s.setFields i ws).done = s.done := rfl
@[simp] theorem State.setFields_compw (i : Nat) (ws : List (Nat × Word)) : (s.setFields i ws).compw = s.compw := rfl
@[simp] theorem State.setFields_pto (i : Nat) (ws : List (Nat × Word)) : (s.setFields i ws).pto = s.pto := rfl
@[simp] theorem State.setFields_ovr (i : Nat) (ws : List (Nat × Word)) : (s.setFields i ws).ovr = s.ovr := rfl
@[simp] theorem State.setFields_accerr (i : Nat) (ws : List (Nat × Word)) : (s.setFields i ws).accerr = s.accerr :=
    rfl
@[simp] theorem State.setFields_fault (i : Nat) (ws : List (Nat × Word)) : (s.setFields i ws).fault = s.fault := rfl
@[simp] theorem State.setFields_code (i : Nat) (ws : List (Nat × Word)) : (s.setFields i ws).code = s.code := rfl
@[simp] theorem State.setFields_cause (i : Nat) (ws : List (Nat × Word)) : (s.setFields i ws).cause = s.cause := rfl
@[simp] theorem State.setFields_result (i : Nat) (ws : List (Nat × Word)) : (s.setFields i ws).result = s.result :=
    rfl
@[simp] theorem State.setFields_stepNo (i : Nat) (ws : List (Nat × Word)) : (s.setFields i ws).stepNo = s.stepNo :=
    rfl
@[simp] theorem State.setFields_cfg (i : Nat) (ws : List (Nat × Word)) : (s.setFields i ws).cfg = s.cfg := rfl
@[simp] theorem State.setFields_srcIdx (i : Nat) (ws : List (Nat × Word)) : (s.setFields i ws).srcIdx = s.srcIdx :=
    rfl
@[simp] theorem State.setFields_dstIdx (i : Nat) (ws : List (Nat × Word)) : (s.setFields i ws).dstIdx = s.dstIdx :=
    rfl
@[simp] theorem State.setFields_entryCount (i : Nat) (ws : List (Nat × Word)) : (s.setFields i ws).entryCount =
    s.entryCount := rfl
@[simp] theorem State.setFields_fspOp (i : Nat) (ws : List (Nat × Word)) : (s.setFields i ws).fspOp = s.fspOp := rfl
@[simp] theorem State.setFields_fspWr (i : Nat) (ws : List (Nat × Word)) : (s.setFields i ws).fspWr = s.fspWr := rfl
@[simp] theorem State.setFields_mem (i : Nat) (ws : List (Nat × Word)) : (s.setFields i ws).mem = memSetWords s.mem
    (ws.map fun p => (entryBase s.params i + p.1, p.2)) := rfl
@[simp] theorem State.setFields_snap (i : Nat) (ws : List (Nat × Word)) : (s.setFields i ws).snap = s.snap := rfl
@[simp] theorem State.setFields_queue (i : Nat) (ws : List (Nat × Word)) : (s.setFields i ws).queue = s.queue := rfl
@[simp] theorem State.setFields_drain (i : Nat) (ws : List (Nat × Word)) : (s.setFields i ws).drain = s.drain := rfl
@[simp] theorem State.setFields_drainClk (i : Nat) (ws : List (Nat × Word)) : (s.setFields i ws).drainClk =
    s.drainClk := rfl
@[simp] theorem State.setFields_pass (i : Nat) (ws : List (Nat × Word)) : (s.setFields i ws).pass = s.pass := rfl
@[simp] theorem State.setFields_params (i : Nat) (ws : List (Nat × Word)) : (s.setFields i ws).params = s.params :=
    rfl
@[simp] theorem State.setFields_session (i : Nat) (ws : List (Nat × Word)) : (s.setFields i ws).session =
    s.session := rfl
@[simp] theorem State.setFields_timerUs (i : Nat) (ws : List (Nat × Word)) : (s.setFields i ws).timerUs =
    s.timerUs := rfl
@[simp] theorem State.setFields_regIn (i : Nat) (ws : List (Nat × Word)) : (s.setFields i ws).regIn = s.regIn := rfl
@[simp] theorem State.setFields_sampleIn (i : Nat) (ws : List (Nat × Word)) : (s.setFields i ws).sampleIn =
    s.sampleIn := rfl
@[simp] theorem State.setFields_timerIn (i : Nat) (ws : List (Nat × Word)) : (s.setFields i ws).timerIn =
    s.timerIn := rfl
@[simp] theorem State.setFields_inbox (i : Nat) (ws : List (Nat × Word)) : (s.setFields i ws).inbox = s.inbox := rfl
@[simp] theorem State.setFields_quantum (i : Nat) (ws : List (Nat × Word)) : (s.setFields i ws).quantum =
    s.quantum := rfl
@[simp] theorem State.setFields_trace (i : Nat) (ws : List (Nat × Word)) : (s.setFields i ws).trace = s.trace := rfl
@[simp] theorem State.setFields_hostOut (i : Nat) (ws : List (Nat × Word)) : (s.setFields i ws).hostOut =
    s.hostOut := rfl

@[simp] theorem State.regWrite_busy (sp : Space) (a v : Word) : (s.regWrite sp a v).busy = s.busy := rfl
@[simp] theorem State.regWrite_done (sp : Space) (a v : Word) : (s.regWrite sp a v).done = s.done := rfl
@[simp] theorem State.regWrite_compw (sp : Space) (a v : Word) : (s.regWrite sp a v).compw = s.compw := rfl
@[simp] theorem State.regWrite_pto (sp : Space) (a v : Word) : (s.regWrite sp a v).pto = s.pto := rfl
@[simp] theorem State.regWrite_ovr (sp : Space) (a v : Word) : (s.regWrite sp a v).ovr = s.ovr := rfl
@[simp] theorem State.regWrite_accerr (sp : Space) (a v : Word) : (s.regWrite sp a v).accerr = s.accerr := rfl
@[simp] theorem State.regWrite_fault (sp : Space) (a v : Word) : (s.regWrite sp a v).fault = s.fault := rfl
@[simp] theorem State.regWrite_code (sp : Space) (a v : Word) : (s.regWrite sp a v).code = s.code := rfl
@[simp] theorem State.regWrite_cause (sp : Space) (a v : Word) : (s.regWrite sp a v).cause = s.cause := rfl
@[simp] theorem State.regWrite_result (sp : Space) (a v : Word) : (s.regWrite sp a v).result = s.result := rfl
@[simp] theorem State.regWrite_stepNo (sp : Space) (a v : Word) : (s.regWrite sp a v).stepNo = s.stepNo := rfl
@[simp] theorem State.regWrite_cfg (sp : Space) (a v : Word) : (s.regWrite sp a v).cfg = s.cfg := rfl
@[simp] theorem State.regWrite_srcIdx (sp : Space) (a v : Word) : (s.regWrite sp a v).srcIdx = s.srcIdx := rfl
@[simp] theorem State.regWrite_dstIdx (sp : Space) (a v : Word) : (s.regWrite sp a v).dstIdx = s.dstIdx := rfl
@[simp] theorem State.regWrite_entryCount (sp : Space) (a v : Word) : (s.regWrite sp a v).entryCount =
    s.entryCount := rfl
@[simp] theorem State.regWrite_fspOp (sp : Space) (a v : Word) : (s.regWrite sp a v).fspOp = s.fspOp := rfl
@[simp] theorem State.regWrite_fspWr (sp : Space) (a v : Word) : (s.regWrite sp a v).fspWr = s.fspWr := rfl
@[simp] theorem State.regWrite_mem (sp : Space) (a v : Word) : (s.regWrite sp a v).mem = s.mem := rfl
@[simp] theorem State.regWrite_snap (sp : Space) (a v : Word) : (s.regWrite sp a v).snap = s.snap := rfl
@[simp] theorem State.regWrite_queue (sp : Space) (a v : Word) : (s.regWrite sp a v).queue = s.queue := rfl
@[simp] theorem State.regWrite_drain (sp : Space) (a v : Word) : (s.regWrite sp a v).drain = s.drain := rfl
@[simp] theorem State.regWrite_drainClk (sp : Space) (a v : Word) : (s.regWrite sp a v).drainClk = s.drainClk := rfl
@[simp] theorem State.regWrite_pass (sp : Space) (a v : Word) : (s.regWrite sp a v).pass = s.pass := rfl
@[simp] theorem State.regWrite_params (sp : Space) (a v : Word) : (s.regWrite sp a v).params = s.params := rfl
@[simp] theorem State.regWrite_session (sp : Space) (a v : Word) : (s.regWrite sp a v).session = s.session := rfl
@[simp] theorem State.regWrite_timerUs (sp : Space) (a v : Word) : (s.regWrite sp a v).timerUs = s.timerUs := rfl
@[simp] theorem State.regWrite_regIn (sp : Space) (a v : Word) : (s.regWrite sp a v).regIn = s.regIn := rfl
@[simp] theorem State.regWrite_sampleIn (sp : Space) (a v : Word) : (s.regWrite sp a v).sampleIn = s.sampleIn := rfl
@[simp] theorem State.regWrite_timerIn (sp : Space) (a v : Word) : (s.regWrite sp a v).timerIn = s.timerIn := rfl
@[simp] theorem State.regWrite_inbox (sp : Space) (a v : Word) : (s.regWrite sp a v).inbox = s.inbox := rfl
@[simp] theorem State.regWrite_quantum (sp : Space) (a v : Word) : (s.regWrite sp a v).quantum = s.quantum := rfl
@[simp] theorem State.regWrite_trace (sp : Space) (a v : Word) : (s.regWrite sp a v).trace = s.trace ++
    [.write sp a v] := rfl
@[simp] theorem State.regWrite_hostOut (sp : Space) (a v : Word) : (s.regWrite sp a v).hostOut = s.hostOut := rfl

@[simp] theorem State.accept_busy (i : Instr) : (s.accept i).busy = true := rfl
@[simp] theorem State.accept_done (i : Instr) : (s.accept i).done = false := rfl
@[simp] theorem State.accept_compw (i : Instr) : (s.accept i).compw = (s.compw && !cmdIsSwitch i) := rfl
@[simp] theorem State.accept_pto (i : Instr) : (s.accept i).pto = s.pto := rfl
@[simp] theorem State.accept_ovr (i : Instr) : (s.accept i).ovr = s.ovr := rfl
@[simp] theorem State.accept_accerr (i : Instr) : (s.accept i).accerr = s.accerr := rfl
@[simp] theorem State.accept_fault (i : Instr) : (s.accept i).fault = s.fault := rfl
@[simp] theorem State.accept_code (i : Instr) : (s.accept i).code = 0 := rfl
@[simp] theorem State.accept_cause (i : Instr) : (s.accept i).cause = .none := rfl
@[simp] theorem State.accept_result (i : Instr) : (s.accept i).result = s.result := rfl
@[simp] theorem State.accept_stepNo (i : Instr) : (s.accept i).stepNo = 0 := rfl
@[simp] theorem State.accept_cfg (i : Instr) : (s.accept i).cfg = s.cfg := rfl
@[simp] theorem State.accept_srcIdx (i : Instr) : (s.accept i).srcIdx = s.srcIdx := rfl
@[simp] theorem State.accept_dstIdx (i : Instr) : (s.accept i).dstIdx = s.dstIdx := rfl
@[simp] theorem State.accept_entryCount (i : Instr) : (s.accept i).entryCount = s.entryCount := rfl
@[simp] theorem State.accept_fspOp (i : Instr) : (s.accept i).fspOp = s.fspOp := rfl
@[simp] theorem State.accept_fspWr (i : Instr) : (s.accept i).fspWr = s.fspWr := rfl
@[simp] theorem State.accept_mem (i : Instr) : (s.accept i).mem = s.mem := rfl
@[simp] theorem State.accept_snap (i : Instr) : (s.accept i).snap = emptySnap s.params := rfl
@[simp] theorem State.accept_queue (i : Instr) : (s.accept i).queue = s.queue := rfl
@[simp] theorem State.accept_drain (i : Instr) : (s.accept i).drain = s.drain := rfl
@[simp] theorem State.accept_drainClk (i : Instr) : (s.accept i).drainClk = s.drainClk := rfl
@[simp] theorem State.accept_pass (i : Instr) : (s.accept i).pass =
    ⟨i, s.srcIdx, s.dstIdx, cmdMask i, 0, 0, 0, s.mem, ⟨[], [], []⟩⟩ := rfl
@[simp] theorem State.accept_params (i : Instr) : (s.accept i).params = s.params := rfl
@[simp] theorem State.accept_session (i : Instr) : (s.accept i).session = s.session := rfl
@[simp] theorem State.accept_timerUs (i : Instr) : (s.accept i).timerUs = s.timerUs := rfl
@[simp] theorem State.accept_regIn (i : Instr) : (s.accept i).regIn = s.regIn := rfl
@[simp] theorem State.accept_sampleIn (i : Instr) : (s.accept i).sampleIn = s.sampleIn := rfl
@[simp] theorem State.accept_timerIn (i : Instr) : (s.accept i).timerIn = s.timerIn := rfl
@[simp] theorem State.accept_inbox (i : Instr) : (s.accept i).inbox = s.inbox := rfl
@[simp] theorem State.accept_quantum (i : Instr) : (s.accept i).quantum = s.quantum := rfl
@[simp] theorem State.accept_trace (i : Instr) : (s.accept i).trace = s.trace := rfl
@[simp] theorem State.accept_hostOut (i : Instr) : (s.accept i).hostOut = s.hostOut := rfl

@[simp] theorem State.abort_busy (c : Cause) : (s.abort c).busy = false := rfl
@[simp] theorem State.abort_done (c : Cause) : (s.abort c).done = true := rfl
@[simp] theorem State.abort_compw (c : Cause) : (s.abort c).compw = s.compw := rfl
@[simp] theorem State.abort_pto (c : Cause) : (s.abort c).pto = s.pto := rfl
@[simp] theorem State.abort_ovr (c : Cause) : (s.abort c).ovr = s.ovr := rfl
@[simp] theorem State.abort_accerr (c : Cause) : (s.abort c).accerr = s.accerr := rfl
@[simp] theorem State.abort_fault (c : Cause) : (s.abort c).fault = (s.fault || causeIsFault c) := rfl
@[simp] theorem State.abort_code (c : Cause) : (s.abort c).code = statusCode c := rfl
@[simp] theorem State.abort_cause (c : Cause) : (s.abort c).cause = c := rfl
@[simp] theorem State.abort_result (c : Cause) : (s.abort c).result = s.result := rfl
@[simp] theorem State.abort_stepNo (c : Cause) : (s.abort c).stepNo = s.stepNo := rfl
@[simp] theorem State.abort_cfg (c : Cause) : (s.abort c).cfg = s.cfg := rfl
@[simp] theorem State.abort_srcIdx (c : Cause) : (s.abort c).srcIdx = s.srcIdx := rfl
@[simp] theorem State.abort_dstIdx (c : Cause) : (s.abort c).dstIdx = s.dstIdx := rfl
@[simp] theorem State.abort_entryCount (c : Cause) : (s.abort c).entryCount = s.entryCount := rfl
@[simp] theorem State.abort_fspOp (c : Cause) : (s.abort c).fspOp = s.fspOp := rfl
@[simp] theorem State.abort_fspWr (c : Cause) : (s.abort c).fspWr = s.fspWr := rfl
@[simp] theorem State.abort_mem (c : Cause) : (s.abort c).mem = s.mem := rfl
@[simp] theorem State.abort_snap (c : Cause) : (s.abort c).snap = s.snap := rfl
@[simp] theorem State.abort_queue (c : Cause) : (s.abort c).queue = s.queue := rfl
@[simp] theorem State.abort_drain (c : Cause) : (s.abort c).drain = s.drain := rfl
@[simp] theorem State.abort_drainClk (c : Cause) : (s.abort c).drainClk = s.drainClk := rfl
@[simp] theorem State.abort_pass (c : Cause) : (s.abort c).pass = Pass.idle := rfl
@[simp] theorem State.abort_params (c : Cause) : (s.abort c).params = s.params := rfl
@[simp] theorem State.abort_session (c : Cause) : (s.abort c).session = s.session := rfl
@[simp] theorem State.abort_timerUs (c : Cause) : (s.abort c).timerUs = s.timerUs := rfl
@[simp] theorem State.abort_regIn (c : Cause) : (s.abort c).regIn = s.regIn := rfl
@[simp] theorem State.abort_sampleIn (c : Cause) : (s.abort c).sampleIn = s.sampleIn := rfl
@[simp] theorem State.abort_timerIn (c : Cause) : (s.abort c).timerIn = s.timerIn := rfl
@[simp] theorem State.abort_inbox (c : Cause) : (s.abort c).inbox = s.inbox := rfl
@[simp] theorem State.abort_quantum (c : Cause) : (s.abort c).quantum = s.quantum := rfl
@[simp] theorem State.abort_trace (c : Cause) : (s.abort c).trace = s.trace := rfl
@[simp] theorem State.abort_hostOut (c : Cause) : (s.abort c).hostOut = s.hostOut := rfl

@[simp] theorem State.succeed_busy (r : ResultSel) : (s.succeed r).busy = false := rfl
@[simp] theorem State.succeed_done (r : ResultSel) : (s.succeed r).done = true := rfl
@[simp] theorem State.succeed_compw (r : ResultSel) : (s.succeed r).compw = s.compw := rfl
@[simp] theorem State.succeed_pto (r : ResultSel) : (s.succeed r).pto = s.pto := rfl
@[simp] theorem State.succeed_ovr (r : ResultSel) : (s.succeed r).ovr = s.ovr := rfl
@[simp] theorem State.succeed_accerr (r : ResultSel) : (s.succeed r).accerr = s.accerr := rfl
@[simp] theorem State.succeed_fault (r : ResultSel) : (s.succeed r).fault = (s.fault || false) := rfl
@[simp] theorem State.succeed_code (r : ResultSel) : (s.succeed r).code = 0 := rfl
@[simp] theorem State.succeed_cause (r : ResultSel) : (s.succeed r).cause = .none := rfl
@[simp] theorem State.succeed_stepNo (r : ResultSel) : (s.succeed r).stepNo = s.stepNo := rfl
@[simp] theorem State.succeed_cfg (r : ResultSel) : (s.succeed r).cfg = s.cfg := rfl
@[simp] theorem State.succeed_srcIdx (r : ResultSel) : (s.succeed r).srcIdx = s.srcIdx := rfl
@[simp] theorem State.succeed_dstIdx (r : ResultSel) : (s.succeed r).dstIdx = s.dstIdx := rfl
@[simp] theorem State.succeed_entryCount (r : ResultSel) : (s.succeed r).entryCount = s.entryCount := rfl
@[simp] theorem State.succeed_fspOp (r : ResultSel) : (s.succeed r).fspOp = s.fspOp := rfl
@[simp] theorem State.succeed_fspWr (r : ResultSel) : (s.succeed r).fspWr = s.fspWr := rfl
@[simp] theorem State.succeed_mem (r : ResultSel) : (s.succeed r).mem = s.mem := rfl
@[simp] theorem State.succeed_snap (r : ResultSel) : (s.succeed r).snap = s.snap := rfl
@[simp] theorem State.succeed_queue (r : ResultSel) : (s.succeed r).queue = s.queue := rfl
@[simp] theorem State.succeed_drain (r : ResultSel) : (s.succeed r).drain = s.drain := rfl
@[simp] theorem State.succeed_drainClk (r : ResultSel) : (s.succeed r).drainClk = s.drainClk := rfl
@[simp] theorem State.succeed_pass (r : ResultSel) : (s.succeed r).pass = Pass.idle := rfl
@[simp] theorem State.succeed_params (r : ResultSel) : (s.succeed r).params = s.params := rfl
@[simp] theorem State.succeed_session (r : ResultSel) : (s.succeed r).session = s.session := rfl
@[simp] theorem State.succeed_timerUs (r : ResultSel) : (s.succeed r).timerUs = s.timerUs := rfl
@[simp] theorem State.succeed_regIn (r : ResultSel) : (s.succeed r).regIn = s.regIn := rfl
@[simp] theorem State.succeed_sampleIn (r : ResultSel) : (s.succeed r).sampleIn = s.sampleIn := rfl
@[simp] theorem State.succeed_timerIn (r : ResultSel) : (s.succeed r).timerIn = s.timerIn := rfl
@[simp] theorem State.succeed_inbox (r : ResultSel) : (s.succeed r).inbox = s.inbox := rfl
@[simp] theorem State.succeed_quantum (r : ResultSel) : (s.succeed r).quantum = s.quantum := rfl
@[simp] theorem State.succeed_trace (r : ResultSel) : (s.succeed r).trace = s.trace := rfl
@[simp] theorem State.succeed_hostOut (r : ResultSel) : (s.succeed r).hostOut = s.hostOut := rfl

@[simp] theorem State.illegalWord_busy : (s.illegalWord).busy = s.busy := rfl
@[simp] theorem State.illegalWord_done : (s.illegalWord).done = true := rfl
@[simp] theorem State.illegalWord_compw : (s.illegalWord).compw = s.compw := rfl
@[simp] theorem State.illegalWord_pto : (s.illegalWord).pto = s.pto := rfl
@[simp] theorem State.illegalWord_ovr : (s.illegalWord).ovr = s.ovr := rfl
@[simp] theorem State.illegalWord_accerr : (s.illegalWord).accerr = s.accerr := rfl
@[simp] theorem State.illegalWord_fault : (s.illegalWord).fault = s.fault := rfl
@[simp] theorem State.illegalWord_code : (s.illegalWord).code = 4 := rfl
@[simp] theorem State.illegalWord_cause : (s.illegalWord).cause = .illegal := rfl
@[simp] theorem State.illegalWord_result : (s.illegalWord).result = s.result := rfl
@[simp] theorem State.illegalWord_stepNo : (s.illegalWord).stepNo = s.stepNo := rfl
@[simp] theorem State.illegalWord_cfg : (s.illegalWord).cfg = s.cfg := rfl
@[simp] theorem State.illegalWord_srcIdx : (s.illegalWord).srcIdx = s.srcIdx := rfl
@[simp] theorem State.illegalWord_dstIdx : (s.illegalWord).dstIdx = s.dstIdx := rfl
@[simp] theorem State.illegalWord_entryCount : (s.illegalWord).entryCount = s.entryCount := rfl
@[simp] theorem State.illegalWord_fspOp : (s.illegalWord).fspOp = s.fspOp := rfl
@[simp] theorem State.illegalWord_fspWr : (s.illegalWord).fspWr = s.fspWr := rfl
@[simp] theorem State.illegalWord_mem : (s.illegalWord).mem = s.mem := rfl
@[simp] theorem State.illegalWord_snap : (s.illegalWord).snap = s.snap := rfl
@[simp] theorem State.illegalWord_queue : (s.illegalWord).queue = s.queue := rfl
@[simp] theorem State.illegalWord_drain : (s.illegalWord).drain = s.drain := rfl
@[simp] theorem State.illegalWord_drainClk : (s.illegalWord).drainClk = s.drainClk := rfl
@[simp] theorem State.illegalWord_pass : (s.illegalWord).pass = s.pass := rfl
@[simp] theorem State.illegalWord_params : (s.illegalWord).params = s.params := rfl
@[simp] theorem State.illegalWord_session : (s.illegalWord).session = s.session := rfl
@[simp] theorem State.illegalWord_timerUs : (s.illegalWord).timerUs = s.timerUs := rfl
@[simp] theorem State.illegalWord_regIn : (s.illegalWord).regIn = s.regIn := rfl
@[simp] theorem State.illegalWord_sampleIn : (s.illegalWord).sampleIn = s.sampleIn := rfl
@[simp] theorem State.illegalWord_timerIn : (s.illegalWord).timerIn = s.timerIn := rfl
@[simp] theorem State.illegalWord_inbox : (s.illegalWord).inbox = s.inbox := rfl
@[simp] theorem State.illegalWord_quantum : (s.illegalWord).quantum = s.quantum := rfl
@[simp] theorem State.illegalWord_trace : (s.illegalWord).trace = s.trace := rfl
@[simp] theorem State.illegalWord_hostOut : (s.illegalWord).hostOut = s.hostOut := rfl

@[simp] theorem State.suspend_busy (c : Cont) : (s.suspend c).busy = s.busy := rfl
@[simp] theorem State.suspend_done (c : Cont) : (s.suspend c).done = s.done := rfl
@[simp] theorem State.suspend_compw (c : Cont) : (s.suspend c).compw = s.compw := rfl
@[simp] theorem State.suspend_pto (c : Cont) : (s.suspend c).pto = s.pto := rfl
@[simp] theorem State.suspend_ovr (c : Cont) : (s.suspend c).ovr = s.ovr := rfl
@[simp] theorem State.suspend_accerr (c : Cont) : (s.suspend c).accerr = s.accerr := rfl
@[simp] theorem State.suspend_fault (c : Cont) : (s.suspend c).fault = s.fault := rfl
@[simp] theorem State.suspend_code (c : Cont) : (s.suspend c).code = s.code := rfl
@[simp] theorem State.suspend_cause (c : Cont) : (s.suspend c).cause = s.cause := rfl
@[simp] theorem State.suspend_result (c : Cont) : (s.suspend c).result = s.result := rfl
@[simp] theorem State.suspend_stepNo (c : Cont) : (s.suspend c).stepNo = s.stepNo := rfl
@[simp] theorem State.suspend_cfg (c : Cont) : (s.suspend c).cfg = s.cfg := rfl
@[simp] theorem State.suspend_srcIdx (c : Cont) : (s.suspend c).srcIdx = s.srcIdx := rfl
@[simp] theorem State.suspend_dstIdx (c : Cont) : (s.suspend c).dstIdx = s.dstIdx := rfl
@[simp] theorem State.suspend_entryCount (c : Cont) : (s.suspend c).entryCount = s.entryCount := rfl
@[simp] theorem State.suspend_fspOp (c : Cont) : (s.suspend c).fspOp = s.fspOp := rfl
@[simp] theorem State.suspend_fspWr (c : Cont) : (s.suspend c).fspWr = s.fspWr := rfl
@[simp] theorem State.suspend_mem (c : Cont) : (s.suspend c).mem = s.mem := rfl
@[simp] theorem State.suspend_snap (c : Cont) : (s.suspend c).snap = s.snap := rfl
@[simp] theorem State.suspend_queue (c : Cont) : (s.suspend c).queue = s.queue := rfl
@[simp] theorem State.suspend_drain (c : Cont) : (s.suspend c).drain = s.drain := rfl
@[simp] theorem State.suspend_drainClk (c : Cont) : (s.suspend c).drainClk = s.drainClk := rfl
@[simp] theorem State.suspend_pass (c : Cont) : (s.suspend c).pass = { s.pass with cont := c } := rfl
@[simp] theorem State.suspend_params (c : Cont) : (s.suspend c).params = s.params := rfl
@[simp] theorem State.suspend_session (c : Cont) : (s.suspend c).session = s.session := rfl
@[simp] theorem State.suspend_timerUs (c : Cont) : (s.suspend c).timerUs = s.timerUs := rfl
@[simp] theorem State.suspend_regIn (c : Cont) : (s.suspend c).regIn = s.regIn := rfl
@[simp] theorem State.suspend_sampleIn (c : Cont) : (s.suspend c).sampleIn = s.sampleIn := rfl
@[simp] theorem State.suspend_timerIn (c : Cont) : (s.suspend c).timerIn = s.timerIn := rfl
@[simp] theorem State.suspend_inbox (c : Cont) : (s.suspend c).inbox = s.inbox := rfl
@[simp] theorem State.suspend_quantum (c : Cont) : (s.suspend c).quantum = s.quantum := rfl
@[simp] theorem State.suspend_trace (c : Cont) : (s.suspend c).trace = s.trace := rfl
@[simp] theorem State.suspend_hostOut (c : Cont) : (s.suspend c).hostOut = s.hostOut := rfl

@[simp] theorem State.tick_busy : (s.tick).busy = s.busy := rfl
@[simp] theorem State.tick_done : (s.tick).done = s.done := rfl
@[simp] theorem State.tick_compw : (s.tick).compw = s.compw := rfl
@[simp] theorem State.tick_pto : (s.tick).pto = s.pto := rfl
@[simp] theorem State.tick_ovr : (s.tick).ovr = s.ovr := rfl
@[simp] theorem State.tick_accerr : (s.tick).accerr = s.accerr := rfl
@[simp] theorem State.tick_fault : (s.tick).fault = s.fault := rfl
@[simp] theorem State.tick_code : (s.tick).code = s.code := rfl
@[simp] theorem State.tick_cause : (s.tick).cause = s.cause := rfl
@[simp] theorem State.tick_result : (s.tick).result = s.result := rfl
@[simp] theorem State.tick_stepNo : (s.tick).stepNo = s.stepNo := rfl
@[simp] theorem State.tick_cfg : (s.tick).cfg = s.cfg := rfl
@[simp] theorem State.tick_srcIdx : (s.tick).srcIdx = s.srcIdx := rfl
@[simp] theorem State.tick_dstIdx : (s.tick).dstIdx = s.dstIdx := rfl
@[simp] theorem State.tick_entryCount : (s.tick).entryCount = s.entryCount := rfl
@[simp] theorem State.tick_fspOp : (s.tick).fspOp = s.fspOp := rfl
@[simp] theorem State.tick_fspWr : (s.tick).fspWr = s.fspWr := rfl
@[simp] theorem State.tick_mem : (s.tick).mem = s.mem := rfl
@[simp] theorem State.tick_snap : (s.tick).snap = s.snap := rfl
@[simp] theorem State.tick_queue : (s.tick).queue = s.queue := rfl
@[simp] theorem State.tick_drain : (s.tick).drain = s.drain := rfl
@[simp] theorem State.tick_drainClk : (s.tick).drainClk = s.drainClk := rfl
@[simp] theorem State.tick_pass : (s.tick).pass = s.pass := rfl
@[simp] theorem State.tick_params : (s.tick).params = s.params := rfl
@[simp] theorem State.tick_session : (s.tick).session = s.session := rfl
@[simp] theorem State.tick_timerUs : (s.tick).timerUs = s.timerUs := rfl
@[simp] theorem State.tick_regIn : (s.tick).regIn = s.regIn := rfl
@[simp] theorem State.tick_sampleIn : (s.tick).sampleIn = s.sampleIn := rfl
@[simp] theorem State.tick_timerIn : (s.tick).timerIn = s.timerIn := rfl
@[simp] theorem State.tick_inbox : (s.tick).inbox = s.inbox := rfl
@[simp] theorem State.tick_quantum : (s.tick).quantum = s.quantum.map fun n => n - 1 := rfl
@[simp] theorem State.tick_trace : (s.tick).trace = s.trace := rfl
@[simp] theorem State.tick_hostOut : (s.tick).hostOut = s.hostOut := rfl

@[simp] theorem State.clearAcc_busy : (s.clearAcc).busy = s.busy := State.setFields_busy ..
@[simp] theorem State.clearAcc_done : (s.clearAcc).done = s.done := State.setFields_done ..
@[simp] theorem State.clearAcc_compw : (s.clearAcc).compw = s.compw := State.setFields_compw ..
@[simp] theorem State.clearAcc_pto : (s.clearAcc).pto = s.pto := State.setFields_pto ..
@[simp] theorem State.clearAcc_ovr : (s.clearAcc).ovr = s.ovr := State.setFields_ovr ..
@[simp] theorem State.clearAcc_accerr : (s.clearAcc).accerr = s.accerr := State.setFields_accerr ..
@[simp] theorem State.clearAcc_fault : (s.clearAcc).fault = s.fault := State.setFields_fault ..
@[simp] theorem State.clearAcc_code : (s.clearAcc).code = s.code := State.setFields_code ..
@[simp] theorem State.clearAcc_cause : (s.clearAcc).cause = s.cause := State.setFields_cause ..
@[simp] theorem State.clearAcc_result : (s.clearAcc).result = s.result := State.setFields_result ..
@[simp] theorem State.clearAcc_stepNo : (s.clearAcc).stepNo = s.stepNo := State.setFields_stepNo ..
@[simp] theorem State.clearAcc_cfg : (s.clearAcc).cfg = s.cfg := State.setFields_cfg ..
@[simp] theorem State.clearAcc_srcIdx : (s.clearAcc).srcIdx = s.srcIdx := State.setFields_srcIdx ..
@[simp] theorem State.clearAcc_dstIdx : (s.clearAcc).dstIdx = s.dstIdx := State.setFields_dstIdx ..
@[simp] theorem State.clearAcc_entryCount : (s.clearAcc).entryCount = s.entryCount := State.setFields_entryCount ..
@[simp] theorem State.clearAcc_fspOp : (s.clearAcc).fspOp = s.fspOp := State.setFields_fspOp ..
@[simp] theorem State.clearAcc_fspWr : (s.clearAcc).fspWr = s.fspWr := State.setFields_fspWr ..
@[simp] theorem State.clearAcc_snap : (s.clearAcc).snap = s.snap := State.setFields_snap ..
@[simp] theorem State.clearAcc_queue : (s.clearAcc).queue = s.queue := State.setFields_queue ..
@[simp] theorem State.clearAcc_drain : (s.clearAcc).drain = s.drain := State.setFields_drain ..
@[simp] theorem State.clearAcc_drainClk : (s.clearAcc).drainClk = s.drainClk := State.setFields_drainClk ..
@[simp] theorem State.clearAcc_pass : (s.clearAcc).pass = s.pass := State.setFields_pass ..
@[simp] theorem State.clearAcc_params : (s.clearAcc).params = s.params := State.setFields_params ..
@[simp] theorem State.clearAcc_session : (s.clearAcc).session = s.session := State.setFields_session ..
@[simp] theorem State.clearAcc_timerUs : (s.clearAcc).timerUs = s.timerUs := State.setFields_timerUs ..
@[simp] theorem State.clearAcc_regIn : (s.clearAcc).regIn = s.regIn := State.setFields_regIn ..
@[simp] theorem State.clearAcc_sampleIn : (s.clearAcc).sampleIn = s.sampleIn := State.setFields_sampleIn ..
@[simp] theorem State.clearAcc_timerIn : (s.clearAcc).timerIn = s.timerIn := State.setFields_timerIn ..
@[simp] theorem State.clearAcc_inbox : (s.clearAcc).inbox = s.inbox := State.setFields_inbox ..
@[simp] theorem State.clearAcc_quantum : (s.clearAcc).quantum = s.quantum := State.setFields_quantum ..
@[simp] theorem State.clearAcc_trace : (s.clearAcc).trace = s.trace := State.setFields_trace ..
@[simp] theorem State.clearAcc_hostOut : (s.clearAcc).hostOut = s.hostOut := State.setFields_hostOut ..

@[simp] theorem State.captureItem_busy (i : CapItem) (v : Word) : (s.captureItem i v).busy = s.busy :=
    State.setFields_busy ..
@[simp] theorem State.captureItem_done (i : CapItem) (v : Word) : (s.captureItem i v).done = s.done :=
    State.setFields_done ..
@[simp] theorem State.captureItem_compw (i : CapItem) (v : Word) : (s.captureItem i v).compw = s.compw :=
    State.setFields_compw ..
@[simp] theorem State.captureItem_pto (i : CapItem) (v : Word) : (s.captureItem i v).pto = s.pto :=
    State.setFields_pto ..
@[simp] theorem State.captureItem_ovr (i : CapItem) (v : Word) : (s.captureItem i v).ovr = s.ovr :=
    State.setFields_ovr ..
@[simp] theorem State.captureItem_accerr (i : CapItem) (v : Word) : (s.captureItem i v).accerr = s.accerr :=
    State.setFields_accerr ..
@[simp] theorem State.captureItem_fault (i : CapItem) (v : Word) : (s.captureItem i v).fault = s.fault :=
    State.setFields_fault ..
@[simp] theorem State.captureItem_code (i : CapItem) (v : Word) : (s.captureItem i v).code = s.code :=
    State.setFields_code ..
@[simp] theorem State.captureItem_cause (i : CapItem) (v : Word) : (s.captureItem i v).cause = s.cause :=
    State.setFields_cause ..
@[simp] theorem State.captureItem_result (i : CapItem) (v : Word) : (s.captureItem i v).result = s.result :=
    State.setFields_result ..
@[simp] theorem State.captureItem_stepNo (i : CapItem) (v : Word) : (s.captureItem i v).stepNo = s.stepNo :=
    State.setFields_stepNo ..
@[simp] theorem State.captureItem_cfg (i : CapItem) (v : Word) : (s.captureItem i v).cfg = s.cfg :=
    State.setFields_cfg ..
@[simp] theorem State.captureItem_srcIdx (i : CapItem) (v : Word) : (s.captureItem i v).srcIdx = s.srcIdx :=
    State.setFields_srcIdx ..
@[simp] theorem State.captureItem_dstIdx (i : CapItem) (v : Word) : (s.captureItem i v).dstIdx = s.dstIdx :=
    State.setFields_dstIdx ..
@[simp] theorem State.captureItem_entryCount (i : CapItem) (v : Word) : (s.captureItem i v).entryCount =
    s.entryCount := State.setFields_entryCount ..
@[simp] theorem State.captureItem_fspOp (i : CapItem) (v : Word) : (s.captureItem i v).fspOp = s.fspOp :=
    State.setFields_fspOp ..
@[simp] theorem State.captureItem_fspWr (i : CapItem) (v : Word) : (s.captureItem i v).fspWr = s.fspWr :=
    State.setFields_fspWr ..
@[simp] theorem State.captureItem_snap (i : CapItem) (v : Word) : (s.captureItem i v).snap = s.snap :=
    State.setFields_snap ..
@[simp] theorem State.captureItem_queue (i : CapItem) (v : Word) : (s.captureItem i v).queue = s.queue :=
    State.setFields_queue ..
@[simp] theorem State.captureItem_drain (i : CapItem) (v : Word) : (s.captureItem i v).drain = s.drain :=
    State.setFields_drain ..
@[simp] theorem State.captureItem_drainClk (i : CapItem) (v : Word) : (s.captureItem i v).drainClk = s.drainClk :=
    State.setFields_drainClk ..
@[simp] theorem State.captureItem_pass (i : CapItem) (v : Word) : (s.captureItem i v).pass = s.pass :=
    State.setFields_pass ..
@[simp] theorem State.captureItem_params (i : CapItem) (v : Word) : (s.captureItem i v).params = s.params :=
    State.setFields_params ..
@[simp] theorem State.captureItem_session (i : CapItem) (v : Word) : (s.captureItem i v).session = s.session :=
    State.setFields_session ..
@[simp] theorem State.captureItem_timerUs (i : CapItem) (v : Word) : (s.captureItem i v).timerUs = s.timerUs :=
    State.setFields_timerUs ..
@[simp] theorem State.captureItem_regIn (i : CapItem) (v : Word) : (s.captureItem i v).regIn = s.regIn :=
    State.setFields_regIn ..
@[simp] theorem State.captureItem_sampleIn (i : CapItem) (v : Word) : (s.captureItem i v).sampleIn = s.sampleIn :=
    State.setFields_sampleIn ..
@[simp] theorem State.captureItem_timerIn (i : CapItem) (v : Word) : (s.captureItem i v).timerIn = s.timerIn :=
    State.setFields_timerIn ..
@[simp] theorem State.captureItem_inbox (i : CapItem) (v : Word) : (s.captureItem i v).inbox = s.inbox :=
    State.setFields_inbox ..
@[simp] theorem State.captureItem_quantum (i : CapItem) (v : Word) : (s.captureItem i v).quantum = s.quantum :=
    State.setFields_quantum ..
@[simp] theorem State.captureItem_trace (i : CapItem) (v : Word) : (s.captureItem i v).trace = s.trace :=
    State.setFields_trace ..
@[simp] theorem State.captureItem_hostOut (i : CapItem) (v : Word) : (s.captureItem i v).hostOut = s.hostOut :=
    State.setFields_hostOut ..

@[simp] theorem State.reply_busy (v : Word) : (s.reply v).busy = s.busy := rfl
@[simp] theorem State.reply_done (v : Word) : (s.reply v).done = s.done := rfl
@[simp] theorem State.reply_compw (v : Word) : (s.reply v).compw = s.compw := rfl
@[simp] theorem State.reply_pto (v : Word) : (s.reply v).pto = s.pto := rfl
@[simp] theorem State.reply_ovr (v : Word) : (s.reply v).ovr = s.ovr := rfl
@[simp] theorem State.reply_accerr (v : Word) : (s.reply v).accerr = s.accerr := rfl
@[simp] theorem State.reply_fault (v : Word) : (s.reply v).fault = s.fault := rfl
@[simp] theorem State.reply_code (v : Word) : (s.reply v).code = s.code := rfl
@[simp] theorem State.reply_cause (v : Word) : (s.reply v).cause = s.cause := rfl
@[simp] theorem State.reply_result (v : Word) : (s.reply v).result = s.result := rfl
@[simp] theorem State.reply_stepNo (v : Word) : (s.reply v).stepNo = s.stepNo := rfl
@[simp] theorem State.reply_cfg (v : Word) : (s.reply v).cfg = s.cfg := rfl
@[simp] theorem State.reply_srcIdx (v : Word) : (s.reply v).srcIdx = s.srcIdx := rfl
@[simp] theorem State.reply_dstIdx (v : Word) : (s.reply v).dstIdx = s.dstIdx := rfl
@[simp] theorem State.reply_entryCount (v : Word) : (s.reply v).entryCount = s.entryCount := rfl
@[simp] theorem State.reply_fspOp (v : Word) : (s.reply v).fspOp = s.fspOp := rfl
@[simp] theorem State.reply_fspWr (v : Word) : (s.reply v).fspWr = s.fspWr := rfl
@[simp] theorem State.reply_mem (v : Word) : (s.reply v).mem = s.mem := rfl
@[simp] theorem State.reply_snap (v : Word) : (s.reply v).snap = s.snap := rfl
@[simp] theorem State.reply_queue (v : Word) : (s.reply v).queue = s.queue := rfl
@[simp] theorem State.reply_drain (v : Word) : (s.reply v).drain = s.drain := rfl
@[simp] theorem State.reply_drainClk (v : Word) : (s.reply v).drainClk = s.drainClk := rfl
@[simp] theorem State.reply_pass (v : Word) : (s.reply v).pass = s.pass := rfl
@[simp] theorem State.reply_params (v : Word) : (s.reply v).params = s.params := rfl
@[simp] theorem State.reply_session (v : Word) : (s.reply v).session = s.session := rfl
@[simp] theorem State.reply_timerUs (v : Word) : (s.reply v).timerUs = s.timerUs := rfl
@[simp] theorem State.reply_regIn (v : Word) : (s.reply v).regIn = s.regIn := rfl
@[simp] theorem State.reply_sampleIn (v : Word) : (s.reply v).sampleIn = s.sampleIn := rfl
@[simp] theorem State.reply_timerIn (v : Word) : (s.reply v).timerIn = s.timerIn := rfl
@[simp] theorem State.reply_inbox (v : Word) : (s.reply v).inbox = s.inbox := rfl
@[simp] theorem State.reply_quantum (v : Word) : (s.reply v).quantum = s.quantum := rfl
@[simp] theorem State.reply_trace (v : Word) : (s.reply v).trace = s.trace := rfl
@[simp] theorem State.reply_hostOut (v : Word) : (s.reply v).hostOut = s.hostOut ++ [v] := rfl

@[simp] theorem State.popInbox_busy : (s.popInbox).busy = s.busy := rfl
@[simp] theorem State.popInbox_done : (s.popInbox).done = s.done := rfl
@[simp] theorem State.popInbox_compw : (s.popInbox).compw = s.compw := rfl
@[simp] theorem State.popInbox_pto : (s.popInbox).pto = s.pto := rfl
@[simp] theorem State.popInbox_ovr : (s.popInbox).ovr = s.ovr := rfl
@[simp] theorem State.popInbox_accerr : (s.popInbox).accerr = s.accerr := rfl
@[simp] theorem State.popInbox_fault : (s.popInbox).fault = s.fault := rfl
@[simp] theorem State.popInbox_code : (s.popInbox).code = s.code := rfl
@[simp] theorem State.popInbox_cause : (s.popInbox).cause = s.cause := rfl
@[simp] theorem State.popInbox_result : (s.popInbox).result = s.result := rfl
@[simp] theorem State.popInbox_stepNo : (s.popInbox).stepNo = s.stepNo := rfl
@[simp] theorem State.popInbox_cfg : (s.popInbox).cfg = s.cfg := rfl
@[simp] theorem State.popInbox_srcIdx : (s.popInbox).srcIdx = s.srcIdx := rfl
@[simp] theorem State.popInbox_dstIdx : (s.popInbox).dstIdx = s.dstIdx := rfl
@[simp] theorem State.popInbox_entryCount : (s.popInbox).entryCount = s.entryCount := rfl
@[simp] theorem State.popInbox_fspOp : (s.popInbox).fspOp = s.fspOp := rfl
@[simp] theorem State.popInbox_fspWr : (s.popInbox).fspWr = s.fspWr := rfl
@[simp] theorem State.popInbox_mem : (s.popInbox).mem = s.mem := rfl
@[simp] theorem State.popInbox_snap : (s.popInbox).snap = s.snap := rfl
@[simp] theorem State.popInbox_queue : (s.popInbox).queue = s.queue := rfl
@[simp] theorem State.popInbox_drain : (s.popInbox).drain = s.drain := rfl
@[simp] theorem State.popInbox_drainClk : (s.popInbox).drainClk = s.drainClk := rfl
@[simp] theorem State.popInbox_pass : (s.popInbox).pass = s.pass := rfl
@[simp] theorem State.popInbox_params : (s.popInbox).params = s.params := rfl
@[simp] theorem State.popInbox_session : (s.popInbox).session = s.session := rfl
@[simp] theorem State.popInbox_timerUs : (s.popInbox).timerUs = s.timerUs := rfl
@[simp] theorem State.popInbox_regIn : (s.popInbox).regIn = s.regIn := rfl
@[simp] theorem State.popInbox_sampleIn : (s.popInbox).sampleIn = s.sampleIn := rfl
@[simp] theorem State.popInbox_timerIn : (s.popInbox).timerIn = s.timerIn := rfl
@[simp] theorem State.popInbox_inbox : (s.popInbox).inbox = s.inbox.tail := rfl
@[simp] theorem State.popInbox_quantum : (s.popInbox).quantum = s.quantum := rfl
@[simp] theorem State.popInbox_trace : (s.popInbox).trace = s.trace := rfl
@[simp] theorem State.popInbox_hostOut : (s.popInbox).hostOut = s.hostOut := rfl

@[simp] theorem State.enter_busy (g : Stage) : (s.enter g).busy = s.busy := by cases g <;> rfl
@[simp] theorem State.enter_done (g : Stage) : (s.enter g).done = s.done := by cases g <;> rfl
@[simp] theorem State.enter_compw (g : Stage) : (s.enter g).compw = s.compw := by cases g <;> rfl
@[simp] theorem State.enter_pto (g : Stage) : (s.enter g).pto = s.pto := by cases g <;> rfl
@[simp] theorem State.enter_ovr (g : Stage) : (s.enter g).ovr = s.ovr := by cases g <;> rfl
@[simp] theorem State.enter_accerr (g : Stage) : (s.enter g).accerr = s.accerr := by cases g <;> rfl
@[simp] theorem State.enter_fault (g : Stage) : (s.enter g).fault = s.fault := by cases g <;> rfl
@[simp] theorem State.enter_code (g : Stage) : (s.enter g).code = s.code := by cases g <;> rfl
@[simp] theorem State.enter_cause (g : Stage) : (s.enter g).cause = s.cause := by cases g <;> rfl
@[simp] theorem State.enter_result (g : Stage) : (s.enter g).result = s.result := by cases g <;> rfl
@[simp] theorem State.enter_cfg (g : Stage) : (s.enter g).cfg = s.cfg := by cases g <;> rfl
@[simp] theorem State.enter_srcIdx (g : Stage) : (s.enter g).srcIdx = s.srcIdx := by cases g <;> rfl
@[simp] theorem State.enter_dstIdx (g : Stage) : (s.enter g).dstIdx = s.dstIdx := by cases g <;> rfl
@[simp] theorem State.enter_entryCount (g : Stage) : (s.enter g).entryCount = s.entryCount := by cases g <;> rfl
@[simp] theorem State.enter_fspOp (g : Stage) : (s.enter g).fspOp = s.fspOp := by cases g <;> rfl
@[simp] theorem State.enter_fspWr (g : Stage) : (s.enter g).fspWr = s.fspWr := by cases g <;> rfl
@[simp] theorem State.enter_mem (g : Stage) : (s.enter g).mem = s.mem := by cases g <;> rfl
@[simp] theorem State.enter_snap (g : Stage) : (s.enter g).snap = s.snap := by cases g <;> rfl
@[simp] theorem State.enter_queue (g : Stage) : (s.enter g).queue = s.queue := by cases g <;> rfl
@[simp] theorem State.enter_drain (g : Stage) : (s.enter g).drain = s.drain := by cases g <;> rfl
@[simp] theorem State.enter_drainClk (g : Stage) : (s.enter g).drainClk = s.drainClk := by cases g <;> rfl
@[simp] theorem State.enter_pass (g : Stage) : (s.enter g).pass = s.pass := by cases g <;> rfl
@[simp] theorem State.enter_params (g : Stage) : (s.enter g).params = s.params := by cases g <;> rfl
@[simp] theorem State.enter_session (g : Stage) : (s.enter g).session = s.session := by cases g <;> rfl
@[simp] theorem State.enter_timerUs (g : Stage) : (s.enter g).timerUs = s.timerUs := by cases g <;> rfl
@[simp] theorem State.enter_regIn (g : Stage) : (s.enter g).regIn = s.regIn := by cases g <;> rfl
@[simp] theorem State.enter_sampleIn (g : Stage) : (s.enter g).sampleIn = s.sampleIn := by cases g <;> rfl
@[simp] theorem State.enter_timerIn (g : Stage) : (s.enter g).timerIn = s.timerIn := by cases g <;> rfl
@[simp] theorem State.enter_inbox (g : Stage) : (s.enter g).inbox = s.inbox := by cases g <;> rfl
@[simp] theorem State.enter_quantum (g : Stage) : (s.enter g).quantum = s.quantum := by cases g <;> rfl
@[simp] theorem State.enter_trace (g : Stage) : (s.enter g).trace = s.trace := by cases g <;> rfl
@[simp] theorem State.enter_hostOut (g : Stage) : (s.enter g).hostOut = s.hostOut := by cases g <;> rfl

@[simp] theorem State.rampWait_busy (b : Bool) (w : Word) : (s.rampWait b w).busy = s.busy := by cases b <;> rfl
@[simp] theorem State.rampWait_done (b : Bool) (w : Word) : (s.rampWait b w).done = s.done := by cases b <;> rfl
@[simp] theorem State.rampWait_compw (b : Bool) (w : Word) : (s.rampWait b w).compw = s.compw := by cases b <;> rfl
@[simp] theorem State.rampWait_pto (b : Bool) (w : Word) : (s.rampWait b w).pto = s.pto := by cases b <;> rfl
@[simp] theorem State.rampWait_ovr (b : Bool) (w : Word) : (s.rampWait b w).ovr = s.ovr := by cases b <;> rfl
@[simp] theorem State.rampWait_accerr (b : Bool) (w : Word) : (s.rampWait b w).accerr = s.accerr := by cases b <;> rfl
@[simp] theorem State.rampWait_fault (b : Bool) (w : Word) : (s.rampWait b w).fault = s.fault := by cases b <;> rfl
@[simp] theorem State.rampWait_code (b : Bool) (w : Word) : (s.rampWait b w).code = s.code := by cases b <;> rfl
@[simp] theorem State.rampWait_cause (b : Bool) (w : Word) : (s.rampWait b w).cause = s.cause := by cases b <;> rfl
@[simp] theorem State.rampWait_result (b : Bool) (w : Word) : (s.rampWait b w).result = s.result := by cases b <;> rfl
@[simp] theorem State.rampWait_stepNo (b : Bool) (w : Word) : (s.rampWait b w).stepNo = s.stepNo := by cases b <;> rfl
@[simp] theorem State.rampWait_cfg (b : Bool) (w : Word) : (s.rampWait b w).cfg = s.cfg := by cases b <;> rfl
@[simp] theorem State.rampWait_srcIdx (b : Bool) (w : Word) : (s.rampWait b w).srcIdx = s.srcIdx := by cases b <;> rfl
@[simp] theorem State.rampWait_dstIdx (b : Bool) (w : Word) : (s.rampWait b w).dstIdx = s.dstIdx := by cases b <;> rfl
@[simp] theorem State.rampWait_entryCount (b : Bool) (w : Word) : (s.rampWait b w).entryCount =
    s.entryCount := by cases b <;> rfl
@[simp] theorem State.rampWait_fspOp (b : Bool) (w : Word) : (s.rampWait b w).fspOp = s.fspOp := by cases b <;> rfl
@[simp] theorem State.rampWait_fspWr (b : Bool) (w : Word) : (s.rampWait b w).fspWr = s.fspWr := by cases b <;> rfl
@[simp] theorem State.rampWait_mem (b : Bool) (w : Word) : (s.rampWait b w).mem = s.mem := by cases b <;> rfl
@[simp] theorem State.rampWait_snap (b : Bool) (w : Word) : (s.rampWait b w).snap = s.snap := by cases b <;> rfl
@[simp] theorem State.rampWait_queue (b : Bool) (w : Word) : (s.rampWait b w).queue = s.queue := by cases b <;> rfl
@[simp] theorem State.rampWait_drain (b : Bool) (w : Word) : (s.rampWait b w).drain = s.drain := by cases b <;> rfl
@[simp] theorem State.rampWait_drainClk (b : Bool) (w : Word) : (s.rampWait b w).drainClk =
    s.drainClk := by cases b <;> rfl
@[simp] theorem State.rampWait_params (b : Bool) (w : Word) : (s.rampWait b w).params = s.params := by cases b <;> rfl
@[simp] theorem State.rampWait_session (b : Bool) (w : Word) : (s.rampWait b w).session =
    s.session := by cases b <;> rfl
@[simp] theorem State.rampWait_timerUs (b : Bool) (w : Word) : (s.rampWait b w).timerUs =
    s.timerUs := by cases b <;> rfl
@[simp] theorem State.rampWait_regIn (b : Bool) (w : Word) : (s.rampWait b w).regIn = s.regIn := by cases b <;> rfl
@[simp] theorem State.rampWait_sampleIn (b : Bool) (w : Word) : (s.rampWait b w).sampleIn =
    s.sampleIn := by cases b <;> rfl
@[simp] theorem State.rampWait_timerIn (b : Bool) (w : Word) : (s.rampWait b w).timerIn =
    s.timerIn := by cases b <;> rfl
@[simp] theorem State.rampWait_inbox (b : Bool) (w : Word) : (s.rampWait b w).inbox = s.inbox := by cases b <;> rfl
@[simp] theorem State.rampWait_quantum (b : Bool) (w : Word) : (s.rampWait b w).quantum =
    s.quantum := by cases b <;> rfl
@[simp] theorem State.rampWait_trace (b : Bool) (w : Word) : (s.rampWait b w).trace = s.trace := by cases b <;> rfl
@[simp] theorem State.rampWait_hostOut (b : Bool) (w : Word) : (s.rampWait b w).hostOut =
    s.hostOut := by cases b <;> rfl

/-- A tick of an unlimited quantum changes nothing. -/
theorem State.tick_none (h : s.quantum = none) : s.tick = s := by
  cases s
  simp only [State.tick] at h ⊢
  simp [h]

end Sys2Proof.Machine
end

