-- ==== Sys2Proof/Laws/Memory.lean ====
section
/-! SUPPORT. The laws of the entry table's memory: reading back what was written, leaving every other byte alone, and
keeping the canonical form. -/

namespace Sys2Proof.Machine

open Sys2Proof

theorem memByte_memSet_same (m : List Host.Cell) (a : Nat) (b : Byte) : memByte (memSet m a b) a = some b := by
  induction m with
  | nil => simp [memSet, memByte]
  | cons c m ih =>
    obtain ⟨a', b'⟩ := c
    simp only [memSet]
    split
    · simp [memByte]
    · split
      · simp [memByte]
      · rename_i h1 h2
        simp [memByte, Ne.symm h2, ih]

theorem memByte_memSet_other (m : List Host.Cell) {a a2 : Nat} (b : Byte) (h : a2 ≠ a) :
    memByte (memSet m a b) a2 = memByte m a2 := by
  induction m with
  | nil => simp [memSet, memByte, Ne.symm h]
  | cons c m ih =>
    obtain ⟨a', b'⟩ := c
    simp only [memSet]
    split
    · simp [memByte, Ne.symm h]
    · split
      · rename_i h1 h2
        subst h2
        simp [memByte, Ne.symm h]
      · simp only [memByte, ih]

theorem memByte_memSet (m : List Host.Cell) (a a2 : Nat) (b : Byte) :
    memByte (memSet m a b) a2 = if a2 = a then some b else memByte m a2 := by
  split
  · next h => rw [h, memByte_memSet_same]
  · next h => exact memByte_memSet_other m b h

/-- Every cell of a written memory is an old cell or the cell written. -/
theorem mem_memSet {m : List Host.Cell} {a : Nat} {b : Byte} {c : Host.Cell} (h : c ∈ memSet m a b) :
    c = (a, b) ∨ c ∈ m := by
  induction m with
  | nil => simpa [memSet] using h
  | cons d m ih =>
    obtain ⟨a', b'⟩ := d
    simp only [memSet] at h
    split at h
    · simpa using h
    · split at h
      · simp only [List.mem_cons] at h ⊢
        tauto
      · simp only [List.mem_cons] at h ⊢
        rcases h with h | h
        · exact Or.inr (Or.inl h)
        · have := ih h
          tauto

theorem memWf_cons_iff (c : Host.Cell) (m : List Host.Cell) :
    memWf (c :: m) = true ↔ (∀ d ∈ m, c.1 < d.1) ∧ memWf m = true := by
  induction m generalizing c with
  | nil => simp [memWf]
  | cons d m ih =>
    obtain ⟨a, b⟩ := c
    obtain ⟨a', b'⟩ := d
    simp only [memWf, Bool.and_eq_true, decide_eq_true_eq, List.mem_cons, forall_eq_or_imp]
    constructor
    · rintro ⟨h, hw⟩
      have hd := ((ih (a', b')).1 hw).1
      exact ⟨⟨h, fun e he => lt_trans h (hd e he)⟩, hw⟩
    · rintro ⟨⟨h, _⟩, hw⟩
      exact ⟨h, hw⟩

/-- A byte write keeps the canonical form. -/
theorem memWf_memSet {m : List Host.Cell} (a : Nat) (b : Byte) (h : memWf m = true) : memWf (memSet m a b) =
    true := by
  induction m with
  | nil => simp [memSet, memWf]
  | cons c m ih =>
    obtain ⟨a', b'⟩ := c
    have hc := (memWf_cons_iff _ _).1 h
    simp only [memSet]
    split
    · next hlt =>
      refine (memWf_cons_iff _ _).2 ⟨?_, h⟩
      intro d hd
      rcases List.mem_cons.1 hd with hd | hd
      · rw [hd]; exact hlt
      · exact lt_trans hlt (hc.1 d hd)
    · split
      · next heq =>
        subst heq
        exact (memWf_cons_iff _ _).2 hc
      · next h1 h2 =>
        refine (memWf_cons_iff _ _).2 ⟨?_, ih hc.2⟩
        intro d hd
        rcases mem_memSet hd with hd | hd
        · rw [hd]; show a' < a; omega
        · exact hc.1 d hd

theorem memByte_memSetWord_other {m : List Host.Cell} {a b : Nat} (w : Word) (h : ¬ InWord a b) :
    memByte (memSetWord m a w) b = memByte m b := by
  unfold memSetWord
  rw [memByte_memSet_other, memByte_memSet_other, memByte_memSet_other, memByte_memSet_other] <;> omega

theorem wordOfBytes_bytes (w : Word) :
    wordOfBytes (w.extractLsb' 0 8) (w.extractLsb' 8 8) (w.extractLsb' 16 8) (w.extractLsb' 24 8) = w := by
  apply BitVec.eq_of_getLsbD_eq
  intro i hi
  simp only [wordOfBytes, BitVec.getLsbD_append, BitVec.getLsbD_extractLsb']
  have : i < 8 ∨ (8 ≤ i ∧ i < 16) ∨ (16 ≤ i ∧ i < 24) ∨ 24 ≤ i := by omega
  rcases this with h | h | h | h
  · simp [h, show i < 32 from hi]
  · simp [show ¬ i < 8 by omega, show i - 8 < 8 by omega, show 8 + (i - 8) = i by omega]
  · simp [show ¬ i < 8 by omega, show ¬ i - 8 < 8 by omega, show i - 8 - 8 < 8 by omega,
      show 16 + (i - 8 - 8) = i by omega]
  · simp [show ¬ i < 8 by omega, show ¬ i - 8 < 8 by omega, show ¬ i - 8 - 8 < 8 by omega,
      show i - 8 - 8 - 8 < 8 by omega, show 24 + (i - 8 - 8 - 8) = i by omega]

theorem memWord_memSetWord_same (m : List Host.Cell) (a : Nat) (w : Word) : memWord (memSetWord m a w) a =
    some w := by
  unfold memWord memSetWord
  simp only [memByte_memSet]
  simp [wordOfBytes_bytes]

/-- Two words whose offsets do not overlap. -/
abbrev Apart (a b : Nat) : Prop := a + 4 ≤ b ∨ b + 4 ≤ a

theorem memWord_congr {m m' : List Host.Cell} {a : Nat} (h : ∀ b, InWord a b → memByte m b = memByte m' b) :
    memWord m a = memWord m' a := by
  unfold memWord
  rw [h a (by omega), h (a + 1) (by omega), h (a + 2) (by omega), h (a + 3) (by omega)]

theorem memWord_memSetWord_other {m : List Host.Cell} {a b : Nat} (w : Word) (h : Apart a b) :
    memWord (memSetWord m a w) b = memWord m b :=
  memWord_congr fun c hc => memByte_memSetWord_other w (by omega)

theorem memWf_memSetWord {m : List Host.Cell} (a : Nat) (w : Word) (h : memWf m = true) :
    memWf (memSetWord m a w) = true :=
  memWf_memSet _ _ (memWf_memSet _ _ (memWf_memSet _ _ (memWf_memSet _ _ h)))

theorem memWf_memSetWords {m : List Host.Cell} (ws : List (Nat × Word)) (h : memWf m = true) :
    memWf (memSetWords m ws) = true := by
  induction ws generalizing m with
  | nil => exact h
  | cons p ws ih => exact ih (memWf_memSetWord _ _ h)

theorem mem_memSetWord {m : List Host.Cell} {a : Nat} {w : Word} {c : Host.Cell} (h : c ∈ memSetWord m a w) :
    InWord a c.1 ∨ c ∈ m := by
  unfold memSetWord at h
  rcases mem_memSet h with h | h
  · left; rw [h]; show a ≤ a + 3 ∧ a + 3 < a + 4; omega
  rcases mem_memSet h with h | h
  · left; rw [h]; show a ≤ a + 2 ∧ a + 2 < a + 4; omega
  rcases mem_memSet h with h | h
  · left; rw [h]; show a ≤ a + 1 ∧ a + 1 < a + 4; omega
  rcases mem_memSet h with h | h
  · left; rw [h]; show a ≤ a ∧ a < a + 4; omega
  · exact Or.inr h

theorem memByte_memSetWords_other {m : List Host.Cell} {ws : List (Nat × Word)} {b : Nat}
    (h : ∀ p ∈ ws, ¬ InWord p.1 b) : memByte (memSetWords m ws) b = memByte m b := by
  induction ws generalizing m with
  | nil => rfl
  | cons p ws ih =>
    rw [show memSetWords m (p :: ws) = memSetWords (memSetWord m p.1 p.2) ws from rfl,
      ih (fun q hq => h q (List.mem_cons_of_mem _ hq)), memByte_memSetWord_other _ (h p List.mem_cons_self)]

theorem memWord_memSetWords_other {m : List Host.Cell} {ws : List (Nat × Word)} {b : Nat}
    (h : ∀ p ∈ ws, Apart p.1 b) : memWord (memSetWords m ws) b = memWord m b :=
  memWord_congr fun c hc => memByte_memSetWords_other fun p hp => by have := h p hp; omega

/-- Writing several words apart from each other: each reads back. -/
theorem memWord_memSetWords_mem {m : List Host.Cell} {ws : List (Nat × Word)} {p : Nat × Word} (hp : p ∈ ws)
    (h : ws.Pairwise fun q r => Apart q.1 r.1) : memWord (memSetWords m ws) p.1 = some p.2 := by
  induction ws generalizing m with
  | nil => cases hp
  | cons q ws ih =>
    rw [show memSetWords m (q :: ws) = memSetWords (memSetWord m q.1 q.2) ws from rfl]
    rw [List.pairwise_cons] at h
    rcases List.mem_cons.1 hp with hp | hp
    · subst hp
      rw [memWord_memSetWords_other, memWord_memSetWord_same]
      intro r hr
      have := h.1 r hr
      omega
    · exact ih hp h.2

/-- Every memory operation of the model keeps the canonical form, and the cells of the entry table stay in it. -/
theorem setFields_mem_wf (s : State) (i : Nat) (ws : List (Nat × Word)) (h : memWf s.mem = true) :
    memWf (s.setFields i ws).mem = true := memWf_memSetWords _ h

/-- A store adds no cell but those of its words. -/
theorem memSetWords_cells {m : List Host.Cell} {ws : List (Nat × Word)} {P : Nat → Prop} (hm : ∀ c ∈ m, P c.1)
    (hw : ∀ p ∈ ws, ∀ b, InWord p.1 b → P b) : ∀ c ∈ memSetWords m ws, P c.1 := by
  induction ws generalizing m with
  | nil => exact hm
  | cons p ws ih =>
    refine ih (fun c hc => ?_) (fun q hq => hw q (List.mem_cons_of_mem _ hq))
    rcases mem_memSetWord hc with h | h
    · exact hw p List.mem_cons_self _ h
    · exact hm c h

/-- Stores to the words of an entry of the table stay in the table (20_memory.md R56). -/
theorem setFields_mem_cells {s : State} {i : Nat} {ws : List (Nat × Word)} (hi : i < 900)
    (hw : ∀ p ∈ ws, p.1 + 4 ≤ s.params.entryStride)
    (h : ∀ c ∈ s.mem, 0x100000 ≤ c.1 ∧ c.1 < entryBase s.params 900) :
    ∀ c ∈ (s.setFields i ws).mem, 0x100000 ≤ c.1 ∧ c.1 < entryBase s.params 900 := by
  refine memSetWords_cells (P := fun b => 0x100000 ≤ b ∧ b < entryBase s.params 900) h ?_
  intro p hp b hb
  obtain ⟨q, hq, rfl⟩ := List.mem_map.1 hp
  have h1 := hw q hq
  have h2 : (i + 1) * s.params.entryStride ≤ 900 * s.params.entryStride := Nat.mul_le_mul_right _ (by omega)
  simp only [InWord, entryBase, Nat.add_mul] at hb h2 ⊢
  omega

/-- Below its cells a memory in canonical form reads as nothing. -/
theorem memByte_below {m : List Host.Cell} {a : Nat} (h : ∀ c ∈ m, a < c.1) : memByte m a = none := by
  induction m with
  | nil => rfl
  | cons c m ih =>
    rw [memByte, if_neg (Nat.ne_of_gt (h c List.mem_cons_self)), ih fun d hd => h d (List.mem_cons_of_mem _ hd)]

/-- Two memories in canonical form in which every byte reads alike are equal. -/
theorem mem_ext {m m' : List Host.Cell} (h : memWf m = true) (h' : memWf m' = true)
    (hb : ∀ a, memByte m a = memByte m' a) : m = m' := by
  induction m generalizing m' with
  | nil =>
    match m' with
    | [] => rfl
    | (a, b) :: m' => simpa [memByte] using hb a
  | cons c m ih =>
    obtain ⟨a, b⟩ := c
    match m' with
    | [] => simpa [memByte] using hb a
    | (a', b') :: m' =>
      have hm := (memWf_cons_iff _ _).1 h
      have hm' := (memWf_cons_iff _ _).1 h'
      have below : ∀ {x y : Nat} {l : List Host.Cell}, x < y → (∀ d ∈ l, y < d.1) → memByte l x = none :=
        fun hxy hl => memByte_below fun d hd => lt_trans hxy (hl d hd)
      obtain rfl : a = a' := by
        rcases Nat.lt_trichotomy a a' with hlt | heq | hlt
        · simpa [memByte, Nat.ne_of_gt hlt, below hlt hm'.1] using hb a
        · exact heq
        · simpa [memByte, Nat.ne_of_gt hlt, below hlt hm.1] using hb a'
      obtain rfl : b = b' := by simpa [memByte] using hb a
      rw [ih hm.2 hm'.2 fun x => ?_]
      by_cases hx : a = x
      · rw [← hx, memByte_below hm.1, memByte_below hm'.1]
      · simpa [memByte, hx] using hb x

/-- The memory of the machine after reset has the canonical form. -/
theorem reset_mem_wf : memWf State.reset.mem = true := rfl

end Sys2Proof.Machine
end

