-- ==== Sys2Proof/Laws/Engine.lean ====
section
/-! SUPPORT. Running a command, said once: what every engine operation keeps, running keeps. -/

namespace Sys2Proof.Machine

open Sys2Proof

/-- What holds of the result of an engine operation: `P` while the command goes on or is aborted, `Q` when it has ended
in success, `T` of the operation left waiting. -/
def TaskResult.All (P Q : State → Prop) (T : Task → Prop) : TaskResult → Prop
  | .done s => P s
  | .hold t s => T t ∧ P s
  | .ended s => Q s
  | .abort _ s => P s

/-- What holds of the result of running: the same, and of what is left of the command. -/
def Run.All (P Q : State → Prop) (T : Task → Prop) (U : Part → Prop) (G : Stage → Prop) : Run → Prop
  | .done s => P s
  | .paused c s => P s ∧ (∀ t ∈ c.tasks, T t) ∧ (∀ p ∈ c.parts, U p) ∧ ∀ g ∈ c.stages, G g
  | .ended s => Q s
  | .abort _ s => P s

/-- The engine keeps `P`: every operation allowed by `T`, every part allowed by `U`, every stage allowed by `G`. -/
structure EngineKeeps (P Q : State → Prop) (T : Task → Prop) (U : Part → Prop) (G : Stage → Prop) : Prop where
  tick : ∀ s, P s → P s.tick
  task : ∀ t s, T t → P s → (runTask t s).All P Q T
  expand : ∀ p s ts, U p → P s → s.expand p = .ok ts → ∀ t ∈ ts, T t
  enter : ∀ g s, G g → P s → P (s.enter g)
  parts : ∀ g s, G g → P s → ∀ p ∈ s.stageParts g, U p

section

variable {P Q : State → Prop} {T : Task → Prop} {U : Part → Prop} {G : Stage → Prop}

theorem runTasks_all (h : EngineKeeps P Q T U G) (ts : List Task) (s : State) (ht : ∀ t ∈ ts, T t) (hs : P s) :
    (runTasks ts s).All P Q T U G := by
  induction ts generalizing s with
  | nil => exact hs
  | cons t ts ih =>
    simp only [runTasks]
    split
    · exact ⟨hs, ht, by simp, by simp⟩
    · have hr := h.task t s.tick (ht t List.mem_cons_self) (h.tick s hs)
      generalize runTask t s.tick = r at hr
      cases r with
      | done s' => exact ih s' (fun t' h' => ht t' (List.mem_cons_of_mem _ h')) hr
      | hold t' s' =>
        refine ⟨hr.2, ?_, by simp, by simp⟩
        intro x hx
        rcases List.mem_cons.1 hx with hx | hx
        · rw [hx]; exact hr.1
        · exact ht x (List.mem_cons_of_mem _ hx)
      | ended s' => exact hr
      | abort c s' => exact hr

theorem runParts_all (h : EngineKeeps P Q T U G) (ps : List Part) (s : State) (hp : ∀ p ∈ ps, U p) (hs : P s) :
    (runParts ps s).All P Q T U G := by
  induction ps generalizing s with
  | nil => exact hs
  | cons p ps ih =>
    simp only [runParts]
    split
    · exact hs
    · next ts hts =>
      have hr := runTasks_all h ts s (h.expand p s ts (hp p List.mem_cons_self) hs hts) hs
      generalize runTasks ts s = r at hr
      cases r with
      | done s' => exact ih s' (fun p' h' => hp p' (List.mem_cons_of_mem _ h')) hr
      | paused c s' => exact ⟨hr.1, hr.2.1, fun p' h' => hp p' (List.mem_cons_of_mem _ h'), hr.2.2.2⟩
      | ended s' => exact hr
      | abort c s' => exact hr

theorem runStages_all (h : EngineKeeps P Q T U G) (gs : List Stage) (s : State) (hg : ∀ g ∈ gs, G g) (hs : P s) :
    (runStages gs s).All P Q T U G := by
  induction gs generalizing s with
  | nil => exact hs
  | cons g gs ih =>
    simp only [runStages]
    split
    · exact ⟨hs, by simp, by simp, hg⟩
    · have hG := hg g List.mem_cons_self
      have he := h.enter g s.tick hG (h.tick s hs)
      have hr := runParts_all h _ _ (h.parts g _ hG he) he
      generalize runParts ((s.tick.enter g).stageParts g) (s.tick.enter g) = r at hr
      cases r with
      | done s' => exact ih s' (fun g' h' => hg g' (List.mem_cons_of_mem _ h')) hr
      | paused c s' => exact ⟨hr.1, hr.2.1, hr.2.2.1, fun g' h' => hg g' (List.mem_cons_of_mem _ h')⟩
      | ended s' => exact hr
      | abort c s' => exact hr

theorem runCont_all (h : EngineKeeps P Q T U G) (c : Cont) (s : State) (ht : ∀ t ∈ c.tasks, T t)
    (hp : ∀ p ∈ c.parts, U p) (hg : ∀ g ∈ c.stages, G g) (hs : P s) : (runCont c s).All P Q T U G := by
  have hr := runTasks_all h c.tasks s ht hs
  simp only [runCont]
  generalize runTasks c.tasks s = r at hr
  cases r with
  | done s1 =>
    have hr := runParts_all h c.parts s1 hp hr
    simp only [Run.andThen]
    generalize runParts c.parts s1 = r at hr
    cases r with
    | done s2 => exact runStages_all h c.stages s2 hg hr
    | paused c' s' => exact ⟨hr.1, hr.2.1, hr.2.2.1, hg⟩
    | ended s' => exact hr
    | abort k s' => exact hr
  | paused c' s' => exact ⟨hr.1, hr.2.1, hp, hg⟩
  | ended s' => exact hr
  | abort k s' => exact hr

end

/-- With no other agent acting, one operation done goes on with the next. -/
theorem runTasks_done {t : Task} {ts : List Task} {s s' : State} (hq : s.quantum = none) (h : runTask t s = .done s') :
    runTasks (t :: ts) s = runTasks ts s' := by
  simp [runTasks, hq, State.tick_none s hq, h]

/-- One operation that waits stops the engine. -/
theorem runTasks_hold {t t' : Task} {ts : List Task} {s s' : State} (hq : s.quantum = none)
    (h : runTask t s = .hold t' s') : runTasks (t :: ts) s = .paused ⟨t' :: ts, [], []⟩ s' := by
  simp [runTasks, hq, State.tick_none s hq, h]

/-- One operation that raises a cause ends the command. -/
theorem runTasks_abort {t : Task} {ts : List Task} {s s' : State} {c : Cause} (hq : s.quantum = none)
    (h : runTask t s = .abort c s') : runTasks (t :: ts) s = .abort c s' := by
  simp [runTasks, hq, State.tick_none s hq, h]

/-- The end of a command. -/
theorem runTasks_ended {t : Task} {ts : List Task} {s s' : State} (hq : s.quantum = none)
    (h : runTask t s = .ended s') : runTasks (t :: ts) s = .ended s' := by
  simp [runTasks, hq, State.tick_none s hq, h]

@[simp] theorem runTasks_nil (s : State) : runTasks [] s = .done s := rfl
@[simp] theorem runParts_nil (s : State) : runParts [] s = .done s := rfl
@[simp] theorem runStages_nil (s : State) : runStages [] s = .done s := rfl

/-- A part turned into operations. -/
theorem runParts_ok {p : Part} {ps : List Part} {s : State} {ts : List Task} (h : s.expand p = .ok ts) :
    runParts (p :: ps) s = (runTasks ts s).andThen (fun c => { c with parts := ps }) (runParts ps) := by
  simp only [runParts, h]

/-- A part whose computation raises a cause. -/
theorem runParts_error {p : Part} {ps : List Part} {s : State} {c : Cause} (h : s.expand p = .error c) :
    runParts (p :: ps) s = .abort c s := by
  simp only [runParts, h]

/-- With no other agent acting, a stage is entered and its parts run. -/
theorem runStages_none {g : Stage} {gs : List Stage} {s : State} (hq : s.quantum = none) :
    runStages (g :: gs) s =
      (runParts ((s.enter g).stageParts g) (s.enter g)).andThen (fun c => { c with stages := gs }) (runStages gs) := by
  simp [runStages, hq, State.tick_none s hq]

@[simp] theorem andThen_done (s : State) (f : Cont → Cont) (k : State → Run) : (Run.done s).andThen f k = k s := rfl
@[simp] theorem andThen_paused (c : Cont) (s : State) (f : Cont → Cont) (k : State → Run) :
    (Run.paused c s).andThen f k = .paused (f c) s := rfl
@[simp] theorem andThen_ended (s : State) (f : Cont → Cont) (k : State → Run) :
    (Run.ended s).andThen f k = .ended s := rfl
@[simp] theorem andThen_abort (c : Cause) (s : State) (f : Cont → Cont) (k : State → Run) :
    (Run.abort c s).andThen f k = .abort c s := rfl

@[simp] theorem Run.state_done (s : State) : (Run.done s).state = s.suspend ⟨[], [], []⟩ := rfl
@[simp] theorem Run.state_paused (c : Cont) (s : State) : (Run.paused c s).state = s.suspend c := rfl
@[simp] theorem Run.state_ended (s : State) : (Run.ended s).state = s := rfl
@[simp] theorem Run.state_abort (c : Cause) (s : State) : (Run.abort c s).state = s.abort c := rfl

/-- An idle engine runs the command. -/
theorem launch_idle {i : Instr} {gs : List Stage} {s : State} (h : s.busy = false) :
    launch i gs s = (runStages gs (s.accept i)).state := by
  simp [launch, h]

/-- A busy engine ignores the command. -/
theorem launch_busy {i : Instr} {gs : List Stage} {s : State} (h : s.busy = true) : launch i gs s = s.setOvr := by
  simp [launch, h]

end Sys2Proof.Machine
end

