-- ==== Sys2Proof/Laws/Ops.lean ====
section
/-! SUPPORT. From the elementary updates of the state to the engine: a property that every elementary update keeps is
kept by every operation, part and stage. -/

namespace Sys2Proof.Machine

open Sys2Proof

/-- The operations whose estimator runs are in `D` and whose capture items are in `C`. -/
def TaskOk (D : EstWork → Prop) (C : CapItem → Prop) : Task → Prop
  | .est w _ => D w
  | .capture i => C i
  | _ => True

/-- The same of a part. -/
def PartOk (D : EstWork → Prop) (C : CapItem → Prop) : Part → Prop
  | .one t => TaskOk D C t
  | _ => True

/-- `P` is kept by every elementary update of a running command, and `Q` holds when the command has ended. -/
structure OpsKeep (P Q : State → Prop) (D : EstWork → Prop) (C : CapItem → Prop) (G : Stage → Prop) : Prop where
  tick : ∀ s, P s → P s.tick
  reg : ∀ s vs e, P s → P { s with regIn := vs, trace := s.trace ++ [e] }
  smp : ∀ s ns e, P s → P { s with sampleIn := ns, trace := s.trace ++ [e] }
  tim : ∀ s as t e, P s → P { s with timerIn := as, timerUs := t, trace := s.trace ++ [e] }
  pto : ∀ s, P s → P s.setPto
  write : ∀ s sp a v, P s → P (s.regWrite sp a v)
  enqueue : ∀ s a v d s', P s → s.enqueue a v d = .ok s' → P s'
  save : ∀ s i v, P s → P { s with snap := s.snap.set i v }
  value : ∀ s v, P s → P { s with pass := { s.pass with value := v } }
  rampWait : ∀ s b w, P s → P (s.rampWait b w)
  commit : ∀ s w, D w → P s → P (estCommit w s)
  clearAcc : ∀ s, P s → P s.clearAcc
  curFromTrn : ∀ s s', P s → s.curFromTrn = .ok s' → P s'
  compareDrift : ∀ s s', P s → s.compareDrift = .ok s' → P s'
  fspWr : ∀ s b, P s → P { s with fspWr := b }
  fspOp : ∀ s, P s → P { s with fspOp := s.fspWr }
  clockSource : ∀ s s', P s → s.clockSource = .ok s' → P s'
  capture : ∀ s i v, C i → P s → P (s.captureItem i v)
  finish : ∀ s r, P s → Q (s.succeed r)
  fresh : ∀ s m, P s → D (freshEst s m)
  next : ∀ w l ls r d, D w → w.todo = l :: ls → r.lane = l →
    D { w with todo := ls, done := w.done ++ [r], maxDelta := d }
  items : ∀ s, P s → ∀ i ∈ captureFn s.params (s.ctx (.step 23)), C i
  enter : ∀ g s, G g → P s → P (s.enter g)

section

variable {P Q : State → Prop} {D : EstWork → Prop} {C : CapItem → Prop} {G : Stage → Prop}

theorem regRead_cases {s s' : State} {sp : Space} {a v : Word} (h : s.regRead sp a = some (v, s')) :
    ∃ vs, s.regIn = v :: vs ∧ s' = { s with regIn := vs, trace := s.trace ++ [.read sp a v] } := by
  unfold State.regRead at h
  split at h
  · cases h
  · next v' vs hv => simp only [Option.some.injEq, Prod.mk.injEq] at h; exact
      ⟨vs, by rw [hv, h.1], by rw [← h.2, h.1]⟩

theorem sample_cases {s s' : State} {l : Nat} {n : Word} (h : s.sample l = some (n, s')) :
    ∃ ns, s.sampleIn = n :: ns ∧ s' = { s with sampleIn := ns, trace := s.trace ++ [.sample l n] } := by
  unfold State.sample at h
  split at h
  · cases h
  · next v' vs hv => simp only [Option.some.injEq, Prod.mk.injEq] at h; exact
      ⟨vs, by rw [hv, h.1], by rw [← h.2, h.1]⟩

theorem readTimer_cases {s s' : State} {b : Bool} {t : Word} (h : s.readTimer b = some (t, s')) :
    ∃ a as, s.timerIn = a :: as ∧ t = s.timerUs + timerStep b a ∧
      s' = { s with timerIn := as, timerUs := t, trace := s.trace ++ [.timer t] } := by
  unfold State.readTimer at h
  split at h
  · cases h
  · next a as ha =>
    simp only [Option.some.injEq, Prod.mk.injEq] at h
    exact ⟨a, as, ha, h.1.symm, by rw [← h.2, ← h.1]⟩

theorem OpsKeep.regRead (h : OpsKeep P Q D C G) {s s' : State} {sp : Space} {a v : Word} (hs : P s)
    (hr : s.regRead sp a = some (v, s')) : P s' := by
  obtain ⟨vs, _, rfl⟩ := regRead_cases hr
  exact h.reg _ _ _ hs

theorem OpsKeep.readTimer (h : OpsKeep P Q D C G) {s s' : State} {b : Bool} {t : Word} (hs : P s)
    (hr : s.readTimer b = some (t, s')) : P s' := by
  obtain ⟨a, as, _, _, rfl⟩ := readTimer_cases hr
  exact h.tim _ _ _ _ hs

theorem OpsKeep.delayLoop (h : OpsKeep P Q D C G) (t0 n : Word) (as : List Word) (s : State) (hs : P s) :
    P (delayLoop t0 n as s).1 := by
  induction as generalizing s with
  | nil => exact hs
  | cons a as ih =>
    simp only [Machine.delayLoop]
    split
    · exact h.tim _ _ _ _ hs
    · exact ih _ (h.tim _ _ _ _ hs)

theorem OpsKeep.runDelay (h : OpsKeep P Q D C G) (d : Delay) (s : State) (hs : P s) : P (runDelay d s).2 := by
  unfold Machine.runDelay
  split
  · exact hs
  · next t0 n =>
    have := h.delayLoop t0 n s.timerIn s hs
    split <;> (next heq => rw [heq] at this; exact this)
  · next n =>
    split
    · exact hs
    · next t0 s1 hr =>
      have h1 := h.readTimer hs hr
      split
      · exact h1
      · have := h.delayLoop t0 n s1.timerIn s1 h1
        split <;> (next heq => rw [heq] at this; exact this)

theorem OpsKeep.spinLoop (h : OpsKeep P Q D C G) (sp : Space) (a mask e : Word) (vs : List Word) (s : State)
    (hs : P s) : P (spinLoop sp a mask e vs s).1 := by
  induction vs generalizing s with
  | nil => exact hs
  | cons v vs ih =>
    simp only [Machine.spinLoop]
    split
    · exact h.reg _ _ _ hs
    · exact ih _ (h.reg _ _ _ hs)

theorem OpsKeep.pollLoop (h : OpsKeep P Q D C G) (sp : Space) (a mask e : Word) (n : Nat) (due : Delay) (s : State)
    (hs : P s) : (pollLoop sp a mask e n due s).All P Q (TaskOk D C) := by
  induction n generalizing due s with
  | zero => exact h.pto _ hs
  | succ n ih =>
    have hd := h.runDelay due s hs
    simp only [Machine.pollLoop]
    split
    · next s1 heq =>
      rw [heq] at hd
      split
      · exact ⟨trivial, hd⟩
      · next v s2 hr =>
        have h2 := h.regRead hd hr
        split
        · exact h2
        · exact ih _ _ h2
    · next d' s1 _ heq =>
      rw [heq] at hd
      exact ⟨trivial, hd⟩

theorem OpsKeep.ccLoop (h : OpsKeep P Q D C G) (t0 : Word) (vs : List Word) (s : State) (hs : P s) :
    (ccLoop t0 vs s).All P Q (TaskOk D C) := by
  induction vs generalizing s with
  | nil => exact ⟨trivial, hs⟩
  | cons v vs ih =>
    simp only [Machine.ccLoop]
    split
    · exact h.reg _ _ _ hs
    · split
      · exact ⟨trivial, h.reg _ _ _ hs⟩
      · next t s2 hr =>
        have h2 := h.readTimer (h.reg _ _ _ hs) hr
        split
        · exact h2
        · exact ih _ h2

theorem OpsKeep.runCcWait (h : OpsKeep P Q D C G) (ph : CcPhase) (s : State) (hs : P s) :
    (runCcWait ph s).All P Q (TaskOk D C) := by
  unfold Machine.runCcWait
  split
  · split
    · exact ⟨trivial, hs⟩
    · next t0 s1 hr => exact h.ccLoop _ _ _ (h.readTimer hs hr)
  · exact h.ccLoop _ _ _ hs
  · split
    · exact ⟨trivial, hs⟩
    · next t s1 hr =>
      have h1 := h.readTimer hs hr
      split
      · exact h1
      · exact h.ccLoop _ _ _ h1

/-- What a lane's computation gives is for that lane. -/
theorem estLane_lane {s : State} {w : EstWork} {l : Nat} {n : Word} {r : LaneResult} {d : Int}
    (h : estLane s w l n = .ok (r, d)) : r.lane = l := by
  unfold estLane at h
  simp only [bind, Except.bind] at h
  repeat' first
    | (cases h; rfl)
    | cases h
    | split at h

theorem OpsKeep.estLoop (h : OpsKeep P Q D C G) (more : Nat) (ls : List Nat) (w : EstWork) (s : State) (hw : D w)
    (hl : w.todo = ls) (hs : P s) : (estLoop more ls w s).All P Q (TaskOk D C) := by
  induction ls generalizing w s with
  | nil => exact h.commit _ _ hw hs
  | cons l ls ih =>
    simp only [Machine.estLoop]
    split
    · refine ⟨?_, hs⟩
      show D { w with todo := l :: ls }
      rw [← hl]
      exact hw
    · next n s1 hr =>
      obtain ⟨ns, _, rfl⟩ := sample_cases hr
      have h1 := h.smp s ns (.sample l n) hs
      split
      · exact h1
      · next r d he => exact ih _ _ (h.next w l ls r _ hw hl (estLane_lane he)) rfl h1

theorem OpsKeep.runEst (h : OpsKeep P Q D C G) (more : Nat) (w : EstWork) (s : State) (hw : D w) (hs : P s) :
    (runEst more w s).All P Q (TaskOk D C) := by
  induction more generalizing w s with
  | zero => exact h.estLoop _ _ _ _ hw rfl hs
  | succ k ih =>
    have hr := h.estLoop (k + 1) w.todo w s hw rfl hs
    simp only [Machine.runEst]
    generalize Machine.estLoop (k + 1) w.todo w s = r at hr
    cases r with
    | done s' => exact ih _ _ (h.fresh _ _ hr) hr
    | hold t s' => exact hr
    | ended s' => exact hr
    | abort c s' => exact hr

theorem ofExcept_all {T : Task → Prop} {s : State} {e : Except Cause State} (hs : P s) (h : ∀ s', e = .ok s' → P s') :
    (TaskResult.ofExcept s e).All P Q T := by
  cases e with
  | ok s' => exact h s' rfl
  | error c => exact hs

/-- Every engine operation keeps what every elementary update keeps. -/
theorem OpsKeep.runTask (h : OpsKeep P Q D C G) (t : Task) (s : State) (ht : TaskOk D C t) (hs : P s) :
    (runTask t s).All P Q (TaskOk D C) := by
  cases t with
  | awaitDrain => simp only [Machine.runTask]; split <;> [exact ⟨trivial, hs⟩; exact hs]
  | check => simp only [Machine.runTask]; split <;> exact hs
  | read sp a =>
    simp only [Machine.runTask]
    split
    · exact ⟨trivial, hs⟩
    · next hr => exact h.regRead hs hr
  | write sp a v => exact h.write _ _ _ _ hs
  | enqueue a v d => exact ofExcept_all hs fun s' he => h.enqueue _ _ _ _ _ hs he
  | poll sp a mask e left due => exact h.pollLoop _ _ _ _ _ _ _ hs
  | spin sp a mask e =>
    have := h.spinLoop sp a mask e s.regIn s hs
    simp only [Machine.runTask]
    split <;> next heq => rw [heq] at this; first | exact this | exact ⟨trivial, this⟩
  | delay due =>
    have := h.runDelay due s hs
    simp only [Machine.runTask]
    split <;> next heq => rw [heq] at this; first | exact this | exact ⟨trivial, this⟩
  | save slot sp a =>
    simp only [Machine.runTask]
    split
    · exact ⟨trivial, hs⟩
    · next hr => exact h.save _ _ _ (h.regRead hs hr)
  | restore slot sp a =>
    simp only [Machine.runTask]
    split
    · exact h.write _ _ _ _ hs
    · exact hs
  | est w more => exact h.runEst _ _ _ ht hs
  | trim id =>
    simp only [Machine.runTask]
    split
    · exact h.value _ _ hs
    · exact hs
  | trimWrite id =>
    simp only [Machine.runTask]
    split
    · exact h.write _ _ _ _ hs
    · exact hs
  | rampWait b w => exact h.rampWait _ _ _ hs
  | clearAcc => exact h.clearAcc _ hs
  | curFromTrn => exact ofExcept_all hs fun s' he => h.curFromTrn _ _ hs he
  | compareDrift => exact ofExcept_all hs fun s' he => h.compareDrift _ _ hs he
  | stageFsp => exact h.fspWr _ _ hs
  | clkSrc => exact ofExcept_all hs fun s' he => h.clockSource _ _ hs he
  | ccWait ph => exact h.runCcWait _ _ hs
  | commitFsp => exact h.fspOp _ hs
  | capture i =>
    simp only [Machine.runTask]
    split
    · exact ⟨ht, hs⟩
    · next hr => exact h.capture _ _ _ ht (h.regRead hs hr)
  | finish r => exact h.finish _ _ hs

theorem microTasks_ok (s : State) (o : MicroOp) : ∀ t ∈ s.microTasks o, TaskOk D C t := by
  intro t ht
  cases o <;> simp [State.microTasks, State.tupdTasks] at ht
  case tupd =>
    rcases ht with h | h | h
    · subst h; trivial
    · subst h; trivial
    · rw [h.2]; trivial
  all_goals subst ht; trivial

theorem substTasks_ok (s : State) (o : MicroOp) : ∀ t ∈ s.substTasks o, TaskOk D C t := by
  intro t ht
  unfold State.substTasks at ht
  split at ht
  · split at ht <;> (simp at ht; subst ht; trivial)
  · exact microTasks_ok _ _ t ht

theorem prechargeTasks_ok (is : List PreItem) : ∀ t ∈ prechargeTasks is, TaskOk D C t := by
  induction is with
  | nil => simp [prechargeTasks]
  | cons i is ih =>
    intro t ht
    simp only [prechargeTasks, List.mem_append] at ht
    rcases ht with ht | ht
    · split at ht
      · cases ht
      · simp at ht; subst ht; trivial
    · exact ih t ht

theorem rampTasks_ok {s : State} {dir : Dir} {f b c : Bool} {ts : List Task} (h : s.rampTasks dir f b c = .ok ts) :
    ∀ t ∈ ts, TaskOk D C t := by
  unfold State.rampTasks at h
  cases hr : s.rampOutput dir f b with
  | error e => rw [hr] at h; cases h
  | ok qw =>
    rw [hr] at h
    cases h
    intro t ht
    simp only [List.mem_append, List.mem_map, List.mem_singleton] at ht
    rcases ht with ⟨e, _, rfl⟩ | rfl <;> trivial

/-- Every part becomes operations that are allowed. -/
theorem OpsKeep.expand (h : OpsKeep P Q D C G) (p : Part) (s : State) (ts : List Task) (hp : PartOk D C p) (hs : P s)
    (he : s.expand p = .ok ts) : ∀ t ∈ ts, TaskOk D C t := by
  cases p with
  | one t => cases he; intro t' ht'; rw [List.mem_singleton] at ht'; rw [ht']; exact hp
  | ops l =>
    cases he
    intro t ht
    unfold State.opsTasks at ht
    simp only at ht
    split at ht
    · obtain ⟨o, _, ho⟩ := List.mem_flatMap.1 ht; exact substTasks_ok _ _ _ ho
    · obtain ⟨o, _, ho⟩ := List.mem_flatMap.1 ht; exact microTasks_ok _ _ _ ho
  | est m => cases he; intro t ht; rw [List.mem_singleton] at ht; rw [ht]; exact h.fresh _ _ hs
  | estRepeat m =>
    simp only [State.expand] at he
    cases hf : s.fieldU s.dstEntry offSampleCount with
    | error e => rw [hf] at he; cases he
    | ok n =>
      rw [hf] at he
      cases he
      cases n with
      | zero => intro t ht; cases ht
      | succ k => intro t ht; rw [List.mem_singleton] at ht; rw [ht]; exact h.fresh _ _ hs
  | ramp dir f b c => exact rampTasks_ok he
  | precharge => cases he; exact prechargeTasks_ok _
  | captureAll =>
    cases he
    intro t ht
    obtain ⟨i, hi, rfl⟩ := List.mem_map.1 ht
    exact h.items _ hs i hi
  | trimAll =>
    simp only [State.expand, State.trimAllTasks] at he
    intro t ht
    cases hf : s.field s.dstEntry offFreq with
    | error e => rw [hf] at he; cases he
    | ok f =>
      cases hm : s.fieldU s.dstEntry offMargin with
      | error e => rw [hf, hm] at he; cases he
      | ok mg =>
        cases hc : scaled s.pass.value.toNat (fmhz f) with
        | error e => rw [hf, hm] at he; simp only [hc, bind, Except.bind] at he; cases he
        | ok sc =>
          rw [hf, hm] at he
          simp only [hc, bind, Except.bind] at he
          cases he
          split at ht
          · obtain ⟨i, _, rfl⟩ := List.mem_map.1 ht; trivial
          · cases ht
  | settle => cases he; intro t ht; rw [List.mem_singleton] at ht; rw [ht]; trivial

theorem commandBody_ok (i : Instr) : ∀ p ∈ commandBody i, PartOk D C p := by
  intro p hp
  cases i <;> simp [commandBody] at hp <;> subst hp <;> trivial

theorem accClearParts_ok (p : Params) : ∀ q ∈ accClearParts p, PartOk D C q := by
  intro q hq
  unfold accClearParts at hq
  split at hq
  · rw [List.mem_singleton] at hq; rw [hq]; trivial
  · cases hq

theorem tupdTasks_ok (s : State) : ∀ t ∈ s.tupdTasks, TaskOk D C t := microTasks_ok s .tupd

theorem stepBody_ok (s : State) (k : Nat) : ∀ p ∈ s.stepBody k, PartOk D C p := by
  have ha := accClearParts_ok (D := D) (C := C) s.params
  have ht := tupdTasks_ok (D := D) (C := C) s
  intro p hp
  unfold State.stepBody at hp
  simp only at hp
  split at hp
  case h_1 =>
    simp only [List.mem_append, List.mem_cons, List.not_mem_nil, or_false] at hp
    rcases hp with (h | h) | h | h | h | h
    · subst h; trivial
    · exact ha p h
    all_goals subst h; trivial
  case h_4 =>
    simp only [List.mem_append, List.mem_cons, List.not_mem_nil, or_false] at hp
    rcases hp with (h | h) | h | h
    · subst h; trivial
    · exact ha p h
    all_goals subst h; trivial
  case h_5 =>
    simp only [List.mem_append, List.mem_cons, List.not_mem_nil, or_false] at hp
    rcases hp with h | h
    · split at h
      · cases h
      · rw [List.mem_singleton] at h; subst h; trivial
    · subst h; trivial
  case h_11 =>
    simp only [List.mem_append, List.mem_cons, List.not_mem_nil, or_false, List.mem_map] at hp
    rcases hp with h | ⟨t, h, rfl⟩
    · subst h; trivial
    · exact ht t h
  case h_12 =>
    simp only [List.mem_cons, List.not_mem_nil, or_false] at hp
    rcases hp with h | h
    · subst h; trivial
    · subst h; split <;> trivial
  all_goals
    simp only [List.mem_cons, List.not_mem_nil, or_false] at hp
    first
      | (subst hp; trivial)
      | (rcases hp with h | h <;> subst h <;> trivial)
      | (rcases hp with h | h | h <;> subst h <;> trivial)
      | (rcases hp with h | h | h | h <;> subst h <;> trivial)

theorem phaseBody_ok (k : Nat) : ∀ p ∈ phaseBody k, PartOk D C p := by
  intro p hp
  unfold phaseBody at hp
  split at hp <;> simp at hp <;> subst hp <;> trivial

theorem stageParts_ok (g : Stage) (s : State) : ∀ p ∈ s.stageParts g, PartOk D C p := by
  intro p hp
  cases g with
  | interlock => simp [State.stageParts] at hp; subst hp; trivial
  | checks => simp [State.stageParts] at hp; subst hp; trivial
  | body => exact commandBody_ok _ p hp
  | step k =>
    simp only [State.stageParts] at hp
    split at hp
    · exact stepBody_ok s k p hp
    · cases hp
  | phase k => exact phaseBody_ok k p hp
  | finish r => simp [State.stageParts] at hp; subst hp; trivial

/-- What every elementary update keeps, the engine keeps. -/
theorem OpsKeep.engine (h : OpsKeep P Q D C G) : EngineKeeps P Q (TaskOk D C) (PartOk D C) G where
  tick := h.tick
  task := fun t s => h.runTask t s
  expand := fun p s ts => h.expand p s ts
  enter := h.enter
  parts := fun g s _ _ => stageParts_ok g s

end

end Sys2Proof.Machine
end

