-- ==== Sys2Proof/Laws/Units.lean ====
section
/-! SUPPORT. What each shared operation can do, said once: the stages a command is made of, and the state an operation
leaves when it succeeds. -/

namespace Sys2Proof.Machine

open Sys2Proof

/-- The stages of a command. -/
def stagesOf : Instr → List Stage
  | .nop => [.finish .keep]
  | .estDvfsPartial => unitStages
  | .estDvfsFinal => unitStages
  | .estTrainPartial => unitStages
  | .estTrainFinal => unitStages
  | .estPeriodic => unitStages
  | .trim _ => unitStages
  | .switch _ => [.interlock, .checks] ++ switchStages ++ [.finish .stepThree]
  | .pcomp => [.checks] ++ pcompStages ++ [.finish .value]
  | .rampdn _ => .interlock :: unitStages
  | .rampup _ => .interlock :: unitStages

/-- What `exec` does with a well-formed command (60_exceptions.md R223, R227). -/
theorem exec_eq (i : Instr) (h : i.wellFormed = true) (s : State) : exec i s = .next (launch i (stagesOf i) s) := by
  cases i <;> try rfl
  simp [Instr.wellFormed] at h
  simp [exec, execTrim, h]; rfl

/-- What `exec` does with a trim identity above 9 (log entry 16). -/
theorem exec_ill (i : Instr) (h : i.wellFormed = false) (s : State) : exec i s = .next s.illegalCommand := by
  cases i <;> simp [Instr.wellFormed] at h
  simp [exec, execTrim, show ¬ _ ≤ 9 from Nat.not_le.2 h]

/-- Every stage of a command writes a legal `STEP` (10_state.md R31). -/
theorem stagesOf_legal (i : Instr) : ∀ g ∈ stagesOf i, StageLegal g := by
  intro g hg
  cases i <;> simp [stagesOf, unitStages, switchStages, pcompStages] at hg
  case pcomp =>
    rcases hg with rfl | ⟨k, hk, rfl⟩ | rfl <;> simp [StageLegal]; omega
  case switch =>
    rcases hg with rfl | rfl | ⟨k, hk, rfl⟩ | rfl <;> simp [StageLegal]; omega
  all_goals (rcases hg with rfl | rfl | rfl | rfl <;> simp [StageLegal])

/-- An entry queued: the queue had room, the delay with the pending wait is a u32, and the pending wait is used
(20_memory.md R63, 42_power_ramp.md R163). -/
theorem enqueue_cases {s s' : State} {a v d : Word} (h : s.enqueue a v d = .ok s') :
    s.queue.length < s.params.qDepth ∧ d.toNat + s.pass.pendingWait < 4294967296 ∧
      s' = { s with
        queue := s.queue ++ [⟨a, v, BitVec.ofNat 32 (d.toNat + s.pass.pendingWait)⟩]
        pass := { s.pass with pendingWait := 0 } } := by
  unfold State.enqueue chk32u at h
  simp only [bind, Except.bind] at h
  split at h
  · cases h
  · next d' hd =>
    split at hd
    · cases hd
      split at h
      · cases h
      · cases h
        exact ⟨by omega, by assumption, rfl⟩
    · cases hd

/-- The reset of the current delays writes `CUR` fields of the destination entry only (43_clock_switch.md R176 (c)). -/
theorem curFromTrn_cases {s s' : State} (h : s.curFromTrn = .ok s') : ∃ ws, s' = s.setFields s.dstEntry ws ∧
    ∀ p ∈ ws, ∃ l, l < 8 ∧ p.1 = offCur l := by
  unfold State.curFromTrn at h
  cases hc : (allLanes.mapM fun l => do
    let t ← s.field s.dstEntry (offTrn l)
    Except.ok (offCur l, t)) with
  | error c => rw [hc] at h; cases h
  | ok ws =>
    rw [hc] at h; cases h
    refine ⟨ws, rfl, ?_⟩
    have : ∀ (ls : List Nat) ws, (ls.mapM fun l => do
      let t ← s.field s.dstEntry (offTrn l)
      Except.ok (ε := Cause) (offCur l, t)) = .ok ws → ∀ p ∈ ws, ∃ l ∈ ls, p.1 = offCur l := by
      intro ls
      induction ls with
      | nil => intro ws h; cases h; simp
      | cons l ls ih =>
        intro ws h
        simp only [List.mapM_cons] at h
        cases hf : s.field s.dstEntry (offTrn l) with
        | error c => rw [hf] at h; cases h
        | ok t =>
          rw [hf] at h
          simp only [bind, Except.bind] at h
          split at h
          · cases h
          · next v hv =>
            cases h
            intro p hp
            rcases List.mem_cons.1 hp with hp | hp
            · exact ⟨l, List.mem_cons_self, by rw [hp]⟩
            · obtain ⟨l', h1, h2⟩ := ih v hv p hp
              exact ⟨l', List.mem_cons_of_mem _ h1, h2⟩
    intro p hp
    obtain ⟨l, hl, h⟩ := this _ _ hc p hp
    refine ⟨l, ?_, h⟩
    simp [allLanes] at hl; omega

/-- The comparison at the end of step 3 (43_clock_switch.md R175, R176 (e)). -/
theorem compareDrift_cases {s s' : State} (h : s.compareDrift = .ok s') :
    ∃ f m x, s.field s.dstEntry offFreq = .ok f ∧ s.fieldU s.dstEntry offMargin = .ok m ∧
      scaled s.pass.value.toNat (fmhz f) = .ok x ∧
      s' = { s with compw := decide ((m : Int) < x), pass := { s.pass with maxDelta3 := s.pass.value } } := by
  unfold State.compareDrift at h
  cases h1 : s.field s.dstEntry offFreq with
  | error c => rw [h1] at h; cases h
  | ok f =>
    cases h2 : s.fieldU s.dstEntry offMargin with
    | error c => rw [h1, h2] at h; cases h
    | ok m =>
      rw [h1, h2] at h
      simp only [bind, Except.bind] at h
      cases h3 : scaled s.pass.value.toNat (fmhz f) with
      | error c => rw [h3] at h; cases h
      | ok x => rw [h3] at h; cases h; exact ⟨f, m, x, rfl, rfl, h3, rfl⟩

/-- The clock-source write (43_clock_switch.md R195, 20_memory.md R85, 42_power_ramp.md R163). -/
theorem clockSource_cases {s s' : State} (h : s.clockSource = .ok s') :
    ∃ v, s.field s.dstEntry offClkSrc = .ok v ∧
      s' = { s with
        drain := true
        drainClk := 0
        pass := { s.pass with pendingWait := 0 }
        trace := s.trace ++ [.write .car s.params.clkSrcAddr v] } := by
  unfold State.clockSource at h
  cases h1 : s.field s.dstEntry offClkSrc with
  | error c => rw [h1] at h; cases h
  | ok v => rw [h1] at h; cases h; exact ⟨v, rfl, rfl⟩

/-- Every item `CAPTURE_FN` gives in a well-formed session lies in the opaque area (60_exceptions.md R241). -/
theorem captureFn_ok {p : Params} (hp : paramsOk p = true) (c : Ctx) : ∀ i ∈ captureFn p c, captureOk p i = true := by
  have : p.captureFn.all (fun r => r.out.all (captureOk p)) = true := by
    simp only [paramsOk, Bool.and_eq_true] at hp
    tauto
  have hall : ∀ (rs : List (Row Ctx (List CapItem))), rs.all (fun r => r.out.all (captureOk p)) = true →
      ∀ i ∈ rowFor c [] rs, captureOk p i = true := by
    intro rs
    induction rs with
    | nil => intro _ i hi; cases hi
    | cons r rs ih =>
      intro h i hi
      simp only [List.all_cons, Bool.and_eq_true] at h
      unfold rowFor at hi
      split at hi
      · exact List.all_eq_true.1 h.1 i hi
      · split at hi
        · exact List.all_eq_true.1 h.1 i hi
        · exact ih h.2 i hi
  exact hall _ this

/-- The words a run commits are `ACC` and `CUR` fields of its lanes (40_estimator.md R116). -/
theorem commitWords_offsets (rs : List LaneResult) : ∀ p ∈ commitWords rs, ∃ r ∈ rs, p.1 = offAcc r.lane ∨ p.1 =
    offCur r.lane := by
  induction rs with
  | nil => simp [commitWords]
  | cons r rs ih =>
    intro p hp
    simp only [commitWords, List.mem_cons, List.mem_append] at hp
    rcases hp with rfl | hp | hp
    · exact ⟨r, List.mem_cons_self, .inl rfl⟩
    · split at hp
      · rw [List.mem_singleton] at hp; subst hp; exact ⟨r, List.mem_cons_self, .inr rfl⟩
      · cases hp
    · obtain ⟨r', h1, h2⟩ := ih p hp
      exact ⟨r', List.mem_cons_of_mem _ h1, h2⟩

end Sys2Proof.Machine
end

