-- ==== Sys2Proof/Laws/Commands.lean ====
section
/-! SUPPORT. Commands stage by stage, with no other agent acting: the interlock, the checks, a body of one part, the
end. -/

namespace Sys2Proof.Machine

open Sys2Proof

/-- Nothing drains: the interlock is passed (70_reset_and_hazards.md R264). -/
theorem runStages_interlock {s : State} {gs : List Stage} (hq : s.quantum = none) (hd : s.drain = false) :
    runStages (.interlock :: gs) s = runStages gs s := by
  rw [runStages_none hq]
  have h : s.enter .interlock = s := rfl
  rw [h, show s.stageParts .interlock = [.one .awaitDrain] from rfl, runParts_ok (ts := [.awaitDrain]) rfl,
    runTasks_done hq (s' := s) (by simp [runTask, hd])]
  rfl

/-- The checks succeed (60_exceptions.md R226). -/
theorem runStages_checks {s : State} {gs : List Stage} (hq : s.quantum = none) (hc : s.checkCause = .none) :
    runStages (.checks :: gs) s = runStages gs s := by
  rw [runStages_none hq]
  have h : s.enter .checks = s := rfl
  rw [h, show s.stageParts .checks = [.one .check] from rfl, runParts_ok (ts := [.check]) rfl,
    runTasks_done hq (s' := s) (by simp [runTask, hc])]
  rfl

/-- A check fails: the command ends with its cause. -/
theorem runStages_checks_abort {s : State} {gs : List Stage} (hq : s.quantum = none) (hc : s.checkCause ≠ .none) :
    runStages (.checks :: gs) s = .abort s.checkCause s := by
  rw [runStages_none hq]
  have h : s.enter .checks = s := rfl
  rw [h, show s.stageParts .checks = [.one .check] from rfl, runParts_ok (ts := [.check]) rfl,
    runTasks_abort (c := s.checkCause) (s' := s) hq (by simp [runTask, hc])]
  rfl

/-- The end of a command. -/
theorem runStages_finish {s : State} {gs : List Stage} {r : ResultSel} (hq : s.quantum = none) :
    runStages (.finish r :: gs) s = .ended (s.succeed r) := by
  rw [runStages_none hq]
  have h : s.enter (.finish r) = s := rfl
  rw [h, show s.stageParts (.finish r) = [.one (.finish r)] from rfl, runParts_ok (ts := [.finish r]) rfl,
    runTasks_ended (s' := s.succeed r) hq rfl]
  rfl

/-- Parts that run through, one after the other. -/
theorem runParts_step {p : Part} {ps : List Part} {s s' : State} {ts : List Task} (hx : s.expand p = .ok ts)
    (hr : runTasks ts s = .done s') : runParts (p :: ps) s = runParts ps s' := by
  rw [runParts_ok hx, hr]
  rfl

/-- A stage that runs through. -/
theorem runStages_step {g : Stage} {gs : List Stage} {s s' : State} (hq : s.quantum = none)
    (hr : runParts ((s.enter g).stageParts g) (s.enter g) = .done s') : runStages (g :: gs) s = runStages gs s' := by
  rw [runStages_none hq, hr]
  rfl

/-- Operations that run through, and more after them. -/
theorem runTasks_append {ts us : List Task} {s s' : State} (hr : runTasks ts s = .done s') :
    runTasks (ts ++ us) s = runTasks us s' := by
  induction ts generalizing s with
  | nil => cases hr; rfl
  | cons t ts ih =>
    simp only [runTasks, List.cons_append] at hr ⊢
    split at hr
    · cases hr
    · next hq =>
      rw [if_neg hq]
      generalize runTask t s.tick = r at hr
      cases r with
      | done s1 => exact ih hr
      | hold _ _ => cases hr
      | ended _ => cases hr
      | abort _ _ => cases hr

/-- The part of a command whose body is one part. -/
theorem runStages_unit {i : Instr} {p : Part} {s : State} (hb : commandBody i = [p]) (hi : s.pass.cmd = i)
    (hq : s.quantum = none) (hc : s.checkCause = .none) :
    runStages unitStages s =
      (runParts [p] s).andThen (fun c => { c with stages := [.finish .value] }) (runStages [.finish .value]) := by
  have h : s.enter .body = s := rfl
  rw [unitStages, runStages_checks hq hc, runStages_none hq, h, show s.stageParts .body =
      commandBody s.pass.cmd from rfl,
    hi, hb]

/-- A command of one part that runs through ends in success with its unit's value. -/
theorem runStages_unit_done {i : Instr} {p : Part} {s s' : State} {ts : List Task} (hb : commandBody i = [p])
    (hi : s.pass.cmd = i) (hq : s.quantum = none) (hc : s.checkCause = .none) (hx : s.expand p = .ok ts)
    (hr : runTasks ts s = .done s') (hq' : s'.quantum = none) : runStages unitStages s = .ended
        (s'.succeed .value) := by
  rw [runStages_unit hb hi hq hc, runParts_step hx hr, runParts_nil, andThen_done, runStages_finish hq']

/-- A command of one part in which a cause is raised. -/
theorem runStages_unit_abort {i : Instr} {p : Part} {s s' : State} {ts : List Task} {c : Cause}
    (hb : commandBody i = [p]) (hi : s.pass.cmd = i) (hq : s.quantum = none) (hc : s.checkCause = .none)
    (hx : s.expand p = .ok ts) (hr : runTasks ts s = .abort c s') : runStages unitStages s = .abort c s' := by
  rw [runStages_unit hb hi hq hc, runParts_ok hx, hr]
  rfl

/-- The success of a command, in the terms of the statements. -/
theorem succeed_accept {i : Instr} {s : State} {r : Word} :
    ({ s.accept i with pass := { (s.accept i).pass with value := r } } : State).succeed .value =
      { endedOk s 0 r with compw := s.compw && !cmdIsSwitch i } := by
  simp [State.succeed, State.endFlags, endedOk, State.accept, statusCode, causeIsFault]

/-- An abort before any effect, in the terms of the statements. -/
theorem abort_accept {i : Instr} {s : State} {c : Cause} (hc : c ≠ .none) :
    (s.accept i).abort c = { endedAbort s 0 c with compw := s.compw && !cmdIsSwitch i } := by
  simp [State.abort, State.endFlags, endedAbort, State.accept, statusCode, hc]

end Sys2Proof.Machine
end

