-- ==== Sys2Proof/Laws/Estimator.lean ====
section
/-! SUPPORT. The estimator, said once: what a lane comes to when its intermediates are in range, and what a run over
the lanes leaves. -/

namespace Sys2Proof.Machine

open Sys2Proof

/-- A lane depends on the memory, the parameters, and the run's mode and entries. -/
theorem estLane_congr {s t : State} {w v : EstWork} (hm : t.mem = s.mem) (hp : t.params = s.params)
    (h1 : v.mode = w.mode) (h2 : v.src = w.src) (h3 : v.dst = w.dst) (l : Nat) (n : Word) :
    estLane t v l n = estLane s w l n := by
  simp only [estLane, State.fieldS, State.fieldU, field_congr hm hp, hp, h1, h2, h3]

/-- A lane of a partial pass (40_estimator.md R118, R119). -/
theorem estLane_partial {s : State} {w : EstWork} {l : Nat} {n : Word} (hm : modeIsPartial w.mode = true)
    (hs : s.marked w.src offFreq = true) (hd : s.marked w.dst offFreq = true) (ha : s.marked w.dst (offAcc l) = true)
    (h1 : InS32 (100 * rawSample s w.src w.dst n)) (h2 : InS32 (summed s w.src w.dst (l, n))) :
    estLane s w l n = .ok (⟨l, summed s w.src w.dst (l, n), none⟩, 0) := by
  unfold summed accAt at h2
  unfold rawSample freqAt at h1 h2
  simp only [estLane, field_ok hs, field_ok hd, fieldS_ok ha, hm, if_true, bind, Except.bind, partialAcc, chk32_ok h1,
    chk32_ok h2]
  rfl

/-- The judgement of an estimate (40_estimator.md R122 to R124). -/
theorem judge_ok {s : State} {dst l : Nat} {acc : Int} (final : Bool) (h : JudgesInRange s dst l acc) :
    judge final acc (curAt s dst l) (fmhz (freqAt s dst)) (marginAt s dst) =
      .ok (if final || decide ((marginAt s dst : Int) < scaledTo s dst (driftOf s dst l acc)) then
        some (Int.tdiv acc 100) else none, driftOf s dst l acc) := by
  obtain ⟨h1, h2, h3, h4⟩ := h
  unfold judge
  simp only [chk32_ok h1, bind, Except.bind, chkAbs_ok h2]
  rw [show ((curAt s dst l - acc.tdiv 100).natAbs : Int) = driftOf s dst l acc from rfl,
    show fmhz (freqAt s dst) = (freqAt s dst).toNat / 1000 from rfl, scaled_ok h3 h4]
  rfl

theorem judge_periodic {s : State} {dst l : Nat} {acc : Int} (h : JudgesInRange s dst l acc) :
    judge false acc (curAt s dst l) (fmhz (freqAt s dst)) (marginAt s dst) =
      .ok (if (marginAt s dst : Int) < scaledTo s dst (driftOf s dst l acc) then some (Int.tdiv acc 100) else none,
        driftOf s dst l acc) := by
  simp [judge_ok false h]

/-- A lane of a final pass (R120, R122 to R125). -/
theorem estLane_final {s : State} {w : EstWork} {l : Nat} {n : Word} (hm : modeIsFinal w.mode = true)
    (hs : s.marked w.src offFreq = true) (hd : s.marked w.dst offFreq = true) (ha : s.marked w.dst (offAcc l) = true)
    (hc : s.marked w.dst (offCur l) = true) (hg : s.marked w.dst offMargin = true)
    (hn : s.marked w.dst offSampleCount = true) (h0 : countAt s w.dst ≠ 0)
    (hj : JudgesInRange s w.dst l (averaged s w.dst l)) :
    estLane s w l n =
      .ok (⟨l, averaged s w.dst l, some (Int.tdiv (averaged s w.dst l) 100)⟩,
        driftOf s w.dst l (averaged s w.dst l)) := by
  have hp : modeIsPartial w.mode = false := by cases hw : w.mode <;> simp_all [modeIsFinal, modeIsPartial]
  have := judge_ok true hj
  unfold countAt at h0
  have h0' : ((s.fieldD w.dst offSampleCount).toNat : Int) ≠ 0 := by exact_mod_cast h0
  unfold averaged accAt countAt curAt marginAt freqAt at this
  simp only [estLane, field_ok hs, field_ok hd, fieldS_ok ha, fieldS_ok hc, fieldU_ok hg, fieldU_ok hn, hm, hp,
      if_true,
    bind, Except.bind, finalAcc, tdiv_ok _ h0', Bool.false_eq_true, if_false, this, Bool.true_or]
  rfl

/-- A lane of a final pass with a zero sample count (R120, R130). -/
theorem estLane_final_zero {s : State} {w : EstWork} {l : Nat} {n : Word} (hm : modeIsFinal w.mode = true)
    (hs : s.marked w.src offFreq = true) (hd : s.marked w.dst offFreq = true) (ha : s.marked w.dst (offAcc l) = true)
    (hc : s.marked w.dst (offCur l) = true) (hg : s.marked w.dst offMargin = true)
    (hn : s.marked w.dst offSampleCount = true) (h0 : countAt s w.dst = 0) : estLane s w l n = .error .div0 := by
  have hp : modeIsPartial w.mode = false := by cases hw : w.mode <;> simp_all [modeIsFinal, modeIsPartial]
  unfold countAt at h0
  simp only [estLane, field_ok hs, field_ok hd, fieldS_ok ha, fieldS_ok hc, fieldU_ok hg, fieldU_ok hn, hm, hp,
      if_true,
    bind, Except.bind, finalAcc, h0, tdiv, Bool.false_eq_true, if_false, Nat.cast_zero]

/-- The accumulator of a periodic pass, in range (R121). -/
theorem periodicAcc_ok {a x : Int} {w : Nat} (h1 : InS32 (100 * x)) (h2 : InS32 (w * a))
    (h3 : InS32 (100 * x + w * a)) (h4 : InS32 (w + 1)) :
    periodicAcc a x w = .ok (Int.tdiv (100 * x + w * a) (w + 1)) := by
  unfold periodicAcc
  rw [chk32_ok h1, bind_ok, chk32_ok h2, bind_ok, chk32_ok h3, bind_ok, chk32_ok h4, bind_ok]
  exact tdiv_ok _ (by omega)

/-- A lane of a periodic pass (R121 to R125). -/
theorem estLane_periodic {s : State} {w : EstWork} {l : Nat} {n : Word} (hm : w.mode = .periodic)
    (hs : s.marked w.src offFreq = true) (hd : s.marked w.dst offFreq = true) (ha : s.marked w.dst (offAcc l) = true)
    (hc : s.marked w.dst (offCur l) = true) (hg : s.marked w.dst offMargin = true)
    (hw : s.marked w.dst offWeight = true) (hb : BlendsInRange s w.src w.dst (l, n))
    (hj : JudgesInRange s w.dst l (blended s w.src w.dst (l, n))) :
    estLane s w l n =
      .ok (⟨l, blended s w.src w.dst (l, n),
        if (marginAt s w.dst : Int) < scaledTo s w.dst (driftOf s w.dst l (blended s w.src w.dst (l, n))) then
          some (Int.tdiv (blended s w.src w.dst (l, n)) 100) else none⟩,
        driftOf s w.dst l (blended s w.src w.dst (l, n))) := by
  have hB : periodicAcc (s.fieldD w.dst (offAcc l)).toInt
      (sampleFn s.params (s.fieldD w.src offFreq) (s.fieldD w.dst offFreq) n) (s.fieldD w.dst offWeight).toNat =
      .ok (blended s w.src w.dst (l, n)) := periodicAcc_ok hb.1 hb.2.1 hb.2.2.1 hb.2.2.2
  have hJ := judge_periodic hj
  generalize blended s w.src w.dst (l, n) = b at hB hJ ⊢
  unfold curAt freqAt at hJ
  rw [show marginAt s w.dst = (s.fieldD w.dst offMargin).toNat from rfl] at hJ ⊢
  simp only [estLane, field_ok hs, field_ok hd, fieldS_ok ha, fieldS_ok hc, fieldU_ok hg, fieldU_ok hw, hm,
    modeIsPartial, modeIsFinal, bind, Except.bind, Bool.false_eq_true, if_false, hB, hJ]

/-- A run whose lanes all come through: what it has made of the environment and what it commits (R116, R128, R129). -/
theorem estLoop_done (more : Nat) (f : Nat × Word → LaneResult × Int) (ls : List Nat) (ns rest : List Word)
    (w : EstWork) (s : State) (hn : ns.length = ls.length) (hi : s.sampleIn = ns ++ rest)
    (hl : ∀ p ∈ ls.zip ns, estLane s w p.1 p.2 = .ok (f p)) :
    ∃ w', w'.mode = w.mode ∧ w'.src = w.src ∧ w'.dst = w.dst ∧
      w'.done = w.done ++ (ls.zip ns).map (fun p => (f p).1) ∧
      w'.maxDelta = ((ls.zip ns).map fun p => (f p).2).foldl max w.maxDelta ∧
      estLoop more ls w s =
        .done (estCommit w' { s with sampleIn := rest, trace := s.trace ++ sampleTrace (ls.zip ns) }) := by
  induction ls generalizing ns w s with
  | nil =>
    obtain rfl : ns = [] := List.length_eq_zero_iff.1 hn
    refine ⟨w, rfl, rfl, rfl, by simp, by simp, ?_⟩
    simp only [estLoop, List.zip_nil_right, sampleTrace, List.map_nil, List.append_nil]
    simp only [List.nil_append] at hi
    rw [← hi]
  | cons l ls ih =>
    match ns, hn with
    | n :: ns, hn =>
      simp only [List.length_cons, Nat.add_right_cancel_iff] at hn
      have h0 := hl (l, n) (by simp)
      have hs : s.sample l = some (n, { s with sampleIn := ns ++ rest, trace := s.trace ++ [.sample l n] }) := by
        simp only [State.sample, hi, List.cons_append]
      obtain ⟨w', a1, a2, a3, a4, a5, a6⟩ := ih ns
        { w with todo := ls, done := w.done ++ [(f (l, n)).1], maxDelta := max w.maxDelta (f (l, n)).2 }
        { s with sampleIn := ns ++ rest, trace := s.trace ++ [.sample l n] } hn rfl
        (fun p hp => (estLane_congr (s := s) (w := w) rfl rfl rfl rfl rfl _ _).trans
          (hl p (by simp only [List.zip_cons_cons, List.mem_cons]; exact Or.inr hp)))
      refine ⟨w', a1, a2, a3, ?_, ?_, ?_⟩
      · rw [a4]; simp
      · rw [a5]; simp
      · have h1 : estLane { s with sampleIn := ns ++ rest, trace := s.trace ++ [.sample l n] } w l n = .ok
          (f (l, n)) :=
          (estLane_congr (s := s) (w := w) rfl rfl rfl rfl rfl _ _).trans h0
        simp only [estLoop, hs, h1]
        simp only [a6, sampleTrace, List.zip_cons_cons, List.map_cons, List.append_assoc, List.singleton_append]

/-- The commit of a run: memory and return value (R116, R126, R129, R131). -/
theorem estCommit_eq (w : EstWork) (s : State) :
    estCommit w s =
      { s with
        mem := memSetWords s.mem
          ((commitWords w.done ++ trainWords s w).map fun p => (entryBase s.params w.dst + p.1, p.2))
        pass := { s.pass with value := BitVec.ofInt 32 w.maxDelta } } := rfl

end Sys2Proof.Machine
end

