-- ==== Sys2Proof/Laws/Relabel.lean ====
section
/-! SUPPORT. The engine does not read what is left of a command in `PASS`, nor, in a `pcomp`, the source index: with
others in their place every operation, part and stage does the same. -/

namespace Sys2Proof.Machine

open Sys2Proof

/-- A register read taken: the answers left and the record of it. -/
def State.tookReg (s : State) (vs : List Word) (e : PortEvent) : State :=
  { s with regIn := vs, trace := s.trace ++ [e] }

/-- A timer reading taken: the advances left and the reading. -/
def State.tookTimer (s : State) (as : List Word) (t : Word) : State :=
  { s with timerIn := as, timerUs := t, trace := s.trace ++ [.timer t] }

/-- The trained delays of the destination entry, as words for `CUR` (43_clock_switch.md R176 (c)). -/
def State.trnWords (s : State) : Except Cause (List (Nat × Word)) :=
  allLanes.mapM fun l => do
    let t ← s.field s.dstEntry (offTrn l)
    .ok (offCur l, t)

theorem curFromTrn_eq (s : State) :
    s.curFromTrn = (do
      let ws ← s.trnWords
      .ok (s.setFields s.dstEntry ws)) := rfl

/-- The record of a read of the clock-change-complete status. -/
def State.ccRead (s : State) (v : Word) : PortEvent := .read s.params.ccStatus.sp s.params.ccStatus.addr v

/-- One read of the clock-change-complete wait (43_clock_switch.md R196). -/
theorem ccLoop_cons (t0 v : Word) (vs : List Word) (s : State) :
    ccLoop t0 (v :: vs) s =
      if v &&& s.params.ccStatus.mask = s.params.ccStatus.mask then .done (s.tookReg vs (s.ccRead v))
      else
        match (s.tookReg vs (s.ccRead v)).readTimer true with
        | none => .hold (.ccWait (.timer t0)) (s.tookReg vs (s.ccRead v))
        | some (t, s2) => if s.params.ccTimeoutUs ≤ t - t0 then .abort .ccTimeout s2 else ccLoop t0 vs s2 := rfl

/-- What is done to the state of a result. -/
def TaskResult.map (f : State → State) : TaskResult → TaskResult
  | .done s => .done (f s)
  | .hold t s => .hold t (f s)
  | .ended s => .ended (f s)
  | .abort c s => .abort c (f s)

/-- Another remainder in `PASS`, another `SRC_IDX` and another latched source index. -/
def State.relabel (c : Cont) (x : BitVec 10) (y : BitVec 10) (s : State) : State :=
  { s with srcIdx := x, pass := { s.pass with cont := c, srcIdx := y } }

section

variable (c : Cont) (x y : BitVec 10)

/-- The running command does not use the source index of the pass, or the index is `y`. -/
def SrcFree (s : State) : Prop := s.pass.cmd = .pcomp ∨ s.pass.srcIdx = y

theorem srcEntry_relabel {s : State} (h : SrcFree y s) : (s.relabel c x y).srcEntry = s.srcEntry := by
  rcases h with h | h
  · simp [State.relabel, State.srcEntry, h]
  · simp [State.relabel, State.srcEntry, h]

theorem ctx_relabel {s : State} (h : SrcFree y s) (l : Label) : (s.relabel c x y).ctx l = s.ctx l := by
  have := srcEntry_relabel c x y h
  unfold State.ctx; rw [this]; rfl

theorem delayLoop_relabel (t0 n : Word) (as : List Word) (s : State) :
   delayLoop t0 n as (s.relabel c x y) = ((State.relabel c x y (delayLoop t0 n as s).1),
       (delayLoop t0 n as s).2) := by
  induction as generalizing s with
  | nil => rfl
  | cons a as ih =>
    simp only [delayLoop]
    split <;> rename_i h
    · have h' : n ≤ s.timerUs + timerStep true a - t0 := h
      rw [if_pos h']; rfl
    · have h' : ¬ n ≤ s.timerUs + timerStep true a - t0 := h
      rw [if_neg h', ← ih]; rfl

theorem runDelay_relabel (d : Delay) (s : State) : runDelay d (s.relabel c x y) =
    ((runDelay d s).1, State.relabel c x y (runDelay d s).2) := by
  cases d with
  | none => rfl
  | start n =>
    simp only [runDelay]
    cases ht : s.timerIn with
    | nil => simp [State.readTimer, ht, State.relabel]
    | cons a as =>
      obtain ⟨u, hu⟩ : ∃ u, u = s.tookTimer as (s.timerUs + timerStep false a) := ⟨_, rfl⟩
      have e1 : s.readTimer false = some (s.timerUs + timerStep false a, u) := by
        simp [State.readTimer, ht, hu, State.tookTimer]
      have e2 : (s.relabel c x y).readTimer false = some (s.timerUs + timerStep false a, u.relabel c x y) := by
        simp [State.readTimer, ht, hu, State.tookTimer, State.relabel]
      rw [e1, e2]
      dsimp only
      split
      · rfl
      · rw [delayLoop_relabel, show (u.relabel c x y).timerIn = u.timerIn from rfl]
        generalize delayLoop _ n u.timerIn u = r
        rcases r with ⟨v, b⟩
        cases b <;> rfl
  | since t0 n =>
    simp only [runDelay]
    rw [delayLoop_relabel, show (s.relabel c x y).timerIn = s.timerIn from rfl]
    rcases delayLoop _ n s.timerIn s with ⟨v, b⟩
    cases b <;> rfl

theorem spinLoop_relabel (sp a m e) (vs : List Word) (s : State) :
   spinLoop sp a m e vs (s.relabel c x y) = ((State.relabel c x y (spinLoop sp a m e vs s).1),
       (spinLoop sp a m e vs s).2) := by
  induction vs generalizing s with
  | nil => rfl
  | cons v vs ih =>
    simp only [spinLoop]
    split <;> rename_i h
    · rfl
    · rw [← ih]; rfl

theorem regRead_relabel (sp a) (s : State) : (s.relabel c x y).regRead sp a = (s.regRead sp a).map fun p =>
    (p.1, State.relabel c x y p.2) := by
  unfold State.regRead
  rw [show (s.relabel c x y).regIn = s.regIn from rfl]
  cases s.regIn <;> rfl
theorem readTimer_relabel (b) (s : State) : (s.relabel c x y).readTimer b = (s.readTimer b).map fun p =>
    (p.1, State.relabel c x y p.2) := by
  unfold State.readTimer
  rw [show (s.relabel c x y).timerIn = s.timerIn from rfl]
  cases s.timerIn <;> rfl
theorem sample_relabel (b) (s : State) : (s.relabel c x y).sample b = (s.sample b).map fun p =>
    (p.1, State.relabel c x y p.2) := by
  unfold State.sample
  rw [show (s.relabel c x y).sampleIn = s.sampleIn from rfl]
  cases s.sampleIn <;> rfl

theorem pollLoop_relabel (sp a m e) (n : Nat) (d : Delay) (s : State) :
   pollLoop sp a m e n d (s.relabel c x y) = (pollLoop sp a m e n d s).map (State.relabel c x y) := by
  induction n generalizing d s with
  | zero => rfl
  | succ n ih =>
    simp only [pollLoop, runDelay_relabel]
    rcases runDelay d s with ⟨d', u⟩
    cases d' with
    | none =>
      simp only [regRead_relabel]
      cases u.regRead sp a with
      | none => rfl
      | some p =>
        simp only [Option.map_some]
        split
        · rfl
        · exact ih _ _
    | start n => rfl
    | since a b => rfl

theorem tookReg_relabel (s : State) (vs : List Word) (e : PortEvent) :
    (s.relabel c x y).tookReg vs e = (s.tookReg vs e).relabel c x y := rfl

theorem ccLoop_relabel (t0) (vs : List Word) (s : State) : ccLoop t0 vs (s.relabel c x y) = (ccLoop t0 vs s).map
    (State.relabel c x y) := by
  induction vs generalizing s with
  | nil => rfl
  | cons v vs ih =>
    rw [ccLoop_cons, ccLoop_cons]
    rw [show (s.relabel c x y).params = s.params from rfl,
      show (s.relabel c x y).ccRead v = s.ccRead v from rfl, tookReg_relabel]
    split
    · rfl
    · rw [readTimer_relabel]
      generalize s.tookReg vs _ = u
      cases u.readTimer true with
      | none => rfl
      | some p =>
        simp only [Option.map_some]
        split
        · rfl
        · exact ih _

theorem runCcWait_relabel (ph) (s : State) : runCcWait ph (s.relabel c x y) = (runCcWait ph s).map
    (State.relabel c x y) := by
  cases ph with
  | start =>
    simp only [runCcWait, readTimer_relabel]
    cases s.readTimer false with
    | none => rfl
    | some p => exact ccLoop_relabel c x y _ _ _
  | read t => exact ccLoop_relabel c x y _ _ _
  | timer t =>
    simp only [runCcWait, readTimer_relabel]
    cases s.readTimer true with
    | none => rfl
    | some p =>
      simp only [Option.map_some]
      rw [show (s.relabel c x y).params = s.params from rfl]
      split
      · rfl
      · exact ccLoop_relabel c x y _ _ _

theorem estLoop_relabel (more) (ls : List Nat) (w) (s : State) : estLoop more ls w (s.relabel c x y) =
    (estLoop more ls w s).map (State.relabel c x y) := by
  induction ls generalizing w s with
  | nil => rfl
  | cons l ls ih =>
    simp only [estLoop, sample_relabel]
    cases s.sample l with
    | none => rfl
    | some p =>
      simp only [Option.map_some]
      rw [show estLane (State.relabel c x y p.2) w l p.1 = estLane p.2 w l p.1 from rfl]
      cases estLane p.2 w l p.1 with
      | error => rfl
      | ok r => exact ih _ _

def SameCommand (s t : State) : Prop := t.pass.cmd = s.pass.cmd ∧ t.pass.srcIdx = s.pass.srcIdx
theorem SrcFree.of {s t : State} (h : SrcFree y s) (hk : SameCommand s t) : SrcFree y t := by
  rcases h with h | h
  · exact .inl (hk.1.trans h)
  · exact .inr (hk.2.trans h)

theorem freshEst_relabel {s : State} (h : SrcFree y s) (m) : freshEst (s.relabel c x y) m = freshEst s m := by
  unfold freshEst; rw [srcEntry_relabel c x y h]; rfl

theorem estLoop_keep (more ls w) (s s' : State) (h : estLoop more ls w s = .done s') : SameCommand s s' := by
  induction ls generalizing w s with
  | nil => cases h; exact ⟨rfl, rfl⟩
  | cons l ls ih =>
    simp only [estLoop] at h
    cases hs : s.sample l with
    | none => rw [hs] at h; cases h
    | some p =>
      obtain ⟨ns, h1, h2⟩ := sample_cases hs
      rw [hs] at h
      dsimp only at h
      cases he : estLane p.2 w l p.1 with
      | error e => rw [he] at h; cases h
      | ok r =>
        rw [he] at h
        have := ih _ _ h
        rw [h2] at this
        exact this

theorem runEst_relabel (k w) (s : State) (h : SrcFree y s) : runEst k w (s.relabel c x y) = (runEst k w s).map
    (State.relabel c x y) := by
  induction k generalizing w s with
  | zero => exact estLoop_relabel ..
  | succ k ih =>
    simp only [runEst]
    rw [estLoop_relabel]
    cases he : estLoop (k+1) w.todo w s with
    | done s' =>
      have h' := h.of y (estLoop_keep _ _ _ _ _ he)
      simp only [TaskResult.map]
      rw [freshEst_relabel c x y h']
      exact ih _ _ h'
    | hold => rfl
    | ended => rfl
    | abort => rfl

theorem readSet_relabel {s : State} (h : SrcFree y s) : (s.relabel c x y).readSet = s.readSet ∧
    (s.relabel c x y).usedEntries = s.usedEntries := by
  have := srcEntry_relabel c x y h
  unfold State.readSet State.usedEntries State.switchReads
  rw [this]
  constructor <;> rfl

theorem ofExcept_relabel (s : State) (e e' : Except Cause State) (h : e' = e.map (State.relabel c x y)) :
   TaskResult.ofExcept (s.relabel c x y) e' = (TaskResult.ofExcept s e).map (State.relabel c x y) := by
  subst h; cases e <;> rfl

theorem enqueue_relabel (s : State) (a v d) : (s.relabel c x y).enqueue a v d = (s.enqueue a v d).map
    (State.relabel c x y) := by
  unfold State.enqueue
  rw [show (s.relabel c x y).pass.pendingWait = s.pass.pendingWait from rfl, show (s.relabel c x y).params =
      s.params from rfl, show (s.relabel c x y).queue = s.queue from rfl]
  cases chk32u (d.toNat + s.pass.pendingWait) with
  | error => rfl
  | ok =>
    rw [bind_ok, bind_ok]
    split <;> rfl

theorem setFields_relabel (s : State) (i ws) : (s.relabel c x y).setFields i ws = State.relabel c x y
    (s.setFields i ws) := rfl
theorem clearAcc_relabel (s : State) : (s.relabel c x y).clearAcc = State.relabel c x y s.clearAcc := by
  unfold State.clearAcc
  exact setFields_relabel c x y s s.dstEntry _
theorem curFromTrn_relabel (s : State) : (s.relabel c x y).curFromTrn = s.curFromTrn.map (State.relabel c x y) := by
  rw [curFromTrn_eq, curFromTrn_eq, show (s.relabel c x y).trnWords = s.trnWords from rfl]
  cases s.trnWords <;> rfl

theorem compareDrift_relabel (s : State) : (s.relabel c x y).compareDrift = s.compareDrift.map
    (State.relabel c x y) := by
  unfold State.compareDrift
  rw [show (s.relabel c x y).field (s.relabel c x y).dstEntry = s.field s.dstEntry from rfl,
    show (s.relabel c x y).fieldU (s.relabel c x y).dstEntry = s.fieldU s.dstEntry from rfl,
    show (s.relabel c x y).pass.value = s.pass.value from rfl]
  cases s.field s.dstEntry offFreq with
  | error => rfl
  | ok f =>
    cases s.fieldU s.dstEntry offMargin with
    | error => rfl
    | ok m =>
      rw [bind_ok, bind_ok, bind_ok, bind_ok]
      cases scaled s.pass.value.toNat (fmhz f) <;> rfl
theorem clockSource_relabel (s : State) : (s.relabel c x y).clockSource = s.clockSource.map
    (State.relabel c x y) := by
  unfold State.clockSource
  rw [show (s.relabel c x y).field (s.relabel c x y).dstEntry = s.field s.dstEntry from rfl]
  cases s.field s.dstEntry offClkSrc <;> rfl

theorem runTask_relabel (t : Task) (hf : ∀ r, t ≠ .finish r) (s : State) (h : SrcFree y s) : runTask t
    (s.relabel c x y) = (runTask t s).map (State.relabel c x y) := by
  cases t with
  | awaitDrain =>
    simp only [runTask, show (s.relabel c x y).drain = s.drain from rfl]; split <;> rfl
  | check =>
    have : (s.relabel c x y).checkCause = s.checkCause := by
      unfold State.checkCause; rw [(readSet_relabel c x y h).1, (readSet_relabel c x y h).2]; rfl
    simp only [runTask, this]; split <;> rfl
  | read sp a => simp only [runTask, regRead_relabel]; cases s.regRead sp a <;> rfl
  | write => rfl
  | enqueue a v d => exact ofExcept_relabel _ _ _ _ _ _ (enqueue_relabel ..)
  | poll => exact pollLoop_relabel ..
  | spin sp a m e =>
    simp only [runTask, show (s.relabel c x y).regIn = s.regIn from rfl, spinLoop_relabel]
    rcases spinLoop sp a m e s.regIn s with ⟨u, b⟩
    cases b <;> rfl
  | delay d =>
    simp only [runTask, runDelay_relabel]
    rcases runDelay d s with ⟨u, b⟩
    cases u <;> rfl
  | save i sp a => simp only [runTask, regRead_relabel]; cases s.regRead sp a <;> rfl
  | restore i sp a =>
    simp only [runTask, show (s.relabel c x y).snap = s.snap from rfl]; cases s.snap.getD i none <;> rfl
  | est w k => exact runEst_relabel _ _ _ _ _ _ h
  | trim i =>
    simp only [runTask, show (s.relabel c x y).trimValue (s.relabel c x y).dstEntry i =
        s.trimValue s.dstEntry i from rfl]
    cases s.trimValue s.dstEntry i <;> rfl
  | trimWrite i =>
    simp only [runTask, show (s.relabel c x y).trimValue (s.relabel c x y).dstEntry i =
        s.trimValue s.dstEntry i from rfl]
    cases s.trimValue s.dstEntry i <;> rfl
  | rampWait b w => cases b <;> rfl
  | clearAcc =>
    simp only [runTask, TaskResult.map, clearAcc_relabel]
  | curFromTrn => exact ofExcept_relabel _ _ _ _ _ _ (curFromTrn_relabel ..)
  | compareDrift => exact ofExcept_relabel _ _ _ _ _ _ (compareDrift_relabel ..)
  | stageFsp => simp only [runTask, ctx_relabel c x y h]; rfl
  | clkSrc => exact ofExcept_relabel _ _ _ _ _ _ (clockSource_relabel ..)
  | ccWait => exact runCcWait_relabel ..
  | commitFsp => rfl
  | capture i => simp only [runTask, regRead_relabel]; cases s.regRead i.sp i.addr <;> rfl
  | finish r => exact absurd rfl (hf r)

def State.withSrcIdx (s : State) : State := { s with srcIdx := x }
def Run.relabel : Run → Run
  | .done s => .done (s.relabel c x y)
  | .paused k s => .paused k (s.relabel c x y)
  | .ended s => .ended (State.withSrcIdx x s)
  | .abort e s => .abort e (s.relabel c x y)
def TaskResult.relabel : TaskResult → TaskResult
  | .done s => .done (s.relabel c x y)
  | .hold k s => .hold k (s.relabel c x y)
  | .ended s => .ended (State.withSrcIdx x s)
  | .abort e s => .abort e (s.relabel c x y)

theorem ofExcept_ended (s u) (e : Except Cause State) :
    TaskResult.ofExcept s e ≠ .ended u := by cases e <;> simp [TaskResult.ofExcept]
theorem estLoop_ended (m ls w s u) : estLoop m ls w s ≠ .ended u := by
  induction ls generalizing w s with
  | nil => simp [estLoop]
  | cons l ls ih =>
    simp only [estLoop]
    split
    · simp
    · split
      · simp
      · exact ih _ _
theorem runEst_ended (k w s u) : runEst k w s ≠ .ended u := by
  induction k generalizing w s with
  | zero => exact estLoop_ended _ _ _ _ _
  | succ k ih =>
    simp only [runEst]
    split
    · exact ih _ _
    · simp
    · next h => exact absurd h (estLoop_ended _ _ _ _ _)
    · simp
theorem pollLoop_ended (sp a m e n d s u) : pollLoop sp a m e n d s ≠ .ended u := by
  induction n generalizing d s with
  | zero => simp [pollLoop]
  | succ n ih =>
    simp only [pollLoop]
    split
    · split
      · simp
      · split
        · simp
        · exact ih _ _
    · simp
theorem ccLoop_ended (t vs s u) : ccLoop t vs s ≠ .ended u := by
  induction vs generalizing s with
  | nil => simp [ccLoop]
  | cons v vs ih =>
    rw [ccLoop_cons]
    split
    · simp
    · split
      · simp
      · split
        · simp
        · exact ih _
theorem runCcWait_ended (ph s u) : runCcWait ph s ≠ .ended u := by
  cases ph <;> simp only [runCcWait]
  · split
    · simp
    · exact ccLoop_ended _ _ _ _
  · exact ccLoop_ended _ _ _ _
  · split
    · simp
    · split
      · simp
      · exact ccLoop_ended _ _ _ _

theorem runTask_ended {t s u} (h : runTask t s = .ended u) : ∃ r, t = .finish r := by
  cases t <;> simp only [runTask] at h
  case finish r => exact ⟨r, rfl⟩
  case est => exact absurd h (runEst_ended _ _ _ _)
  case poll => exact absurd h (pollLoop_ended _ _ _ _ _ _ _ _)
  case ccWait => exact absurd h (runCcWait_ended _ _ _)
  case enqueue => exact absurd h (ofExcept_ended _ _ _)
  case curFromTrn => exact absurd h (ofExcept_ended _ _ _)
  case compareDrift => exact absurd h (ofExcept_ended _ _ _)
  case clkSrc => exact absurd h (ofExcept_ended _ _ _)
  all_goals first | (cases h) | (split at h <;> cases h)

theorem runTask_relabel' (t : Task) (s : State) (h : SrcFree y s) : runTask t (s.relabel c x y) =
    TaskResult.relabel c x y (runTask t s) := by
  by_cases hf : ∃ r, t = .finish r
  · obtain ⟨r, rfl⟩ := hf
    cases r <;> rfl
  · rw [runTask_relabel c x y t (fun r hr => hf ⟨r, hr⟩) s h]
    cases hr : runTask t s with
    | ended u => exact absurd (runTask_ended hr) hf
    | _ => rfl

theorem srcFree_ops : OpsKeep (SrcFree y) (fun _ => True) (fun _ => True) (fun _ => True) (fun _ => True) where
  tick s h := h.of y ⟨rfl, rfl⟩
  reg s _ _ h := h.of y ⟨rfl, rfl⟩
  smp s _ _ h := h.of y ⟨rfl, rfl⟩
  tim s _ _ _ h := h.of y ⟨rfl, rfl⟩
  pto s h := h.of y ⟨rfl, rfl⟩
  write s _ _ _ h := h.of y ⟨rfl, rfl⟩
  enqueue s a v d s' h he := by
    obtain ⟨_, _, rfl⟩ := enqueue_cases he
    exact h.of y ⟨rfl, rfl⟩
  save s _ _ h := h.of y ⟨rfl, rfl⟩
  value s _ h := h.of y ⟨rfl, rfl⟩
  rampWait s _ _ h := by unfold State.rampWait; split <;> exact h.of y ⟨rfl, rfl⟩
  commit s w _ h := h.of y ⟨rfl, rfl⟩
  clearAcc s h := h.of y ⟨by simp, by simp⟩
  curFromTrn s s' h he := by
    obtain ⟨ws, rfl, _⟩ := curFromTrn_cases he
    exact h.of y ⟨rfl, rfl⟩
  compareDrift s s' h he := by
    obtain ⟨_, _, _, _, _, _, rfl⟩ := compareDrift_cases he
    exact h.of y ⟨rfl, rfl⟩
  fspWr s _ h := h.of y ⟨rfl, rfl⟩
  fspOp s h := h.of y ⟨rfl, rfl⟩
  clockSource s s' h he := by
    obtain ⟨_, _, rfl⟩ := clockSource_cases he
    exact h.of y ⟨rfl, rfl⟩
  capture s i v _ h := by unfold State.captureItem; exact h.of y ⟨rfl, rfl⟩
  finish s r h := trivial
  fresh _ _ _ := trivial
  next _ _ _ _ _ _ _ _ := trivial
  items _ _ _ _ := trivial
  enter g s _ h := by cases g <;> exact h.of y ⟨rfl, rfl⟩

theorem taskOk_true (t) : TaskOk (fun _ => True) (fun _ => True) t := by cases t <;> trivial
theorem partOk_true (p) : PartOk (fun _ => True) (fun _ =>
    True) p := by cases p <;> first | trivial | exact taskOk_true _

theorem runTasks_relabel (ts : List Task) (s : State) (h : SrcFree y s) : runTasks ts (s.relabel c x y) =
    Run.relabel c x y (runTasks ts s) := by
  induction ts generalizing s with
  | nil => rfl
  | cons t ts ih =>
    simp only [runTasks]
    rw [show (s.relabel c x y).quantum = s.quantum from rfl]
    split
    · rfl
    · rw [show (s.relabel c x y).tick = State.relabel c x y s.tick from rfl,
        runTask_relabel' c x y t s.tick (h.of y ⟨rfl, rfl⟩)]
      have := (srcFree_ops y).runTask t s.tick (taskOk_true t) (h.of y ⟨rfl, rfl⟩)
      cases hr : runTask t s.tick with
      | done s' => rw [hr] at this; exact ih s' this
      | _ => rfl

theorem expand_relabel (p : Part) (s : State) (h : SrcFree y s) : (s.relabel c x y).expand p = s.expand p := by
  have hs := srcEntry_relabel c x y h
  cases p with
  | one => rfl
  | ops l =>
    simp only [State.expand, State.opsTasks, ctx_relabel c x y h]
    rfl
  | est => simp only [State.expand, freshEst_relabel c x y h]
  | estRepeat => simp only [State.expand, freshEst_relabel c x y h]; rfl
  | ramp => simp only [State.expand, State.rampTasks, State.rampOutput, hs]; rfl
  | precharge => simp only [State.expand, hs]; rfl
  | captureAll => simp only [State.expand, ctx_relabel c x y h]; rfl
  | trimAll => rfl
  | settle => rfl

theorem runParts_relabel (ps : List Part) (s : State) (h : SrcFree y s) : runParts ps (s.relabel c x y) =
    Run.relabel c x y (runParts ps s) := by
  induction ps generalizing s with
  | nil => rfl
  | cons p ps ih =>
    simp only [runParts]
    rw [expand_relabel c x y p s h]
    split
    · rfl
    · next ts _ =>
      rw [runTasks_relabel c x y ts s h]
      have := runTasks_all (srcFree_ops y).engine ts s (fun t _ => taskOk_true t) h
      cases hr : runTasks ts s with
      | done s' => rw [hr] at this; exact ih s' this
      | _ => rfl

theorem stageParts_relabel (g : Stage) (s : State) (h : SrcFree y s) : (s.relabel c x y).stageParts g =
    s.stageParts g := by
  cases g with
  | step k =>
    have : (s.relabel c x y).stepCond k = s.stepCond k := by
      unfold State.stepCond
      rw [ctx_relabel c x y h]; rfl
    simp only [State.stageParts, this]
    rfl
  | _ => rfl

theorem runStages_relabel (gs : List Stage) (s : State) (h : SrcFree y s) : runStages gs (s.relabel c x y) =
    Run.relabel c x y (runStages gs s) := by
  induction gs generalizing s with
  | nil => rfl
  | cons g gs ih =>
    simp only [runStages]
    rw [show (s.relabel c x y).quantum = s.quantum from rfl]
    split
    · rfl
    · rw [show (s.relabel c x y).tick = State.relabel c x y s.tick from rfl]
      have ht : SrcFree y s.tick := h.of y ⟨rfl, rfl⟩
      have he : (State.relabel c x y s.tick).enter g = State.relabel c x y (s.tick.enter g) := by cases g <;> rfl
      have hg : SrcFree y (s.tick.enter g) := (srcFree_ops y).enter g _ trivial ht
      rw [he, stageParts_relabel c x y g _ hg, runParts_relabel c x y _ _ hg]
      have := runParts_all (srcFree_ops y).engine ((s.tick.enter g).stageParts g) _ (fun p _ => partOk_true p) hg
      cases hr : runParts ((s.tick.enter g).stageParts g) (s.tick.enter g) with
      | done s' => rw [hr] at this; exact ih s' this
      | _ => rfl

theorem runCont_relabel (k : Cont) (s : State) (h : SrcFree y s) : runCont k (s.relabel c x y) = Run.relabel c x y
    (runCont k s) := by
  simp only [runCont]
  rw [runTasks_relabel c x y _ _ h]
  have := runTasks_all (srcFree_ops y).engine k.tasks s (fun t _ => taskOk_true t) h
  cases hr : runTasks k.tasks s with
  | done s' =>
    rw [hr] at this
    simp only [Run.relabel, andThen_done]
    rw [runParts_relabel c x y _ _ this]
    have := runParts_all (srcFree_ops y).engine k.parts s' (fun t _ => partOk_true t) this
    cases hr : runParts k.parts s' with
    | done s'' => rw [hr] at this; exact runStages_relabel c x y _ _ this
    | _ => rfl
  | _ => rfl
end

end Sys2Proof.Machine
end

