-- ==== Sys2Proof/Laws/Answers.lean ====
section
/-! SUPPORT. The engine goes on with answers that come later as it would have had they come at once. -/

namespace Sys2Proof.Machine

open Sys2Proof

section

variable (rs ns ts : List Word)

/-- More answers of the environment, behind the ones that have come, and no other agent acting. -/
def State.withAnswers (s : State) : State :=
  { s with
    quantum := none
    regIn := s.regIn ++ rs
    sampleIn := s.sampleIn ++ ns
    timerIn := s.timerIn ++ ts }

/-- A result gone on with the answers that came later. -/
def TaskResult.goOn : TaskResult → TaskResult
  | .done s => .done (s.withAnswers rs ns ts)
  | .hold t s => runTask t (s.withAnswers rs ns ts)
  | .ended s => .ended (s.withAnswers rs ns ts)
  | .abort c s => .abort c (s.withAnswers rs ns ts)

theorem delayLoop_withAnswers (t0 n : Word) (as : List Word) (s : State) :
    delayLoop t0 n (as ++ ts) (s.withAnswers rs ns ts) =
      match delayLoop t0 n as s with
      | (s', true) => (State.withAnswers rs ns ts s', true)
      | (s', false) => delayLoop t0 n ts (s'.withAnswers rs ns ts) := by
  induction as generalizing s with
  | nil => rfl
  | cons a as ih =>
    simp only [List.cons_append, delayLoop]
    split <;> rename_i h
    · have h' : n ≤ s.timerUs + timerStep true a - t0 := h
      rw [if_pos h']; rfl
    · have h' : ¬ n ≤ s.timerUs + timerStep true a - t0 := h
      rw [if_neg h', ← ih]; rfl

theorem delayLoop_in (t0 n : Word) (as : List Word) (s s' : State) (hs : s.timerIn = as)
    (h : delayLoop t0 n as s = (s', false)) : s'.timerIn = [] := by
  induction as generalizing s with
  | nil => cases h; exact hs
  | cons a as ih =>
    simp only [delayLoop] at h
    split at h
    · cases h
    · exact ih _ rfl h

theorem runDelay_since_withAnswers (t0 n : Word) (s : State) : runDelay (.since t0 n) (s.withAnswers rs ns ts) =
    match runDelay (.since t0 n) s with
    | (.none, s') => (.none, State.withAnswers rs ns ts s')
    | (d', s') => runDelay d' (s'.withAnswers rs ns ts) := by
  simp only [runDelay]
  rw [show (s.withAnswers rs ns ts).timerIn = s.timerIn ++ ts from rfl, delayLoop_withAnswers]
  cases hd : delayLoop t0 n s.timerIn s with
  | mk s' b =>
    cases b with
    | true => rfl
    | false =>
      have := delayLoop_in t0 n _ _ _ rfl hd
      dsimp only
      rw [show (s'.withAnswers rs ns ts).timerIn = s'.timerIn ++ ts from rfl, this]
      rfl

theorem runDelay_withAnswers (d : Delay) (s : State) : runDelay d (s.withAnswers rs ns ts) =
    match runDelay d s with
    | (.none, s') => (.none, State.withAnswers rs ns ts s')
    | (d', s') => runDelay d' (s'.withAnswers rs ns ts) := by
  cases d with
  | none => rfl
  | since t0 n => exact runDelay_since_withAnswers ..
  | start n =>
    simp only [runDelay]
    cases ht : s.timerIn with
    | nil =>
      have : s.readTimer false = none := by simp [State.readTimer, ht]
      rw [this]
    | cons a as =>
      obtain ⟨u, hu⟩ : ∃ u, u = s.tookTimer as (s.timerUs + timerStep false a) := ⟨_, rfl⟩
      have e1 : s.readTimer false = some (s.timerUs + timerStep false a, u) := by
        simp [State.readTimer, ht, hu, State.tookTimer]
      have e2 : (s.withAnswers rs ns ts).readTimer false = some
          (s.timerUs + timerStep false a, State.withAnswers rs ns ts u) := by
        simp [State.readTimer, ht, hu, State.tookTimer, State.withAnswers]
      rw [e1, e2]
      dsimp only
      by_cases hn : n = 0
      · rw [if_pos hn, if_pos hn]
      · rw [if_neg hn, if_neg hn]
        exact runDelay_since_withAnswers rs ns ts (s.timerUs + timerStep false a) n u

theorem regRead_withAnswers {s : State} {sp a p} (h : s.regRead sp a = some p) :
    (s.withAnswers rs ns ts).regRead sp a = some (p.1, State.withAnswers rs ns ts p.2) := by
  obtain ⟨v, s'⟩ := p
  obtain ⟨vs, h1, h2⟩ := regRead_cases h
  subst h2
  simp [State.regRead, State.withAnswers, h1]
theorem readTimer_withAnswers {s : State} {b p} (h : s.readTimer b = some p) :
    (s.withAnswers rs ns ts).readTimer b = some (p.1, State.withAnswers rs ns ts p.2) := by
  unfold State.readTimer at h ⊢
  rw [show (s.withAnswers rs ns ts).timerIn = s.timerIn ++ ts from rfl]
  cases hs : s.timerIn with
  | nil => rw [hs] at h; cases h
  | cons a as => rw [hs] at h; cases h; rfl
theorem sample_withAnswers {s : State} {b p} (h : s.sample b = some p) : (s.withAnswers rs ns ts).sample b = some
    (p.1, State.withAnswers rs ns ts p.2) := by
  unfold State.sample at h ⊢
  rw [show (s.withAnswers rs ns ts).sampleIn = s.sampleIn ++ ns from rfl]
  cases hs : s.sampleIn with
  | nil => rw [hs] at h; cases h
  | cons a as => rw [hs] at h; cases h; rfl

theorem pollLoop_withAnswers (sp a m e) (n : Nat) (d : Delay) (s : State) :
   pollLoop sp a m e n d (s.withAnswers rs ns ts) = TaskResult.goOn rs ns ts (pollLoop sp a m e n d s) := by
  induction n generalizing d s with
  | zero => rfl
  | succ n ih =>
    simp only [pollLoop]
    rw [runDelay_withAnswers]
    rcases runDelay d s with ⟨d', u⟩
    cases d' with
    | none =>
      dsimp only
      cases hr : u.regRead sp a with
      | none => rfl
      | some p =>
        rw [regRead_withAnswers rs ns ts hr]
        dsimp only
        split
        · rfl
        · exact ih _ _
    | start n => rfl
    | since a b => rfl

theorem tookReg_withAnswers (s : State) (vs : List Word) (e : PortEvent) :
    (s.withAnswers rs ns ts).tookReg (vs ++ rs) e = (s.tookReg vs e).withAnswers rs ns ts := rfl

theorem ccLoop_withAnswers (t0) (vs : List Word) (s : State) (hs : s.regIn = vs) : ccLoop t0 (vs ++ rs)
    (s.withAnswers rs ns ts) = TaskResult.goOn rs ns ts (ccLoop t0 vs s) := by
  induction vs generalizing s with
  | nil =>
    simp only [ccLoop, TaskResult.goOn, runTask, runCcWait]
    rw [show (s.withAnswers rs ns ts).regIn = s.regIn ++ rs from rfl, hs]
  | cons v vs ih =>
    rw [List.cons_append, ccLoop_cons, ccLoop_cons]
    rw [show (s.withAnswers rs ns ts).params = s.params from rfl,
      show (s.withAnswers rs ns ts).ccRead v = s.ccRead v from rfl, tookReg_withAnswers]
    have hp : (s.tookReg vs (s.ccRead v)).params = s.params := rfl
    have hi : (s.tookReg vs (s.ccRead v)).regIn = vs := rfl
    split
    · rfl
    · generalize s.tookReg vs (s.ccRead v) = u at hp hi
      cases hr : u.readTimer true with
      | none =>
        dsimp only
        simp only [TaskResult.goOn, runTask, runCcWait]
        cases hq : (u.withAnswers rs ns ts).readTimer true with
        | none => rfl
        | some p =>
          obtain ⟨t, s2⟩ := p
          obtain ⟨a, as, h1, h2, h3⟩ := readTimer_cases hq
          have e1 : s2.regIn = vs ++ rs := by rw [h3]; exact congrArg (· ++ rs) hi
          have e2 : (u.withAnswers rs ns ts).params.ccTimeoutUs = s.params.ccTimeoutUs := by rw [← hp]; rfl
          dsimp only
          rw [e1, e2]
      | some p =>
        rw [readTimer_withAnswers rs ns ts hr]
        dsimp only
        split
        · rfl
        · refine ih _ ?_
          obtain ⟨t, s2⟩ := p
          obtain ⟨a, as, h1, h2, h3⟩ := readTimer_cases hr
          rw [h3]; exact hi

theorem runCcWait_withAnswers (ph) (s : State) : runCcWait ph (s.withAnswers rs ns ts) = TaskResult.goOn rs ns ts
    (runCcWait ph s) := by
  cases ph with
  | start =>
    simp only [runCcWait]
    cases hr : s.readTimer false with
    | none => rfl
    | some p =>
      rw [readTimer_withAnswers rs ns ts hr]
      exact ccLoop_withAnswers rs ns ts _ _ _ rfl
  | read t => exact ccLoop_withAnswers rs ns ts _ _ _ rfl
  | timer t =>
    simp only [runCcWait]
    cases hr : s.readTimer true with
    | none => rfl
    | some p =>
      rw [readTimer_withAnswers rs ns ts hr]
      dsimp only
      rw [show (s.withAnswers rs ns ts).params = s.params from rfl]
      split
      · rfl
      · exact ccLoop_withAnswers rs ns ts _ _ _ rfl

theorem estLoop_todo (more ls) (w : EstWork) (x) (s : State) : estLoop more ls { w with todo := x } s =
    estLoop more ls w s := by
  cases ls <;> rfl

theorem estLoop_withAnswers (more ls w) (s : State) : estLoop more ls w (s.withAnswers rs ns ts) =
   match estLoop more ls w s with
   | .done s' => .done (s'.withAnswers rs ns ts)
   | .hold (.est w' _) s' => estLoop more w'.todo w' (s'.withAnswers rs ns ts)
   | .hold t s' => .hold t s'
   | .ended s' => .ended s'
   | .abort c s' => .abort c (s'.withAnswers rs ns ts) := by
  induction ls generalizing w s with
  | nil => rfl
  | cons l ls ih =>
    cases hs : s.sample l with
    | none =>
      have : estLoop more (l :: ls) w s = .hold (.est { w with todo := l :: ls } more) s := by
        simp only [estLoop, hs]
      rw [this]
      exact (estLoop_todo more (l :: ls) w (l :: ls) _).symm
    | some p =>
      have e := sample_withAnswers rs ns ts hs
      simp only [estLoop, hs, e]
      rw [show estLane (State.withAnswers rs ns ts p.2) w l p.1 = estLane p.2 w l p.1 from rfl]
      cases estLane p.2 w l p.1 with
      | error => rfl
      | ok r => exact ih _ _

theorem estLoop_hold {more ls w s t s'} (h : estLoop more ls w s = .hold t s') : ∃ w', t = .est w' more ∧ w'.mode =
    w.mode := by
  induction ls generalizing w s with
  | nil => cases h
  | cons l ls ih =>
    simp only [estLoop] at h
    cases hs : s.sample l with
    | none => rw [hs] at h; cases h; exact ⟨_, rfl, rfl⟩
    | some p =>
      rw [hs] at h
      dsimp only at h
      cases he : estLane p.2 w l p.1 with
      | error => rw [he] at h; cases h
      | ok r =>
        rw [he] at h
        obtain ⟨w', h1, h2⟩ := ih h
        exact ⟨w', h1, h2⟩

theorem runEst_withAnswers (k w) (s : State) : runEst k w (s.withAnswers rs ns ts) = TaskResult.goOn rs ns ts
    (runEst k w s) := by
  induction k generalizing w s with
  | zero =>
    simp only [runEst]
    rw [estLoop_withAnswers]
    cases he : estLoop 0 w.todo w s with
    | done => rfl
    | hold t s' =>
      obtain ⟨w', rfl, hm⟩ := estLoop_hold he
      rfl
    | ended u => exact absurd he (estLoop_ended _ _ _ _ _)
    | abort => rfl
  | succ k ih =>
    simp only [runEst]
    rw [estLoop_withAnswers]
    cases he : estLoop (k+1) w.todo w s with
    | done s' => exact ih _ _
    | hold t s' =>
      obtain ⟨w', rfl, hm⟩ := estLoop_hold he
      simp only [TaskResult.goOn, runTask, runEst, hm]
    | ended u => exact absurd he (estLoop_ended _ _ _ _ _)
    | abort => rfl

theorem spinLoop_withAnswers (sp a m e) (vs : List Word) (s : State) (hs : s.regIn = vs) :
   (match spinLoop sp a m e (vs ++ rs) (s.withAnswers rs ns ts) with
    | (s', true) => TaskResult.done s'
    | (s', false) => .hold (.spin sp a m e) s') = TaskResult.goOn rs ns ts (match spinLoop sp a m e vs s with
    | (s', true) => .done s'
    | (s', false) => .hold (.spin sp a m e) s') := by
  induction vs generalizing s with
  | nil =>
    simp only [spinLoop, TaskResult.goOn, runTask]
    rw [show (s.withAnswers rs ns ts).regIn = s.regIn ++ rs from rfl, hs]
    try rfl
  | cons v vs ih =>
    simp only [List.cons_append, spinLoop]
    by_cases h : v &&& m = e
    · simp only [if_pos h]; rfl
    · simp only [if_neg h]
      exact ih { s with regIn := vs, trace := s.trace ++ [.read sp a v] } rfl

theorem ofExcept_withAnswers (s : State) (e e' : Except Cause State) (h : e' = e.map (State.withAnswers rs ns ts)) :
   TaskResult.ofExcept (s.withAnswers rs ns ts) e' = TaskResult.goOn rs ns ts (TaskResult.ofExcept s e) := by
  subst h; cases e <;> rfl

theorem enqueue_withAnswers (s : State) (a v d) : (s.withAnswers rs ns ts).enqueue a v d = (s.enqueue a v d).map
    (State.withAnswers rs ns ts) := by
  unfold State.enqueue
  rw [show (s.withAnswers rs ns ts).pass.pendingWait = s.pass.pendingWait from rfl,
    show (s.withAnswers rs ns ts).params = s.params from rfl,
    show (s.withAnswers rs ns ts).queue = s.queue from rfl]
  cases chk32u (d.toNat + s.pass.pendingWait) with
  | error => rfl
  | ok =>
    rw [bind_ok, bind_ok]
    split <;> rfl

theorem setFields_withAnswers (s : State) (i ws) : (s.withAnswers rs ns ts).setFields i ws =
    State.withAnswers rs ns ts (s.setFields i ws) := rfl
theorem clearAcc_withAnswers (s : State) : (s.withAnswers rs ns ts).clearAcc =
    State.withAnswers rs ns ts s.clearAcc := by
  unfold State.clearAcc
  exact setFields_withAnswers rs ns ts s s.dstEntry _
theorem curFromTrn_withAnswers (s : State) : (s.withAnswers rs ns ts).curFromTrn = s.curFromTrn.map
    (State.withAnswers rs ns ts) := by
  rw [curFromTrn_eq, curFromTrn_eq, show (s.withAnswers rs ns ts).trnWords = s.trnWords from rfl]
  cases s.trnWords <;> rfl

theorem compareDrift_withAnswers (s : State) : (s.withAnswers rs ns ts).compareDrift = s.compareDrift.map
    (State.withAnswers rs ns ts) := by
  unfold State.compareDrift
  rw [show (s.withAnswers rs ns ts).field (s.withAnswers rs ns ts).dstEntry = s.field s.dstEntry from rfl,
    show (s.withAnswers rs ns ts).fieldU (s.withAnswers rs ns ts).dstEntry = s.fieldU s.dstEntry from rfl,
    show (s.withAnswers rs ns ts).pass.value = s.pass.value from rfl]
  cases s.field s.dstEntry offFreq with
  | error => rfl
  | ok f =>
    cases s.fieldU s.dstEntry offMargin with
    | error => rfl
    | ok m =>
      rw [bind_ok, bind_ok, bind_ok, bind_ok]
      cases scaled s.pass.value.toNat (fmhz f) <;> rfl
theorem clockSource_withAnswers (s : State) : (s.withAnswers rs ns ts).clockSource = s.clockSource.map
    (State.withAnswers rs ns ts) := by
  unfold State.clockSource
  rw [show (s.withAnswers rs ns ts).field (s.withAnswers rs ns ts).dstEntry = s.field s.dstEntry from rfl]
  cases s.field s.dstEntry offClkSrc <;> rfl

theorem readTask_withAnswers {s : State} {sp a} {t : Task} (g : Word → State → State)
   (hF : ∀ s, runTask t s = match s.regRead sp a with | none => .hold t s | some (v, s') => .done (g v s'))
   (hg : ∀ v s, g v (s.withAnswers rs ns ts) = State.withAnswers rs ns ts (g v s)) :
   runTask t (s.withAnswers rs ns ts) = TaskResult.goOn rs ns ts (runTask t s) := by
  rw [hF s]
  cases hr : s.regRead sp a with
  | none => rfl
  | some p =>
    rw [hF, regRead_withAnswers rs ns ts hr]
    dsimp only
    rw [hg]; rfl

theorem runTask_withAnswers (t : Task) (s : State) : runTask t (s.withAnswers rs ns ts) = TaskResult.goOn rs ns ts
    (runTask t s) := by
  cases t with
  | awaitDrain =>
    simp only [runTask, show (s.withAnswers rs ns ts).drain = s.drain from rfl]
    split
    · next h => simp [TaskResult.goOn, runTask, h, State.withAnswers]
    · rfl
  | check =>
    have : (s.withAnswers rs ns ts).checkCause = s.checkCause := rfl
    simp only [runTask, this]; split <;> rfl
  | read sp a => exact readTask_withAnswers rs ns ts (fun _ s => s) (fun s => rfl) (fun _ _ => rfl)
  | write => rfl
  | enqueue a v d => exact ofExcept_withAnswers _ _ _ _ _ _ (enqueue_withAnswers ..)
  | poll => exact pollLoop_withAnswers ..
  | spin sp a m e => exact spinLoop_withAnswers _ _ _ _ _ _ _ _ _ rfl
  | delay d =>
    simp only [runTask]
    rw [runDelay_withAnswers]
    rcases hd : runDelay d s with ⟨u, b⟩
    cases u <;> rfl
  | save i sp a =>
    exact readTask_withAnswers rs ns ts (fun v s' => { s' with snap := s'.snap.set i (some v) }) (fun s => rfl)
      (fun _ _ => rfl)
  | restore i sp a =>
    simp only [runTask, show (s.withAnswers rs ns ts).snap = s.snap from rfl]; cases s.snap.getD i none <;> rfl
  | est w k => exact runEst_withAnswers _ _ _ _ _ _
  | trim i =>
    simp only [runTask, show (s.withAnswers rs ns ts).trimValue (s.withAnswers rs ns ts).dstEntry i =
        s.trimValue s.dstEntry i from rfl]
    cases s.trimValue s.dstEntry i <;> rfl
  | trimWrite i =>
    simp only [runTask, show (s.withAnswers rs ns ts).trimValue (s.withAnswers rs ns ts).dstEntry i =
        s.trimValue s.dstEntry i from rfl]
    cases s.trimValue s.dstEntry i <;> rfl
  | rampWait b w => cases b <;> rfl
  | clearAcc => simp only [runTask, TaskResult.goOn, clearAcc_withAnswers]
  | curFromTrn => exact ofExcept_withAnswers _ _ _ _ _ _ (curFromTrn_withAnswers ..)
  | compareDrift => exact ofExcept_withAnswers _ _ _ _ _ _ (compareDrift_withAnswers ..)
  | stageFsp => rfl
  | clkSrc => exact ofExcept_withAnswers _ _ _ _ _ _ (clockSource_withAnswers ..)
  | ccWait => exact runCcWait_withAnswers ..
  | commitFsp => rfl
  | capture i => exact readTask_withAnswers rs ns ts (fun v s' => s'.captureItem i v) (fun s => rfl) (fun _ _ => rfl)
  | finish r => cases r <;> rfl

def Run.goOn : Run → Run
  | .done s => .done (s.withAnswers rs ns ts)
  | .paused c s => runCont c (s.withAnswers rs ns ts)
  | .ended s => .ended (s.withAnswers rs ns ts)
  | .abort c s => .abort c (s.withAnswers rs ns ts)

/-- Operations that stop leave operations. -/
theorem runTasks_paused {l : List Task} {s c u} (h : runTasks l s = .paused c u) : c.parts = [] ∧ c.stages = [] := by
  induction l generalizing s with
  | nil => cases h
  | cons t l ih =>
    simp only [runTasks] at h
    split at h
    · cases h; exact ⟨rfl, rfl⟩
    · split at h
      · exact ih h
      · cases h; exact ⟨rfl, rfl⟩
      · cases h
      · cases h
theorem runCont_tasks (l : List Task) (s : State) : runCont ⟨l, [], []⟩ s = runTasks l s := by
  simp only [runCont]
  cases hr : runTasks l s with
  | paused c u =>
    obtain ⟨a, b, d⟩ := c
    have := runTasks_paused hr
    obtain ⟨rfl, rfl⟩ := this
    rfl
  | _ => rfl

theorem runTasks_withAnswers (l : List Task) (s : State) : runTasks l (s.withAnswers rs ns ts) = Run.goOn rs ns ts
    (runTasks l s) := by
  induction l generalizing s with
  | nil => rfl
  | cons t l ih =>
    have e : ∀ u : State, runTasks (t :: l) (u.withAnswers rs ns ts) = match runTask t (u.withAnswers rs ns ts) with
      | .done s' => runTasks l s'
      | .hold t' s' => .paused ⟨t' :: l, [], []⟩ s'
      | .ended s' => .ended s'
      | .abort c s' => .abort c s' := fun u => rfl
    by_cases hq : s.quantum = some 0
    · have : runTasks (t :: l) s = .paused ⟨t :: l, [], []⟩ s := by simp only [runTasks, hq, if_true]
      rw [this]
      simp only [Run.goOn, runCont_tasks]
    · have : runTasks (t :: l) s = match runTask t s.tick with
        | .done s' => runTasks l s'
        | .hold t' s' => .paused ⟨t' :: l, [], []⟩ s'
        | .ended s' => .ended s'
        | .abort c s' => .abort c s' := by simp only [runTasks]; rw [if_neg hq]; try rfl
      rw [this, e, show State.withAnswers rs ns ts s = State.withAnswers rs ns ts s.tick from rfl,
          runTask_withAnswers]
      cases runTask t s.tick with
      | done s' => exact ih s'
      | hold t' s' => simp only [TaskResult.goOn, Run.goOn, runCont_tasks]; rfl
      | ended s' => rfl
      | abort c s' => rfl

theorem andThen_withAnswers (r : Run) (F : Cont → Cont) (k : State → Run)
    (hk : ∀ s : State, k (s.withAnswers rs ns ts) = Run.goOn rs ns ts (k s))
   (hF : ∀ c (s : State), runCont (F c) (s.withAnswers rs ns ts) = (runCont c (s.withAnswers rs ns ts)).andThen F k) :
   (Run.goOn rs ns ts r).andThen F k = Run.goOn rs ns ts (r.andThen F k) := by
  cases r with
  | done s => exact hk s
  | paused c s => exact (hF c s).symm
  | ended s => rfl
  | abort c s => rfl

/-- Parts that stop leave operations and parts. -/
theorem runParts_paused {l : List Part} {s c u} (h : runParts l s = .paused c u) : c.stages = [] := by
  induction l generalizing s with
  | nil => cases h
  | cons p l ih =>
    simp only [runParts] at h
    split at h
    · cases h
    · next x _ =>
      cases hr : runTasks x s with
      | done s' => rw [hr] at h; exact ih h
      | paused c' s' => rw [hr] at h; cases h; exact (runTasks_paused hr).2
      | ended => rw [hr] at h; cases h
      | abort => rw [hr] at h; cases h

theorem andThen_assoc_parts (c : Cont) (hp : c.parts = []) (hs : c.stages = []) (ps : List Part) (s : State) :
   runCont { c with parts := ps } s = (runCont c s).andThen (fun c => { c with parts := ps }) (runParts ps) := by
  obtain ⟨a, b, d⟩ := c
  subst hp hs
  rw [runCont_tasks]
  simp only [runCont]
  cases hr : runTasks a s with
  | done s' =>
    simp only [andThen_done]
    cases hq : runParts ps s' with
    | done => rfl
    | paused k u => have := runParts_paused hq; simp only [andThen_paused]; rw [← this]
    | ended => rfl
    | abort => rfl
  | paused k u =>
    have := runTasks_paused hr
    simp only [andThen_paused]; rw [← this.2]
  | ended => rfl
  | abort => rfl

theorem runParts_withAnswers (ps : List Part) (s : State) : runParts ps (s.withAnswers rs ns ts) =
    Run.goOn rs ns ts (runParts ps s) := by
  induction ps generalizing s with
  | nil => rfl
  | cons p ps ih =>
    simp only [runParts]
    have : (s.withAnswers rs ns ts).expand p = s.expand p := by cases p <;> rfl
    rw [this]
    split
    · rfl
    · next x _ =>
      rw [runTasks_withAnswers]
      cases hr : runTasks x s with
      | done s' => exact ih s'
      | paused c u =>
        have := runTasks_paused hr
        simp only [Run.goOn, andThen_paused]
        exact (andThen_assoc_parts c this.1 this.2 ps _).symm
      | ended => rfl
      | abort => rfl

theorem runCont_stages (c : Cont) (hs : c.stages = []) (gs : List Stage) (s : State) :
   runCont { c with stages := gs } s = (runCont c s).andThen (fun c => { c with stages := gs }) (runStages gs) := by
  obtain ⟨a, b, d⟩ := c
  subst hs
  simp only [runCont]
  generalize (runTasks a s).andThen _ _ = r
  cases r <;> rfl

theorem runStages_withAnswers (gs : List Stage) (s : State) : runStages gs (s.withAnswers rs ns ts) =
    Run.goOn rs ns ts (runStages gs s) := by
  induction gs generalizing s with
  | nil => rfl
  | cons g gs ih =>
    by_cases hq : s.quantum = some 0
    · have : runStages (g :: gs) s = .paused ⟨[], [], g :: gs⟩ s := by simp only [runStages, hq, if_true]
      rw [this]; rfl
    · simp only [runStages]
      rw [if_neg hq, if_neg (by simp [State.withAnswers])]
      have e1 : (s.withAnswers rs ns ts).tick.enter g = State.withAnswers rs ns ts
          (s.tick.enter g) := by cases g <;> rfl
      have e2 : (State.withAnswers rs ns ts (s.tick.enter g)).stageParts g =
          (s.tick.enter g).stageParts g := by cases g <;> rfl
      rw [e1, e2, runParts_withAnswers]
      cases hr : runParts ((s.tick.enter g).stageParts g) (s.tick.enter g) with
      | done s' => exact ih s'
      | paused c u =>
        have := runParts_paused hr
        simp only [Run.goOn, andThen_paused]
        exact (runCont_stages c this gs _).symm
      | ended => rfl
      | abort => rfl

end

end Sys2Proof.Machine
end

