-- ==== Sys2Proof/Laws/Decode.lean ====
section
/-! SUPPORT. The fields of a command word: packing and reading back, and decoding from the bytes the window holds. -/

namespace Sys2Proof

/-- The fields of a packed word are the fields packed (R95). -/
theorem opField_packWord (o m : BitVec 4) (a : BitVec 8) : opField (packWord o m a) = o := by
  unfold opField packWord
  apply BitVec.eq_of_getLsbD_eq; intro i hi
  simp only [BitVec.getLsbD_extractLsb', BitVec.getLsbD_append]
  simp [show i < 4 from hi]

theorem modeField_packWord (o m : BitVec 4) (a : BitVec 8) : modeField (packWord o m a) = m := by
  unfold modeField packWord
  apply BitVec.eq_of_getLsbD_eq; intro i hi
  simp only [BitVec.getLsbD_extractLsb', BitVec.getLsbD_append]
  simp [show ¬ (4+i<4) by omega, show i < 4 from hi]

theorem argField_packWord (o m : BitVec 4) (a : BitVec 8) : argField (packWord o m a) = a := by
  unfold argField packWord
  apply BitVec.eq_of_getLsbD_eq; intro i hi
  simp only [BitVec.getLsbD_extractLsb', BitVec.getLsbD_append]
  simp [show ¬ (8+i<4) by omega, show ¬ (8+i-4<4) by omega, show i < 8 from hi, show 8+i-4-4 = i by omega]

theorem rsvField_packWord (o m : BitVec 4) (a : BitVec 8) : rsvField (packWord o m a) = 0 := by
  unfold rsvField packWord
  apply BitVec.eq_of_getLsbD_eq; intro i hi
  simp only [BitVec.getLsbD_extractLsb', BitVec.getLsbD_append]
  simp [show ¬ (16+i<4) by omega, show ¬ (16+i-4<4) by omega, show ¬ (16+i-4-4<8) by omega]

/-- A word whose reserved bits are 0 is its fields packed (R95). -/
theorem packWord_fields (w : Word) (h : rsvField w = 0) : packWord (opField w) (modeField w) (argField w) = w := by
  have h' : ∀ i, 16 ≤ i → w.getLsbD i = false := by
    intro i hi
    by_cases h32 : i < 32
    · have := congrArg (fun x => x.getLsbD (i - 16)) h
      simp [rsvField, show i - 16 < 16 by omega, show 16 + (i-16) = i by omega] at this
      exact this
    · simp [BitVec.getLsbD_of_ge, Nat.not_lt.1 h32]
  unfold packWord opField modeField argField
  apply BitVec.eq_of_getLsbD_eq; intro i hi
  simp only [BitVec.getLsbD_extractLsb', BitVec.getLsbD_append]
  by_cases h1 : i < 4
  · simp [h1]
  by_cases h2 : i < 8
  · simp [h1, show i - 4 < 4 by omega, show 4 + (i-4) = i by omega]
  by_cases h3 : i < 16
  · simp [h1, show ¬ (i - 4 < 4) by omega, show i - 4 - 4 < 8 by omega, show 8 + (i-4-4) = i by omega]
  · simp [h1, show ¬ (i - 4 < 4) by omega, show ¬ (i - 4 - 4 < 8) by omega, h' i (by omega)]

/-- Decoding the bytes of a word is decoding the word (R51, R102). -/
theorem decodeBytes_bytesOfWord (w : Word) (rest : List Byte) :
    decodeBytes (bytesOfWord w ++ rest) =
      (match decode w with
        | .ok i => .ok (i, rest)
        | .error e => .error e) := by
  cases h : decode w <;>
    simp only [bytesOfWord, List.cons_append, List.nil_append, decodeBytes, Machine.wordOfBytes_bytes, h]

theorem decodeBytes_bytesOfWord_nil (w : Word) :
    decodeBytes (bytesOfWord w) =
      (match decode w with
        | .ok i => .ok (i, [])
        | .error e => .error e) := by
  simpa using decodeBytes_bytesOfWord w []

end Sys2Proof
end

