-- ==== Sys2Proof/Laws/PerInstr.lean ====
section
/-! SUPPORT. A statement made of every command, one lemma per constructor: the fields of its word (spec 30_encoding.md
R95 to R98). -/

namespace Sys2Proof.Laws.EncodedFields

open Sys2Proof

/-- `RSV` is 0, `OP` is an assigned one, `MODE` is one of the values R97 lists for it, and `ARG` is the command's operand,
0 where it has none. -/
def Statement (i : Instr) : Prop :=
  rsvField (encode i) = 0 ∧ (opField (encode i)).toNat ≤ 6 ∧
    (modeField (encode i)).toNat ≤ (if opField (encode i) = 1 then 4 else
      if opField (encode i) = 3 ∨ opField (encode i) = 4 then 1 else 0) ∧
    argField (encode i) =
      (match i with
      | .trim id => id
      | .switch mask => mask
      | .nop => 0
      | .estDvfsPartial => 0
      | .estDvfsFinal => 0
      | .estTrainPartial => 0
      | .estTrainFinal => 0
      | .estPeriodic => 0
      | .rampdn _ => 0
      | .rampup _ => 0
      | .pcomp => 0)

theorem nop : Statement .nop := by unfold Statement; decide
theorem estDvfsPartial : Statement .estDvfsPartial := by unfold Statement; decide
theorem estDvfsFinal : Statement .estDvfsFinal := by unfold Statement; decide
theorem estTrainPartial : Statement .estTrainPartial := by unfold Statement; decide
theorem estTrainFinal : Statement .estTrainFinal := by unfold Statement; decide
theorem estPeriodic : Statement .estPeriodic := by unfold Statement; decide

theorem trim (id : BitVec 8) : Statement (.trim id) := by
  simp [Statement, encode, rsvField_packWord, opField_packWord, modeField_packWord, argField_packWord]

theorem rampdn (flip : Bool) : Statement (.rampdn flip) := by cases flip <;> unfold Statement <;> decide
theorem rampup (flip : Bool) : Statement (.rampup flip) := by cases flip <;> unfold Statement <;> decide

theorem switch (mask : BitVec 8) : Statement (.switch mask) := by
  simp [Statement, encode, rsvField_packWord, opField_packWord, modeField_packWord, argField_packWord]

theorem pcomp : Statement .pcomp := by unfold Statement; decide

end Sys2Proof.Laws.EncodedFields
end

