-- ==== Sys2Proof/Laws/Values.lean ====
section
/-! SUPPORT. The trim compensator, the ramps and the step lists, said once: the packed value of a rank in range, what a
ramp queues, and what a list of register writes does. -/

namespace Sys2Proof.Machine

open Sys2Proof

theorem mapM_ok {α β : Type} {f : α → Except Cause β} {g : α → β} {l : List α} (h : ∀ x ∈ l, f x = .ok (g x)) :
    l.mapM f = .ok (l.map g) := by
  induction l with
  | nil => rfl
  | cons a l ih =>
    rw [List.mapM_cons, h a List.mem_cons_self, ih fun x hx => h x (List.mem_cons_of_mem _ hx), bind_ok, bind_ok]
    rfl

/-! ## The trim compensator (41_trim.md R142 to R147) -/

/-- The tap of a lane, in range (R142). -/
theorem tapOf_ok {cur trn : Int} {f : Nat} (h1 : InS32 (cur - trn)) (h2 : InS32 (128 * (cur - trn)))
    (h3 : InS32 (128 * (cur - trn) * f)) : tapOf cur trn f = .ok (Int.tdiv (128 * (cur - trn) * f) 1000000) := by
  unfold tapOf shl7
  rw [chk32_ok h1, bind_ok, chk32_ok h2, bind_ok, chk32_ok h3, bind_ok]
  exact tdiv_ok _ (by decide)

/-- An adjusted stored value, in range (R143, R144). -/
theorem adjusted_ok {stored tap : Int} {margin : Nat} (h1 : InS32 (tap.natAbs : Int))
    (h2 : InS32 (stored + if (margin : Int) < (tap.natAbs : Int) then tap else 0)) :
    adjusted stored tap margin = .ok (stored + if (margin : Int) < (tap.natAbs : Int) then tap else 0) := by
  unfold adjusted adjustment
  rw [chkAbs_ok h1, bind_ok, bind_ok]
  exact chk32_ok h2

theorem component_ok (id : Nat) (t : Int) : component (trimIsByteShift id) t = .ok (componentAt id t) := by
  unfold component componentAt trimIsByteShift tdiv trem
  by_cases h : 8 ≤ id <;> simp [h]

/-- The eight adjusted values of a rank, in range (R144). -/
theorem adjustedValues_ok {s : State} {dst r : Nat} (hf : s.marked dst offFreq = true)
    (hm : s.marked dst offMargin = true)
    (hl : ∀ i < 4, s.marked dst (offCur (groupLane r i)) = true ∧ s.marked dst (offTrn (groupLane r i)) = true)
    (hv : ∀ k < 8, s.marked dst (offTrimVal r k) = true) (hr : TrimsInRange s dst r (curAt s dst)) :
    s.adjustedValues dst r = .ok (allLanes.map fun k => trimmedAt s dst r (curAt s dst) k) := by
  have ht : ∀ i ∈ [0, 1, 2, 3], s.laneTap dst r i = .ok (tapAt s dst r (curAt s dst) i) := by
    intro i hi
    have h4 : i < 4 := by simp at hi; omega
    obtain ⟨a, b, c, _⟩ := hr.1 i h4
    unfold State.laneTap
    rw [field_ok hf, bind_ok, fieldS_ok (hl i h4).1, bind_ok, fieldS_ok (hl i h4).2, bind_ok]
    exact tapOf_ok a b c
  unfold State.adjustedValues
  rw [mapM_ok ht, bind_ok, fieldU_ok hm, bind_ok]
  refine mapM_ok fun k hk => ?_
  have h8 : k < 8 := by simp [allLanes] at hk; omega
  rw [fieldS_ok (hv k h8), bind_ok]
  have hget : ([0, 1, 2, 3].map fun i => tapAt s dst r (curAt s dst) i).getD (k / 2) 0 =
      tapAt s dst r (curAt s dst) (k / 2) := by
    have : k / 2 = 0 ∨ k / 2 = 1 ∨ k / 2 = 2 ∨ k / 2 = 3 := by omega
    rcases this with h | h | h | h <;> rw [h] <;> rfl
  rw [hget]
  exact adjusted_ok (hr.1 (k / 2) (by omega)).2.2.2 (hr.2 k h8)

/-- Packing the components of stored values 0 to 7 (R147). -/
theorem packFields_eq {outs : List Int} {g : Nat → Int} {fs : List TrimField} (h : ∀ f ∈ fs, outs.getD f.k 0 = g f.k) :
    packFields outs fs =
      fs.foldr (fun f w => BitVec.ofNat 32 ((g f.k % (2 ^ f.width : Nat)).toNat * 2 ^ f.lsb) ||| w) 0 := by
  induction fs with
  | nil => rfl
  | cons f fs ih =>
    rw [packFields, ih fun x hx => h x (List.mem_cons_of_mem _ hx), List.foldr_cons, packField, h f List.mem_cons_self]

/-- A field of a well-formed layout packs one of stored values 0 to 7. -/
theorem layout_k {p : Params} (hp : paramsOk p = true) {id : Nat} (hid : id < 10) :
    ∀ f ∈ p.trimLayout.getD id [], f.k < 8 := by
  have hall : (List.range 10).all (fun id => layoutOk id (p.trimLayout.getD id [])) = true := by
    simp only [paramsOk, Bool.and_eq_true] at hp
    tauto
  have hl := List.all_eq_true.1 hall id (List.mem_range.2 hid)
  simp only [layoutOk, Bool.and_eq_true, decide_eq_true_eq] at hl
  intro f hf
  have hk : f.k ∈ trimIndices id := hl.1.1.subset (List.mem_map_of_mem hf)
  unfold trimIndices at hk
  split at hk
  · exact List.mem_range.1 hk
  · simp only [List.mem_cons, List.not_mem_nil, or_false] at hk
    omega

/-- The value of `TRIM`, in range (R150). -/
theorem trimValue_ok {s : State} {dst id : Nat} (hid : id < 10) (hp : paramsOk s.params = true)
    (hf : s.marked dst offFreq = true) (hm : s.marked dst offMargin = true)
    (hl : ∀ i < 4, s.marked dst (offCur (groupLane (trimRank id) i)) = true ∧
      s.marked dst (offTrn (groupLane (trimRank id) i)) = true)
    (hv : ∀ k < 8, s.marked dst (offTrimVal (trimRank id) k) = true)
    (hr : TrimsInRange s dst (trimRank id) (curAt s dst)) :
    s.trimValue dst id = .ok (trimWord s dst id (curAt s dst)) := by
  unfold State.trimValue
  rw [adjustedValues_ok hf hm hl hv hr, bind_ok, mapM_ok fun t _ => component_ok id t, bind_ok]
  rw [packFields_eq (g := fun k => componentAt id (trimmedAt s dst (trimRank id) (curAt s dst) k))]
  · rfl
  · intro f hf'
    have h8 := layout_k hp hid f hf'
    have : f.k = 0 ∨ f.k = 1 ∨ f.k = 2 ∨ f.k = 3 ∨ f.k = 4 ∨ f.k = 5 ∨ f.k = 6 ∨ f.k = 7 := by omega
    rcases this with h | h | h | h | h | h | h | h <;> rw [h] <;> rfl

/-! ## The ramps (42_power_ramp.md R155 to R157) -/

/-- What a ramp queues and returns, at a frequency that is not 0. -/
theorem rampOutput_ok {s : State} {dir : Dir} {flip ofDst : Bool} {f : Word}
    (hf : s.field (if ofDst then s.dstEntry else s.srcEntry) offFreq = .ok f) (h0 : f ≠ 0) :
    s.rampOutput dir flip ofDst =
      .ok (rampFn s.params dir (rampTier s.params (1000000000 / f.toNat)) flip
        (entryImage s.params s.mem s.srcEntry) (entryImage s.params s.mem s.dstEntry) (1000000000 / f.toNat)) := by
  unfold State.rampOutput periodPs
  rw [hf, bind_ok, if_neg h0, bind_ok]

/-- A frequency of 0 is the cause `DIV0` (R155). -/
theorem rampOutput_zero {s : State} {dir : Dir} {flip ofDst : Bool}
    (hf : s.field (if ofDst then s.dstEntry else s.srcEntry) offFreq = .ok 0) :
    s.rampOutput dir flip ofDst = .error .div0 := by
  unfold State.rampOutput periodPs
  rw [hf, bind_ok, if_pos rfl, bind_error]

/-- Entries queued with no pending wait, while the queue has room. -/
theorem runTasks_enqueues (es : List QEntry) (ts : List Task) (s : State) (hq : s.quantum = none)
    (hw : s.pass.pendingWait = 0) (hr : s.queue.length + es.length ≤ s.params.qDepth) :
    runTasks (es.map (fun e => .enqueue e.addr e.value e.delay) ++ ts) s =
      runTasks ts { s with queue := s.queue ++ es } := by
  induction es generalizing s with
  | nil => simp
  | cons e es ih =>
    have hb : e.delay.toNat + 0 < 4294967296 := e.delay.isLt
    have he : s.enqueue e.addr e.value e.delay = .ok { s with queue := s.queue ++ [e] } := by
      simp only [List.length_cons] at hr
      unfold State.enqueue
      rw [hw, chk32u_ok hb, bind_ok, if_neg (by omega)]
      cases s with
      | mk =>
        rename_i pass _ _ _ _ _ _ _ _ _ _
        cases pass
        simp only at hw
        subst hw
        simp
    rw [List.map_cons, List.cons_append, runTasks_done hq (s' := { s with queue := s.queue ++ [e] })
      (by simp only [runTask, he, TaskResult.ofExcept]), ih]
    · simp
    · exact hq
    · exact hw
    · simp only [List.length_append, List.length_cons, List.length_nil] at hr ⊢; omega

/-! ## Lists of register writes -/

/-- Register writes, in order, each with its record (20_memory.md R62). -/
theorem runTasks_writes (ws : List (Space × Word × Word)) (ts : List Task) (s : State) (hq : s.quantum = none) :
    runTasks (ws.map (fun w => .write w.1 w.2.1 w.2.2) ++ ts) s =
      runTasks ts { s with trace := s.trace ++ ws.map fun w => .write w.1 w.2.1 w.2.2 } := by
  induction ws generalizing s with
  | nil => simp
  | cons w ws ih =>
    rw [List.map_cons, List.cons_append, runTasks_done hq (s' := s.regWrite w.1 w.2.1 w.2.2) rfl, ih _ (by exact hq)]
    simp [State.regWrite]

end Sys2Proof.Machine
end

