-- ==== Sys2Proof/Laws/Window.lean ====
section
/-! SUPPORT. The host window: what an offset reaches, what a step with a host access does, and what a step can do at
all, said once. -/

namespace Sys2Proof.Machine

open Sys2Proof

theorem step_event {s : State} {e : Event} {es : List Event} (hp : paramsOk s.params = true)
    (hi : s.inbox = e :: es) :
    step s = handleEvent exec e { s with inbox := es } := by
  simp only [step, stepWith, hp, hi, State.popInbox, if_true, List.tail_cons]

theorem paramsOk_stride {p : Params} (h : paramsOk p = true) : 0x100 ≤ p.entryStride ∧ p.entryStride % 4 = 0 := by
  simp only [paramsOk, Bool.and_eq_true, decide_eq_true_eq] at h
  omega

theorem hostAccess_word {s : State} {wr : Bool} {off : Nat} {w : Word} {run} (h4 : off % 4 = 0)
    (hlt : off < 4294967296) :
    hostAccess run ⟨wr, .word, s.params.dteBase + off, w⟩ s =
      if wr then hostWrite run (locate s.params off) w s else .next (s.reply (s.hostRead (locate s.params off))) := by
  simp only [hostAccess]
  rw [if_neg (by omega)]
  simp [h4]

theorem step_host {s : State} {wr : Bool} {off : Nat} {w : Word} {es : List Event} (hp : paramsOk s.params = true)
    (hi : s.inbox = .host ⟨wr, .word, s.params.dteBase + off, w⟩ :: es) (h4 : off % 4 = 0) (hlt : off < 4294967296) :
    step s = if wr then hostWrite exec (locate s.params off) w { s with inbox := es }
      else .next (({ s with inbox := es } : State).reply (({ s with inbox := es } :
          State).hostRead (locate s.params off))) := by
  rw [step_event hp hi]
  exact hostAccess_word (s := { s with inbox := es }) h4 hlt

theorem locate_entry {p : Params} {i o : Nat} (hp : paramsOk p = true) (hi : i < 900) (ho : o < p.entryStride) :
    locate p (entryBase p i + o) = if entryOffReserved o then .reserved else .entry i o := by
  have hs := (paramsOk_stride hp).1
  have h1 : (entryBase p i + o - 0x100000) / p.entryStride = i := by
    rw [entryBase, show 0x100000 + i * p.entryStride + o - 0x100000 = o + i * p.entryStride by omega,
      Nat.add_mul_div_right _ _ (by omega), Nat.div_eq_of_lt ho]; omega
  have h2 : (entryBase p i + o - 0x100000) % p.entryStride = o := by
    rw [entryBase, show 0x100000 + i * p.entryStride + o - 0x100000 = o + i * p.entryStride by omega,
      Nat.add_mul_mod_self_right, Nat.mod_eq_of_lt ho]
  unfold locate
  simp only [h1, h2]
  rw [if_neg (by simp [entryBase]; omega), if_neg (by omega)]

theorem locate_above {p : Params} {off : Nat} (hp : paramsOk p = true) (h : entryBase p 900 ≤ off) : locate p off =
    .reserved := by
  have hs := (paramsOk_stride hp).1
  unfold locate
  rw [if_neg (by simp [entryBase] at h; omega)]
  rw [if_pos]
  rw [Nat.le_div_iff_mul_le (by omega)]
  simp [entryBase] at h; omega

/-- A word of an entry, as an aligned offset reaches it, is one of the 900 entries' and lies in it
    (20_memory.md R56). -/
theorem locate_entry_bounds {p : Params} {off i o : Nat} (hp : paramsOk p = true) (h4 : off % 4 = 0)
    (h : locate p off = .entry i o) : i < 900 ∧ o + 4 ≤ p.entryStride := by
  have hs := paramsOk_stride hp
  unfold locate at h
  split at h
  · split at h <;> cases h
  · dsimp only at h
    split at h
    · cases h
    · split at h
      · cases h
      · cases h
        have hm := Nat.mod_mod_of_dvd (off - 0x100000) (Nat.dvd_of_mod_eq_zero hs.2)
        have hlt := Nat.mod_lt (off - 0x100000) (show p.entryStride > 0 by omega)
        omega

theorem csrAt_none {off : Nat} (h : 0x28 ≤ off) : csrAt off = none := by
  unfold csrAt
  split <;> first | rfl | omega

theorem locate_hole {p : Params} {off : Nat} (h : 0x28 ≤ off) (h2 : off < 0x100000) : locate p off = .reserved := by
  unfold locate
  rw [if_pos h2, csrAt_none h]

/-! ## The entry table as the host reads it (20_memory.md R59, R90) -/

/-- While a command runs the host reads the entry table the command was accepted with. -/
@[simp] theorem hostTable_busy {s : State} (h : s.busy = true) : s.hostTable = s.pass.table := if_pos h

/-- While none runs it reads the entry table. -/
@[simp] theorem hostTable_free {s : State} (h : s.busy = false) : s.hostTable = s.mem := by
  simp [State.hostTable, h]

/-- Where the table, the parameters and the session are the same, a host read finds the same word. -/
theorem hostEntryWord_congr {s t : State} (ht : t.hostTable = s.hostTable) (hp : t.params = s.params)
    (hs : t.session = s.session) (i o : Nat) : t.hostEntryWord i o = s.hostEntryWord i o := by
  simp only [State.hostEntryWord, State.hostByte, ht, hp, hs]

/-- No operation of a running command changes the table it was accepted with, nor the parameters and the session. -/
theorem keepsTable (m : List Host.Cell) (p : Params) (n : Nat) :
    OpsKeep (fun s => s.busy = true ∧ s.pass.table = m ∧ s.params = p ∧ s.session = n) (fun s => s.busy = false)
      (fun _ => True) (fun _ => True) (fun _ => True) where
  tick _ h := h
  reg _ _ _ h := h
  smp _ _ _ h := h
  tim _ _ _ _ h := h
  pto _ h := h
  write _ _ _ _ h := h
  enqueue _ _ _ _ _ h he := by obtain ⟨_, _, rfl⟩ := enqueue_cases he; exact h
  save _ _ _ h := h
  value _ _ h := h
  rampWait _ b _ h := by cases b <;> exact h
  commit _ _ _ h := by unfold estCommit; exact h
  clearAcc _ h := by unfold State.clearAcc; simpa using h
  curFromTrn _ _ h he := by obtain ⟨_, rfl, _⟩ := curFromTrn_cases he; exact h
  compareDrift _ _ h he := by obtain ⟨_, _, _, _, _, _, rfl⟩ := compareDrift_cases he; exact h
  fspWr _ _ h := h
  fspOp _ h := h
  clockSource _ _ h he := by obtain ⟨_, _, rfl⟩ := clockSource_cases he; exact h
  capture _ _ _ _ h := by unfold State.captureItem; simpa using h
  finish _ _ _ := by simp [State.succeed, State.endFlags]
  fresh _ _ _ := trivial
  next _ _ _ _ _ _ _ _ := trivial
  items _ _ _ _ := trivial
  enter g _ _ h := by cases g <;> exact h

/-! ## A step -/

/-- What a step that answers has done, said once: `u` is the state with its next event taken. -/
inductive StepCase (u : State) : State → Prop
  | resume (q) : StepCase u { u with quantum := q }.resume
  | exec {t} (i) : Machine.exec i u = .next t → StepCase u t
  | illegal : StepCase u u.illegalCommand
  | csr (c w) : StepCase u (u.writeCsr c w)
  | entry {i o} (w) : i < 900 → o + 4 ≤ u.params.entryStride → StepCase u (u.writeEntry i o w)
  | same : StepCase u u
  | reply (v) : StepCase u (u.reply v)
  | accerr : StepCase u u.setAccerr
  | accerrReply : StepCase u (u.setAccerr.reply 0)
  | drain : StepCase u u.drainStep
  | clocks (n) : StepCase u (u.passClocks n)
  | reg (v) : StepCase u { u with regIn := u.regIn ++ [v] }
  | smp (v) : StepCase u { u with sampleIn := u.sampleIn ++ [v] }
  | tim (v) : StepCase u { u with timerIn := u.timerIn ++ [v] }

theorem step_case {s t : State} (h : step s = .next t) :
    StepCase s.popInbox t ∨ ∃ p es, s.inbox = .reset p :: es ∧ paramsOk p = true ∧ t = s.popInbox.resetInput p := by
  unfold step stepWith at h
  split at h
  · next hi =>
    split at h
    · cases h
      have : s.popInbox = s := by cases s; simp_all [State.popInbox]
      left; rw [this]; exact .resume none
    · cases h
  · next e es hi =>
    split at h
    · next hp =>
      replace hp : paramsOk s.popInbox.params = true := hp
      generalize s.popInbox = u at h hp
      cases e with
      | host a =>
        left
        simp only [handleEvent, hostAccess] at h
        split at h
        · cases h
        split at h
        · next h4 =>
          split at h
          · cases hl : locate u.params (a.addr - u.params.dteBase) with
            | csr c =>
              rw [hl] at h
              cases c <;> simp only [hostWrite, commandWrite] at h
              · split at h
                · exact .exec _ h
                · cases h; exact .illegal
              all_goals (cases h; exact .csr _ _)
            | entry i o =>
              have hb := locate_entry_bounds hp h4.2 hl
              rw [hl] at h
              cases h
              exact .entry _ hb.1 hb.2
            | reserved => rw [hl] at h; cases h; exact .same
          · cases h; exact .reply _
        · split at h <;> cases h <;> first | exact .accerr | exact .accerrReply
      | engine q => cases h; exact .inl (.resume q)
      | drain => cases h; exact .inl .drain
      | emcClocks n => cases h; exact .inl (.clocks n)
      | regAnswer v => cases h; exact .inl (.reg v)
      | sampleAnswer v => cases h; exact .inl (.smp v)
      | timerAdvance v => cases h; exact .inl (.tim v)
      | reset p =>
        right
        simp only [handleEvent] at h
        split at h
        · next hp => cases h; exact ⟨p, es, hi, hp, rfl⟩
        · cases h
    · cases h

end Sys2Proof.Machine
end

