-- ==== Sys2Proof/Machine/HostProgram.lean ====
section
/-! DEFINITION. Host programs as events (spec 30_encoding.md R105 to R107): the assembler syntax of a command, the host
access a program line stands for, and the pseudo-instructions. -/

namespace Sys2Proof.Machine

open Sys2Proof

/-- The assembler syntax of a command (R105), numbers decimal. -/
def asmText : Instr → String
  | .nop => "nop"
  | .estDvfsPartial => "est.dvfs_partial"
  | .estDvfsFinal => "est.dvfs_final"
  | .estTrainPartial => "est.train_partial"
  | .estTrainFinal => "est.train_final"
  | .estPeriodic => "est.periodic"
  | .trim id => "trim " ++ toString id.toNat
  | .rampdn false => "rampdn"
  | .rampdn true => "rampdn flip"
  | .rampup false => "rampup"
  | .rampup true => "rampup flip"
  | .switch mask => "switch " ++ toString mask.toNat
  | .pcomp => "pcomp"

/-- The window offset of a CSR (10_state.md R19). -/
def csrOff : Csr → Nat
  | .cmd => 0x000
  | .status => 0x004
  | .result => 0x008
  | .step => 0x00C
  | .cfg => 0x010
  | .srcIdx => 0x014
  | .dstIdx => 0x018
  | .entryCount => 0x01C
  | .fsp => 0x020
  | .id => 0x024

/-- A line of a host program (R106); `ld` takes the entry and the entry offset of its field. -/
inductive HostLine where
  | cmd (i : Instr)
  | wr (c : Csr) (v : Word)
  | ld (i off : Nat) (v : Word)
  | rd (c : Csr)
  deriving DecidableEq, Repr

/-- A 32-bit write at a window offset. -/
def writeAt (p : Params) (off : Nat) (v : Word) : Event := .host ⟨true, .word, p.dteBase + off, v⟩

/-- A 32-bit read at a window offset. -/
def readAt (p : Params) (off : Nat) : Event := .host ⟨false, .word, p.dteBase + off, 0⟩

/-- The events of a line (R106). A command is its `CMD` write; the engine then goes on until it waits or ends, and one
`STATUS` read stands for `wait_done`. -/
def lineEvents (p : Params) : HostLine → List Event
  | .cmd i => [writeAt p (csrOff .cmd) (encode i), .engine none, readAt p (csrOff .status)]
  | .wr c v => [writeAt p (csrOff c) v]
  | .ld i off v => [writeAt p (entryBase p i + off) v]
  | .rd c => [readAt p (csrOff c)]

/-- The events of a program. -/
def programEvents (p : Params) (ls : List HostLine) : List Event := ls.flatMap (lineEvents p)

/-- `sel <s>, <d>` (R107). -/
def pseudoSel (s d : Word) : List HostLine := [.wr .srcIdx s, .wr .dstIdx d]
/-- `clrstat` (R107). -/
def pseudoClrstat : List HostLine := [.wr .status 0x3A]
/-- `est.dvfs <n>` (R107). -/
def pseudoEstDvfs (n : Nat) : List HostLine := List.replicate n (.cmd .estDvfsPartial) ++ [.cmd .estDvfsFinal]
/-- `est.train <n>` (R107). -/
def pseudoEstTrain (n : Nat) : List HostLine := List.replicate n (.cmd .estTrainPartial) ++ [.cmd .estTrainFinal]
/-- `switch.only` (R107). -/
def pseudoSwitchOnly : List HostLine := [.cmd (.switch 0)]
/-- `trim.all` (R107). -/
def pseudoTrimAll : List HostLine := (List.range 10).map fun id => .cmd (.trim (BitVec.ofNat 8 id))

end Sys2Proof.Machine
end

