-- ==== Sys2Proof/Tests/Slice0.lean ====
section
/-! SUPPORT. Tests: well-formedness, decoding of words written from the spec's tables,
    single steps against the vectors
of spec 95_test_vectors.md, and for each statement with hypotheses a state and operands that meet them. -/

namespace Sys2Proof.Tests

open Sys2Proof Sys2Proof.Machine

section

-- One kernel evaluation at a time.
set_option Elab.async false

/-! ## Well-formedness (30_encoding.md R98) -/

theorem test_wellFormed_trim_9 : (Instr.trim 9).wellFormed = true := by decide
theorem test_wellFormed_refuses_trim_10 : (Instr.trim 10).wellFormed = false := by decide
theorem test_wellFormed_refuses_trim_255 : (Instr.trim 255).wellFormed = false := by decide

/-! ## Decoding, each word written from R95 to R98: `RSV`, `ARG`, `MODE`, `OP` -/

/-- A word from its four fields, written out (R95). -/
def fields (rsv arg mode op : Nat) : Nat := rsv * 65536 + arg * 256 + mode * 16 + op

theorem test_decode_nop : decodeTableWord 32 (fields 0 0 0 0) = some .nop := by decide
theorem test_decode_est_dvfs_partial : decodeTableWord 32 (fields 0 0 0 1) = some .estDvfsPartial := by decide
theorem test_decode_est_dvfs_final : decodeTableWord 32 (fields 0 0 1 1) = some .estDvfsFinal := by decide
theorem test_decode_est_train_partial : decodeTableWord 32 (fields 0 0 2 1) = some .estTrainPartial := by decide
theorem test_decode_est_train_final : decodeTableWord 32 (fields 0 0 3 1) = some .estTrainFinal := by decide
theorem test_decode_est_periodic : decodeTableWord 32 (fields 0 0 4 1) = some .estPeriodic := by decide
theorem test_decode_trim : decodeTableWord 32 0x00000902 = some (.trim 9) := by decide
theorem test_decode_rampdn : decodeTableWord 32 0x00000003 = some (.rampdn false) := by decide
theorem test_decode_rampdn_flip : decodeTableWord 32 0x00000013 = some (.rampdn true) := by decide
theorem test_decode_rampup : decodeTableWord 32 (fields 0 0 0 4) = some (.rampup false) := by decide
theorem test_decode_rampup_flip : decodeTableWord 32 (fields 0 0 1 4) = some (.rampup true) := by decide
theorem test_decode_switch : decodeTableWord 32 0x0000F005 = some (.switch 0xF0) := by decide
theorem test_decode_switch_only : decodeTableWord 32 (fields 0 0 0 5) = some (.switch 0) := by decide
theorem test_decode_pcomp : decodeTableWord 32 (fields 0 0 0 6) = some .pcomp := by decide

/-- The little-endian bytes of `switch 3` and what follows them (20_memory.md R51). -/
theorem test_decodeBytes : decodeBytes [0x05, 0x03, 0x00, 0x00, 0xAA] = .ok (.switch 3, [0xAA]) := by decide
theorem test_decodeBytes_short : decodeBytes [0x05, 0x03, 0x00] = .error .shortInput := by decide

/-- The illegal words at the boundary of each clause (R96 to R98, 95_test_vectors.md 2.1). -/
theorem test_illegal_words :
    decode 0x00000007 = .error .reservedOp ∧ decode 0x0000000F = .error .reservedOp ∧
    decode 0x00010000 = .error .reservedBits ∧ decode 0x80000005 = .error .reservedBits ∧
    decode 0x00000051 = .error .illegalMode ∧ decode 0x000000F1 = .error .illegalMode ∧
    decode 0x00000023 = .error .illegalMode ∧ decode 0x00000024 = .error .illegalMode ∧
    decode 0x00000010 = .error .illegalMode ∧ decode 0x00000012 = .error .illegalMode ∧
    decode 0x00000015 = .error .illegalMode ∧ decode 0x00000016 = .error .illegalMode ∧
    decode 0x00000A02 = .error .illegalArg ∧ decode 0x0000FF02 = .error .illegalArg ∧
    decode 0x00000100 = .error .illegalArg ∧ decode 0x00000101 = .error .illegalArg ∧
    decode 0x00000103 = .error .illegalArg ∧ decode 0x00000104 = .error .illegalArg ∧
    decode 0x00000106 = .error .illegalArg := by decide

/-! ## States -/

/-- The fixed fields of an entry, by entry offset. -/
def entryWords (f flags margin count weight : Word) (cur trn acc tv : List Int) : List (Nat × Word) :=
  [(0x000, f), (0x004, 0x80000001), (0x008, flags), (0x00C, margin), (0x010, count), (0x014, weight)] ++
    (cur.zipIdx.map fun p => (0x020 + 4 * p.2, BitVec.ofInt 32 p.1)) ++
    (trn.zipIdx.map fun p => (0x040 + 4 * p.2, BitVec.ofInt 32 p.1)) ++
    (acc.zipIdx.map fun p => (0x060 + 4 * p.2, BitVec.ofInt 32 p.1)) ++
    (tv.zipIdx.map fun p => (0x080 + 4 * p.2, BitVec.ofInt 32 p.1))

/-- A machine with the parameters `p` whose entry 0 holds the words given, in rising order; source and destination
are entry 0. -/
def withEntry (p : Params) (ws : List (Nat × Word)) : State :=
  { State.reset with
    params := p
    snap := emptySnap p
    entryCount := 1
    mem := ws.flatMap fun q => (bytesOfWord q.2).zipIdx.map fun b => (0x100000 + q.1 + b.2, b.1) }

/-- Eight times the same value. -/
def eight (v : Int) : List Int := List.replicate 8 v

/-- The state a meaning leaves. -/
def after (o : Host.Outcome State Fault Refusal) : State :=
  match o with
  | .next t => t
  | .fault _ => State.reset
  | .refused _ => State.reset

/-- A word of entry 0. -/
def word0 (s : State) (off : Nat) : Option Word := memWord s.mem (0x100000 + off)

/-- Vector E1 (95_test_vectors.md 2.3). -/
def e1 : State :=
  { withEntry Params.reference (entryWords 1600000 0 1 3 3 (eight 40) (eight 40) (eight 0) []) with
    sampleIn := [37, 29, 7] }

/-- Vectors E3 and E6. -/
def e3 (count : Word) : State :=
  { withEntry Params.reference (entryWords 1600000 0 1 count 3 (eight 5) (eight 40) [-301, 299, 0, 0, 0, 0, 0,
      0] []) with
    sampleIn := [1, 2] }

/-- Vector E8. -/
def e8 : State :=
  { withEntry Params.reference
      (entryWords 1600000 0 1 1 3 [40, 30, 1, 2, 3, 4, 5, 6] (eight 0) [3700, 2900, 0, 0, 0, 0, 0, 0] []) with
    sampleIn := [1, 2] }

/-- Vector E5. -/
def e5 : State :=
  { withEntry Params.reference
      (entryWords 1000000 0 1 3 1 (eight 50) (eight 40) [5800, 6600, 0, 0, 0, 0, 0, 0] []) with
    sampleIn := [58, 66] }

/-- Vector T1 (95_test_vectors.md 2.4). -/
def t1 : State :=
  withEntry Params.reference
    (entryWords 1600000 0 1 3 1 [50, 30, 40, 40, 40, 41, 40, 40] (eight 40) (eight 0)
      ([130, 131, 1, 0, 64, 65, -70, 5] ++ eight 0))

/-- Vector T2. -/
def t2 : State :=
  withEntry Params.reference
    (entryWords 1600000 0 0 3 1 [35, 40, 40, 40, 40, 40, 40, 40] (eight 40) (eight 0) (eight 0))

/-- Vector T4: lane 0's tap overflows. -/
def t4 : State :=
  withEntry Params.reference
    (entryWords 1600000 0 0 3 1 [20040, 40, 40, 40, 40, 40, 40, 40] (eight 40) (eight 0) (eight 0))

/-- The ramps of vectors P1 and P3 (95_test_vectors.md 2.5), and a queue of two. -/
def rampParams : Params :=
  { Params.reference with
    qDepth := 2
    rampFn :=
      [⟨.down, .high, false, none, [⟨0x0A00, 0x11, 4⟩, ⟨0x0A04, 0x22, 4⟩], 12⟩,
        ⟨.up, .mid, true, none, [⟨0x0B00, 0x1, 0⟩], 3⟩, ⟨.up, .high, false, none, [⟨0x0A00, 0x11, 4⟩], 12⟩] }

/-- A state for a ramp at a frequency, with a queue. -/
def r1 (f : Word) (q : List QEntry) : State := { withEntry rampParams [(0x000, f)] with queue := q }

/-- A state for a switch of entry 0 to itself, with step lists and `CFG`, `FLAGS`. -/
def w1 (ops : List StepRow) (cfg : BitVec 5) (flags count : Word) : State :=
  { withEntry { Params.reference with stepOps := ops }
      (entryWords 1600000 flags 1 count 1 (eight 40) (eight 40) (eight 7) (eight 0 ++ eight 0)) with
    cfg := cfg
    timerIn := [100, 1000]
    regIn := [1] }

/-- Ramps with an entry each, and the waits 12, 3, 5 and 6. -/
def passRamps : List RampRow :=
  [⟨.down, .high, false, none, [⟨0x0A00, 0x11, 4⟩], 12⟩, ⟨.up, .high, false, none, [⟨0x0B00, 0x22, 0⟩], 3⟩,
    ⟨.down, .high, true, none, [⟨0x0C00, 0x33, 1⟩], 5⟩, ⟨.up, .high, true, none, [⟨0x0D00, 0x44, 2⟩], 6⟩]

/-- The state of a switch with those ramps. -/
def w1r (ops : List StepRow) (cfg : BitVec 5) (flags count : Word) : State :=
  { w1 ops cfg flags count with params := { Params.reference with stepOps := ops, rampFn := passRamps } }

/-- Vector W3. -/
def w3 : State :=
  { w1 [⟨.step 11, none, [.wr .emc 0x30C 0xDEAD]⟩] 0x03 2 2 with
    sampleIn := (List.replicate 3 [40, 42, 44, 46, 48, 50, 52, 54]).flatten }

/-- The entry of program B. -/
def bState (ops : List StepRow) : State :=
  { withEntry { Params.reference with stepOps := ops }
      (entryWords 1600000 0 1 1 3 (eight 40) (eight 40) (eight 4000) (eight 0 ++ eight 0)) with
    cfg := 3
    timerIn := [5, 10]
    sampleIn := [40, 40, 40, 40, 40, 40, 40, 80] }

/-- The lists of program B. -/
def bOps : List StepRow :=
  [⟨.p1, none, [.poll .emc 0x10 0x1 0x0 100]⟩, ⟨.p2, none, [.wr .emc 0x20 0]⟩, ⟨.p3, none, [.wr .emc 0x24 1]⟩,
    ⟨.p7, none, [.wr .emc 0x20 1]⟩]

/-! ## Single steps, against the vectors of 95_test_vectors.md -/

theorem test_est_dvfs_partial_E1 :
    word0 (after (exec .estDvfsPartial e1)) 0x060 = some 3700 ∧
      word0 (after (exec .estDvfsPartial e1)) 0x064 = some 2900 := by decide +kernel

theorem test_est_dvfs_partial_E7 :
    statusWord (after (exec .estDvfsPartial { e1 with sampleIn := [21474837, 1] })) = 0x00005442 := by decide +kernel

theorem test_est_train_partial_E1 : word0 (after (exec .estTrainPartial e1)) 0x064 = some 2900 := by decide +kernel

theorem test_est_dvfs_final_E3 :
    word0 (after (exec .estDvfsFinal (e3 3))) 0x060 = some (BitVec.ofInt 32 (-100)) ∧
      word0 (after (exec .estDvfsFinal (e3 3))) 0x020 = some (BitVec.ofInt 32 (-1)) ∧
      (after (exec .estDvfsFinal (e3 3))).result = 6 := by decide +kernel

theorem test_est_dvfs_final_E6 : statusWord (after (exec .estDvfsFinal (e3 0))) = 0x00004442 := by decide +kernel

theorem test_est_train_final_E8 :
    word0 (after (exec .estTrainFinal e8)) 0x040 = some 37 ∧
      word0 (after (exec .estTrainFinal e8)) 0x05C = some 6 := by decide +kernel

theorem test_est_periodic_E5 :
    word0 (after (exec .estPeriodic e5)) 0x020 = some 50 ∧ word0 (after (exec .estPeriodic e5)) 0x024 = some 66 ∧
      (after (exec .estPeriodic e5)).result = 16 := by decide +kernel

theorem test_est_periodic_E9 :
    statusWord (after (exec .estPeriodic
      { e5 with mem := memSetWord e5.mem 0x100014 0x7FFFFFFF })) = 0x00005442 := by decide +kernel

theorem test_trim_T1 :
    (after (exec (.trim 1) t1)).result = 0x00FE00FF ∧ (after (exec (.trim 8) t1)).result = 0x0F110022 := by
  decide +kernel

theorem test_trim_T2 : (after (exec (.trim 0) t2)).result = 0x00FF00FF := by decide +kernel

theorem test_rampdn_P1 :
    (after (exec (.rampdn false) (r1 1600000 []))).queue = [⟨0x0A00, 0x11, 4⟩, ⟨0x0A04, 0x22, 4⟩] ∧
      (after (exec (.rampdn false) (r1 1600000 []))).result = 12 := by decide +kernel

theorem test_rampdn_P6 :
    statusWord (after (exec (.rampdn false) (r1 1600000 [⟨1, 1, 1⟩, ⟨2, 2, 2⟩]))) = 0x00007442 := by decide +kernel

theorem test_rampup_P3 :
    (after (exec (.rampup true) (r1 800000 []))).queue = [⟨0x0B00, 0x1, 0⟩] ∧
      (after (exec (.rampup true) (r1 800000 []))).result = 3 := by decide +kernel

theorem test_switch_W1 :
    fspWord (after (exec (.switch 0) (w1 [] 7 0 1))) = 3 ∧
      (after (exec (.switch 0) (w1 [] 7 0 1))).queue = [⟨0x600, 0x1, 3⟩] := by decide +kernel

theorem test_switch_W3 :
    .write .emc 0x30C 0x00020002 ∈ (after (exec (.switch 0) w3)).trace ∧
      (after (exec (.switch 0) w3)).result = 14 := by
  decide +kernel

/-- The ramps of a training pass of LPDDR4, each wait carried to the entry that follows (42_power_ramp.md R163). -/
theorem test_switch_carries_waits_R163 :
    (after (exec (.switch 3) (w1r [] 4 0 1))).queue =
      [⟨0x0A00, 0x11, 4⟩, ⟨0x600, 0x1, 3 + 12⟩, ⟨0x0B00, 0x22, 0⟩, ⟨(w1r [] 4 0 1).params.trainCmdAddr, 3, 0 + 3⟩,
        ⟨0x0C00, 0x33, 1⟩, ⟨0x0D00, 0x44, 2 + 5⟩] := by decide +kernel

theorem test_pcomp_program_B :
    .write .emc 0x31C 0x00020002 ∈ (after (exec .pcomp { bState bOps with regIn := [0] })).trace ∧
      word0 (after (exec .pcomp { bState bOps with regIn := [0] })) 0x03C = some 50 := by decide +kernel

/-- Program B with P7 waiting for an answer, the periodic pass committed: a host read finds the value before the
command (20_memory.md R59, R90). -/
theorem test_busy_read_R59 :
    let s := after (exec .pcomp (bState [⟨.p7, none, [.rd .emc 0x10]⟩]))
    s.busy = true ∧ word0 s 0x03C = some 50 ∧ s.hostEntryWord 0 0x03C = 40 := by decide +kernel

/-- A run whose last command has ended is over while a host read is to come, not while a command is to come
(60_exceptions.md R251). -/
theorem test_runEnded_R251 :
    runEnded { State.reset with inbox := [.host ⟨false, .word, 0x4, 0⟩] } = true ∧
      runEnded { State.reset with inbox := [.host ⟨false, .word, 0x4, 0⟩, .host ⟨true, .word, 0x0, 6⟩] } = false := by
  decide +kernel

theorem test_nop_X1 : statusWord (after (exec .nop { State.reset with result := 9 })) = 2 := by decide +kernel

/-- Vector X9: the first command after reset, put where the next step runs it. -/
theorem test_step_X9 : statusWord (after (step (State.reset.withFetchWord 32 1))) = 0x00002402 := by decide +kernel

/-- Vector X4: a byte write. -/
theorem test_byte_write_X4 :
    after (step { State.reset with inbox := [.host ⟨true, .byte, 0x10, 7⟩] }) =
        { State.reset with accerr := true } := by
  decide +kernel

/-! ## Witnesses: for each statement with hypotheses, states and operands that meet them -/

theorem witness_EncodeOfDecodeIsTheWord : decode 0x00000902 = .ok (.trim 9) := by decide

/-- A state whose next event is a host access. -/
def hostState (busy wr : Bool) (sz : AccessSize) (off : Nat) : State :=
  { State.reset with busy := busy, inbox := [.host ⟨wr, sz, off, 5⟩] }

/-- The hypotheses common to the statements about one host access at a window offset. -/
def HostHyps (s : State) (wr : Bool) (sz : AccessSize) (off : Nat) : Prop :=
  paramsOk s.params = true ∧ s.inbox = .host ⟨wr, sz, s.params.dteBase + off, 5⟩ :: [] ∧ off < 4294967296

theorem hostState_hyps (busy wr : Bool) (sz : AccessSize) (off : Nat) (h : off < 4294967296) :
    HostHyps (hostState busy wr sz off) wr sz off := by
  refine ⟨show paramsOk Params.reference = true by decide +kernel, ?_, h⟩
  simp [hostState, State.reset, Params.reference]

theorem witness_IllegalWordsAreThoseOfTheTable :
    decode 0x00000007 = .error .reservedOp ∧ HostHyps (hostState false true .word 0) true .word 0 ∧
      (hostState false true .word 0).busy = false := ⟨by decide, hostState_hyps _ _ _ _ (by decide), rfl⟩

theorem witness_StepRunsTheDecodedCommand :
    paramsOk State.reset.params = true ∧ decode 0x00000902 = .ok (.trim 9) ∧ tableWord 32 0x902 = 0x00000902 := by
  decide +kernel

/-- Every clause at the ends of its range. -/
theorem witness_WritesWhileBusyAreIgnored :
    (∀ off < 4294967296, HostHyps (hostState true true .word off) true .word off) ∧
      (hostState true true .word 0).busy = true ∧
      (∀ off ∈ [0x0, 0x4, 0x8, 0xC, 0x10, 0x1C, 0x20, 0x24, 0x28, 0xFFFFC, 0x100000, 0x483FFC, 0x100018, 0x4830FC,
        0x484000, 0xFFFFFFFC], off % 4 = 0 ∧ off < 4294967296) ∧
      (entryOffReserved 0 = false ∧ 0x100000 = entryBase State.reset.params 0 + 0) ∧
      (entryOffReserved 0xFFC = false ∧ 0x483FFC = entryBase State.reset.params 899 + 0xFFC) ∧
      (entryOffReserved 0x18 = true ∧ 0x100018 = entryBase State.reset.params 0 + 0x18) ∧
      (entryOffReserved 0xFC = true ∧ 0x4830FC = entryBase State.reset.params 899 + 0xFC) ∧
      entryBase State.reset.params 900 = 0x484000 :=
  ⟨fun off h => hostState_hyps true true .word off h, rfl, by decide⟩

theorem witness_UnalignedAccessIsRefused :
    HostHyps (hostState false true .byte 0) true .byte 0 ∧ HostHyps (hostState true false .half 2) false .half 2 ∧
      HostHyps (hostState true true .word 0xFFFFFFFF) true .word 0xFFFFFFFF ∧ 0xFFFFFFFF % 4 ≠ 0 :=
  ⟨hostState_hyps _ _ _ _ (by decide), hostState_hyps _ _ _ _ (by decide), hostState_hyps _ _ _ _ (by decide),
    by decide⟩

theorem witness_CsrReadReturnsTheRegister :
    ∀ off ∈ [0x0, 0x4, 0x8, 0xC, 0x10, 0x14, 0x18, 0x1C, 0x20, 0x24, 0x28, 0xFFFFC],
      HostHyps (hostState true false .word off) false .word off ∧ off % 4 = 0 ∧ off < 0x100000 := fun off h =>
  have hb : off % 4 = 0 ∧ off < 0x100000 := by revert off; decide
  ⟨hostState_hyps _ _ _ _ (by omega), hb⟩

theorem witness_CsrWriteSetsTheRegister :
    ∀ off ∈ [0x10, 0x14, 0x18, 0x1C], HostHyps (hostState false true .word off) true .word off ∧
      (hostState false true .word off).busy = false := fun off h =>
  ⟨hostState_hyps _ _ _ _ (by have : off < 0x20 := by revert off; decide
                              omega), rfl⟩

/-- The first word, `FLAGS`, the words beside the reserved ones and the last word of the last entry. -/
theorem witness_EntryWordsReadBackAndHoldStillMeanwhile :
    ∀ p ∈ [(0, 0), (0, 8), (5, 0x14), (5, 0x20), (5, 0xBC), (5, 0x100), (899, 0xFFC)],
      paramsOk State.reset.params = true ∧ State.reset.busy = false ∧ p.1 < 900 ∧
        p.2 < State.reset.params.entryStride ∧ p.2 % 4 = 0 ∧ entryOffReserved p.2 = false ∧
        entryBase State.reset.params p.1 + p.2 < 4294967296 := by decide +kernel

/-- The inbox of the same statement. -/
theorem witness_EntryWordsReadBackAndHoldStillMeanwhile_inbox (i o : Nat) :
    { State.reset with inbox := [.host ⟨true, .word, entryBase State.reset.params i + o, 9⟩,
        .host ⟨false, .word, entryBase State.reset.params i + o, 0⟩] }.inbox =
      .host ⟨true, .word, State.reset.params.dteBase + (entryBase State.reset.params i + o), 9⟩ ::
        .host ⟨false, .word, State.reset.params.dteBase + (entryBase State.reset.params i + o), 0⟩ :: [] := by
  simp [State.reset, Params.reference]

/-- The other clauses of the same statement: a read that is next, a command that goes on, a word that is stored. -/
theorem witness_EntryWordsReadBackAndHoldStillMeanwhile_reads :
    (∃ es, (hostState true false .word 0x483FFC).inbox =
      .host ⟨false, .word, State.reset.params.dteBase + (entryBase State.reset.params 899 + 0xFFC), 5⟩ :: es) ∧
    (∃ t, step { e1 with inbox := [.host ⟨true, .word, 0, 1⟩], sampleIn := [] } = .next t ∧
      nextIsReset { e1 with inbox := [.host ⟨true, .word, 0, 1⟩], sampleIn := [] } = false ∧ t.busy = true) ∧
    e1.busy = false ∧ memWord e1.mem (wordAt e1 0 offFlags) = some 0 :=
  ⟨⟨[], rfl⟩, ⟨_, (step_event (show paramsOk Params.reference = true by decide +kernel) rfl).trans rfl, rfl,
    by decide +kernel⟩, rfl, by decide +kernel⟩

theorem witness_ReservedWindowReadsZero :
    ∀ off ∈ [0x28, 0xFFFFC, 0x484000, 0xFFFFFFFC, 0x100018, 0x10001C, 0x1000C0, 0x4830FC],
      HostHyps (hostState false false .word off) false .word off ∧ off % 4 = 0 ∧
        ((0x028 ≤ off ∧ off < 0x100000) ∨ entryBase State.reset.params 900 ≤ off ∨
          (0x018 ≤ off - 0x100000 ∧ off - 0x100000 < 0x020) ∨ (0x0C0 ≤ off - 0x100000 ∧ off - 0x100000 < 0x100) ∨
          off = entryBase State.reset.params 899 + 0xFC) := fun off h =>
  have hb : off < 4294967296 ∧ off % 4 = 0 ∧ ((0x028 ≤ off ∧ off < 0x100000) ∨
      entryBase State.reset.params 900 ≤ off ∨ (0x018 ≤ off - 0x100000 ∧ off - 0x100000 < 0x020) ∨
      (0x0C0 ≤ off - 0x100000 ∧ off - 0x100000 < 0x100) ∨ off = entryBase State.reset.params 899 + 0xFC) := by
    revert off; decide
  ⟨hostState_hyps _ _ _ _ hb.1, hb.2⟩

theorem witness_ResetInputFromAnyState :
    paramsOk rampParams = true ∧ paramsOk w3.params = true ∧
      { w3 with inbox := [.reset rampParams] }.inbox = .reset rampParams :: [] := by decide +kernel

theorem witness_IllFormedSessionIsRefused :
    let p : Params := { Params.reference with stepOps := [⟨.step 22, none, [.enq 1 2 3]⟩] }
    let q : Params := { Params.reference with qDepth := 0 }
    paramsOk { State.reset with params := q }.params = false ∧ paramsOk State.reset.params = true ∧
      paramsOk p = false ∧ { State.reset with inbox := [.reset p] }.inbox = .reset p :: [] ∧
      (⟨.step 22, none, [.enq 1 2 3]⟩ : StepRow) ∈ p.stepOps := by decide +kernel

/-- The other clauses of the same statement, each at the boundary of its range. -/
theorem witness_IllFormedSessionIsRefused_clauses :
    (∀ l ∈ [Label.step 22, .step 25, .tri25, .dll25, .p1, .p2, .p3, .p7],
      paramsOk { Params.reference with stepOps := [⟨l, none, [.enq 1 2 3]⟩] } = false) ∧
    paramsOk { Params.reference with stepOps := [⟨.step 21, none, [.enq 1 2 3]⟩] } = true ∧
    paramsOk { Params.reference with stepOps := [⟨.p1, none, [.save Params.reference.nSnap .emc 1]⟩] } = false ∧
    paramsOk { Params.reference with stepOps := [⟨.p1, none, [.save (Params.reference.nSnap - 1) .emc 1]⟩] } = true ∧
    paramsOk { Params.reference with entryStride := 0xFC } = false ∧
    paramsOk { Params.reference with entryStride := 0x102 } = false ∧
    paramsOk { Params.reference with entryStride := 0x100 } = true ∧
    paramsOk { Params.reference with nSnap := 0 } = false ∧
    paramsOk { Params.reference with rampTMid := 5, rampTHigh := 6 } = false ∧
    paramsOk { Params.reference with rampTMid := 6, rampTHigh := 6 } = true ∧
    (let p (fs : List TrimField) : Params :=
        { Params.reference with trimLayout := fs :: Params.reference.trimLayout.drop 1 };
      paramsOk (p [⟨0, 0, 8⟩, ⟨1, 7, 8⟩]) = false ∧ paramsOk (p [⟨0, 0, 8⟩, ⟨1, 8, 8⟩]) = true ∧
      paramsOk (p [⟨0, 0, 8⟩, ⟨1, 25, 8⟩]) = false ∧ paramsOk (p [⟨0, 0, 8⟩, ⟨1, 24, 8⟩]) = true ∧
      paramsOk (p [⟨0, 0, 8⟩]) = false) ∧
    paramsOk { Params.reference with fspSwapFn := [⟨none, 2⟩] } = false ∧
    paramsOk { Params.reference with captureFn := [⟨none, [⟨.emc, 0x40, 0xFF, false⟩]⟩] } = false ∧
    paramsOk { Params.reference with captureFn := [⟨none, [⟨.emc, 0x40, 0xFFD, false⟩]⟩] } = false ∧
    paramsOk { Params.reference with captureFn := [⟨none, [⟨.emc, 0x40, 0xFFC, false⟩]⟩] } = true ∧
    paramsOk { Params.reference with trainCmdFn := [⟨some 3, (1, 0)⟩] } = false := by decide +kernel

theorem witness_EveryStepAnswers : paramsOk State.reset.params = true := by decide +kernel

/-- Both clauses of the statement, from below and from above. -/
theorem witness_PeriodicAccumulatorConverges :
    ∀ p ∈ [((0 : Int), (50 : Int), 1), (4999, 50, 1), (5000, 50, 3), (6000, 50, 3), (0, 0, 1)],
      0 ≤ p.1 ∧ 0 ≤ p.2.1 ∧ 1 ≤ p.2.2 ∧ InS32 (100 * p.2.1) ∧ InS32 ((p.2.2 : Nat) * p.1) ∧
        InS32 (100 * p.2.1 + (p.2.2 : Nat) * p.1) ∧ InS32 ((p.2.2 : Nat) + 1) := by decide

/-! ### Commands -/

/-- An index at the count, a count above 900, a source index out of range. -/
theorem witness_ConfigCheckEndsTheCommand :
    Idle State.reset ∧ State.reset.drain = false ∧ (Instr.trim 9).wellFormed = true ∧
      State.reset.entryCount.toNat ≤ dstOf State.reset ∧ 900 < { e1 with entryCount := 901 }.entryCount.toNat ∧
      Idle { e1 with srcIdx := 1 } ∧ { e1 with srcIdx := 1 }.entryCount.toNat ≤ srcOf { e1 with srcIdx := 1 } ∧
      IsEst .estDvfsFinal ∧ CanEnqueue (.switch 0) :=
  ⟨⟨rfl, rfl⟩, rfl, by decide, by decide, by decide, ⟨rfl, rfl⟩, by decide, .inr (.inl rfl), .inr (.inr ⟨0, rfl⟩)⟩

/-- Entry 0 with only `FREQ_KHZ`: the accumulator of lane 0 is not loaded. -/
theorem witness_UnloadedFieldEndsTheCommand :
    let s := r1 1600000 []
    Idle s ∧ s.drain = false ∧ s.entryCount.toNat ≤ 900 ∧ dstOf s < s.entryCount.toNat ∧
      srcOf s < s.entryCount.toNat ∧ (0, offAcc 0) ∈ (s.accept .estDvfsPartial).readSet ∧
      s.marked 0 (offAcc 0) = false ∧ (0, offClkSrc) ∈ (s.accept (.switch 0)).readSet ∧
      s.marked 0 offClkSrc = false := ⟨⟨rfl, rfl⟩, by decide +kernel⟩

theorem witness_ChecksReadTheListedFields : (9 : BitVec 8).toNat ≤ 9 := by decide

/-- A command that runs on, one that succeeds and one that is aborted. -/
theorem witness_CommandRunsOnOrEnds :
    State.reset.busy = false ∧ (Instr.estDvfsPartial).wellFormed = true ∧
      (∃ t, exec .estDvfsPartial { e1 with sampleIn := [] } = .next t ∧ t.busy = true) ∧
      (∃ t, exec .estDvfsPartial e1 = .next t ∧ t.cause = .none ∧ t.busy = false) ∧
      (∃ t, exec .estDvfsPartial State.reset = .next t ∧ t.cause = .config) :=
  ⟨rfl, by decide, ⟨_, rfl, by decide +kernel⟩, ⟨_, rfl, by decide +kernel⟩, ⟨_, rfl, by decide +kernel⟩⟩

theorem witness_StepAfterSuccess :
    (∃ t, exec (.switch 0) (w1 [] 7 0 1) = .next t ∧ t.busy = false) ∧
      (∃ t, exec .estDvfsPartial e1 = .next t ∧ t.busy = false ∧ t.cause = .none) :=
  ⟨⟨_, rfl, by decide +kernel⟩, ⟨_, rfl, by decide +kernel⟩⟩

theorem witness_CausesEachCommandRaises :
    paramsOk e1.params = true ∧ e1.busy = false ∧ (Instr.trim 0).wellFormed = true ∧ IsEst .estDvfsPartial ∧
      (∃ t, exec .estDvfsPartial e1 = .next t) :=
  ⟨by decide +kernel, rfl, by decide, .inl rfl, ⟨_, rfl⟩⟩

theorem witness_EstPartialAddsSamples :
    Idle e1 ∧ Passes .estDvfsPartial e1 ∧ Passes .estTrainPartial e1 ∧ e1.sampleIn = [37, 29] ++ [7] ∧
      ([37, 29] : List Word).length = (activeLanes e1.cfg).length ∧
      ∀ p ∈ lanesWith e1 [37, 29], InS32 (100 * rawSample e1 (srcOf e1) (dstOf e1) p.2) ∧
        InS32 (summed e1 (srcOf e1) (dstOf e1) p) := by
  unfold Idle Passes
  decide +kernel

theorem witness_EstDvfsFinalReplacesDelays :
    Idle (e3 3) ∧ Passes .estDvfsFinal (e3 3) ∧ (e3 3).sampleIn = [1, 2] ++ [] ∧
      ([1, 2] : List Word).length = (activeLanes (e3 3).cfg).length ∧ countAt (e3 3) (dstOf (e3 3)) ≠ 0 ∧
      ∀ l ∈ activeLanes (e3 3).cfg, JudgesInRange (e3 3) (dstOf (e3 3)) l (averaged (e3 3) (dstOf (e3 3)) l) := by
  unfold Idle Passes JudgesInRange ScalesInRange
  decide +kernel

theorem witness_EstTrainFinalCopiesDelays :
    Idle e8 ∧ Passes .estTrainFinal e8 ∧ e8.sampleIn = [1, 2] ++ [] ∧
      ([1, 2] : List Word).length = (activeLanes e8.cfg).length ∧ countAt e8 (dstOf e8) ≠ 0 ∧
      ∀ l ∈ activeLanes e8.cfg, JudgesInRange e8 (dstOf e8) l (averaged e8 (dstOf e8) l) := by
  unfold Idle Passes JudgesInRange ScalesInRange
  decide +kernel

theorem witness_EstPeriodicBlendsAndReplaces :
    Idle e5 ∧ Passes .estPeriodic e5 ∧ e5.sampleIn = [58, 66] ++ [] ∧
      ([58, 66] : List Word).length = (activeLanes e5.cfg).length ∧
      ∀ p ∈ lanesWith e5 [58, 66], BlendsInRange e5 (srcOf e5) (dstOf e5) p ∧
        JudgesInRange e5 (dstOf e5) p.1 (blended e5 (srcOf e5) (dstOf e5) p) := by
  unfold Idle Passes BlendsInRange JudgesInRange ScalesInRange
  decide +kernel

theorem witness_ZeroSampleCountIsDiv0 :
    Idle (e3 0) ∧ Passes .estDvfsFinal (e3 0) ∧ Passes .estTrainFinal (e3 0) ∧ countAt (e3 0) (dstOf (e3 0)) = 0 ∧
      (e3 0).sampleIn = 1 :: [2] := by
  unfold Idle Passes
  decide +kernel

/-- A run that is aborted at its second lane, and one that waits for its first count. -/
theorem witness_EstIsAllOrNothing :
    IsEst .estDvfsPartial ∧ Idle { e1 with sampleIn := [21474836, 21474837] } ∧
      (∃ t, exec .estDvfsPartial { e1 with sampleIn := [21474836, 21474837] } = .next t ∧ t.cause ≠ .none) ∧
      Idle { e1 with sampleIn := [] } ∧ Passes .estDvfsPartial { e1 with sampleIn := [] } ∧
      (∃ t, exec .estDvfsPartial { e1 with sampleIn := [] } = .next t) :=
  ⟨.inl rfl, ⟨rfl, rfl⟩, ⟨_, rfl, by decide +kernel⟩, ⟨rfl, rfl⟩, by unfold Passes; decide +kernel, ⟨_, rfl⟩⟩

theorem witness_TrimReturnsThePackedValue :
    paramsOk t1.params = true ∧ Idle t1 ∧ Passes (.trim 1) t1 ∧ Passes (.trim 8) t1 ∧ trimRank 1 = trimRank 8 ∧
      TrimsInRange t1 (dstOf t1) (trimRank 8) (curAt t1 (dstOf t1)) := by
  unfold Idle Passes TrimsInRange
  decide +kernel

theorem witness_TrimOutOfRangeOverflows :
    Idle t4 ∧ Passes (.trim 0) t4 ∧ ¬ TrimsInRange t4 (dstOf t4) (trimRank 0) (curAt t4 (dstOf t4)) := by
  unfold Idle Passes TrimsInRange
  decide +kernel

theorem witness_TrimIsPure : t1.busy = false ∧ ∃ t, exec (.trim 1) t1 = .next t := ⟨rfl, _, rfl⟩

theorem witness_RampQueuesItsEntries :
    let s := r1 1600000 []
    Idle s ∧ s.drain = false ∧ Passes (.rampdn false) s ∧ Passes (.rampup false) s ∧ freqAt s (srcOf s) ≠ 0 ∧
      freqAt s (dstOf s) ≠ 0 ∧ s.queue.length + (rampOf s .down false (srcOf s)).1.length ≤ s.params.qDepth ∧
      s.queue.length + (rampOf s .up false (dstOf s)).1.length ≤ s.params.qDepth := by
  unfold Idle Passes
  decide +kernel

/-- A frequency of 0; a queue with room for one of two entries; a full queue. -/
theorem witness_RampAbortsKeepWhatIsQueued :
    (let s := r1 0 []; Idle s ∧ s.drain = false ∧ Passes (.rampdn false) s ∧ Passes (.rampup false) s ∧
        freqAt s (srcOf s) = 0) ∧
    (let s := r1 1600000 [⟨1, 1, 1⟩]; Passes (.rampdn false) s ∧ freqAt s (srcOf s) ≠ 0 ∧
        s.queue.length ≤ s.params.qDepth ∧
        s.params.qDepth < s.queue.length + (rampOf s .down false (srcOf s)).1.length) ∧
    (let s := r1 1600000 [⟨1, 1, 1⟩, ⟨2, 2, 2⟩]; Passes (.rampup false) s ∧ freqAt s (dstOf s) ≠ 0 ∧
        s.queue.length ≤ s.params.qDepth ∧
        s.params.qDepth < s.queue.length + (rampOf s .up false (dstOf s)).1.length) := by
  unfold Idle Passes
  decide +kernel

theorem witness_DrainInterlockDelaysTheCommand :
    CanEnqueue (.rampdn false) ∧ Idle { r1 1600000 [] with drain := true } ∧
      { r1 1600000 [] with drain := true }.drain = true := ⟨.inl ⟨_, rfl⟩, ⟨rfl, rfl⟩, rfl⟩

/-- Lists that write at each side of the clock change. -/
def wOps : List StepRow :=
  [⟨.step 4, none, [.wr .emc 0x100 1]⟩, ⟨.step 19, none, [.wr .emc 0x104 2]⟩, ⟨.step 25, none, [.wr .emc 0x108 3]⟩]

/-- A training pass of LPDDR4 and a pass without training, with ramps that queue entries. -/
theorem plainPass_witness (mask : BitVec 8) (h : mask = 0 ∨ mask = 3) : PlainPass (w1r wOps 7 0 1) mask where
  idle := ⟨rfl, rfl⟩
  drained := rfl
  passes := by rcases h with rfl | rfl <;> (unfold Passes; decide +kernel)
  writes := by
    intro r hr o ho
    simp only [w1r, w1, withEntry, wOps, List.mem_cons, List.not_mem_nil, or_false] at hr
    rcases hr with rfl | rfl | rfl <;>
      (simp only [List.mem_cons, List.not_mem_nil, or_false] at ho; exact ⟨_, _, _, ho⟩)
  untrained := .inl (by decide +kernel)
  noCapture := fun _ => rfl
  noUpdate := fun _ => rfl
  room :=
    { freqs := by decide +kernel
      room := by rcases h with rfl | rfl <;> decide +kernel
      trigDelay := by decide +kernel
      cmdDelay := by rcases h with rfl | rfl <;> decide +kernel
      rampDelay := by rcases h with rfl | rfl <;> decide +kernel }

theorem witness_SwitchPerformsItsSteps :
    PlainPass (w1r wOps 7 0 1) 0 ∧ PlainPass (w1r wOps 7 0 1) 3 ∧ (w1r wOps 7 0 1).timerIn = 100 :: [1000] ∧
      (w1r wOps 7 0 1).regIn = 1 :: [] ∧
      1 &&& (w1r wOps 7 0 1).params.ccStatus.mask = (w1r wOps 7 0 1).params.ccStatus.mask :=
  ⟨plainPass_witness 0 (.inl rfl), plainPass_witness 3 (.inr rfl), rfl, rfl, by decide⟩

theorem witness_SwitchTimesOutAtStep22 :
    ∃ s : State, PlainPass s 0 ∧ s.timerIn = 100 :: 1000 :: [] ∧ s.regIn = 0 :: [] ∧
      0 &&& s.params.ccStatus.mask ≠ s.params.ccStatus.mask ∧ s.params.ccTimeoutUs ≤ 1000 &&& 0x7FFFFFFF :=
  have h := plainPass_witness 0 (.inl rfl)
  ⟨{ w1r wOps 7 0 1 with regIn := [0] },
    ⟨h.idle, h.drained, h.passes, h.writes, h.untrained, h.noCapture, h.noUpdate,
      ⟨h.room.freqs, h.room.room, h.room.trigDelay, h.room.cmdDelay, h.room.rampDelay⟩⟩, rfl, rfl, by decide,
    by decide⟩

/-- Two failing reads within the bound. -/
theorem witness_ClockChangeWaitIsBounded :
    let s : State := { State.reset with timerIn := [7, 500, 499, 3], regIn := [0, 2, 1] }
    let fails : List (Word × Word) := [(0, 500), (2, 499)]
    s.timerIn = 7 :: fails.map Prod.snd ++ [3] ∧ s.regIn = fails.map Prod.fst ++ 1 :: [] ∧
      (∀ p ∈ fails, p.1 &&& s.params.ccStatus.mask ≠ s.params.ccStatus.mask) ∧
      (∀ k ≤ fails.length, ((fails.take k).map fun p => p.2 &&& 0x7FFFFFFF).foldl (· + ·) 0 < s.params.ccTimeoutUs ∨
        k = 0) ∧ 1 &&& s.params.ccStatus.mask = s.params.ccStatus.mask := by
  refine ⟨rfl, rfl, fun p hp => ?_, fun k hk => ?_, by decide⟩
  · obtain rfl | rfl : p = (0, 500) ∨ p = (2, 499) := by simpa using hp
    all_goals decide
  · obtain rfl | rfl | rfl : k = 0 ∨ k = 1 ∨ k = 2 := by simp at hk; omega
    · exact .inr rfl
    all_goals exact .inl (by simp; decide)

/-- The other clause: after two failing reads a third one, at which the bound is reached. -/
theorem witness_ClockChangeWaitIsBounded_timeout :
    let s : State := { State.reset with timerIn := [7, 500, 499, 3], regIn := [0, 2, 4] }
    s.timerIn = 7 :: ([500, 499] : List Word) ++ 3 :: [] ∧ s.regIn = ([0, 2] : List Word) ++ 4 :: [] ∧
      4 &&& s.params.ccStatus.mask ≠ s.params.ccStatus.mask ∧
      s.params.ccTimeoutUs ≤ (500 + 499 : Word) + (3 &&& 0x7FFFFFFF) := by decide +kernel

/-- A pass that estimates: two active lanes, one partial run and the final one. -/
def estimateState (cfg : BitVec 5) : State := { w1r [] cfg 2 1 with sampleIn := [40, 42, 44, 46, 9] }

theorem estimatingPass_witness (cfg : BitVec 5) (mask : BitVec 8) (cur : Nat → Int)
    (h : (cfg, mask) = (0, 0) ∨ (cfg, mask) = (4, 0x30)) (hc : cur = curAt (estimateState cfg) 0 ∨
      cur = trnAt (estimateState cfg) 0) : EstimatingPass (estimateState cfg) mask [[40, 42]] [44, 46] cur where
  idle := ⟨rfl, rfl⟩
  drained := rfl
  canonical := by rcases h with h | h <;> cases h <;> decide +kernel
  passes := by rcases h with h | h <;> cases h <;> (unfold Passes; decide +kernel)
  lists := rfl
  ptEn := by rcases h with h | h <;> cases h <;> decide +kernel
  runsCount := ⟨by rcases h with h | h <;> cases h <;> decide +kernel, nofun⟩
  counts := by rcases h with h | h <;> cases h <;> decide
  partials := by rcases h with h | h <;> cases h <;> decide +kernel
  finals := by
    unfold ScalesInRange
    rcases h with h | h <;> cases h <;> rcases hc with rfl | rfl <;> decide +kernel
  noCapture := fun _ => rfl
  noUpdate := fun _ => rfl

/-- Step 3 estimates, with room for the entries of the pass. -/
theorem witness_StepsThreeAndThirteenEstimate :
    let s := estimateState 0
    EstimatingPass s 0 [[40, 42]] [44, 46] (trnAt s (dstOf s)) ∧ s.sampleIn = [[40, 42]].flatten ++ [44, 46] ++ [9] ∧
      s.timerIn = 100 :: [1000] ∧ s.regIn = 1 :: [] ∧ 1 &&& s.params.ccStatus.mask = s.params.ccStatus.mask ∧
      PassRoom
        { s with
          mem := stepThreeMem s [[40, 42]]
          compw := decide ((marginAt s (dstOf s) : Int) <
            scaledTo s (dstOf s) (estimateDelta s [[40, 42]] (trnAt s (dstOf s)))) } 0 :=
  ⟨estimatingPass_witness 0 0 _ (.inl rfl) (.inr rfl), rfl, rfl, rfl, by decide,
    { freqs := by decide +kernel
      room := by decide +kernel
      trigDelay := by decide +kernel
      cmdDelay := by decide +kernel
      rampDelay := by decide +kernel }⟩

/-- Step 13 estimates, on LPDDR4. -/
theorem witness_StepsThreeAndThirteenEstimate_training :
    let s := estimateState 4
    EstimatingPass s 0x30 [[40, 42]] [44, 46] (curAt s (dstOf s)) ∧ (0x30 : BitVec 8) &&& 0x30 ≠ 0 ∧
      PassRoom { passStart s with mem := stepThirteenMem s [[40, 42]] } 0x30 :=
  ⟨estimatingPass_witness 4 0x30 _ (.inr rfl) (.inl rfl), by decide,
    { freqs := by decide +kernel
      room := by decide +kernel
      trigDelay := by decide +kernel
      cmdDelay := by decide +kernel
      rampDelay := by decide +kernel }⟩

/-- The zero sample count. -/
theorem witness_StepsThreeAndThirteenEstimate_abort :
    let s : State := { w1 [] 0 2 0 with sampleIn := [9] }
    Idle s ∧ s.drain = false ∧ Passes (.switch 0) s ∧ s.params.stepOps = [] ∧ s.params.dvfsAccClear = true ∧
      (s.fieldD (dstOf s) offFlags).getLsbD 1 = true ∧ countAt s (dstOf s) = 0 ∧ s.sampleIn = 9 :: [] := by
  unfold Idle Passes
  decide +kernel

theorem witness_StepElevenSubstitutesTrimValues :
    let s : State := { w3 with compw := true }
    (3 < 10 ∧ ∀ k < 3, trimAddr s.params k ≠ trimAddr s.params 3) ∧ s.quantum = none ∧
      stepOps s.params (s.ctx (.step 11)) = [.wr .emc (trimAddr s.params 3) 0xDEAD] ∧
      s.trimValue s.dstEntry 3 = .ok 0 := by decide +kernel

/-- A state with two items to capture, the second corrected. -/
def captureState : State :=
  { State.reset with
    regIn := [5, 6]
    params := { Params.reference with
      captureFn := [⟨none, [⟨.emc, 0x40, 0x100, false⟩, ⟨.emc1, 0x44, 0x104, true⟩]⟩]
      vrefCorrFn := [⟨none, .value 9⟩] } }

theorem witness_CaptureStoresWhatItReads :
    captureState.quantum = none ∧ captureOk captureState.params ⟨.emc, 0x40, 0x100, false⟩ = true ∧
      captureOk captureState.params ⟨.emc1, 0x44, 0x104, true⟩ = true ∧ 0x100 + 4 ≤ 0x104 ∧
      captureFn captureState.params (captureState.ctx (.step 23)) =
        [⟨.emc, 0x40, 0x100, false⟩, ⟨.emc1, 0x44, 0x104, true⟩] ∧ captureState.regIn = 5 :: 6 :: [] := by
  decide +kernel

/-- Lists of a periodic compensation that only write. -/
def pOps : List StepRow := [⟨.p1, none, [.wr .emc 0x20 0]⟩, ⟨.p7, none, [.wr .emc 0x20 1]⟩]

/-- The counts of program B. -/
def bCounts : List Word := [40, 40, 40, 40, 40, 40, 40, 80]

theorem pOps_writesOnly : WritesOnly (bState pOps).params := by
  intro r hr o ho
  simp only [bState, withEntry, pOps, List.mem_cons, List.not_mem_nil, or_false] at hr
  rcases hr with rfl | rfl <;> (simp only [List.mem_cons, List.not_mem_nil, or_false] at ho; exact ⟨_, _, _, ho⟩)

/-- The drift exceeds the margin and the settle wait is 10. -/
theorem witness_PcompCompensatesTheDrift :
    let s := bState pOps
    Idle s ∧ Passes .pcomp s ∧ paramsOk s.params = true ∧ s.timerIn = 5 :: [10] ++ [] ∧
      settleUs s.params (entryImage s.params s.mem (dstOf s)) = 10 ∧ s.sampleIn = bCounts ++ [] ∧
      bCounts.length = (activeLanes s.cfg).length ∧
      (∀ p ∈ lanesWith s bCounts, BlendsInRange s (dstOf s) (dstOf s) p ∧
        JudgesInRange s (dstOf s) p.1 (blended s (dstOf s) (dstOf s) p)) ∧
      ScalesInRange s (dstOf s) (periodicDelta s (dstOf s) (dstOf s) (lanesWith s bCounts)) ∧
      (marginAt s (dstOf s) : Int) <
        scaledTo s (dstOf s) (periodicDelta s (dstOf s) (dstOf s) (lanesWith s bCounts)) := by
  unfold Idle Passes BlendsInRange JudgesInRange ScalesInRange
  decide +kernel

/-- The last hypothesis of the same statement. -/
theorem witness_PcompCompensatesTheDrift_trims :
    let s := bState pOps
    ∀ r < 2, TrimsInRange s (dstOf s) r (delayAfter s (dstOf s) (dstOf s) (lanesWith s bCounts)) := by
  unfold TrimsInRange
  decide +kernel

/-- The other clauses: no settle wait, and a drift that does not exceed the margin. -/
theorem witness_PcompCompensatesTheDrift_steady :
    let s : State :=
      { bState pOps with
        cfg := 0
        sampleIn := [40, 40]
        timerIn := [5]
        params := { Params.reference with stepOps := pOps, pcompSettleUs := [] } }
    Passes .pcomp s ∧ paramsOk s.params = true ∧ settleUs s.params (entryImage s.params s.mem (dstOf s)) = 0 ∧
      (∀ p ∈ lanesWith s [40, 40], BlendsInRange s (dstOf s) (dstOf s) p ∧
        JudgesInRange s (dstOf s) p.1 (blended s (dstOf s) (dstOf s) p)) ∧
      ¬ (marginAt s (dstOf s) : Int) <
        scaledTo s (dstOf s) (periodicDelta s (dstOf s) (dstOf s) (lanesWith s [40, 40])) := by
  unfold Passes BlendsInRange JudgesInRange ScalesInRange
  decide +kernel

theorem witness_SnapshotsCarryWithinOneCommand :
    let s := bState [⟨.p1, none, [.restore 0 .emc 0x40]⟩]
    Idle s ∧ Passes .pcomp s ∧ stepOps s.params (periodicCtx s s.mem .p1) = .restore 0 .emc 0x40 :: [] := by
  unfold Idle Passes
  decide +kernel

/-- The other clauses: a write between the save and the restore, and a command that saves and restores. -/
theorem witness_SnapshotsCarryWithinOneCommand_saved :
    (let s : State := { State.reset with regIn := [5] };
      s.quantum = none ∧ 0 < s.snap.length ∧ s.regIn = 5 :: [] ∧
        (∀ sp a, Task.save 0 sp a ∉ [Task.write .emc 1 2]) ∧
        ∃ t, runTasks [.write .emc 1 2]
          { s with regIn := [], trace := s.trace ++ [.read .emc 9 5], snap := s.snap.set 0 (some 5) } = .done t) ∧
    (let s : State :=
      { bState [⟨.p1, none, [.save 0 .emc 0x40]⟩, ⟨.p2, none, [.restore 0 .mc 0x44]⟩] with regIn := [5], timerIn :=
          [] };
      Idle s ∧ Passes .pcomp s ∧ 0 < s.params.nSnap ∧
        stepOps s.params (periodicCtx s s.mem .p1) = [.save 0 .emc 0x40] ∧
        stepOps s.params (periodicCtx s s.mem .p2) = [.restore 0 .mc 0x44] ∧
        stepOps s.params (periodicCtx s s.mem .p3) = [] ∧ s.regIn = [5] ∧ s.timerIn = []) := by
  refine ⟨⟨rfl, by decide, rfl, by simp, _, rfl⟩, ?_⟩
  unfold Idle Passes
  decide +kernel

theorem witness_SrcIdxDoesNotMatter :
    (bState pOps).busy = false ∧ (bState pOps).pass = Pass.idle ∧ (∃ t, exec .pcomp (bState pOps) = .next t) ∧
      (∃ t, exec (.trim 1) t1 = .next t) := ⟨rfl, rfl, ⟨_, rfl⟩, ⟨_, rfl⟩⟩

/-- A poll used up after two reads; one that matches at the third of five; a spin that waits, one that ends. -/
theorem witness_PollsAreBoundedAndSpinsAreNot :
    (∀ f ∈ ([1, 3] : List Word), f &&& 1 ≠ 0) ∧ (2 : Word) &&& 1 = 0 ∧ State.reset.params.pollGapUs = 0 ∧
      { State.reset with regIn := [1, 3] }.regIn = [1, 3] ++ [] ∧
      { State.reset with regIn := [1, 3, 2, 8] }.regIn = [1, 3] ++ 2 :: [8] :=
  ⟨by simp, by decide, rfl, rfl, rfl⟩

/-- A delay of 0 and one of 10. -/
theorem witness_DelayWaitsItsTime :
    (∃ s', runTask (.delay (.start 0)) { State.reset with timerIn := [4] } = .done s') ∧
      (∃ s', runTask (.delay (.start 10)) { State.reset with timerIn := [4, 3, 7] } = .done s') :=
  ⟨⟨{ State.reset with timerUs := 4, trace := [.timer 4] }, by decide +kernel⟩,
    ⟨{ State.reset with timerUs := 14, trace := [.timer 4, .timer 7, .timer 14] }, by decide +kernel⟩⟩

theorem witness_TimingUpdateAwaitsBothChannels :
    let s : State := { w1 [] 7 0 1 with regIn := [1, 2] }
    s.quantum = none ∧ 1 &&& s.params.tupd.ackMask = s.params.tupd.ackExpect ∧
      2 &&& s.params.tupd.ackMask = s.params.tupd.ackExpect ∧ s.regIn = 1 :: 2 :: [] := by decide

/-- The drain stopped, with an empty queue, at an entry whose time has come, and before it. -/
theorem witness_DrainWritesTheHead :
    paramsOk State.reset.params = true ∧
      (∀ d ∈ [(0, (0 : Word)), (4, 4), (3, 4)],
        let s : State := { State.reset with drain := true, queue := [⟨1, 2, d.2⟩], drainClk := d.1, inbox :=
            [.drain] }
        s.inbox = .drain :: [] ∧ s.queue = ⟨1, 2, d.2⟩ :: [] ∧ (d.2.toNat ≤ d.1 ∨ d.1 < d.2.toNat)) := by
  decide +kernel

theorem witness_QueueDrainsInOrder :
    let s : State :=
      { State.reset with
        drain := true
        queue := [⟨1, 2, 3⟩, ⟨4, 5, 0⟩]
        inbox := [.emcClocks 3, .drain, .emcClocks 0, .drain, .drain] }
    paramsOk s.params = true ∧ s.drain = true ∧ s.drainClk = 0 ∧
      s.inbox = (s.queue.flatMap fun e => [.emcClocks e.delay.toNat, .drain]) ++ .drain :: [] := by decide +kernel

theorem witness_QueueIsFifo :
    (∃ t, step { State.reset with drain := true, queue := [⟨1, 2, 0⟩], inbox := [.drain] } = .next t) ∧
      nextIsReset { State.reset with drain := true, queue := [⟨1, 2, 0⟩], inbox := [.drain] } = false :=
  ⟨⟨_, (step_event (show paramsOk Params.reference = true by decide +kernel) rfl).trans rfl⟩, by decide⟩

/-- The invariant of a state in which no command runs. -/
theorem inv_of_idle (s : State) (hp : paramsOk s.params = true) (hm : memWf s.mem = true)
    (hr : ∀ c ∈ s.mem, 0x100000 ≤ c.1 ∧ c.1 < entryBase s.params 900) (hb : s.busy = false) (hc : s.cause = .none)
        (hz : s.code = 0)
    (hq : s.queue.length ≤ s.params.qDepth) (hs : s.snap.length = s.params.nSnap) (hst : s.stepNo = 0)
    (hd : s.drain = false → s.drainClk = 0) (hps : s.pass = Pass.idle) : Inv s where
  params := hp
  memWf := hm
  memRange := hr
  tableWf := by rw [hps]; rfl
  dst := .inl (by rw [State.dstEntry, hps]; decide)
  code := by rw [hc, hz]; rfl
  fault := by rw [hc]; intro h; cases h
  running := by rw [hb]; intro h; cases h
  idlePass := fun _ => hps
  queue := hq
  snap := hs
  step := by rw [hst]; exact .inl (by decide)
  stages := by rw [hps]; intro g hg; cases hg
  tasks := by rw [hps]; intro g hg; cases hg
  parts := by rw [hps]; intro g hg; cases hg
  clocks := hd

theorem witness_EveryStepKeepsTheInvariant :
    Inv { e1 with inbox := [.host ⟨true, .word, 0, 1⟩] } ∧
      ∃ t, step { e1 with inbox := [.host ⟨true, .word, 0, 1⟩] } = .next t ∧ t.stepNo = 0 :=
  ⟨inv_of_idle _ (by decide +kernel) (by decide +kernel) (by decide +kernel) rfl rfl rfl (by decide) (by decide) rfl
    (fun _ => rfl) rfl, ⟨_, (step_event (show paramsOk Params.reference =
        true by decide +kernel) rfl).trans rfl, by decide +kernel⟩⟩

theorem witness_SessionKeepsParamsMarksAndFault :
    (∃ t, step { e1 with inbox := [.drain], fault := true } = .next t) ∧
      nextIsReset { e1 with inbox := [.drain], fault := true } = false :=
  ⟨⟨_, (step_event (show paramsOk Params.reference = true by decide +kernel) rfl).trans rfl⟩, rfl⟩

/-- An estimator run that waits for its first count. -/
def heldState : State :=
  { (e1.accept .estDvfsPartial).suspend ⟨[.est (freshEst e1 .dvfsPartial) 0], [], [.finish .value]⟩ with
    sampleIn := [] }

theorem heldState_inv : Inv heldState where
  params := by decide +kernel
  memWf := by decide +kernel
  memRange := by decide +kernel
  tableWf := by decide +kernel
  dst := .inl (by decide)
  code := rfl
  fault := nofun
  running := fun _ => ⟨rfl, rfl⟩
  idlePass := nofun
  queue := by decide
  snap := by decide
  step := .inl (by decide)
  stages := by
    intro g hg
    obtain rfl : g = .finish .value := by simpa [heldState, State.suspend] using hg
    trivial
  tasks := by
    intro g hg
    obtain rfl : g = .est (freshEst e1 .dvfsPartial) 0 := by simpa [heldState, State.suspend] using hg
    exact ⟨rfl, by decide, nofun⟩
  parts := nofun
  clocks := fun _ => rfl

theorem witness_OnlyTheDestinationIsMutated :
    Inv heldState ∧ heldState.busy = true ∧ Inv e1 ∧ e1.busy = false ∧ ∃ t, exec .estDvfsPartial e1 = .next t :=
  ⟨heldState_inv, rfl,
    inv_of_idle _ (by decide +kernel) (by decide +kernel) (by decide +kernel) rfl rfl rfl (by decide) (by decide) rfl
      (fun _ => rfl) rfl, rfl, _, rfl⟩

theorem witness_LateAnswersGiveTheSameRun :
    { e1 with sampleIn := [37], quantum := some 9 }.busy = false ∧
      ∃ t, exec .estDvfsPartial { e1 with sampleIn := [37], quantum := some 9 } = .next t ∧ t.busy = true :=
  ⟨rfl, _, rfl, by decide +kernel⟩

end

end Sys2Proof.Tests
end

section
/-! Proofs of the statements of the scope: division and the reciprocal (spec 00_scope.md R10, R12). -/

namespace Sys2Proof.Proofs.Arithmetic

open Sys2Proof Sys2Proof.Machine

/-- The quotient has the sign of the product (R10). -/
theorem tdiv_nonneg_of_mul_nonneg {a b : Int} (h : 0 ≤ a * b) : 0 ≤ Int.tdiv a b := by
  rcases mul_nonneg_iff.1 h with ⟨ha, hb⟩ | ⟨ha, hb⟩
  · exact Int.tdiv_nonneg ha hb
  · rw [← Int.neg_tdiv_neg]
    exact Int.tdiv_nonneg (Int.neg_nonneg.2 ha) (Int.neg_nonneg.2 hb)

theorem tdiv_nonpos_of_mul_nonpos {a b : Int} (h : a * b ≤ 0) : Int.tdiv a b ≤ 0 := by
  have hneg : 0 ≤ Int.tdiv a (-b) := tdiv_nonneg_of_mul_nonneg (by rw [Int.mul_neg]; omega)
  rw [Int.tdiv_neg] at hneg
  omega

/-- The remainder has the sign of the dividend (R10). -/
theorem tmod_nonpos_of_nonpos {a : Int} (b : Int) (h : a ≤ 0) : Int.tmod a b ≤ 0 := by
  have hneg : 0 ≤ Int.tmod (-a) b := Int.tmod_nonneg b (Int.neg_nonneg.2 h)
  rw [Int.neg_tmod] at hneg
  omega

theorem tdiv_zero (a : Int) : tdiv a 0 = .error .div0 := if_pos rfl

theorem trem_zero (a : Int) : trem a 0 = .error .div0 := if_pos rfl

theorem trem_ok (a : Int) {b : Int} (h : b ≠ 0) : trem a b = .ok (Int.tmod a b) := by
  rw [trem, if_neg h, Int.tmod_def]

/-- Settles O18: `Int.tdiv` is the quotient and `Int.tmod` the remainder. -/
theorem divisionTruncatesTowardZero : Obligations.DivisionTruncatesTowardZero := by
  intro a b
  refine ⟨?_, fun hb => ⟨Int.tdiv a b, Int.tmod a b, tdiv_ok a hb, trem_ok a hb, Int.natAbs_tdiv a b,
    tdiv_nonneg_of_mul_nonneg, tdiv_nonpos_of_mul_nonpos, Int.tmod_def a b, Int.tmod_nonneg b,
    tmod_nonpos_of_nonpos b⟩⟩
  rintro rfl
  exact ⟨tdiv_zero a, trem_zero a⟩

/-- `0x10624DD3 * 1000` exceeds `2 ^ 38` by 56, too little for a dividend below `2 ^ 32` to show in the quotient. -/
theorem div_1000_eq_mul_reciprocal {n : Nat} (h : n < 2 ^ 32) : n / 1000 = n * 0x10624DD3 / 2 ^ 38 := by
  omega

/-- Settles O17. -/
theorem fmhzKeepsTheReciprocal : Obligations.FmhzKeepsTheReciprocal := fun x =>
  ⟨rfl, div_1000_eq_mul_reciprocal x.isLt⟩

end Sys2Proof.Proofs.Arithmetic
end

section
/-! Proofs of the statements of the scope: which parameters are ill-formed (spec 60_exceptions.md R241). -/

namespace Sys2Proof.Proofs.Parameters

open Sys2Proof Sys2Proof.Machine

/-- What `paramsOk` asks of a parameter record, clause by clause (00_scope.md R7, 60_exceptions.md R241). -/
structure ParamsWf (p : Params) : Prop where
  stride : 0x100 ≤ p.entryStride ∧ p.entryStride % 4 = 0
  queue : 1 ≤ p.qDepth
  snap : 1 ≤ p.nSnap
  tiers : p.rampTHigh ≤ p.rampTMid
  addrs : p.trimAddr.length = 10
  layouts : p.trimLayout.length = 10
  layout : ∀ id < 10, layoutOk id (p.trimLayout.getD id []) = true
  ops : ∀ r ∈ p.stepOps, ∀ o ∈ r.ops, microOpOk p r.label o = true
  swap : ∀ r ∈ p.fspSwapFn, r.out ≤ 1
  capture : ∀ r ∈ p.captureFn, ∀ c ∈ r.out, 0x100 ≤ c.off ∧ c.off + 4 ≤ p.entryStride
  pack : ∀ r ∈ p.prechargeFn, ∀ i ∈ r.out, i.pack.length = 64
  trainKey : ∀ r ∈ p.trainCmdFn, ∀ m, r.key = some m → bitCount r.out.1 = bitCount (m.setWidth 32)
  trainAll : ∀ r ∈ p.trainCmdFn, r.key = none → ∀ m < 256, bitCount r.out.1 = bitCount (BitVec.ofNat 32 m)

theorem paramsOk_iff (p : Params) : paramsOk p = true ↔ ParamsWf p := by
  constructor
  · intro h
    simp only [paramsOk, Bool.and_eq_true, decide_eq_true_eq, List.all_eq_true, List.mem_range, captureOk] at h
    obtain ⟨⟨⟨⟨⟨⟨⟨⟨⟨⟨⟨hstride, hqueue⟩, hsnap⟩, htiers⟩, haddrs⟩, hlayouts⟩, hlayout⟩, hops⟩, hswap⟩, hcapture⟩,
      hpack⟩, htrain⟩ := h
    refine ⟨hstride, hqueue, hsnap, htiers, haddrs, hlayouts, hlayout, hops, hswap, hcapture, hpack, ?_, ?_⟩
    · intro r hr m hm
      simpa [hm] using htrain r hr
    · intro r hr hn
      simpa [hn] using htrain r hr
  · intro h
    simp only [paramsOk, Bool.and_eq_true, decide_eq_true_eq, List.all_eq_true, List.mem_range, captureOk]
    refine ⟨⟨⟨⟨⟨⟨⟨⟨⟨⟨⟨h.stride, h.queue⟩, h.snap⟩, h.tiers⟩, h.addrs⟩, h.layouts⟩, h.layout⟩, h.ops⟩, h.swap⟩,
      h.capture⟩, h.pack⟩, fun r hr => ?_⟩
    cases hk : r.key with
    | none => simpa using h.trainAll r hr hk
    | some m => simpa using h.trainKey r hr m hk

/-- A record is ill-formed when a clause of `ParamsWf` fails. -/
theorem paramsOk_false {p : Params} (h : ¬ ParamsWf p) : paramsOk p = false := by
  rwa [← Bool.not_eq_true, paramsOk_iff]

/-- The steps 22 and later, the lists of step 25 and the phases are the late labels (20_memory.md R79). -/
theorem labelIsLate_iff (l : Label) :
    labelIsLate l = true ↔ (∃ k, 22 ≤ k ∧ l = .step k) ∨ l = .tri25 ∨ l = .dll25 ∨ l = .p1 ∨ l = .p2 ∨ l = .p3 ∨
      l = .p7 := by
  cases l <;> simp [labelIsLate]

theorem mem_bits {f : TrimField} {b : Nat} : b ∈ TrimField.bits f ↔ f.lsb ≤ b ∧ b < f.lsb + f.width := by
  simp only [TrimField.bits, List.mem_map, List.mem_range]
  constructor
  · rintro ⟨i, hi, rfl⟩
    omega
  · rintro ⟨h1, h2⟩
    exact ⟨b - f.lsb, by omega, by omega⟩

theorem layoutOk_iff (id : Nat) (fs : List TrimField) :
    layoutOk id fs = true ↔ (fs.map TrimField.k).Perm (trimIndices id) ∧ (∀ f ∈ fs, f.lsb + f.width ≤ 32) ∧
      (fs.flatMap TrimField.bits).Nodup := by
  simp only [layoutOk, Bool.and_eq_true, decide_eq_true_eq, List.all_eq_true, and_assoc]

/-- No two fields of a well-formed layout share a bit (41_trim.md R147). -/
theorem layoutOk_disjoint {id : Nat} {before mid after : List TrimField} {f g : TrimField} {b : Nat}
    (h : layoutOk id (before ++ f :: mid ++ g :: after) = true) (hf : b ∈ TrimField.bits f) :
    b ∉ TrimField.bits g := by
  obtain ⟨_, _, hbits⟩ := (layoutOk_iff _ _).1 h
  obtain ⟨_, hpair⟩ := List.nodup_flatMap.1 hbits
  have hfg := (List.pairwise_append.1 hpair).2.2 f (by simp) g (by simp)
  exact fun hg => hfg hf hg

theorem nodup_trimIndices (id : Nat) : (trimIndices id).Nodup := by
  unfold trimIndices
  split
  · exact List.nodup_range
  · simp

/-- A well-formed layout has one field for each stored value of the identity (41_trim.md R147). -/
theorem layoutOk_count {id : Nat} {fs : List TrimField} (h : layoutOk id fs = true) (k : Nat) :
    (fs.filter fun f => f.k == k).length = if k ∈ trimIndices id then 1 else 0 := by
  obtain ⟨hperm, _, _⟩ := (layoutOk_iff _ _).1 h
  calc (fs.filter fun f => f.k == k).length
      = (fs.map TrimField.k).count k := by
        rw [← List.countP_eq_length_filter, List.count_eq_countP, List.countP_map]; rfl
    _ = (trimIndices id).count k := hperm.count_eq k
    _ = if k ∈ trimIndices id then 1 else 0 := (nodup_trimIndices id).count

/-- A session with ill-formed parameters has no step (log entry 24). -/
theorem step_illFormed {s : State} (h : paramsOk s.params = false) : step s = .refused .illFormedParams := by
  simp only [step, stepWith, h]
  cases s.inbox <;> rfl

/-- The reset input does not begin an ill-formed session (log entry 24). -/
theorem step_reset_illFormed {s : State} {p : Params} {es : List Event} (hs : paramsOk s.params = true)
    (hp : paramsOk p = false) (hi : s.inbox = .reset p :: es) : step s = .refused .illFormedParams := by
  rw [step_event hs hi]
  simp [handleEvent, hp]

/-- Settles O15: each clause contradicts one field of `ParamsWf`. -/
theorem illFormedSessionIsRefused : Obligations.IllFormedSessionIsRefused := by
  intro s es p
  refine ⟨step_illFormed, step_reset_illFormed, ?enq, ?slot, ?scalars, ?overlap, ?width, ?count, ?swap, ?capture,
    ?train⟩
  case enq =>
    rintro r hr ⟨a, v, d, ho⟩ hl
    refine paramsOk_false fun h => ?_
    have hok := h.ops r hr _ ho
    simp [microOpOk, (labelIsLate_iff r.label).2 hl] at hok
  case slot =>
    intro r hr slot sp a ho hs
    refine paramsOk_false fun h => ?_
    have hlt : slot < p.nSnap := by
      rcases ho with ho | ho <;> simpa [microOpOk] using h.ops r hr _ ho
    omega
  case scalars =>
    intro hbad
    refine paramsOk_false fun h => ?_
    have hstride := h.stride
    have hqueue := h.queue
    have hsnap := h.snap
    have htiers := h.tiers
    omega
  case overlap =>
    rintro id hid f g before mid after hfs ⟨b, hf1, hf2, hg1, hg2⟩
    refine paramsOk_false fun h => ?_
    have hl := h.layout id hid
    rw [hfs] at hl
    exact layoutOk_disjoint hl (mem_bits.2 ⟨hf1, hf2⟩) (mem_bits.2 ⟨hg1, hg2⟩)
  case width =>
    intro id hid f hf hw
    refine paramsOk_false fun h => ?_
    obtain ⟨_, hwidth, _⟩ := (layoutOk_iff _ _).1 (h.layout id hid)
    have := hwidth f hf
    omega
  case count =>
    intro id hid k hk
    exact paramsOk_false fun h => hk (layoutOk_count (h.layout id hid) k)
  case swap =>
    intro r hr ho
    exact paramsOk_false fun h => absurd (h.swap r hr) (by omega)
  case capture =>
    intro r hr c hc hbad
    refine paramsOk_false fun h => ?_
    have := h.capture r hr c hc
    omega
  case train =>
    intro r hr m hm hne
    exact paramsOk_false fun h => hne (h.trainKey r hr m hm)

end Sys2Proof.Proofs.Parameters
end

section
/-! Proofs of the statements of the scope: what a session keeps (spec 00_scope.md R7, 60_exceptions.md R230). -/

namespace Sys2Proof.Proofs.Session

open Sys2Proof Sys2Proof.Machine

/-- From `s` to `t` the session has gone on: its parameters and number, `FAULT` and the written marks are kept. -/
def SessionKept (s t : State) : Prop :=
  t.params = s.params ∧ t.session = s.session ∧ (s.fault = true → t.fault = true) ∧
    ∀ b, (memByte s.mem b).isSome = true → (memByte t.mem b).isSome = true

theorem SessionKept.refl (s : State) : SessionKept s s := ⟨rfl, rfl, id, fun _ => id⟩

theorem isSome_memByte_memSet {m : List Host.Cell} {b : Nat} (a : Nat) (v : Byte)
    (h : (memByte m b).isSome = true) : (memByte (memSet m a v) b).isSome = true := by
  rw [memByte_memSet]
  split
  · rfl
  · exact h

theorem isSome_memByte_memSetWord {m : List Host.Cell} {b : Nat} (a : Nat) (w : Word)
    (h : (memByte m b).isSome = true) : (memByte (memSetWord m a w) b).isSome = true :=
  isSome_memByte_memSet _ _ (isSome_memByte_memSet _ _ (isSome_memByte_memSet _ _ (isSome_memByte_memSet _ _ h)))

/-- A store takes no byte's written mark away (10_state.md R36). -/
theorem isSome_memByte_memSetWords {m : List Host.Cell} {b : Nat} (ws : List (Nat × Word))
    (h : (memByte m b).isSome = true) : (memByte (memSetWords m ws) b).isSome = true := by
  induction ws generalizing m with
  | nil => exact h
  | cons p ws ih => exact ih (isSome_memByte_memSetWord _ _ h)

theorem SessionKept.setFields {s u : State} (h : SessionKept s u) (i : Nat) (ws : List (Nat × Word)) :
    SessionKept s (u.setFields i ws) := by
  obtain ⟨hparams, hsession, hfault, hmarks⟩ := h
  exact ⟨hparams, hsession, hfault, fun b hb => isSome_memByte_memSetWords _ (hmarks b hb)⟩

/-- `FAULT` is sticky at a command's end (60_exceptions.md R230). -/
theorem SessionKept.endFlags {s u : State} (h : SessionKept s u) (c : Cause) : SessionKept s (u.endFlags c) := by
  obtain ⟨hparams, hsession, hfault, hmarks⟩ := h
  exact ⟨hparams, hsession, fun hs => by simp [hfault hs], hmarks⟩

/-- Every elementary update of a running command keeps the session. -/
theorem sessionKept_ops (s : State) :
    OpsKeep (SessionKept s) (SessionKept s) (fun _ => True) (fun _ => True) (fun _ => True) where
  tick _ h := h
  reg _ _ _ h := h
  smp _ _ _ h := h
  tim _ _ _ _ h := h
  pto _ h := h
  write _ _ _ _ h := h
  enqueue _ _ _ _ _ h he := by obtain ⟨_, _, rfl⟩ := enqueue_cases he; exact h
  save _ _ _ h := h
  value _ _ h := h
  rampWait _ b _ h := by cases b <;> exact h
  commit _ _ _ h := h.setFields _ _
  clearAcc _ h := h.setFields _ _
  curFromTrn _ _ h he := by obtain ⟨_, rfl, _⟩ := curFromTrn_cases he; exact h.setFields _ _
  compareDrift _ _ h he := by obtain ⟨_, _, _, _, _, _, rfl⟩ := compareDrift_cases he; exact h
  fspWr _ _ h := h
  fspOp _ h := h
  clockSource _ _ h he := by obtain ⟨_, _, rfl⟩ := clockSource_cases he; exact h
  capture _ _ _ _ h := h.setFields _ _
  finish _ _ h := h.endFlags _
  fresh _ _ _ := trivial
  next _ _ _ _ _ _ _ _ := trivial
  items _ _ _ _ := trivial
  enter g _ _ h := by cases g <;> exact h

/-- The state a run leaves: an abort and a suspension keep the session as well. -/
theorem SessionKept.run_state {s : State} {r : Run} {T : Task → Prop} {U : Part → Prop} {G : Stage → Prop}
    (h : r.All (SessionKept s) (SessionKept s) T U G) : SessionKept s r.state := by
  cases r with
  | done u => exact h
  | paused c u => exact h.1
  | ended u => exact h
  | abort c u => exact SessionKept.endFlags h c

theorem SessionKept.resume {s u : State} (h : SessionKept s u) : SessionKept s u.resume := by
  unfold State.resume
  split
  · exact .run_state (runCont_all (sessionKept_ops s).engine _ _ (fun t _ => taskOk_true t)
      (fun p _ => partOk_true p) (fun _ _ => trivial) h)
  · exact h

theorem SessionKept.launch {s u : State} (h : SessionKept s u) (i : Instr) (gs : List Stage) :
    SessionKept s (launch i gs u) := by
  unfold Machine.launch
  split
  · exact h
  · exact .run_state (runStages_all (sessionKept_ops s).engine _ _ (fun _ _ => trivial) h)

theorem SessionKept.illegalCommand {s u : State} (h : SessionKept s u) : SessionKept s u.illegalCommand := by
  unfold State.illegalCommand
  split <;> exact h

theorem SessionKept.exec {s u t : State} {i : Instr} (h : SessionKept s u) (he : exec i u = .next t) :
    SessionKept s t := by
  cases hw : i.wellFormed with
  | true => rw [exec_eq i hw] at he; cases he; exact h.launch i _
  | false => rw [exec_ill i hw] at he; cases he; exact h.illegalCommand

theorem SessionKept.writeCsr {s u : State} (h : SessionKept s u) (c : Csr) (w : Word) :
    SessionKept s (u.writeCsr c w) := by
  cases c with
  | cmd | status | result | step | fsp | id => exact h
  | cfg | srcIdx | dstIdx | entryCount => simp only [State.writeCsr]; split <;> exact h

theorem SessionKept.writeEntry {s u : State} (h : SessionKept s u) (i o : Nat) (w : Word) :
    SessionKept s (u.writeEntry i o w) := by
  unfold State.writeEntry
  split
  · exact h
  · exact h.setFields _ _

theorem SessionKept.drainStep {s u : State} (h : SessionKept s u) : SessionKept s u.drainStep := by
  unfold State.drainStep
  split
  · split
    · exact h
    · split <;> exact h
  · exact h

theorem SessionKept.passClocks {s u : State} (h : SessionKept s u) (n : Nat) : SessionKept s (u.passClocks n) := by
  unfold State.passClocks
  split <;> exact h

/-- Every step but the reset input keeps the session. -/
theorem SessionKept.stepCase {s u t : State} (h : SessionKept s u) (hc : StepCase u t) : SessionKept s t := by
  cases hc with
  | resume q => exact SessionKept.resume (u := { u with quantum := q }) h
  | exec i he => exact h.exec he
  | illegal => exact h.illegalCommand
  | csr c w => exact h.writeCsr c w
  | entry w => exact h.writeEntry _ _ w
  | same | reply | accerr | accerrReply | reg | smp | tim => exact h
  | drain => exact h.drainStep
  | clocks n => exact h.passClocks n

/-- Settles O58: by the cases of a step, the engine's by the elementary updates. -/
theorem sessionKeepsParamsMarksAndFault : Obligations.SessionKeepsParamsMarksAndFault := by
  intro s t h hr
  rcases step_case h with hc | ⟨p, es, hi, _⟩
  · exact SessionKept.stepCase (u := s.popInbox) (SessionKept.refl s) hc
  · simp [nextIsReset, hi] at hr

end Sys2Proof.Proofs.Session
end

section
/-! Proofs of the statements of the scope: `trim` with a value out of range (spec 00_scope.md R9, 41_trim.md R151,
R152). -/

namespace Sys2Proof.Proofs.TrimOverflow

open Sys2Proof Sys2Proof.Machine

/-- The four lanes of a rank group. -/
theorem mem_lanes_iff {i : Nat} : i ∈ [0, 1, 2, 3] ↔ i < 4 := by
  simp only [List.mem_cons, List.not_mem_nil, or_false]
  omega

/-- Lane numbers are also the numbers of the stored values of a rank. -/
theorem mem_allLanes_iff {k : Nat} : k ∈ allLanes ↔ k < 8 := by
  simp only [allLanes, List.mem_cons, List.not_mem_nil, or_false]
  omega

/-- The fields of an entry that the trim compensator reads for a rank have their marks (41_trim.md R149). -/
structure TrimMarked (s : State) (dst r : Nat) : Prop where
  freq : s.marked dst offFreq = true
  margin : s.marked dst offMargin = true
  cur : ∀ i < 4, s.marked dst (offCur (groupLane r i)) = true
  trn : ∀ i < 4, s.marked dst (offTrn (groupLane r i)) = true
  val : ∀ k < 8, s.marked dst (offTrimVal r k) = true

/-- The checks of `trim` make sure of these marks. -/
theorem trimMarked_of_checkCause {s : State} {id : BitVec 8} (hi : s.pass.cmd = .trim id)
    (h : s.checkCause = .none) : TrimMarked s s.dstEntry (trimRank id.toNat) := by
  obtain ⟨_, _, hall⟩ := (checkCause_none_iff s).1 h
  have hreads : s.readSet = trimReads id.toNat s.dstEntry := by simp only [State.readSet, hi]
  have hmark : ∀ off, (s.dstEntry, off) ∈ trimReads id.toNat s.dstEntry → s.marked s.dstEntry off = true :=
    fun off ho => hall (s.dstEntry, off) (hreads ▸ ho)
  have hlane : ∀ i < 4, ∀ off ∈ [offCur (groupLane (trimRank id.toNat) i), offTrn (groupLane (trimRank id.toNat) i)],
      s.marked s.dstEntry off = true := fun i hi off ho =>
    hmark off (List.mem_append_left _ (List.mem_append_right _ (List.mem_flatMap.2
      ⟨i, mem_lanes_iff.2 hi, by simpa using ho⟩)))
  exact {
    freq := hmark _ (by simp [trimReads])
    margin := hmark _ (by simp [trimReads])
    cur := fun i hi => hlane i hi _ (by simp)
    trn := fun i hi => hlane i hi _ (by simp)
    val := fun k hk => hmark _ (List.mem_append_right _ (List.mem_map_of_mem (mem_allLanes_iff.2 hk))) }

/-- Computations that raise one and the same cause where `P` fails: if it fails somewhere, so does the list. -/
theorem mapM_error {α β : Type} {f : α → Except Cause β} {g : α → β} {P : α → Prop} {c : Cause} {l : List α}
    (hok : ∀ x ∈ l, P x → f x = .ok (g x)) (herr : ∀ x ∈ l, ¬ P x → f x = .error c) (h : ∃ x ∈ l, ¬ P x) :
    l.mapM f = .error c := by
  induction l with
  | nil => obtain ⟨x, hx, _⟩ := h; cases hx
  | cons a l ih =>
    rw [List.mapM_cons]
    by_cases ha : P a
    · have htail : l.mapM f = .error c := by
        refine ih (fun x hx => hok x (List.mem_cons_of_mem _ hx)) (fun x hx => herr x (List.mem_cons_of_mem _ hx)) ?_
        obtain ⟨x, hx, hP⟩ := h
        rcases List.mem_cons.1 hx with rfl | hx
        · exact absurd ha hP
        · exact ⟨x, hx, hP⟩
      rw [hok a List.mem_cons_self ha, bind_ok, htail, bind_error]
    · rw [herr a List.mem_cons_self ha, bind_error]

/-- The intermediates of the tap of a lane are in range (R142). -/
def TapInRange (s : State) (dst r i : Nat) : Prop :=
  InS32 (curAt s dst (groupLane r i) - trnAt s dst (groupLane r i)) ∧
    InS32 (128 * (curAt s dst (groupLane r i) - trnAt s dst (groupLane r i))) ∧
    InS32 (128 * (curAt s dst (groupLane r i) - trnAt s dst (groupLane r i)) * ((freqAt s dst).toNat / 1000 : Nat))

/-- The magnitude of a stored value's tap and the value adjusted are in range (R143, R144). -/
def ValueInRange (s : State) (dst r k : Nat) : Prop :=
  InS32 ((tapAt s dst r (curAt s dst) (k / 2)).natAbs : Int) ∧ InS32 (trimmedAt s dst r (curAt s dst) k)

/-- Each lane's tap adjusts two stored values: what is in range for the four lanes and the eight values is so for the
lanes and then for the values. -/
theorem trimsInRange_iff (s : State) (dst r : Nat) :
    TrimsInRange s dst r (curAt s dst) ↔ (∀ i < 4, TapInRange s dst r i) ∧ ∀ k < 8, ValueInRange s dst r k := by
  constructor
  · rintro ⟨hlane, hval⟩
    refine ⟨fun i hi => ?_, fun k hk => ?_⟩
    · obtain ⟨h1, h2, h3, _⟩ := hlane i hi
      exact ⟨h1, h2, h3⟩
    · obtain ⟨_, _, _, habs⟩ := hlane (k / 2) (by omega)
      exact ⟨habs, hval k hk⟩
  · rintro ⟨hlane, hval⟩
    refine ⟨fun i hi => ?_, fun k hk => (hval k hk).2⟩
    obtain ⟨h1, h2, h3⟩ := hlane i hi
    have habs := (hval (2 * i) (by omega)).1
    rw [Nat.mul_div_cancel_left i (by decide)] at habs
    exact ⟨h1, h2, h3, habs⟩

/-- The first intermediate of a tap out of range raises `OVERFLOW` (R152). -/
theorem tapOf_error {cur trn : Int} {f : Nat}
    (h : ¬ (InS32 (cur - trn) ∧ InS32 (128 * (cur - trn)) ∧ InS32 (128 * (cur - trn) * f))) :
    tapOf cur trn f = .error .overflow := by
  unfold tapOf shl7
  by_cases h1 : InS32 (cur - trn)
  · rw [chk32_ok h1, bind_ok]
    by_cases h2 : InS32 (128 * (cur - trn))
    · rw [chk32_ok h2, bind_ok, chk32_error fun h3 => h ⟨h1, h2, h3⟩, bind_error]
    · rw [chk32_error h2, bind_error]
  · rw [chk32_error h1, bind_error]

/-- A tap's magnitude or an adjusted value out of range raises `OVERFLOW` (R152). -/
theorem adjusted_error {stored tap : Int} {margin : Nat}
    (h : ¬ (InS32 (tap.natAbs : Int) ∧ InS32 (stored + if (margin : Int) < (tap.natAbs : Int) then tap else 0))) :
    adjusted stored tap margin = .error .overflow := by
  unfold adjusted adjustment
  by_cases h1 : InS32 (tap.natAbs : Int)
  · rw [chkAbs_ok h1, bind_ok, bind_ok]
    exact chk32_error fun h2 => h ⟨h1, h2⟩
  · rw [show chkAbs tap = .error .overflow from chk32_error h1, bind_error, bind_error]

section

variable {s : State} {dst r : Nat}

/-- A lane's tap is computed from its two delays and the entry's frequency (R141, R142). -/
theorem laneTap_eq (hm : TrimMarked s dst r) {i : Nat} (hi : i < 4) :
    s.laneTap dst r i =
      tapOf (curAt s dst (groupLane r i)) (trnAt s dst (groupLane r i)) (fmhz (freqAt s dst)) := by
  unfold State.laneTap
  rw [field_ok hm.freq, bind_ok, fieldS_ok (hm.cur i hi), bind_ok, fieldS_ok (hm.trn i hi), bind_ok]
  rfl

theorem laneTap_ok (hm : TrimMarked s dst r) {i : Nat} (hi : i < 4) (h : TapInRange s dst r i) :
    s.laneTap dst r i = .ok (tapAt s dst r (curAt s dst) i) := by
  obtain ⟨h1, h2, h3⟩ := h
  rw [laneTap_eq hm hi]
  exact tapOf_ok h1 h2 h3

theorem laneTap_error (hm : TrimMarked s dst r) {i : Nat} (hi : i < 4) (h : ¬ TapInRange s dst r i) :
    s.laneTap dst r i = .error .overflow := by
  rw [laneTap_eq hm hi]
  exact tapOf_error h

theorem getD_map_lanes (g : Nat → Int) {i : Nat} (h : i < 4) : ([0, 1, 2, 3].map g).getD i 0 = g i := by
  match i, h with
  | 0, _ => rfl
  | 1, _ => rfl
  | 2, _ => rfl
  | 3, _ => rfl

/-- All eight values of the rank are computed and checked, whichever of them an identity packs (R152 (g)). -/
theorem adjustedValues_error (hm : TrimMarked s dst r) (h : ¬ TrimsInRange s dst r (curAt s dst)) :
    s.adjustedValues dst r = .error .overflow := by
  rw [trimsInRange_iff] at h
  unfold State.adjustedValues
  by_cases htaps : ∀ i < 4, TapInRange s dst r i
  · have hvals : ∃ k ∈ allLanes, ¬ ValueInRange s dst r k := by
      by_contra hall
      push Not at hall
      exact h ⟨htaps, fun k hk => hall k (mem_allLanes_iff.2 hk)⟩
    have hlanes : ∀ i ∈ [0, 1, 2, 3], s.laneTap dst r i = .ok (tapAt s dst r (curAt s dst) i) := fun i hi =>
      laneTap_ok hm (mem_lanes_iff.1 hi) (htaps i (mem_lanes_iff.1 hi))
    rw [mapM_ok hlanes, bind_ok, fieldU_ok hm.margin, bind_ok]
    refine mapM_error (g := fun k => trimmedAt s dst r (curAt s dst) k) (P := ValueInRange s dst r) ?_ ?_ hvals
    all_goals
      intro k hk hP
      have hk8 := mem_allLanes_iff.1 hk
      rw [fieldS_ok (hm.val k hk8), bind_ok, getD_map_lanes _ (show k / 2 < 4 by omega)]
    · exact adjusted_ok hP.1 hP.2
    · exact adjusted_error hP
  · push Not at htaps
    obtain ⟨i, hi, hbad⟩ := htaps
    rw [mapM_error (fun i hi => laneTap_ok hm (mem_lanes_iff.1 hi)) (fun i hi => laneTap_error hm (mem_lanes_iff.1 hi))
      ⟨i, mem_lanes_iff.2 hi, hbad⟩, bind_error]

theorem trimValue_error {id : Nat} (hm : TrimMarked s dst (trimRank id))
    (h : ¬ TrimsInRange s dst (trimRank id) (curAt s dst)) : s.trimValue dst id = .error .overflow := by
  unfold State.trimValue
  rw [adjustedValues_error hm h, bind_error]

end

/-- Settles O36: the computation of the packed value raises the cause, and nothing has been done before it. -/
theorem trimOutOfRangeOverflows : Obligations.TrimOutOfRangeOverflows := by
  intro id s hid ⟨hbusy, hquantum⟩ hpass hrange
  have hvalue : (s.accept (.trim id)).trimValue (s.accept (.trim id)).dstEntry id.toNat = .error .overflow :=
    trimValue_error (trimMarked_of_checkCause rfl hpass) hrange
  have htask : runTask (.trim id.toNat) (s.accept (.trim id)) = .abort .overflow (s.accept (.trim id)) := by
    simp only [runTask, hvalue]
  have hrun : runStages unitStages (s.accept (.trim id)) = .abort .overflow (s.accept (.trim id)) :=
    runStages_unit_abort (i := .trim id) rfl rfl hquantum hpass rfl (runTasks_abort hquantum htask)
  rw [exec_eq (.trim id) (decide_eq_true hid), launch_idle hbusy, show stagesOf (.trim id) = unitStages from rfl, hrun,
    Run.state_abort, abort_accept (by decide)]
  simp [endedAbort, cmdIsSwitch]

end Sys2Proof.Proofs.TrimOverflow
end

section
/-! Proofs of the statements of the state: what a command may store to, and that it stores to nothing else (spec
10_state.md R39). -/

namespace Sys2Proof.Proofs.Destination

open Sys2Proof Sys2Proof.Machine

/-- An entry offset whose word a command may store: it lies in `CUR`, `TRN`, `ACC` or the opaque area (R39). -/
def Storable (p : Params) (o : Nat) : Prop :=
  0x020 ≤ o ∧ o + 4 ≤ p.entryStride ∧ (o + 4 ≤ 0x080 ∨ 0x100 ≤ o)

/-- Every word of a list is one a command may store. -/
def AllStorable (p : Params) (ws : List (Nat × Word)) : Prop := ∀ q ∈ ws, Storable p q.1

/-- An estimator run stores to entry `d` and has the eight lanes only. -/
def RunFits (d : Nat) (w : EstWork) : Prop := w.dst = d ∧ (∀ l ∈ w.todo, l < 8) ∧ ∀ r ∈ w.done, r.lane < 8

theorem lt_of_mem_allLanes {l : Nat} (h : l ∈ allLanes) : l < 8 := by
  simp only [allLanes, List.mem_cons, List.not_mem_nil, or_false] at h
  omega

section

variable {p : Params} (hp : paramsOk p = true)
include hp

theorem storable_offCur {l : Nat} (hl : l < 8) : Storable p (offCur l) := by
  have := (paramsOk_stride hp).1
  unfold Storable offCur
  omega

theorem storable_offTrn {l : Nat} (hl : l < 8) : Storable p (offTrn l) := by
  have := (paramsOk_stride hp).1
  unfold Storable offTrn
  omega

theorem storable_offAcc {l : Nat} (hl : l < 8) : Storable p (offAcc l) := by
  have := (paramsOk_stride hp).1
  unfold Storable offAcc
  omega

/-- An estimator run commits `ACC`, `CUR` and, Training-final, `TRN` (40_estimator.md R116, R131). -/
theorem estCommit_stores {w : EstWork} (hw : RunFits w.dst w) (s : State) :
    ∃ ws v, AllStorable p ws ∧
      estCommit w s = { s.setFields w.dst ws with pass := { s.pass with value := v } } := by
  obtain ⟨_, _, hdone⟩ := hw
  refine ⟨_, _, fun q hq => ?_, rfl⟩
  rcases List.mem_append.1 hq with hq | hq
  · obtain ⟨r, hr, ho | ho⟩ := commitWords_offsets _ q hq
    · exact ho ▸ storable_offAcc hp (hdone r hr)
    · exact ho ▸ storable_offCur hp (hdone r hr)
  · unfold trainWords at hq
    split at hq
    case h_1 =>
      obtain ⟨l, hl, rfl⟩ := List.mem_map.1 hq
      exact storable_offTrn hp (lt_of_mem_allLanes hl)
    all_goals cases hq

theorem clearAcc_stores (s : State) : ∃ ws, AllStorable p ws ∧ s.clearAcc = s.setFields s.dstEntry ws := by
  refine ⟨_, fun q hq => ?_, rfl⟩
  obtain ⟨l, hl, rfl⟩ := List.mem_map.1 hq
  exact storable_offAcc hp (lt_of_mem_allLanes hl)

theorem curFromTrn_stores {s t : State} (h : s.curFromTrn = .ok t) :
    ∃ ws, AllStorable p ws ∧ t = s.setFields s.dstEntry ws := by
  obtain ⟨ws, rfl, hws⟩ := curFromTrn_cases h
  refine ⟨ws, fun q hq => ?_, rfl⟩
  obtain ⟨l, hl, ho⟩ := hws q hq
  exact ho ▸ storable_offCur hp hl

end

theorem captureItem_stores {p : Params} {i : CapItem} (hi : captureOk p i = true) (s : State) (v : Word) :
    ∃ ws, AllStorable p ws ∧ s.captureItem i v = s.setFields s.dstEntry ws := by
  refine ⟨_, fun q hq => ?_, rfl⟩
  obtain rfl := List.mem_singleton.1 hq
  have := of_decide_eq_true hi
  exact ⟨by omega, by omega, by omega⟩

/-- A fresh run is of the latched destination entry and the active lanes (40_estimator.md R113). -/
theorem runFits_freshEst (s : State) (m : EstMode) : RunFits s.dstEntry (freshEst s m) :=
  ⟨rfl, fun _ hl => lt_of_mem_allLanes (List.mem_of_mem_filter hl), nofun⟩

/-- A lane done moves from the lanes to do to those done. -/
theorem RunFits.next {d : Nat} {w : EstWork} {l : Nat} {ls : List Nat} {r : LaneResult} (h : RunFits d w)
    (ht : w.todo = l :: ls) (hr : r.lane = l) (x : Int) :
    RunFits d { w with todo := ls, done := w.done ++ [r], maxDelta := x } := by
  obtain ⟨hdst, htodo, hdone⟩ := h
  rw [ht] at htodo
  refine ⟨hdst, fun k hk => htodo k (List.mem_cons_of_mem _ hk), fun q hq => ?_⟩
  rcases List.mem_append.1 hq with hq | hq
  · exact hdone q hq
  · rw [List.mem_singleton.1 hq, hr]
    exact htodo l List.mem_cons_self

/-- What the invariant asks of an operation left waiting, in the terms of the engine's laws. -/
theorem taskFits_iff (s : State) (t : Task) :
    TaskFits s t ↔ TaskOk (RunFits s.dstEntry) (fun i => captureOk s.params i = true) t := by
  cases t <;> exact Iff.rfl

theorem partOk_of_taskFits {s : State} {q : Part} (h : ∀ t, q = .one t → TaskFits s t) :
    PartOk (RunFits s.dstEntry) (fun i => captureOk s.params i = true) q := by
  cases q with
  | one t => exact (taskFits_iff s t).1 (h t rfl)
  | _ => trivial

/-- In `m'` every byte reads as in `m` but those of the words a command may store in entry `d`. -/
def Untouched (p : Params) (d : Nat) (m m' : List Host.Cell) : Prop :=
  ∀ b, (∀ o, 0x020 ≤ o → o < p.entryStride → (o < 0x080 ∨ 0x100 ≤ o) → b ≠ entryBase p d + o) →
    memByte m' b = memByte m b

theorem Untouched.memSetWords {p : Params} {d : Nat} {m m' : List Host.Cell} {ws : List (Nat × Word)}
    (h : Untouched p d m m') (hw : AllStorable p ws) :
    Untouched p d m (memSetWords m' (ws.map fun q => (entryBase p d + q.1, q.2))) := by
  intro b hb
  rw [memByte_memSetWords_other, h b hb]
  intro q hq hin
  obtain ⟨r, hr, rfl⟩ := List.mem_map.1 hq
  obtain ⟨hlow, hhigh, harea⟩ := hw r hr
  simp only [InWord] at hin
  exact hb (b - entryBase p d) (by omega) (by omega) (by omega) (by omega)

/-- A command of the session `p` with destination entry `d` runs, and has left the table `m` as it was elsewhere. -/
structure StoresTo (p : Params) (d : Nat) (m : List Host.Cell) (s : State) : Prop where
  params : s.params = p
  dst : s.dstEntry = d
  mem : Untouched p d m s.mem

section

variable {p : Params} {d : Nat} {m : List Host.Cell}

theorem StoresTo.setFields {s : State} {ws : List (Nat × Word)} (h : StoresTo p d m s) (hw : AllStorable p ws) :
    StoresTo p d m (s.setFields d ws) where
  params := h.params
  dst := h.dst
  mem := by
    rw [State.setFields_mem, h.params]
    exact h.mem.memSetWords hw

/-- Where `STEP`, the flags, the ports and the rest of `PASS` change, nothing is stored. -/
theorem StoresTo.of_eq {s t : State} (h : StoresTo p d m s) (hp : t.params = s.params) (hm : t.mem = s.mem)
    (hd : t.dstEntry = s.dstEntry) : StoresTo p d m t where
  params := hp.trans h.params
  dst := hd.trans h.dst
  mem := hm ▸ h.mem

/-- Every elementary update stores to the destination entry's own words, if at all. -/
theorem storesTo_ops (hp : paramsOk p = true) :
    OpsKeep (StoresTo p d m) (fun s => Untouched p d m s.mem) (RunFits d) (fun i => captureOk p i = true)
      (fun _ => True) where
  tick _ h := h.of_eq rfl rfl rfl
  reg _ _ _ h := h.of_eq rfl rfl rfl
  smp _ _ _ h := h.of_eq rfl rfl rfl
  tim _ _ _ _ h := h.of_eq rfl rfl rfl
  pto _ h := h.of_eq rfl rfl rfl
  write _ _ _ _ h := h.of_eq rfl rfl rfl
  enqueue _ _ _ _ _ h he := by obtain ⟨_, _, rfl⟩ := enqueue_cases he; exact h.of_eq rfl rfl rfl
  save _ _ _ h := h.of_eq rfl rfl rfl
  value _ _ h := h.of_eq rfl rfl rfl
  rampWait _ b _ h := by cases b <;> exact h.of_eq rfl rfl rfl
  commit s w hw h := by
    obtain ⟨ws, v, hws, he⟩ := estCommit_stores hp (hw.1 ▸ hw) s
    rw [he, hw.1]
    exact (h.setFields hws).of_eq rfl rfl rfl
  clearAcc s h := by
    obtain ⟨ws, hws, he⟩ := clearAcc_stores hp s
    rw [he, h.dst]
    exact h.setFields hws
  curFromTrn s t h he := by
    obtain ⟨ws, hws, rfl⟩ := curFromTrn_stores hp he
    rw [h.dst]
    exact h.setFields hws
  compareDrift _ _ h he := by
    obtain ⟨_, _, _, _, _, _, rfl⟩ := compareDrift_cases he
    exact h.of_eq rfl rfl rfl
  fspWr _ _ h := h.of_eq rfl rfl rfl
  fspOp _ h := h.of_eq rfl rfl rfl
  clockSource _ _ h he := by obtain ⟨_, _, rfl⟩ := clockSource_cases he; exact h.of_eq rfl rfl rfl
  capture s i v hi h := by
    obtain ⟨ws, hws, he⟩ := captureItem_stores hi s v
    rw [he, h.dst]
    exact h.setFields hws
  finish _ _ h := h.mem
  fresh s m h := h.dst ▸ runFits_freshEst s m
  next _ _ _ _ x h ht hr := h.next ht hr x
  items s h := by rw [h.params]; exact captureFn_ok hp _
  enter g _ _ h := by cases g <;> exact h.of_eq rfl rfl rfl

theorem untouched_run_state {r : Run} {T : Task → Prop} {U : Part → Prop} {G : Stage → Prop}
    (h : r.All (StoresTo p d m) (fun s => Untouched p d m s.mem) T U G) : Untouched p d m r.state.mem := by
  cases r with
  | done u => exact h.mem
  | paused c u => exact h.1.mem
  | ended u => exact h
  | abort c u => exact h.mem

end

/-- A command accepted stores to the entry `DST_IDX` names. -/
theorem untouched_exec {i : Instr} {s t : State} (hp : paramsOk s.params = true) (hb : s.busy = false)
    (h : exec i s = .next t) : Untouched s.params (dstOf s) s.mem t.mem := by
  cases hw : i.wellFormed with
  | true =>
    rw [exec_eq i hw, launch_idle hb] at h
    cases h
    exact untouched_run_state
      (runStages_all (storesTo_ops hp).engine (stagesOf i) (s.accept i) (fun _ _ => trivial)
        ⟨rfl, rfl, fun _ _ => rfl⟩)
  | false =>
    rw [exec_ill i hw] at h
    cases h
    intro b _
    simp [State.illegalCommand, hb]

/-- A command that goes on stores to its own destination entry. -/
theorem untouched_resume {s : State} (hs : Inv s) : Untouched s.params s.dstEntry s.mem s.resume.mem := by
  unfold State.resume
  split
  · exact untouched_run_state (runCont_all (storesTo_ops hs.params).engine s.pass.cont s
      (fun t ht => (taskFits_iff s t).1 (hs.tasks t ht))
      (fun q hq => partOk_of_taskFits fun t ht => hs.parts t (ht ▸ hq)) (fun _ _ => trivial)
      ⟨rfl, rfl, fun _ _ => rfl⟩)
  · exact fun _ _ => rfl

/-- Settles O59: every elementary update of a running command stores within the words the statement leaves open. -/
theorem onlyTheDestinationIsMutated : Obligations.OnlyTheDestinationIsMutated := by
  intro i s t hs
  refine ⟨fun ⟨h, hb⟩ => untouched_exec hs.params hb h, ?_⟩
  rintro _ rfl
  exact untouched_resume hs

end Sys2Proof.Proofs.Destination
end

section
/-! Proofs of the statements of the state: every step keeps the invariant (spec 10_state.md R31, R41 to R43,
60_exceptions.md R226 to R230). -/

namespace Sys2Proof.Proofs.Invariant

open Sys2Proof Sys2Proof.Machine Sys2Proof.Proofs.Destination

/-- Only the entry table, entries 0 to 899, is memory (20_memory.md R56, R66). -/
def InTable (p : Params) (m : List Host.Cell) : Prop := ∀ c ∈ m, 0x100000 ≤ c.1 ∧ c.1 < entryBase p 900

/-- What the invariant asks of the state whether or not a command runs. Of a destination entry beyond the 900, which the
checks refuse, nothing is asked of the memory: that nothing is stored there then is `Barred`'s. -/
structure Sound (p : Params) (d : Nat) (s : State) : Prop where
  params : s.params = p
  memWf : Machine.memWf s.mem = true
  inTable : d < 900 → InTable p s.mem
  queue : s.queue.length ≤ p.qDepth
  snap : s.snap.length = p.nSnap
  step : StepLegal s.stepNo
  clocks : s.drain = false → s.drainClk = 0

/-- A command with destination entry `d` runs. -/
structure Running (p : Params) (d : Nat) (s : State) : Prop extends Sound p d s where
  dst : s.dstEntry = d
  busy : s.busy = true
  done : s.done = false
  code : s.code = 0
  cause : s.cause = .none
  tableWf : Machine.memWf s.pass.table = true

/-- A command has ended. -/
structure Ended (p : Params) (d : Nat) (s : State) : Prop extends Sound p d s where
  busy : s.busy = false
  code : s.code = statusCode s.cause
  fault : causeIsFault s.cause = true → s.fault = true
  pass : s.pass = Pass.idle

/-- What the invariant asks of what is left of a command `i` with destination entry `d`. -/
structure ContFits (p : Params) (d : Nat) (i : Instr) (c : Cont) : Prop where
  tasks : ∀ t ∈ c.tasks, TaskOk (RunFits d) (fun i => captureOk p i = true) t
  parts : ∀ q ∈ c.parts, PartOk (RunFits d) (fun i => captureOk p i = true) q
  stages : ∀ g ∈ c.stages, StageLegal g
  dst : d < 900 ∨ (i ≠ .nop ∧ BeforeChecks c) ∨ OnlyFinish c

section

variable {p : Params} {d : Nat}

theorem Sound.setFields {s : State} {ws : List (Nat × Word)} (h : Sound p d s) (hw : AllStorable p ws) :
    Sound p d (s.setFields d ws) :=
  { h with
    memWf := memWf_memSetWords _ h.memWf
    inTable := fun hd => by
      obtain rfl := h.params
      exact setFields_mem_cells hd (fun q hq => (hw q hq).2.1) (h.inTable hd) }

theorem Running.setFields {s : State} {ws : List (Nat × Word)} (h : Running p d s) (hw : AllStorable p ws) :
    Running p d (s.setFields d ws) :=
  { h with toSound := h.toSound.setFields hw }

theorem stepLegal_of_le {k : Nat} (h : k ≤ 25 ∨ (0x101 ≤ k ∧ k ≤ 0x107)) : StepLegal (BitVec.ofNat 32 k) := by
  unfold StepLegal
  rw [BitVec.toNat_ofNat, Nat.mod_eq_of_lt (by omega)]
  exact h

theorem Running.enter {g : Stage} {s : State} (hg : StageLegal g) (h : Running p d s) : Running p d (s.enter g) := by
  cases g with
  | step k => exact { h with step := stepLegal_of_le (.inl hg) }
  | phase k => exact { h with step := stepLegal_of_le (.inr hg) }
  | interlock | checks | body | finish => exact h

theorem Running.endFlags {s : State} (h : Running p d s) (c : Cause) (w : Word) :
    Ended p d { s.endFlags c with result := w, pass := Pass.idle } :=
  { h.toSound with
    busy := rfl
    code := rfl
    fault := fun hc => by
      simp only [State.endFlags_cause] at hc
      simp [hc]
    pass := rfl }

/-- Every elementary update of a running command keeps what the invariant asks. -/
theorem running_ops (hp : paramsOk p = true) :
    OpsKeep (Running p d) (Ended p d) (RunFits d) (fun i => captureOk p i = true) StageLegal where
  tick _ h := { h with }
  reg _ _ _ h := { h with }
  smp _ _ _ h := { h with }
  tim _ _ _ _ h := { h with }
  pto _ h := { h with }
  write _ _ _ _ h := { h with }
  enqueue s _ _ _ _ h he := by
    obtain ⟨hroom, _, rfl⟩ := enqueue_cases he
    rw [h.params] at hroom
    exact { h with queue := by rw [List.length_append]; exact hroom }
  save _ _ _ h := { h with snap := by rw [List.length_set]; exact h.snap }
  value _ _ h := { h with }
  rampWait _ b _ h := by cases b <;> exact { h with }
  commit s w hw h := by
    obtain ⟨ws, v, hws, he⟩ := estCommit_stores hp (hw.1 ▸ hw) s
    rw [he, hw.1]
    exact { h.setFields hws with }
  clearAcc s h := by
    obtain ⟨ws, hws, he⟩ := clearAcc_stores hp s
    rw [he, h.dst]
    exact h.setFields hws
  curFromTrn s t h he := by
    obtain ⟨ws, hws, rfl⟩ := curFromTrn_stores hp he
    rw [h.dst]
    exact h.setFields hws
  compareDrift _ _ h he := by obtain ⟨_, _, _, _, _, _, rfl⟩ := compareDrift_cases he; exact { h with }
  fspWr _ _ h := { h with }
  fspOp _ h := { h with }
  clockSource _ _ h he := by
    obtain ⟨_, _, rfl⟩ := clockSource_cases he
    exact { h with clocks := fun _ => rfl }
  capture s i v hi h := by
    obtain ⟨ws, hws, he⟩ := captureItem_stores hi s v
    rw [he, h.dst]
    exact h.setFields hws
  finish _ _ h := h.endFlags .none _
  fresh s m h := h.dst ▸ runFits_freshEst s m
  next _ _ _ _ x h ht hr := h.next ht hr x
  items s h := by rw [h.params]; exact captureFn_ok hp _
  enter _ _ hg h := h.enter hg

/-! ## From a running command to the invariant and back -/

theorem Ended.inv {s : State} (hp : paramsOk p = true) (h : Ended p d s) (hm : InTable p s.mem) : Inv s := by
  obtain ⟨⟨rfl, hwf, _, hq, hsn, hst, hcl⟩, hb, hcode, hfault, hpass⟩ := h
  exact {
    params := hp, memWf := hwf, memRange := hm, queue := hq, snap := hsn, step := hst, clocks := hcl, code := hcode
    fault := hfault
    tableWf := by rw [hpass]; rfl
    dst := .inl (by rw [State.dstEntry, hpass]; decide)
    running := fun h => by rw [hb] at h; cases h
    idlePass := fun _ => hpass
    stages := by rw [hpass]; nofun
    tasks := by rw [hpass]; nofun
    parts := by rw [hpass]; nofun }

theorem Running.suspend_inv {s : State} {c : Cont} (hp : paramsOk p = true) (h : Running p d s)
    (hm : InTable p s.mem) (hc : ContFits p d s.pass.cmd c) : Inv (s.suspend c) := by
  obtain ⟨⟨rfl, hwf, _, hq, hsn, hst, hcl⟩, rfl, hb, hdone, hcode, hcause, htable⟩ := h
  exact {
    params := hp, memWf := hwf, memRange := hm, queue := hq, snap := hsn, step := hst, clocks := hcl, dst := hc.dst
    tableWf := htable
    code := by simp [hcode, hcause, statusCode]
    fault := fun h => by rw [State.suspend_cause, hcause] at h; cases h
    running := fun _ => ⟨hdone, hcause⟩
    idlePass := fun h => by rw [State.suspend_busy, hb] at h; cases h
    stages := hc.stages
    tasks := fun t ht => (taskFits_iff (s.suspend c) t).2 (hc.tasks t ht)
    parts := fun t ht => (taskFits_iff (s.suspend c) t).2 (hc.parts _ ht) }

theorem running_of_inv {s : State} (h : Inv s) (hb : s.busy = true) : Running s.params s.dstEntry s :=
  { h with
    params := rfl
    inTable := fun _ => h.memRange
    dst := rfl
    busy := hb
    done := (h.running hb).1
    code := by rw [h.code, (h.running hb).2]; rfl
    cause := (h.running hb).2 }

theorem contFits_of_inv {s : State} (h : Inv s) : ContFits s.params s.dstEntry s.pass.cmd s.pass.cont where
  tasks t ht := (taskFits_iff s t).1 (h.tasks t ht)
  parts _ hq := partOk_of_taskFits fun t ht => h.parts t (ht ▸ hq)
  stages := h.stages
  dst := h.dst

/-! ## A destination entry beyond the 900

The checks refuse it, so nothing is stored before the command ends; only `nop`, which has no checks, is not refused. -/

/-- A command whose checks will fail for its destination entry, with memory `m`. -/
structure Barred (m : List Host.Cell) (s : State) : Prop where
  mem : s.mem = m
  cmd : s.pass.cmd ≠ .nop
  dst : 900 ≤ s.dstEntry

/-- The memory is still `m`, and a remainder comes to its checks before anything that stores, or only ends. -/
def Stays (m : List Host.Cell) : Run → Prop
  | .done s => s.mem = m
  | .paused c s => s.mem = m ∧ ((s.pass.cmd ≠ .nop ∧ BeforeChecks c) ∨ OnlyFinish c)
  | .ended s => s.mem = m
  | .abort _ s => s.mem = m

/-- Every command but `nop` uses its destination entry (60_exceptions.md R226 (1)). -/
theorem dstEntry_mem_usedEntries {s : State} (h : s.pass.cmd ≠ .nop) : s.dstEntry ∈ s.usedEntries := by
  unfold State.usedEntries
  split
  case h_1 hc => exact absurd hc h
  all_goals simp

section

variable {m : List Host.Cell} {s : State} {gs : List Stage}

theorem Barred.tick (h : Barred m s) : Barred m s.tick := ⟨h.mem, h.cmd, h.dst⟩

theorem Barred.checkCause_ne (h : Barred m s) : s.checkCause ≠ .none := fun hc => by
  obtain ⟨hcount, hused, _⟩ := (checkCause_none_iff s).1 hc
  have := hused _ (dstEntry_mem_usedEntries h.cmd)
  have := h.dst
  omega

theorem Barred.runTasks_check (h : Barred m s) :
    runTasks [.check] s = .paused ⟨[.check], [], []⟩ s ∨ ∃ c, runTasks [.check] s = .abort c s.tick := by
  simp only [runTasks]
  split
  · exact .inl rfl
  · exact .inr ⟨s.tick.checkCause, by simp [runTask, h.tick.checkCause_ne]⟩

theorem runTasks_awaitDrain (s : State) :
    (∃ u, (u = s ∨ u = s.tick) ∧ runTasks [.awaitDrain] s = .paused ⟨[.awaitDrain], [], []⟩ u) ∨
      runTasks [.awaitDrain] s = .done s.tick := by
  simp only [runTasks, runTask]
  split
  · exact .inl ⟨s, .inl rfl, rfl⟩
  · split
    · next hd =>
      split at hd
      · cases hd
      · cases hd; exact .inr rfl
    · next hd =>
      split at hd
      · cases hd; exact .inl ⟨s.tick, .inr rfl, rfl⟩
      · cases hd
    all_goals (next hd => split at hd <;> cases hd)

theorem beforeChecks_check : BeforeChecks ⟨[.check], [], gs⟩ := ⟨rfl, .inl rfl⟩

theorem Barred.stays_check (h : Barred m s) :
    Stays m ((runTasks [.check] s).andThen (fun c => { c with stages := gs }) (runStages gs)) := by
  rcases h.runTasks_check with hr | ⟨c, hr⟩ <;> rw [hr]
  · exact ⟨h.mem, .inl ⟨h.cmd, beforeChecks_check⟩⟩
  · exact h.mem

/-- One operation that stands alone as a part. -/
theorem runParts_one (t : Task) (s : State) : runParts [.one t] s = runTasks [t] s := by
  rw [runParts_ok (ts := [t]) rfl]
  cases hr : runTasks [t] s with
  | paused c u =>
    obtain ⟨hparts, _⟩ := runTasks_paused hr
    obtain ⟨ts, ps, gs⟩ := c
    obtain rfl : ps = [] := hparts
    rfl
  | done | ended | abort => rfl

theorem Barred.stays_checks (h : Barred m s) : Stays m (runStages (.checks :: gs) s) := by
  simp only [runStages]
  split
  · exact ⟨h.mem, .inl ⟨h.cmd, rfl, .inr ⟨.inl rfl, gs, .inl rfl⟩⟩⟩
  · rw [show s.tick.enter .checks = s.tick from rfl, show s.tick.stageParts .checks = [.one .check] from rfl,
      runParts_one]
    exact h.tick.stays_check

theorem Barred.stays_awaitDrain (h : Barred m s) (hg : ∀ {u}, Barred m u → Stays m (runStages gs u))
    (hb : BeforeChecks ⟨[.awaitDrain], [], gs⟩) :
    Stays m ((runTasks [.awaitDrain] s).andThen (fun c => { c with stages := gs }) (runStages gs)) := by
  rcases runTasks_awaitDrain s with ⟨u, hu, hr⟩ | hr <;> rw [hr]
  · rcases hu with rfl | rfl <;> exact ⟨h.mem, .inl ⟨h.cmd, hb⟩⟩
  · exact hg h.tick

theorem Barred.stays_interlock (h : Barred m s) : Stays m (runStages (.interlock :: .checks :: gs) s) := by
  simp only [runStages]
  split
  · exact ⟨h.mem, .inl ⟨h.cmd, rfl, .inr ⟨.inl rfl, gs, .inr rfl⟩⟩⟩
  · rw [show s.tick.enter .interlock = s.tick from rfl,
      show s.tick.stageParts .interlock = [.one .awaitDrain] from rfl, runParts_one]
    exact h.tick.stays_awaitDrain Barred.stays_checks ⟨rfl, .inr ⟨.inr rfl, gs, .inl rfl⟩⟩

theorem Barred.stays_stages (h : Barred m s)
    (hg : ∃ hs, gs = .checks :: hs ∨ gs = .interlock :: .checks :: hs) : Stays m (runStages gs s) := by
  obtain ⟨hs, rfl | rfl⟩ := hg
  · exact h.stays_checks
  · exact h.stays_interlock

/-- What is left after no parts is the stages. -/
theorem runCont_noParts (ts : List Task) (gs : List Stage) (s : State) :
    runCont ⟨ts, [], gs⟩ s = (runTasks ts s).andThen (fun c => { c with stages := gs }) (runStages gs) := by
  unfold runCont
  cases hr : runTasks ts s with
  | paused c u =>
    obtain ⟨hparts, _⟩ := runTasks_paused hr
    obtain ⟨ts, ps, gs⟩ := c
    obtain rfl : ps = [] := hparts
    rfl
  | done | ended | abort => rfl

theorem Barred.stays_cont {c : Cont} (h : Barred m s) (hc : BeforeChecks c) : Stays m (runCont c s) := by
  obtain ⟨ts, ps, gs⟩ := c
  obtain ⟨hp, ht⟩ := hc
  obtain rfl : ps = [] := hp
  rw [runCont_noParts]
  rcases ht with rfl | ⟨rfl | rfl, hg⟩
  · exact h.stays_check
  · exact h.stays_stages hg
  · exact h.stays_awaitDrain (fun hu => hu.stays_stages hg) ⟨rfl, .inr ⟨.inr rfl, hg⟩⟩

/-- The end of a command stores nothing. -/
theorem stays_finish {r : ResultSel} {ts : List Task} (s : State) (hc : OnlyFinish ⟨.finish r :: ts, [], gs⟩) :
    Stays s.mem ((runTasks (.finish r :: ts) s).andThen (fun c => { c with stages := gs }) (runStages gs)) := by
  simp only [runTasks]
  split
  · exact ⟨rfl, .inr hc⟩
  · rfl

theorem stays_onlyFinish {c : Cont} (s : State) (hc : OnlyFinish c) : Stays s.mem (runCont c s) := by
  obtain ⟨ts, ps, gs⟩ := c
  obtain ⟨hts, hps, hgs⟩ := id hc
  obtain rfl : ps = [] := hps
  rw [runCont_noParts]
  cases ts with
  | cons t ts =>
    obtain ⟨r, rfl⟩ := hts t List.mem_cons_self
    exact stays_finish s hc
  | nil =>
    cases gs with
    | nil => rfl
    | cons g gs =>
      obtain ⟨r, rfl⟩ := hgs g List.mem_cons_self
      simp only [runTasks_nil, andThen_done, runStages]
      split
      · exact ⟨rfl, .inr hc⟩
      · rw [show s.tick.enter (.finish r) = s.tick from rfl,
          show s.tick.stageParts (.finish r) = [.one (.finish r)] from rfl, runParts_one]
        exact stays_finish s.tick ⟨by simp, rfl, fun g hg => hgs g (List.mem_cons_of_mem _ hg)⟩

end

/-! ## Runs -/

/-- The state a run leaves meets the invariant. -/
theorem inv_run_state {r : Run} (hp : paramsOk p = true)
    (h : r.All (Running p d) (Ended p d) (TaskOk (RunFits d) fun i => captureOk p i = true)
      (PartOk (RunFits d) fun i => captureOk p i = true) StageLegal)
    (hd : d < 900 ∨ ∃ m, InTable p m ∧ Stays m r) : Inv r.state := by
  have hm : ∀ {s : State}, Sound p d s → (∀ m, Stays m r → s.mem = m) → InTable p s.mem := by
    intro s hs hmem
    rcases hd with hd | ⟨m, hm, hst⟩
    · exact hs.inTable hd
    · rw [hmem m hst]; exact hm
  cases r with
  | done s =>
    exact h.suspend_inv hp (hm h.toSound fun _ hst => hst)
      { tasks := nofun, parts := nofun, stages := nofun, dst := .inr (.inr ⟨nofun, rfl, nofun⟩) }
  | paused c s =>
    obtain ⟨hrun, htasks, hparts, hstages⟩ := h
    exact hrun.suspend_inv hp (hm hrun.toSound fun _ hst => hst.1)
      { tasks := htasks, parts := hparts, stages := hstages, dst := hd.imp_right fun ⟨_, _, hst⟩ => hst.2 }
  | ended s => exact Ended.inv hp h (hm h.toSound fun _ hst => hst)
  | abort c s => exact (h.endFlags c s.result).inv hp (hm (s := s) h.toSound fun _ hst => hst)

/-- A command runs on from a state with the invariant to one with it. -/
theorem inv_runCont {s : State} {c : Cont} (hp : paramsOk p = true) (hs : Running p d s) (hm : InTable p s.mem)
    (hc : ContFits p d s.pass.cmd c) : Inv (runCont c s).state := by
  refine inv_run_state hp (runCont_all (running_ops hp).engine c s hc.tasks hc.parts hc.stages hs) ?_
  rcases Nat.lt_or_ge d 900 with hd | hd
  · exact .inl hd
  · refine .inr ⟨s.mem, hm, ?_⟩
    rcases hc.dst with hlt | ⟨hcmd, hb⟩ | hf
    · omega
    · exact Barred.stays_cont ⟨rfl, hcmd, hs.dst ▸ hd⟩ hb
    · exact stays_onlyFinish s hf

end

/-- Every command but `nop` begins with its checks, or with the interlock and then its checks. -/
theorem stagesOf_checks {i : Instr} (h : i ≠ .nop) :
    ∃ gs, stagesOf i = .checks :: gs ∨ stagesOf i = .interlock :: .checks :: gs := by
  cases i with
  | nop => exact absurd rfl h
  | rampdn | rampup | switch => exact ⟨_, .inr rfl⟩
  | estDvfsPartial | estDvfsFinal | estTrainPartial | estTrainFinal | estPeriodic | trim | pcomp =>
    exact ⟨_, .inl rfl⟩

theorem contFits_accept (p : Params) (d : Nat) (i : Instr) : ContFits p d i ⟨[], [], stagesOf i⟩ where
  tasks := nofun
  parts := nofun
  stages := stagesOf_legal i
  dst := .inr <| by
    by_cases hi : i = .nop
    · subst hi
      exact .inr ⟨nofun, rfl, fun g hg => ⟨.keep, List.mem_singleton.1 hg⟩⟩
    · exact .inl ⟨hi, rfl, .inr ⟨.inl rfl, stagesOf_checks hi⟩⟩

/-- A command is accepted in a state with the invariant (60_exceptions.md R227). -/
theorem running_accept {s : State} (h : Inv s) (i : Instr) : Running s.params (s.accept i).dstEntry (s.accept i) where
  params := rfl
  memWf := h.memWf
  inTable _ := h.memRange
  queue := h.queue
  snap := List.length_replicate
  step := .inl (show (0 : Word).toNat ≤ 25 by decide)
  clocks := h.clocks
  dst := rfl
  busy := rfl
  done := rfl
  code := rfl
  cause := rfl
  tableWf := h.memWf

theorem inv_setOvr {s : State} (h : Inv s) : Inv s.setOvr := { h with }

theorem inv_illegalCommand {s : State} (h : Inv s) : Inv s.illegalCommand := by
  unfold State.illegalCommand
  split
  · exact inv_setOvr h
  · next hb =>
    exact { h with code := rfl, fault := nofun, running := fun hc => absurd hc hb }

theorem inv_resume {s : State} (h : Inv s) : Inv s.resume := by
  unfold State.resume
  split
  · next hb => exact inv_runCont h.params (running_of_inv h hb) h.memRange (contFits_of_inv h)
  · exact h

theorem inv_exec {i : Instr} {s t : State} (h : Inv s) (he : exec i s = .next t) : Inv t := by
  cases hw : i.wellFormed with
  | false =>
    rw [exec_ill i hw] at he
    cases he
    exact inv_illegalCommand h
  | true =>
    rw [exec_eq i hw] at he
    cases he
    cases hb : s.busy with
    | true => rw [launch_busy hb]; exact inv_setOvr h
    | false =>
      rw [launch_idle hb,
        show runStages (stagesOf i) (s.accept i) = runCont ⟨[], [], stagesOf i⟩ (s.accept i) from rfl]
      exact inv_runCont h.params (running_accept h i) h.memRange (contFits_accept _ _ i)

theorem inv_writeCsr {s : State} (h : Inv s) (c : Csr) (w : Word) : Inv (s.writeCsr c w) := by
  cases c with
  | cmd | result | step | fsp | id => exact h
  | status =>
    exact { h with
      running := fun hb => by
        obtain ⟨hdone, hcause⟩ := h.running hb
        exact ⟨by simp [State.writeCsr, hdone], hcause⟩ }
  | cfg | srcIdx | dstIdx | entryCount =>
    simp only [State.writeCsr]
    split <;> exact { h with }

/-- A host write to an entry is of one of the 900 and, while a command runs, ignored (20_memory.md R59). -/
theorem inv_writeEntry {s : State} {i o : Nat} (h : Inv s) (hi : i < 900) (ho : o + 4 ≤ s.params.entryStride)
    (w : Word) : Inv (s.writeEntry i o w) := by
  unfold State.writeEntry
  split
  · exact inv_setOvr h
  · exact { h with
      memWf := memWf_memSetWords _ h.memWf
      memRange := setFields_mem_cells hi (fun q hq => by rw [List.mem_singleton.1 hq]; exact ho) h.memRange }

theorem inv_drainStep {s : State} (h : Inv s) : Inv s.drainStep := by
  unfold State.drainStep
  split
  · split
    · exact { h with clocks := fun _ => rfl }
    · next e es hq =>
      have hlen := h.queue
      rw [hq, List.length_cons] at hlen
      split
      · exact { h with queue := Nat.le_of_succ_le hlen, clocks := fun _ => rfl }
      · exact h
  · exact h

theorem inv_passClocks {s : State} (h : Inv s) (n : Nat) : Inv (s.passClocks n) := by
  unfold State.passClocks
  split
  · next hd => exact { h with clocks := fun hf => by rw [show s.drain = false from hf] at hd; cases hd }
  · exact h

/-- Whatever an event does but the reset input. -/
theorem inv_stepCase {u t : State} (h : Inv u) (hc : StepCase u t) : Inv t := by
  cases hc with
  | resume q => exact inv_resume (s := { u with quantum := q }) { h with }
  | exec i he => exact inv_exec h he
  | illegal => exact inv_illegalCommand h
  | csr c w => exact inv_writeCsr h c w
  | entry w hi ho => exact inv_writeEntry h hi ho w
  | same => exact h
  | reply | accerr | accerrReply | reg | smp | tim => exact { h with }
  | drain => exact inv_drainStep h
  | clocks n => exact inv_passClocks h n

/-- The reset input begins a session with the invariant (70_reset_and_hazards.md R254). -/
theorem inv_resetInput {p : Params} (hp : paramsOk p = true) (s : State) : Inv (s.resetInput p) where
  params := hp
  memWf := rfl
  memRange := nofun
  tableWf := rfl
  dst := .inl (show (0 : Nat) < 900 by decide)
  code := rfl
  fault := nofun
  running := nofun
  idlePass := fun _ => rfl
  queue := Nat.zero_le _
  snap := List.length_replicate
  step := .inl (show (0 : Word).toNat ≤ 25 by decide)
  stages := nofun
  tasks := nofun
  parts := nofun
  clocks := fun _ => rfl

/-- Settles O56: by the cases of a step; a running command keeps it by the elementary updates, and one with a
destination entry beyond the table is stopped by its checks before it stores. -/
theorem everyStepKeepsTheInvariant : Obligations.EveryStepKeepsTheInvariant := by
  intro s t hs h
  rcases step_case h with hc | ⟨p, es, _, hp, rfl⟩
  · exact inv_stepCase (u := s.popInbox) { hs with } hc
  · exact inv_resetInput hp _

end Sys2Proof.Proofs.Invariant
end

section
/-! Proofs of the statements of the state: `pcomp` and `trim` do not depend on `SRC_IDX` (spec 10_state.md R26,
41_trim.md R149, 44_periodic_control.md R211). -/

namespace Sys2Proof.Proofs.SourceIndex

open Sys2Proof Sys2Proof.Machine Sys2Proof.Proofs.Invariant

/-- No operation of a running command but its end clears `BUSY`, and the end leaves no `PASS`. -/
theorem passValid_ops : OpsKeep (fun s => s.busy = true) (fun s => s.busy = false ∧ s.pass = Pass.idle)
    (fun _ => True) (fun _ => True) (fun _ => True) where
  tick _ h := h
  reg _ _ _ h := h
  smp _ _ _ h := h
  tim _ _ _ _ h := h
  pto _ h := h
  write _ _ _ _ h := h
  enqueue _ _ _ _ _ h he := by obtain ⟨_, _, rfl⟩ := enqueue_cases he; exact h
  save _ _ _ h := h
  value _ _ h := h
  rampWait _ b _ h := by cases b <;> exact h
  commit _ _ _ h := by unfold estCommit; exact h
  clearAcc _ h := (State.clearAcc_busy _).trans h
  curFromTrn _ _ h he := by obtain ⟨_, rfl, _⟩ := curFromTrn_cases he; exact h
  compareDrift _ _ h he := by obtain ⟨_, _, _, _, _, _, rfl⟩ := compareDrift_cases he; exact h
  fspWr _ _ h := h
  fspOp _ h := h
  clockSource _ _ h he := by obtain ⟨_, _, rfl⟩ := clockSource_cases he; exact h
  capture _ _ _ _ h := (State.captureItem_busy ..).trans h
  finish _ _ _ := ⟨rfl, rfl⟩
  fresh _ _ _ := trivial
  next _ _ _ _ _ _ _ _ := trivial
  items _ _ _ _ := trivial
  enter g _ _ h := by cases g <;> exact h

/-- A command that was accepted is busy while it runs on, and has let go of `PASS` when it has ended in success
(10_state.md R43). -/
theorem busy_runStages (gs : List Stage) (s : State) (hb : s.busy = true) :
    (runStages gs s).All (fun u => u.busy = true) (fun u => u.busy = false ∧ u.pass = Pass.idle)
      (TaskOk (fun _ => True) fun _ => True) (PartOk (fun _ => True) fun _ => True) (fun _ => True) :=
  runStages_all passValid_ops.engine gs s (fun _ _ => trivial) hb

/-- The state with another value in `SRC_IDX` and, while a command runs, in its latched copy. -/
def withSource (x : BitVec 10) (s : State) : State :=
  { s with srcIdx := x, pass := { s.pass with srcIdx := if s.busy then x else 0 } }

/-- The remainder of a command just accepted. -/
def noCont : Cont := ⟨[], [], []⟩

/-- A run relabelled with another source index leaves the state relabelled. -/
theorem state_relabel (x : BitVec 10) {r : Run} {T : Task → Prop} {U : Part → Prop} {G : Stage → Prop}
    (h : r.All (fun s => s.busy = true) (fun s => s.busy = false ∧ s.pass = Pass.idle) T U G) :
    (Run.relabel noCont x x r).state = withSource x r.state := by
  cases r with
  | done s =>
    have hb : s.busy = true := h
    simp [Run.relabel, State.relabel, State.suspend, withSource, hb]
  | paused c s =>
    have hb : s.busy = true := h.1
    simp [Run.relabel, State.relabel, State.suspend, withSource, hb]
  | ended s =>
    obtain ⟨hb, hpass⟩ := h
    simp [Run.relabel, State.withSrcIdx, withSource, hb, hpass, Pass.idle]
  | abort c s =>
    simp [Run.relabel, State.relabel, State.abort, State.endFlags, withSource, Pass.idle]

/-- The operations of `trim`: its checks, its computation, its end. -/
inductive TrimTask : Task → Prop
  | check : TrimTask .check
  | trim (id : Nat) : TrimTask (.trim id)
  | finish (r : ResultSel) : TrimTask (.finish r)

/-- A `trim` runs. -/
def RunsTrim (s : State) : Prop := ∃ id, s.pass.cmd = .trim id

section

variable (c : Cont) (x y : BitVec 10)

/-- The checks of `trim` use no source entry (60_exceptions.md R226, 41_trim.md R149). -/
theorem checkCause_relabel {s : State} (h : RunsTrim s) : (s.relabel c x y).checkCause = s.checkCause := by
  obtain ⟨id, hcmd⟩ := h
  have hcmd' : (s.relabel c x y).pass.cmd = .trim id := hcmd
  have hreads : (s.relabel c x y).readSet = s.readSet := by
    simp only [State.readSet, hcmd, hcmd']
    rfl
  have hused : (s.relabel c x y).usedEntries = s.usedEntries := by
    simp only [State.usedEntries, hcmd, hcmd']
    rfl
  unfold State.checkCause
  rw [hreads, hused]
  rfl

theorem runTask_relabel_trim {t : Task} (ht : TrimTask t) {s : State} (h : RunsTrim s) :
    runTask t (s.relabel c x y) = TaskResult.relabel c x y (runTask t s) := by
  cases ht with
  | check =>
    simp only [runTask, checkCause_relabel c x y h]
    split <;> rfl
  | trim id =>
    simp only [runTask, show (s.relabel c x y).trimValue (s.relabel c x y).dstEntry id = s.trimValue s.dstEntry id
      from rfl]
    cases s.trimValue s.dstEntry id <;> rfl
  | finish r => cases r <;> rfl

/-- The operations of `trim` change neither the command nor its operands. -/
theorem runsTrim_runTask {t : Task} (ht : TrimTask t) {s u : State} (h : RunsTrim s) (hr : runTask t s = .done u) :
    RunsTrim u := by
  cases ht with
  | check =>
    simp only [runTask] at hr
    split at hr <;> cases hr
    exact h
  | trim id =>
    simp only [runTask] at hr
    split at hr <;> cases hr
    exact h
  | finish r => cases hr

theorem runTasks_relabel_trim {t : Task} (ht : TrimTask t) {s : State} (h : RunsTrim s) :
    runTasks [t] (s.relabel c x y) = Run.relabel c x y (runTasks [t] s) := by
  simp only [runTasks]
  rw [show (s.relabel c x y).quantum = s.quantum from rfl]
  split
  · rfl
  · rw [show (s.relabel c x y).tick = s.tick.relabel c x y from rfl, runTask_relabel_trim c x y ht (s := s.tick) h]
    cases runTask t s.tick <;> rfl

theorem runsTrim_runTasks {t : Task} (ht : TrimTask t) {s u : State} (h : RunsTrim s) (hr : runTasks [t] s = .done u) :
    RunsTrim u := by
  simp only [runTasks] at hr
  split at hr
  · cases hr
  · cases hk : runTask t s.tick with
    | done v =>
      rw [hk] at hr
      cases hr
      exact runsTrim_runTask ht (s := s.tick) h hk
    | hold | ended | abort => rw [hk] at hr; cases hr

/-- The stages of `trim`. -/
inductive TrimStage : Stage → Prop
  | checks : TrimStage .checks
  | body : TrimStage .body
  | finish (r : ResultSel) : TrimStage (.finish r)

/-- A stage of `trim` is one operation, leaves `STEP` alone, and is the same whatever the source index. -/
theorem TrimStage.parts {g : Stage} (hg : TrimStage g) {s : State} (h : RunsTrim s) :
    s.enter g = s ∧ (s.relabel c x y).enter g = s.relabel c x y ∧
      (s.relabel c x y).stageParts g = s.stageParts g ∧ ∃ t, TrimTask t ∧ s.stageParts g = [.one t] := by
  obtain ⟨id, hcmd⟩ := h
  cases hg with
  | checks => exact ⟨rfl, rfl, rfl, _, .check, rfl⟩
  | body => exact ⟨rfl, rfl, rfl, _, .trim id.toNat, by simp only [State.stageParts, hcmd, commandBody]⟩
  | finish r => exact ⟨rfl, rfl, rfl, _, .finish r, rfl⟩

theorem runStages_relabel_trim {gs : List Stage} (hg : ∀ g ∈ gs, TrimStage g) {s : State} (h : RunsTrim s) :
    runStages gs (s.relabel c x y) = Run.relabel c x y (runStages gs s) := by
  induction gs generalizing s with
  | nil => rfl
  | cons g gs ih =>
    obtain ⟨he, he', hp, t, ht, ho⟩ := (hg g List.mem_cons_self).parts c x y (s := s.tick) h
    simp only [runStages]
    rw [show (s.relabel c x y).quantum = s.quantum from rfl,
      show (s.relabel c x y).tick = s.tick.relabel c x y from rfl, he, he', hp, ho, runParts_one, runParts_one,
      runTasks_relabel_trim c x y ht (s := s.tick) h]
    split
    · rfl
    · cases hr : runTasks [t] s.tick with
      | done u => exact ih (fun g' h' => hg g' (List.mem_cons_of_mem _ h')) (runsTrim_runTasks ht (s := s.tick) h hr)
      | paused | ended | abort => rfl

end

/-- A command whose run is the same whatever the source index leaves the state the same, but for that index. -/
theorem exec_withSource {i : Instr} (hw : i.wellFormed = true) {s t : State} {x : BitVec 10} (hb : s.busy = false)
    (hr : runStages (stagesOf i) ((s.accept i).relabel noCont x x) =
      Run.relabel noCont x x (runStages (stagesOf i) (s.accept i)))
    (h : exec i s = .next t) : exec i { s with srcIdx := x } = .next (withSource x t) := by
  rw [exec_eq i hw, launch_idle hb] at h
  cases h
  rw [exec_eq i hw, launch_idle (s := { s with srcIdx := x }) hb,
    show ({ s with srcIdx := x } : State).accept i = (s.accept i).relabel noCont x x from rfl, hr,
    state_relabel x (busy_runStages (stagesOf i) (s.accept i) rfl)]

/-- An illegal identity executes nothing (log entry 16). -/
theorem exec_withSource_ill {i : Instr} (hw : i.wellFormed = false) {s t : State} {x : BitVec 10}
    (hb : s.busy = false) (hp : s.pass = Pass.idle) (h : exec i s = .next t) :
    exec i { s with srcIdx := x } = .next (withSource x t) := by
  rw [exec_ill i hw] at h
  cases h
  rw [exec_ill i hw]
  simp [State.illegalCommand, State.illegalWord, withSource, hb, hp, Pass.idle]

/-- Settles O49: a `pcomp` takes its destination entry as source as well, and no operation of a `trim` takes one. -/
theorem srcIdxDoesNotMatter : Obligations.SrcIdxDoesNotMatter := by
  intro i s t x hi hb hp h
  change exec i { s with srcIdx := x } = .next (withSource x t)
  cases hw : i.wellFormed with
  | false => exact exec_withSource_ill hw hb hp h
  | true =>
    refine exec_withSource hw hb ?_ h
    rcases hi with rfl | ⟨id, rfl⟩
    · exact runStages_relabel noCont x x _ _ (.inl rfl)
    · refine runStages_relabel_trim noCont x x (fun g hg => ?_) ⟨id, rfl⟩
      simp only [stagesOf, unitStages, List.mem_cons, List.not_mem_nil, or_false] at hg
      rcases hg with rfl | rfl | rfl <;> constructor

end Sys2Proof.Proofs.SourceIndex
end

section
/-! Proofs of the statements of the state: the CSRs and the entry words as the host reads and writes them (spec
10_state.md R19 to R36, 20_memory.md R59, R90). -/

namespace Sys2Proof.Proofs.HostWindow

open Sys2Proof Sys2Proof.Machine

/-! ## Commands -/

/-- The command word stands at the window's first offset (10_state.md R19, R20). -/
theorem step_commandWrite {s : State} {es : List Event} {w : Word} {i : Instr} (hp : paramsOk s.params = true)
    (hd : decode w = .ok i) (hi : s.inbox = .host ⟨true, .word, s.params.dteBase, w⟩ :: es) :
    step s = exec i { s with inbox := es } := by
  rw [step_host (off := 0) hp hi (by decide) (by decide)]
  simp only [if_true, show locate s.params 0 = .csr .cmd from rfl, hostWrite, commandWrite,
    decodeBytes_bytesOfWord_nil, hd]

theorem step_withCommand {s : State} {w : Word} {i : Instr} (hp : paramsOk s.params = true) (hd : decode w = .ok i) :
    step (s.withCommand w) = exec i s :=
  step_commandWrite (s := s.withCommand w) hp hd rfl

/-- Settles O5. -/
theorem stepRunsTheDecodedCommand : Obligations.StepRunsTheDecodedCommand := by
  intro s es w i hp hd
  refine ⟨step_commandWrite hp hd, step_withCommand hp hd, ?_⟩
  rintro n v rfl
  exact step_withCommand hp hd

/-! ## Reading and writing CSRs -/

theorem locate_csr {p : Params} {off : Nat} {c : Csr} (h : off < 0x100000) (hc : csrAt off = some c) :
    locate p off = .csr c := by
  unfold locate
  rw [if_pos h, hc]

theorem locate_noCsr {p : Params} {off : Nat} (h : off < 0x100000) (hc : csrAt off = none) :
    locate p off = .reserved := by
  unfold locate
  rw [if_pos h, hc]

/-- `FSP` has the active bank in bit 0 and the staged one in bit 1 (10_state.md R28). -/
theorem fspWord_eq (s : State) : fspWord s = (if s.fspOp then 1 else 0) ||| (if s.fspWr then 2 else 0) := by
  unfold fspWord
  cases s.fspOp <;> cases s.fspWr <;> rfl

/-- What a host read of the CSR block returns, by offset (10_state.md R19). -/
theorem hostRead_csrBlock (s : State) {off : Nat} (h : off < 0x100000) :
    s.hostRead (locate s.params off) =
      if off = 0x004 then statusWord s
      else if off = 0x008 then s.result
      else if off = 0x00C then s.stepNo
      else if off = 0x010 then s.cfg.setWidth 32
      else if off = 0x014 then s.srcIdx.setWidth 32
      else if off = 0x018 then s.dstIdx.setWidth 32
      else if off = 0x01C then s.entryCount
      else if off = 0x020 then (if s.fspOp then 1 else 0) ||| (if s.fspWr then 2 else 0)
      else if off = 0x024 then 0x44544501
      else 0 := by
  cases hc : csrAt off with
  | some c =>
    rw [locate_csr h hc]
    unfold csrAt at hc
    split at hc <;> cases hc
    case h_9 => exact fspWord_eq s
    all_goals rfl
  | none =>
    rw [locate_noCsr h hc]
    unfold csrAt at hc
    split at hc <;> cases hc
    iterate 9 rw [if_neg (by assumption)]
    rfl

/-- Settles O8. -/
theorem csrReadReturnsTheRegister : Obligations.CsrReadReturnsTheRegister := by
  intro s es off d hp hi h4 hlt
  rw [step_host hp hi h4 (by omega), if_neg (by decide)]
  exact congrArg (fun v => Host.Outcome.next (State.reply { s with inbox := es } v))
    (hostRead_csrBlock { s with inbox := es } hlt)

/-- A host write to a CSR other than `CMD` (10_state.md R21 to R29). -/
theorem step_csrWrite {s : State} {es : List Event} {off : Nat} {w : Word} {c : Csr} (hp : paramsOk s.params = true)
    (hi : s.inbox = .host ⟨true, .word, s.params.dteBase + off, w⟩ :: es) (h4 : off % 4 = 0) (hlt : off < 0x100000)
    (hc : csrAt off = some c) (hcmd : c ≠ .cmd) : step s = .next (State.writeCsr { s with inbox := es } c w) := by
  rw [step_host hp hi h4 (by omega), if_pos rfl, locate_csr hlt hc]
  cases c with
  | cmd => exact absurd rfl hcmd
  | _ => rfl

/-- Settles O10. -/
theorem csrWriteSetsTheRegister : Obligations.CsrWriteSetsTheRegister := by
  intro s es off w hp hb hi
  refine ⟨?_, ?_, ?_, ?_⟩ <;>
  · rintro rfl
    rw [step_csrWrite hp hi (by decide) (by decide) rfl (by decide)]
    simp [State.writeCsr, hb]

/-! ## The fields of `STATUS` -/

/-- The last bit of a word, and the bits before it. -/
theorem getLsbD_append_ofBool {n : Nat} (v : BitVec n) (b : Bool) (i : Nat) :
    (v ++ BitVec.ofBool b).getLsbD i = if i = 0 then b else v.getLsbD (i - 1) := by
  rw [BitVec.getLsbD_append]
  rcases i with _ | i <;> simp

theorem getLsbD_append_zero {n : Nat} (v : BitVec n) (i : Nat) :
    (v ++ (0 : BitVec 1)).getLsbD i = if i = 0 then false else v.getLsbD (i - 1) :=
  getLsbD_append_ofBool v false i

/-- Above its eight flags `STATUS` has `CODE` and `CAUSE` (10_state.md R21). -/
theorem getLsbD_statusWord_high (s : State) (i : Nat) :
    (statusWord s).getLsbD (8 + i) = if i < 4 then s.code.getLsbD i else (causeCode s.cause).getLsbD (i - 4) := by
  have hflags : (statusWord s).getLsbD (i + 8) = ((0 : BitVec 16) ++ causeCode s.cause ++ s.code).getLsbD i := by
    simp only [statusWord, getLsbD_append_ofBool, getLsbD_append_zero]
    simp
  rw [Nat.add_comm, hflags, BitVec.getLsbD_append, BitVec.getLsbD_append]
  split
  · rfl
  · split
    · rfl
    · rw [BitVec.getLsbD_of_ge (causeCode s.cause) _ (by omega)]
      simp

theorem statusWord_code (s : State) : (statusWord s).extractLsb' 8 4 = s.code := by
  refine BitVec.eq_of_getLsbD_eq fun i hi => ?_
  rw [BitVec.getLsbD_extractLsb', getLsbD_statusWord_high, if_pos hi]
  simp [hi]

theorem statusWord_cause (s : State) : (statusWord s).extractLsb' 12 4 = causeCode s.cause := by
  refine BitVec.eq_of_getLsbD_eq fun i hi => ?_
  rw [BitVec.getLsbD_extractLsb', show 12 + i = 8 + (4 + i) by omega, getLsbD_statusWord_high]
  simp [hi]

theorem statusWord_reserved (s : State) : (statusWord s).extractLsb' 16 16 = 0 := by
  refine BitVec.eq_of_getLsbD_eq fun i hi => ?_
  rw [BitVec.getLsbD_extractLsb', show 16 + i = 8 + (8 + i) by omega, getLsbD_statusWord_high, if_neg (by omega),
    BitVec.getLsbD_of_ge _ _ (by omega)]
  simp

/-- The bits a host write clears where it has a 1. -/
theorem getLsbD_w1cMask {i : Nat} (hi : i < 32) :
    (0x3A : Word).getLsbD i = decide (i = 1 ∨ i = 3 ∨ i = 4 ∨ i = 5) := by
  revert i
  decide

/-- A host write clears `DONE`, `PTO`, `OVR` and `ACCERR` where it has a 1 (10_state.md R21). -/
theorem statusWord_writeStatus (s : State) (w : Word) :
    statusWord (s.writeStatus w) = statusWord s &&& ~~~(w &&& 0x3A) := by
  refine BitVec.eq_of_getLsbD_eq fun i hi => ?_
  rw [BitVec.getLsbD_and, BitVec.getLsbD_not, BitVec.getLsbD_and, getLsbD_w1cMask hi]
  rcases Nat.lt_or_ge i 8 with hlow | hhigh
  · simp only [statusWord, getLsbD_append_ofBool, getLsbD_append_zero]
    interval_cases i <;> simp
  · obtain ⟨k, rfl⟩ := Nat.exists_eq_add_of_le hhigh
    rw [getLsbD_statusWord_high, getLsbD_statusWord_high]
    simp [hi, show ¬ (8 + k = 1) by omega, show ¬ (8 + k = 3) by omega, show ¬ (8 + k = 4) by omega,
      show ¬ (8 + k = 5) by omega]

/-- Settles O9. -/
theorem statusHasItsFields : Obligations.StatusHasItsFields := by
  intro s w
  have hcause : ∀ c, s.cause = c → (statusWord s).extractLsb' 12 4 = causeCode c := fun c hc => by
    rw [statusWord_cause, hc]
  refine ⟨?_, ?_, ?_, ?_, ?_, ?_, ?_, ?_, statusWord_code s, hcause _, hcause _, hcause _, hcause _, hcause _,
    hcause _, hcause _, hcause _, statusWord_reserved s, statusWord_writeStatus s w⟩
  all_goals
    simp only [statusWord, getLsbD_append_ofBool, getLsbD_append_zero]
    rfl

/-! ## Entry words -/

/-- Entries and their words are aligned (20_memory.md R66). -/
theorem entryBase_add_mod {p : Params} (hp : paramsOk p = true) (i : Nat) {o : Nat} (h4 : o % 4 = 0) :
    (entryBase p i + o) % 4 = 0 := by
  have hs := (paramsOk_stride hp).2
  have := Nat.mod_eq_zero_of_dvd (Dvd.dvd.mul_left (Nat.dvd_of_mod_eq_zero hs) i)
  unfold entryBase
  omega

/-- The word a host write to an entry stores. -/
def stored (o : Nat) (w : Word) : Word := if o = offFlags then w &&& flagsMask else w

theorem writeEntry_free {s : State} (hb : s.busy = false) (i o : Nat) (w : Word) :
    s.writeEntry i o w = { s with mem := memSetWord s.mem (wordAt s i o) (stored o w) } := by
  unfold State.writeEntry
  rw [if_neg (by simp [hb])]
  rfl

theorem step_entryWrite {s : State} {es : List Event} {i o : Nat} {w : Word} (hp : paramsOk s.params = true)
    (hb : s.busy = false) (hi : i < 900) (ho : o < s.params.entryStride) (h4 : o % 4 = 0)
    (hr : entryOffReserved o = false) (hlt : entryBase s.params i + o < 4294967296)
    (hin : s.inbox = .host ⟨true, .word, s.params.dteBase + (entryBase s.params i + o), w⟩ :: es) :
    step s = .next { s with inbox := es, mem := memSetWord s.mem (wordAt s i o) (stored o w) } := by
  rw [step_host hp hin (entryBase_add_mod hp i h4) hlt, if_pos rfl, locate_entry hp hi ho, hr]
  exact congrArg Host.Outcome.next (writeEntry_free (s := { s with inbox := es }) hb i o w)

theorem step_entryRead {s : State} {es : List Event} {i o : Nat} {d : Word} (hp : paramsOk s.params = true)
    (hi : i < 900) (ho : o < s.params.entryStride) (h4 : o % 4 = 0) (hr : entryOffReserved o = false)
    (hlt : entryBase s.params i + o < 4294967296)
    (hin : s.inbox = .host ⟨false, .word, s.params.dteBase + (entryBase s.params i + o), d⟩ :: es) :
    step s = .next { s with inbox := es, hostOut := s.hostOut ++ [s.hostEntryWord i o] } := by
  rw [step_host hp hin (entryBase_add_mod hp i h4) hlt, if_neg (by decide), locate_entry hp hi ho, hr]
  rfl

/-- The four bytes of a word that is stored. -/
theorem memByte_of_memWord {m : List Host.Cell} {a : Nat} {w : Word} (h : memWord m a = some w) :
    ∃ b0 b1 b2 b3, memByte m a = some b0 ∧ memByte m (a + 1) = some b1 ∧ memByte m (a + 2) = some b2 ∧
      memByte m (a + 3) = some b3 ∧ wordOfBytes b0 b1 b2 b3 = w := by
  unfold memWord at h
  split at h
  · next b0 b1 b2 b3 h0 h1 h2 h3 => exact ⟨b0, b1, b2, b3, h0, h1, h2, h3, Option.some.inj h⟩
  · cases h

/-- While no command runs a host read finds the stored word, the reserved bits of `FLAGS` as 0 (R35). -/
theorem hostEntryWord_of_memWord {s : State} {i o : Nat} {w : Word} (hb : s.busy = false)
    (h : memWord s.mem (wordAt s i o) = some w) :
    s.hostEntryWord i o = if o = 8 then w &&& 0x00FFFF07 else w := by
  obtain ⟨b0, b1, b2, b3, h0, h1, h2, h3, rfl⟩ := memByte_of_memWord h
  unfold wordAt at h0 h1 h2 h3
  simp only [State.hostEntryWord, State.hostByte, hostTable_free hb, h0, h1, h2, h3]
  rfl

/-- Its reserved bits cleared, a word of `FLAGS` has none to clear. -/
theorem masked_stored (o : Nat) (w : Word) :
    (if o = 8 then stored o w &&& 0x00FFFF07 else stored o w) = if o = 8 then w &&& 0x00FFFF07 else w := by
  unfold stored offFlags flagsMask
  split
  · rw [BitVec.and_assoc, BitVec.and_self]
  · rfl

theorem step_entryRead_stored {s : State} {es : List Event} {i o : Nat} {w d : Word} (hp : paramsOk s.params = true)
    (hi : i < 900) (ho : o < s.params.entryStride) (h4 : o % 4 = 0) (hr : entryOffReserved o = false)
    (hlt : entryBase s.params i + o < 4294967296) (hb : s.busy = false)
    (hm : memWord s.mem (wordAt s i o) = some (stored o w))
    (hin : s.inbox = .host ⟨false, .word, s.params.dteBase + (entryBase s.params i + o), d⟩ :: es) :
    step s = .next { s with inbox := es, hostOut := s.hostOut ++ [if o = 8 then w &&& 0x00FFFF07 else w] } := by
  rw [step_entryRead hp hi ho h4 hr hlt hin, hostEntryWord_of_memWord hb hm, masked_stored]

/-- A host write to an entry word of a free engine marks the word, leaves every other byte, and is read back. -/
theorem entryWord_readsBack {s : State} {es : List Event} {i o : Nat} {w d : Word} (hp : paramsOk s.params = true)
    (hb : s.busy = false) (hi : i < 900) (ho : o < s.params.entryStride) (h4 : o % 4 = 0)
    (hr : entryOffReserved o = false) (hlt : entryBase s.params i + o < 4294967296)
    (hin : s.inbox = .host ⟨true, .word, s.params.dteBase + (entryBase s.params i + o), w⟩ ::
      .host ⟨false, .word, s.params.dteBase + (entryBase s.params i + o), d⟩ :: es) :
    ∃ m t, step s = .next t ∧ t = { s with inbox := s.inbox.tail, mem := m } ∧ t.marked i o = true ∧
      SameOutside s.mem m [(wordAt s i o, 0)] ∧
      step t = .next { t with inbox := es, hostOut := t.hostOut ++ [if o = 8 then w &&& 0x00FFFF07 else w] } := by
  have hword := memWord_memSetWord_same s.mem (wordAt s i o) (stored o w)
  refine ⟨memSetWord s.mem (wordAt s i o) (stored o w), _, (step_entryWrite hp hb hi ho h4 hr hlt hin).trans ?_, rfl,
    ?_, ?_, ?_⟩
  · rw [hin, List.tail_cons]
  · exact Option.isSome_of_eq_some hword
  · intro b hout
    exact memByte_memSetWord_other _ (hout _ (List.mem_singleton.2 rfl))
  · exact step_entryRead_stored hp hi ho h4 hr hlt hb hword (congrArg List.tail hin)

/-! ## The entry table while a command runs (20_memory.md R59, R90) -/

/-- If a command still runs, a host read of an entry word finds what it found before. -/
def ReadsHold (s t : State) : Prop := t.busy = true → ∀ i o, t.hostEntryWord i o = s.hostEntryWord i o

/-- A run of a command accepted with the table the host read in `s`. -/
theorem readsHold_run_state {s : State} {r : Run} {T : Task → Prop} {U : Part → Prop} {G : Stage → Prop}
    (h : r.All (fun u => u.busy = true ∧ u.pass.table = s.hostTable ∧ u.params = s.params ∧ u.session = s.session)
      (fun u => u.busy = false) T U G) : ReadsHold s r.state := by
  have hrun : ∀ (u : State) (c : Cont), (u.busy = true ∧ u.pass.table = s.hostTable ∧ u.params = s.params ∧
      u.session = s.session) → ReadsHold s (u.suspend c) := by
    rintro u c ⟨hb, htable, hparams, hsession⟩ _
    refine hostEntryWord_congr ?_ hparams hsession
    rw [hostTable_busy (s := u.suspend c) hb]
    exact htable
  cases r with
  | done u => exact hrun u _ h
  | paused c u => exact hrun u c h.1
  | ended u => exact fun hb => absurd hb (by rw [Run.state_ended, show u.busy = false from h]; decide)
  | abort c u => exact nofun

theorem readsHold_resume (s : State) : ReadsHold s s.resume := by
  unfold State.resume
  split
  · next hb =>
    exact readsHold_run_state (runCont_all (keepsTable s.hostTable s.params s.session).engine s.pass.cont s
      (fun t _ => taskOk_true t) (fun q _ => partOk_true q) (fun _ _ => trivial)
      ⟨hb, (hostTable_busy hb).symm, rfl, rfl⟩)
  · exact fun _ _ _ => rfl

theorem readsHold_illegalCommand (s : State) : ReadsHold s s.illegalCommand := by
  unfold State.illegalCommand
  split <;> exact fun _ _ _ => rfl

theorem readsHold_exec {i : Instr} {s t : State} (h : exec i s = .next t) : ReadsHold s t := by
  cases hw : i.wellFormed with
  | false =>
    rw [exec_ill i hw] at h
    cases h
    exact readsHold_illegalCommand s
  | true =>
    rw [exec_eq i hw] at h
    cases h
    cases hb : s.busy with
    | true => rw [launch_busy hb]; exact fun _ _ _ => rfl
    | false =>
      rw [launch_idle hb]
      exact readsHold_run_state (runStages_all (keepsTable s.hostTable s.params s.session).engine (stagesOf i)
        (s.accept i) (fun _ _ => trivial) ⟨rfl, (hostTable_free hb).symm, rfl, rfl⟩)

theorem readsHold_writeCsr (s : State) (c : Csr) (w : Word) : ReadsHold s (s.writeCsr c w) := by
  cases c with
  | cmd | status | result | step | fsp | id => exact fun _ _ _ => rfl
  | cfg | srcIdx | dstIdx | entryCount =>
    simp only [State.writeCsr]
    split <;> exact fun _ _ _ => rfl

/-- A host write to an entry is ignored while a command runs. -/
theorem readsHold_writeEntry (s : State) (i o : Nat) (w : Word) : ReadsHold s (s.writeEntry i o w) := by
  unfold State.writeEntry
  split
  · exact fun _ _ _ => rfl
  · next hb => exact fun hb' => absurd hb' hb

theorem readsHold_drainStep (s : State) : ReadsHold s s.drainStep := by
  unfold State.drainStep
  split
  · split
    · exact fun _ _ _ => rfl
    · split <;> exact fun _ _ _ => rfl
  · exact fun _ _ _ => rfl

theorem readsHold_passClocks (s : State) (n : Nat) : ReadsHold s (s.passClocks n) := by
  unfold State.passClocks
  split <;> exact fun _ _ _ => rfl

theorem readsHold_stepCase {u t : State} (h : StepCase u t) : ReadsHold u t := by
  cases h with
  | resume q => exact readsHold_resume { u with quantum := q }
  | exec i he => exact readsHold_exec he
  | illegal => exact readsHold_illegalCommand u
  | csr c w => exact readsHold_writeCsr u c w
  | entry w => exact readsHold_writeEntry u _ _ w
  | same | reply | accerr | accerrReply | reg | smp | tim => exact fun _ _ _ => rfl
  | drain => exact readsHold_drainStep u
  | clocks n => exact readsHold_passClocks u n

theorem readsHold_step {s t : State} (h : step s = .next t) (hr : nextIsReset s = false) : ReadsHold s t := by
  rcases step_case h with hc | ⟨p, es, hi, _⟩
  · exact readsHold_stepCase (u := s.popInbox) hc
  · simp [nextIsReset, hi] at hr

/-- Settles O11: a store reads back; a command's run keeps the table it was accepted with. -/
theorem entryWordsReadBackAndHoldStillMeanwhile : Obligations.EntryWordsReadBackAndHoldStillMeanwhile := by
  refine ⟨?_, ?_, fun s t h hr => readsHold_step h hr, fun s i o w hb h => hostEntryWord_of_memWord hb h⟩
  · intro s es i o w d hp hb hi ho h4 hr hlt hin
    exact entryWord_readsBack hp hb hi ho h4 hr hlt hin
  · intro s es i o d hp hi ho h4 hr hlt hin
    exact step_entryRead hp hi ho h4 hr hlt hin

end Sys2Proof.Proofs.HostWindow
end

section
/-! Proofs of the statements of the state: how a command ends, refused by its checks or in success (spec 10_state.md
R31, R36, 60_exceptions.md R226). -/

namespace Sys2Proof.Proofs.CommandEnds

open Sys2Proof Sys2Proof.Machine Sys2Proof.Proofs.SourceIndex

/-! ## The checks -/

/-- Count and indices in range and a field read without its mark: the cause is `UNINIT` (60_exceptions.md R226 (2)). -/
theorem checkCause_uninit {s : State} {e off : Nat} (hcount : s.entryCount.toNat ≤ 900)
    (hused : ∀ k ∈ s.usedEntries, k < s.entryCount.toNat) (hread : (e, off) ∈ s.readSet)
    (hmark : s.marked e off = false) : s.checkCause = .uninit := by
  unfold State.checkCause
  rw [if_neg, if_neg]
  · intro hall
    have := List.all_eq_true.1 hall _ hread
    rw [hmark] at this
    cases this
  · simp only [Bool.or_eq_true, decide_eq_true_eq, List.any_eq_true, not_or, not_exists, not_and, Nat.not_lt,
      Nat.not_le]
    exact ⟨hcount, hused⟩

/-- The entries a command uses: its destination and, if it estimates or can enqueue, its source. -/
theorem mem_usedEntries_accept {i : Instr} {s : State} {k : Nat} (h : k ∈ (s.accept i).usedEntries) :
    k = dstOf s ∨ (k = srcOf s ∧ (IsEst i ∨ CanEnqueue i)) := by
  cases i with
  | nop => cases h
  | trim | pcomp => exact .inl (List.mem_singleton.1 h)
  | estDvfsPartial | estDvfsFinal | estTrainPartial | estTrainFinal | estPeriodic | rampdn | rampup | switch =>
    rcases List.mem_cons.1 h with h | h
    · exact .inr ⟨h, by simp [IsEst, CanEnqueue]⟩
    · exact .inl (List.mem_singleton.1 h)

theorem runStages_interlock_refused {s : State} {gs : List Stage} (hq : s.quantum = none) (hd : s.drain = false)
    (hc : s.checkCause ≠ .none) : runStages (.interlock :: .checks :: gs) s = .abort s.checkCause s := by
  rw [runStages_interlock hq hd, runStages_checks_abort hq hc]

/-- The checks refuse a command before anything else happens, the interlock being open. -/
theorem runStages_refused {i : Instr} {s : State} (hi : i ≠ .nop) (hq : s.quantum = none)
    (hd : CanEnqueue i → s.drain = false) (hc : (s.accept i).checkCause ≠ .none) :
    runStages (stagesOf i) (s.accept i) = .abort (s.accept i).checkCause (s.accept i) := by
  cases i with
  | nop => exact absurd rfl hi
  | estDvfsPartial | estDvfsFinal | estTrainPartial | estTrainFinal | estPeriodic | trim | pcomp =>
    exact runStages_checks_abort hq hc
  | rampdn f => exact runStages_interlock_refused hq (hd (.inl ⟨f, rfl⟩)) hc
  | rampup f => exact runStages_interlock_refused hq (hd (.inr (.inl ⟨f, rfl⟩))) hc
  | switch m => exact runStages_interlock_refused hq (hd (.inr (.inr ⟨m, rfl⟩))) hc

/-- Settles O23. -/
theorem unloadedFieldEndsTheCommand : Obligations.UnloadedFieldEndsTheCommand := by
  intro i s e off hi hw ⟨hb, hq⟩ hd hcount hdst hsrc hread hmark
  have hused : ∀ k ∈ (s.accept i).usedEntries, k < (s.accept i).entryCount.toNat := fun k hk => by
    rcases mem_usedEntries_accept hk with rfl | ⟨rfl, hi⟩
    · exact hdst
    · exact hsrc hi
  have hc : (s.accept i).checkCause = .uninit := checkCause_uninit hcount hused hread hmark
  rw [exec_eq i hw, launch_idle hb, runStages_refused hi hq hd (by rw [hc]; decide), hc, Run.state_abort,
    abort_accept (by decide)]

/-! ## Causes raised

Whatever raises a cause raises one: `none` is no cause (60_exceptions.md R228). -/

/-- A computation that, if it raises a cause, raises one of R228. -/
def Proper {α : Type} (e : Except Cause α) : Prop := ∀ c, e = .error c → c ≠ .none

theorem proper_ok {α : Type} (a : α) : Proper (.ok a) := nofun

theorem proper_error {α : Type} {c : Cause} (h : c ≠ .none) : Proper (.error c : Except Cause α) := by
  rintro _ ⟨⟩
  exact h

theorem proper_bind {α β : Type} {e : Except Cause α} {f : α → Except Cause β} (he : Proper e)
    (hf : ∀ a, Proper (f a)) : Proper (e >>= f) := by
  cases e with
  | ok a => rw [bind_ok]; exact hf a
  | error c => rw [bind_error]; exact proper_error (he c rfl)

theorem proper_mapM {α β : Type} {f : α → Except Cause β} (hf : ∀ a, Proper (f a)) (l : List α) :
    Proper (l.mapM f) := by
  induction l with
  | nil => exact proper_ok _
  | cons a l ih =>
    rw [List.mapM_cons]
    exact proper_bind (hf a) fun _ => proper_bind ih fun _ => proper_ok _

theorem proper_ite {α : Type} {p : Prop} [Decidable p] {e e' : Except Cause α} (h : Proper e) (h' : Proper e') :
    Proper (if p then e else e') := by
  split <;> assumption

theorem proper_chk32 (v : Int) : Proper (chk32 v) := proper_ite (proper_ok v) (proper_error (by decide))

theorem proper_chk32u (v : Nat) : Proper (chk32u v) := proper_ite (proper_ok _) (proper_error (by decide))

theorem proper_tdiv (a b : Int) : Proper (tdiv a b) := proper_ite (proper_error (by decide)) (proper_ok _)

theorem proper_trem (a b : Int) : Proper (trem a b) := proper_ite (proper_error (by decide)) (proper_ok _)

theorem proper_periodPs (w : Word) : Proper (periodPs w) := proper_ite (proper_error (by decide)) (proper_ok _)

theorem proper_scaled (d : Int) (f : Nat) : Proper (scaled d f) := by
  unfold scaled
  exact proper_bind (proper_chk32 _) fun _ => proper_bind (proper_chk32 _) fun _ => proper_tdiv _ _

theorem proper_partialAcc (acc smp : Int) : Proper (partialAcc acc smp) := by
  unfold partialAcc
  exact proper_bind (proper_chk32 _) fun _ => proper_chk32 _

theorem proper_periodicAcc (acc smp : Int) (w : Nat) : Proper (periodicAcc acc smp w) := by
  unfold periodicAcc
  exact proper_bind (proper_chk32 _) fun _ => proper_bind (proper_chk32 _) fun _ =>
    proper_bind (proper_chk32 _) fun _ => proper_bind (proper_chk32 _) fun _ => proper_tdiv _ _

theorem proper_judge (final : Bool) (acc cur : Int) (f margin : Nat) : Proper (judge final acc cur f margin) := by
  unfold judge
  exact proper_bind (proper_chk32 _) fun _ => proper_bind (proper_chk32 _) fun _ =>
    proper_bind (proper_scaled _ _) fun _ => proper_ok _

theorem proper_tapOf (cur trn : Int) (f : Nat) : Proper (tapOf cur trn f) := by
  unfold tapOf
  exact proper_bind (proper_chk32 _) fun _ => proper_bind (proper_chk32 _) fun _ =>
    proper_bind (proper_chk32 _) fun _ => proper_tdiv _ _

theorem proper_adjusted (v tap : Int) (margin : Nat) : Proper (adjusted v tap margin) := by
  unfold adjusted adjustment
  exact proper_bind (proper_bind (proper_chk32 _) fun _ => proper_ok _) fun _ => proper_chk32 _

theorem proper_component (b : Bool) (v : Int) : Proper (component b v) := proper_ite (proper_tdiv _ _) (proper_trem _ _)

section

variable (s : State)

theorem proper_field (i off : Nat) : Proper (s.field i off) := fun c h => by
  rw [field_error h]
  decide

theorem proper_fieldU (i off : Nat) : Proper (s.fieldU i off) := proper_bind (proper_field s i off) fun _ => proper_ok _

theorem proper_fieldS (i off : Nat) : Proper (s.fieldS i off) := proper_bind (proper_field s i off) fun _ => proper_ok _

theorem proper_estLane (w : EstWork) (l : Nat) (n : Word) : Proper (estLane s w l n) := by
  unfold estLane
  refine proper_bind (proper_field _ _ _) fun fs => proper_bind (proper_field _ _ _) fun ft =>
    proper_bind (proper_fieldS _ _ _) fun acc => proper_ite ?_ ?_
  · exact proper_bind (proper_partialAcc _ _) fun _ => proper_ok _
  · refine proper_bind (proper_fieldS _ _ _) fun cur => proper_bind (proper_fieldU _ _ _) fun margin =>
      proper_ite ?_ ?_
    · exact proper_bind (proper_fieldU _ _ _) fun _ => proper_bind (proper_tdiv _ _) fun _ =>
        proper_bind (proper_judge _ _ _ _ _) fun _ => proper_ok _
    · exact proper_bind (proper_fieldU _ _ _) fun _ => proper_bind (proper_periodicAcc _ _ _) fun _ =>
        proper_bind (proper_judge _ _ _ _ _) fun _ => proper_ok _

theorem proper_trimValue (dst id : Nat) : Proper (s.trimValue dst id) := by
  unfold State.trimValue State.adjustedValues
  refine proper_bind (proper_bind (proper_mapM (fun i => ?tap) _) fun _ => proper_bind (proper_fieldU _ _ _) fun _ =>
    proper_mapM (fun k => ?val) _) fun _ => proper_bind (proper_mapM (fun _ => proper_component _ _) _) fun _ =>
      proper_ok _
  case tap =>
    unfold State.laneTap
    exact proper_bind (proper_field _ _ _) fun _ => proper_bind (proper_fieldS _ _ _) fun _ =>
      proper_bind (proper_fieldS _ _ _) fun _ => proper_tapOf _ _ _
  case val => exact proper_bind (proper_fieldS _ _ _) fun _ => proper_adjusted _ _ _

theorem proper_enqueue (a v d : Word) : Proper (s.enqueue a v d) := by
  unfold State.enqueue
  exact proper_bind (proper_chk32u _) fun _ => proper_ite (proper_error (by decide)) (proper_ok _)

theorem proper_curFromTrn : Proper s.curFromTrn := by
  unfold State.curFromTrn
  exact proper_bind (proper_mapM (fun _ => proper_bind (proper_field _ _ _) fun _ => proper_ok _) _) fun _ =>
    proper_ok _

theorem proper_compareDrift : Proper s.compareDrift := by
  unfold State.compareDrift
  exact proper_bind (proper_field _ _ _) fun _ => proper_bind (proper_fieldU _ _ _) fun _ =>
    proper_bind (proper_scaled _ _) fun _ => proper_ok _

theorem proper_clockSource : Proper s.clockSource := by
  unfold State.clockSource
  exact proper_bind (proper_field _ _ _) fun _ => proper_ok _

theorem proper_expand (p : Part) : Proper (s.expand p) := by
  cases p with
  | one | ops | est | precharge | captureAll | settle => exact proper_ok _
  | estRepeat m => exact proper_bind (proper_fieldU _ _ _) fun _ => proper_ok _
  | ramp dir flip ofDst inPass =>
    exact proper_bind (proper_bind (proper_field _ _ _) fun _ => proper_bind (proper_periodPs _) fun _ =>
      proper_ok _) fun _ => proper_ok _
  | trimAll =>
    exact proper_bind (proper_field _ _ _) fun _ => proper_bind (proper_fieldU _ _ _) fun _ =>
      proper_bind (proper_scaled _ _) fun _ => proper_ok _

end

/-- An engine operation, if it raises a cause, raises one of R228. -/
def ProperResult : TaskResult → Prop
  | .abort c _ => c ≠ .none
  | .done _ => True
  | .hold _ _ => True
  | .ended _ => True

theorem properResult_ofExcept (s : State) {e : Except Cause State} (h : Proper e) :
    ProperResult (.ofExcept s e) := by
  cases e with
  | ok t => trivial
  | error c => exact h c rfl

theorem properResult_estLoop (more : Nat) (ls : List Nat) (w : EstWork) (s : State) :
    ProperResult (estLoop more ls w s) := by
  induction ls generalizing w s with
  | nil => trivial
  | cons l ls ih =>
    simp only [estLoop]
    split
    · trivial
    · next n s1 _ =>
      cases he : estLane s1 w l n with
      | error c => exact proper_estLane s1 w l n c he
      | ok r => exact ih _ _

theorem properResult_runEst (k : Nat) (w : EstWork) (s : State) : ProperResult (runEst k w s) := by
  induction k generalizing w s with
  | zero => exact properResult_estLoop _ _ _ _
  | succ k ih =>
    have hl := properResult_estLoop (k + 1) w.todo w s
    simp only [runEst]
    generalize estLoop (k + 1) w.todo w s = r at hl
    cases r with
    | done t => exact ih _ _
    | hold | ended => trivial
    | abort c u => exact hl

theorem properResult_pollLoop (sp : Space) (a mask e : Word) (n : Nat) (due : Delay) (s : State) :
    ProperResult (pollLoop sp a mask e n due s) := by
  induction n generalizing due s with
  | zero => trivial
  | succ n ih =>
    simp only [pollLoop]
    split
    · split
      · trivial
      · split
        · trivial
        · exact ih _ _
    · trivial

/-- The only cause of the clock-change wait is its timeout (43_clock_switch.md R196). -/
theorem properResult_ccLoop (t0 : Word) (vs : List Word) (s : State) : ProperResult (ccLoop t0 vs s) := by
  induction vs generalizing s with
  | nil => trivial
  | cons v vs ih =>
    rw [ccLoop_cons]
    split
    · trivial
    · split
      · trivial
      · split
        · exact (by decide : Cause.ccTimeout ≠ .none)
        · exact ih _

theorem properResult_runCcWait (ph : CcPhase) (s : State) : ProperResult (runCcWait ph s) := by
  cases ph with
  | start =>
    simp only [runCcWait]
    split
    · trivial
    · exact properResult_ccLoop _ _ _
  | read t0 => exact properResult_ccLoop _ _ _
  | timer t0 =>
    simp only [runCcWait]
    split
    · trivial
    · split
      · exact (by decide : Cause.ccTimeout ≠ .none)
      · exact properResult_ccLoop _ _ _

theorem properResult_runTask (t : Task) (s : State) : ProperResult (runTask t s) := by
  cases t with
  | check =>
    simp only [runTask]
    split
    · trivial
    · assumption
  | enqueue a v d => exact properResult_ofExcept s (proper_enqueue s a v d)
  | curFromTrn => exact properResult_ofExcept s (proper_curFromTrn s)
  | compareDrift => exact properResult_ofExcept s (proper_compareDrift s)
  | clkSrc => exact properResult_ofExcept s (proper_clockSource s)
  | est w more => exact properResult_runEst more w s
  | poll sp a mask e left due => exact properResult_pollLoop _ _ _ _ _ _ _
  | ccWait ph => exact properResult_runCcWait ph s
  | trim id | trimWrite id =>
    simp only [runTask]
    split
    · trivial
    · next c hc => exact proper_trimValue s s.dstEntry id c hc
  | restore slot sp a =>
    simp only [runTask]
    split
    · trivial
    · exact (by decide : Cause.uninit ≠ .none)
  | awaitDrain | read | spin | delay | save | capture =>
    simp only [runTask]
    split <;> trivial
  | write | rampWait | clearAcc | stageFsp | commitFsp | finish => trivial

theorem cause_ne_none_of_runTasks {ts : List Task} {s u : State} {c : Cause} (h : runTasks ts s = .abort c u) :
    c ≠ .none := by
  induction ts generalizing s with
  | nil => cases h
  | cons t ts ih =>
    simp only [runTasks] at h
    split at h
    · cases h
    · have ht := properResult_runTask t s.tick
      cases hr : runTask t s.tick with
      | done v => rw [hr] at h; exact ih h
      | hold | ended => rw [hr] at h; cases h
      | abort k v => rw [hr] at h ht; cases h; exact ht

theorem cause_ne_none_of_runParts {ps : List Part} {s u : State} {c : Cause} (h : runParts ps s = .abort c u) :
    c ≠ .none := by
  induction ps generalizing s with
  | nil => cases h
  | cons p ps ih =>
    cases he : s.expand p with
    | error k =>
      rw [runParts_error he] at h
      cases h
      exact proper_expand _ p _ he
    | ok ts =>
      rw [runParts_ok he] at h
      cases hr : runTasks ts s with
      | done v => rw [hr] at h; exact ih h
      | paused | ended => rw [hr] at h; cases h
      | abort k v => rw [hr] at h; cases h; exact cause_ne_none_of_runTasks hr

/-- An abort has a cause. -/
theorem cause_ne_none_of_runStages {gs : List Stage} {s u : State} {c : Cause} (h : runStages gs s = .abort c u) :
    c ≠ .none := by
  induction gs generalizing s with
  | nil => cases h
  | cons g gs ih =>
    simp only [runStages] at h
    split at h
    · cases h
    · cases hr : runParts ((s.tick.enter g).stageParts g) (s.tick.enter g) with
      | done v => rw [hr] at h; exact ih h
      | paused | ended => rw [hr] at h; cases h
      | abort k v => rw [hr] at h; cases h; exact cause_ne_none_of_runParts hr

/-! ## The end of a command stands at its end -/

theorem finish_not_mem_microTasks (s : State) (o : MicroOp) (r : ResultSel) : .finish r ∉ s.microTasks o := by
  cases o with
  | tupd =>
    simp only [State.microTasks, State.tupdTasks]
    split <;> simp
  | _ => simp [State.microTasks]

theorem finish_not_mem_substTasks (s : State) (o : MicroOp) (r : ResultSel) : .finish r ∉ s.substTasks o := by
  unfold State.substTasks
  split
  · split <;> simp
  · exact finish_not_mem_microTasks s o r

theorem finish_not_mem_prechargeTasks (is : List PreItem) (r : ResultSel) : .finish r ∉ prechargeTasks is := by
  induction is with
  | nil => simp [prechargeTasks]
  | cons i is ih =>
    simp only [prechargeTasks, List.mem_append, not_or]
    refine ⟨?_, ih⟩
    split <;> simp

theorem finish_not_mem_rampTasks {s : State} {dir : Dir} {f b c : Bool} {ts : List Task}
    (h : s.rampTasks dir f b c = .ok ts) (r : ResultSel) : .finish r ∉ ts := by
  unfold State.rampTasks at h
  cases hr : s.rampOutput dir f b with
  | error k => rw [hr, bind_error] at h; cases h
  | ok qw => rw [hr, bind_ok] at h; cases h; simp

theorem finish_not_mem_trimAllTasks {s : State} {ts : List Task} (h : s.trimAllTasks = .ok ts) (r : ResultSel) :
    .finish r ∉ ts := by
  unfold State.trimAllTasks at h
  cases hf : s.field s.dstEntry offFreq with
  | error k => rw [hf, bind_error] at h; cases h
  | ok f =>
    cases hm : s.fieldU s.dstEntry offMargin with
    | error k => rw [hf, bind_ok, hm, bind_error] at h; cases h
    | ok m =>
      rw [hf, bind_ok, hm, bind_ok] at h
      cases hs : scaled s.pass.value.toNat (fmhz f) with
      | error k => rw [hs, bind_error] at h; cases h
      | ok x =>
        rw [hs, bind_ok] at h
        cases h
        split <;> simp

/-- Only the part that is a command's end becomes its end. -/
theorem part_eq_of_finish_mem {p : Part} {s : State} {ts : List Task} {r : ResultSel} (he : s.expand p = .ok ts)
    (hr : .finish r ∈ ts) : p = .one (.finish r) := by
  cases p with
  | one t => cases he; rw [List.mem_singleton.1 hr]
  | ops l =>
    cases he
    unfold State.opsTasks at hr
    simp only at hr
    split at hr
    · obtain ⟨o, _, ho⟩ := List.mem_flatMap.1 hr
      exact absurd ho (finish_not_mem_substTasks s o r)
    · obtain ⟨o, _, ho⟩ := List.mem_flatMap.1 hr
      exact absurd ho (finish_not_mem_microTasks s o r)
  | estRepeat m =>
    simp only [State.expand] at he
    cases hf : s.fieldU s.dstEntry offSampleCount with
    | error k => rw [hf, bind_error] at he; cases he
    | ok n =>
      rw [hf, bind_ok] at he
      cases he
      cases n <;> simp at hr
  | ramp dir flip ofDst inPass => exact absurd hr (finish_not_mem_rampTasks he r)
  | precharge => cases he; exact absurd hr (finish_not_mem_prechargeTasks _ r)
  | trimAll => exact absurd hr (finish_not_mem_trimAllTasks he r)
  | est | captureAll | settle => cases he; simp at hr

theorem finish_not_mem_stepBody (s : State) (k : Nat) (r : ResultSel) : .one (.finish r) ∉ s.stepBody k := by
  unfold State.stepBody accClearParts State.tupdTasks
  split
  case h_12 => by_cases ht : tristate s.pass.mask = true <;> simp [ht]
  all_goals (repeat' split) <;> simp

theorem finish_not_mem_phaseBody (k : Nat) (r : ResultSel) : .one (.finish r) ∉ phaseBody k := by
  unfold phaseBody
  split <;> simp

theorem finish_not_mem_commandBody (i : Instr) (r : ResultSel) : .one (.finish r) ∉ commandBody i := by
  cases i <;> simp [commandBody]

/-- Only the stage that is a command's end holds its end. -/
theorem stage_eq_of_finish_mem {g : Stage} {s : State} {r : ResultSel} (h : .one (.finish r) ∈ s.stageParts g) :
    g = .finish r := by
  cases g with
  | interlock | checks => simp [State.stageParts] at h
  | body => exact absurd h (finish_not_mem_commandBody _ r)
  | step k =>
    simp only [State.stageParts] at h
    split at h
    · exact absurd h (finish_not_mem_stepBody s k r)
    · cases h
  | phase k => exact absurd h (finish_not_mem_phaseBody k r)
  | finish q =>
    simp only [State.stageParts, List.mem_singleton, Part.one.injEq, Task.finish.injEq] at h
    rw [h]

theorem finish_mem_of_runTasks {ts : List Task} {s u : State} (h : runTasks ts s = .ended u) :
    ∃ r, .finish r ∈ ts := by
  induction ts generalizing s with
  | nil => cases h
  | cons t ts ih =>
    simp only [runTasks] at h
    split at h
    · cases h
    · cases hr : runTask t s.tick with
      | done v =>
        rw [hr] at h
        obtain ⟨r, hmem⟩ := ih h
        exact ⟨r, List.mem_cons_of_mem _ hmem⟩
      | ended v =>
        obtain ⟨r, rfl⟩ := runTask_ended hr
        exact ⟨r, List.mem_cons_self⟩
      | hold | abort => rw [hr] at h; cases h

theorem finish_mem_of_runParts {ps : List Part} {s u : State} (h : runParts ps s = .ended u) :
    ∃ r, .one (.finish r) ∈ ps := by
  induction ps generalizing s with
  | nil => cases h
  | cons p ps ih =>
    cases he : s.expand p with
    | error k => rw [runParts_error he] at h; cases h
    | ok ts =>
      rw [runParts_ok he] at h
      cases hr : runTasks ts s with
      | done v =>
        rw [hr] at h
        obtain ⟨r, hmem⟩ := ih h
        exact ⟨r, List.mem_cons_of_mem _ hmem⟩
      | ended v =>
        obtain ⟨r, hmem⟩ := finish_mem_of_runTasks hr
        obtain rfl := part_eq_of_finish_mem he hmem
        exact ⟨r, List.mem_cons_self⟩
      | paused | abort => rw [hr] at h; cases h

/-! ## `STEP` -/

/-- `STEP` when a stage has been entered (43_clock_switch.md R171). -/
def stepIn (w : Word) : Stage → Word
  | .step k => BitVec.ofNat 32 k
  | .phase k => BitVec.ofNat 32 k
  | .interlock => w
  | .checks => w
  | .body => w
  | .finish _ => w

theorem enter_stepNo (s : State) (g : Stage) : (s.enter g).stepNo = stepIn s.stepNo g := by
  cases g <;> rfl

/-- Within a stage nothing changes `STEP`. -/
theorem stepNo_ops (n : Word) : OpsKeep (fun s => s.stepNo = n) (fun s => s.stepNo = n) (fun _ => True)
    (fun _ => True) (fun _ => False) where
  tick _ h := h
  reg _ _ _ h := h
  smp _ _ _ h := h
  tim _ _ _ _ h := h
  pto _ h := h
  write _ _ _ _ h := h
  enqueue _ _ _ _ _ h he := by obtain ⟨_, _, rfl⟩ := enqueue_cases he; exact h
  save _ _ _ h := h
  value _ _ h := h
  rampWait _ b _ h := by cases b <;> exact h
  commit _ _ _ h := by unfold estCommit; exact h
  clearAcc _ h := (State.clearAcc_stepNo _).trans h
  curFromTrn _ _ h he := by obtain ⟨_, rfl, _⟩ := curFromTrn_cases he; exact h
  compareDrift _ _ h he := by obtain ⟨_, _, _, _, _, _, rfl⟩ := compareDrift_cases he; exact h
  fspWr _ _ h := h
  fspOp _ h := h
  clockSource _ _ h he := by obtain ⟨_, _, rfl⟩ := clockSource_cases he; exact h
  capture _ _ _ _ h := (State.captureItem_stepNo ..).trans h
  finish _ _ h := h
  fresh _ _ _ := trivial
  next _ _ _ _ _ _ _ _ := trivial
  items _ _ _ _ := trivial
  enter _ _ hg _ := hg.elim

/-- What `STEP` is throughout a stage, and when the command ends in it. -/
theorem stepNo_of_stage (g : Stage) (s : State) :
    (runParts ((s.enter g).stageParts g) (s.enter g)).All (fun u => u.stepNo = stepIn s.stepNo g)
      (fun u => u.stepNo = stepIn s.stepNo g) (TaskOk (fun _ => True) fun _ => True)
      (PartOk (fun _ => True) fun _ => True) (fun _ => False) :=
  runParts_all (stepNo_ops _).engine _ _ (fun p _ => partOk_true p) (enter_stepNo s g)

/-- A command that comes to its end has `STEP` as its stages, one after the other, have left it. -/
theorem stepNo_of_runStages {gs : List Stage} {r : ResultSel} {s u : State} (hg : ∀ q, .finish q ∉ gs)
    (h : runStages (gs ++ [.finish r]) s = .ended u) : u.stepNo = gs.foldl stepIn s.stepNo := by
  induction gs generalizing s with
  | nil =>
    have hstage := stepNo_of_stage (.finish r) s.tick
    simp only [List.nil_append, runStages] at h
    split at h
    · cases h
    · cases hr : runParts ((s.tick.enter (.finish r)).stageParts (.finish r)) (s.tick.enter (.finish r)) with
      | ended v => rw [hr] at h hstage; cases h; exact hstage
      | done | paused | abort => rw [hr] at h; cases h
  | cons g gs ih =>
    have hstage := stepNo_of_stage g s.tick
    simp only [List.cons_append, runStages] at h
    split at h
    · cases h
    · cases hr : runParts ((s.tick.enter g).stageParts g) (s.tick.enter g) with
      | ended v =>
        obtain ⟨q, hmem⟩ := finish_mem_of_runParts hr
        obtain rfl := stage_eq_of_finish_mem hmem
        exact absurd List.mem_cons_self (hg q)
      | done v =>
        rw [hr] at h hstage
        have hstep : v.stepNo = stepIn s.stepNo g := hstage
        rw [ih (fun q hq => hg q (List.mem_cons_of_mem _ hq)) h, hstep, List.foldl_cons]
      | paused | abort => rw [hr] at h; cases h

/-- `STEP` after a command's success (10_state.md R31, 43_clock_switch.md R201, 44_periodic_control.md R213). -/
def lastStep (i : Instr) : Word := if cmdIsSwitch i then 25 else if i = .pcomp then 0x107 else 0

/-- A command is its stages up to its end, the last of which leave `lastStep`. -/
theorem stagesOf_eq_append_finish (i : Instr) :
    ∃ gs r, stagesOf i = gs ++ [.finish r] ∧ (∀ q, .finish q ∉ gs) ∧ gs.foldl stepIn 0 = lastStep i := by
  cases i with
  | nop => exact ⟨[], .keep, rfl, nofun, rfl⟩
  | estDvfsPartial | estDvfsFinal | estTrainPartial | estTrainFinal | estPeriodic | trim =>
    exact ⟨[.checks, .body], .value, rfl, by simp, rfl⟩
  | rampdn | rampup => exact ⟨[.interlock, .checks, .body], .value, rfl, by simp, rfl⟩
  | switch m => exact ⟨[.interlock, .checks] ++ switchStages, .stepThree, rfl, by simp [switchStages], rfl⟩
  | pcomp => exact ⟨[.checks] ++ pcompStages, .value, rfl, by simp [pcompStages], rfl⟩

/-- Settles O27: a command that is not busy and has no cause has come to its end, its last stage. -/
theorem stepAfterSuccess : Obligations.StepAfterSuccess := by
  intro i s t hw hb h hbusy hcause
  rw [exec_eq i hw, launch_idle hb] at h
  cases h
  have hrun := busy_runStages (stagesOf i) (s.accept i) rfl
  cases hr : runStages (stagesOf i) (s.accept i) with
  | done u =>
    rw [hr] at hrun hbusy
    exact absurd (show u.busy = true from hrun) (by rw [show u.busy = false from hbusy]; decide)
  | paused c u =>
    rw [hr] at hrun hbusy
    exact absurd (show u.busy = true from hrun.1) (by rw [show u.busy = false from hbusy]; decide)
  | abort c u =>
    rw [hr] at hcause
    exact absurd hcause (cause_ne_none_of_runStages hr)
  | ended u =>
    obtain ⟨gs, r, hgs, hend, hlast⟩ := stagesOf_eq_append_finish i
    rw [hgs] at hr
    rw [Run.state_ended, stepNo_of_runStages hend hr]
    exact hlast

end Sys2Proof.Proofs.CommandEnds
end

section
/-! Proofs of the statements of the memory and its agents: it does not matter when the environment's answers come (spec
20_memory.md R61, R88, 60_exceptions.md R235). -/

namespace Sys2Proof.Proofs.LateAnswers

open Sys2Proof Sys2Proof.Machine Sys2Proof.Proofs.SourceIndex

/-- With no command in progress there is nothing to go on with. -/
theorem resume_free {s : State} (h : s.busy = false) : s.resume = s := by
  simp [State.resume, h]

/-- What ends or suspends a run writes the remainder in `PASS`, so the one it found there leaves no trace. -/
theorem state_relabel_cont (c c' : Cont) (x y : BitVec 10) (r : Run) :
    (Run.relabel c x y r).state = (Run.relabel c' x y r).state := by
  cases r <;> rfl

/-- A run does not depend on the remainder kept in `PASS` when it begins. -/
theorem runCont_suspend_state (k c : Cont) (s : State) : (runCont k (s.suspend c)).state = (runCont k s).state := by
  have hfree : SrcFree s.pass.srcIdx s := .inr rfl
  calc (runCont k (s.suspend c)).state
      = (Run.relabel c s.srcIdx s.pass.srcIdx (runCont k s)).state :=
        congrArg Run.state (runCont_relabel c s.srcIdx s.pass.srcIdx k s hfree)
    _ = (Run.relabel s.pass.cont s.srcIdx s.pass.srcIdx (runCont k s)).state := state_relabel_cont ..
    _ = (runCont k s).state :=
        congrArg Run.state (runCont_relabel s.pass.cont s.srcIdx s.pass.srcIdx k s hfree).symm

/-- A command left waiting goes on with what is left of it. -/
theorem resume_suspend {s : State} (h : s.busy = true) (c : Cont) : (s.suspend c).resume = (runCont c s).state := by
  rw [State.resume, if_pos (by exact h)]
  exact runCont_suspend_state c c s

section

variable (rs ns ts : List Word)

/-- A run gone on with the answers that came later leaves the state that going on after it leaves: one left waiting
goes on from `PASS`, one that has ended has nothing to go on with. -/
theorem goOn_state {r : Run} {T : Task → Prop} {U : Part → Prop} {G : Stage → Prop}
    (h : r.All (fun s => s.busy = true) (fun s => s.busy = false ∧ s.pass = Pass.idle) T U G) :
    (Run.goOn rs ns ts r).state = (State.withAnswers rs ns ts r.state).resume := by
  cases r with
  | done s =>
    have hb : (s.withAnswers rs ns ts).busy = true := h
    exact (resume_suspend hb ⟨[], [], []⟩).symm
  | paused c s =>
    have hb : (s.withAnswers rs ns ts).busy = true := h.1
    exact (resume_suspend hb c).symm
  | ended s =>
    have hb : (s.withAnswers rs ns ts).busy = false := h.1
    exact (resume_free hb).symm
  | abort c s =>
    have hb : (State.withAnswers rs ns ts (s.abort c)).busy = false := rfl
    exact (resume_free hb).symm

/-- A command with every answer there at once does what it does with some of them and going on with the others. -/
theorem launch_withAnswers {i : Instr} {gs : List Stage} {s : State} (hb : s.busy = false) :
    launch i gs (s.withAnswers rs ns ts) = (State.withAnswers rs ns ts (launch i gs s)).resume := by
  have hrun : runStages gs ((s.accept i).withAnswers rs ns ts) = Run.goOn rs ns ts (runStages gs (s.accept i)) :=
    runStages_withAnswers rs ns ts gs (s.accept i)
  rw [launch_idle hb, launch_idle (s := s.withAnswers rs ns ts) hb,
    ← goOn_state rs ns ts (busy_runStages gs (s.accept i) rfl), ← hrun]
  rfl

/-- An illegal identity executes nothing, so nothing is left to go on with (log entry 16). -/
theorem illegalCommand_withAnswers {s : State} (hb : s.busy = false) :
    (s.withAnswers rs ns ts).illegalCommand = (State.withAnswers rs ns ts s.illegalCommand).resume := by
  have he : s.illegalCommand = s.illegalWord := if_neg (by rw [hb]; decide)
  have he' : (s.withAnswers rs ns ts).illegalCommand = (s.withAnswers rs ns ts).illegalWord :=
    if_neg (by rw [show (s.withAnswers rs ns ts).busy = false from hb]; decide)
  rw [he, he', resume_free (show (State.withAnswers rs ns ts s.illegalWord).busy = false from hb)]
  rfl

end

/-- Settles O60: every operation goes on with later answers as it would have had they been there
(`runTask_withAnswers`), so does every run, and what was left of the command in `PASS` is that run's remainder. -/
theorem lateAnswersGiveTheSameRun : Obligations.LateAnswersGiveTheSameRun := by
  intro i s t rs ns ts hb h
  change exec i (s.withAnswers rs ns ts) = .next (t.withAnswers rs ns ts).resume
  cases hw : i.wellFormed with
  | false =>
    rw [exec_ill i hw] at h ⊢
    cases h
    rw [illegalCommand_withAnswers rs ns ts hb]
  | true =>
    rw [exec_eq i hw] at h ⊢
    cases h
    rw [launch_withAnswers rs ns ts hb]

end Sys2Proof.Proofs.LateAnswers
end

section
/-! Proofs of the statements of the memory and its agents: host accesses that are refused, and the reserved parts of the
window (spec 20_memory.md R56 to R60, R68). -/

namespace Sys2Proof.Proofs.RefusedAccess

open Sys2Proof Sys2Proof.Machine

/-- A host access in the window that is not an aligned 32-bit access (20_memory.md R60). -/
theorem hostAccess_refused {s : State} {wr : Bool} {sz : AccessSize} {off : Nat} {w : Word} {run}
    (hlt : off < 4294967296) (h : sz ≠ .word ∨ off % 4 ≠ 0) :
    hostAccess run ⟨wr, sz, s.params.dteBase + off, w⟩ s =
      if wr then .next s.setAccerr else .next (s.setAccerr.reply 0) := by
  have hin : ¬(s.params.dteBase + off < s.params.dteBase ∨ s.params.dteBase + 4294967296 ≤ s.params.dteBase + off) := by
    omega
  have hbad : ¬(sz = .word ∧ (s.params.dteBase + off - s.params.dteBase) % 4 = 0) := by
    rw [Nat.add_sub_cancel_left]
    rintro ⟨hword, halign⟩
    exact h.elim (· hword) (· halign)
  simp only [hostAccess]
  rw [if_neg hin, if_neg hbad]

/-- Settles O7. -/
theorem unalignedAccessIsRefused : Obligations.UnalignedAccessIsRefused := by
  intro s es wr sz off w hp hi hlt h
  have hstep : step s = if wr then .next (State.setAccerr { s with inbox := es })
      else .next ((State.setAccerr { s with inbox := es }).reply 0) := by
    rw [step_event hp hi]
    exact hostAccess_refused (s := { s with inbox := es }) hlt h
  constructor
  · rintro rfl
    exact hstep
  · rintro rfl
    exact hstep

/-- A host access to a reserved word changes nothing and reads 0. -/
theorem step_reserved {s : State} {es : List Event} {off : Nat} {wr : Bool} {w : Word} (hp : paramsOk s.params = true)
    (hi : s.inbox = .host ⟨wr, .word, s.params.dteBase + off, w⟩ :: es) (h4 : off % 4 = 0) (hlt : off < 4294967296)
    (hl : locate s.params off = .reserved) :
    step s = .next (if wr then { s with inbox := es } else { s with inbox := es, hostOut := s.hostOut ++ [0] }) := by
  rw [step_host hp hi h4 hlt, hl]
  cases wr <;> rfl

/-- Settles O12: the three ranges of reserved offsets, each of which reaches a reserved word. -/
theorem reservedWindowReadsZero : Obligations.ReservedWindowReadsZero := by
  intro s es off wr w hp hi h4 hlt h
  refine step_reserved hp hi h4 hlt ?_
  rcases h with ⟨hlow, hhigh⟩ | habove | ⟨i, o, hentry, ho, rfl, hres⟩
  · exact locate_hole hlow hhigh
  · exact locate_above hp habove
  · have hoff : entryOffReserved o = true := by simpa [entryOffReserved] using hres
    rw [locate_entry hp hentry ho, if_pos hoff]

end Sys2Proof.Proofs.RefusedAccess
end

section
/-! Proofs of the statements of the memory and its agents: the queue and its drain (spec 20_memory.md R81 to R87). -/

namespace Sys2Proof.Proofs.Queue

open Sys2Proof Sys2Proof.Machine

/-! ## The drain's step (20_memory.md R86, R87) -/

section

variable {s : State}

theorem drainStep_stopped (hd : s.drain = false) : s.drainStep = s := by
  simp [State.drainStep, hd]

theorem drainStep_empty (hd : s.drain = true) (hq : s.queue = []) :
    s.drainStep = { s with drain := false, drainClk := 0 } := by
  simp [State.drainStep, hd, hq]

theorem drainStep_due {e : QEntry} {q : List QEntry} (hd : s.drain = true) (hq : s.queue = e :: q)
    (hc : e.delay.toNat ≤ s.drainClk) :
    s.drainStep = { s with queue := q, drainClk := 0, trace := s.trace ++ [.drained e.addr e.value e.delay] } := by
  simp [State.drainStep, hd, hq, hc]

theorem drainStep_early {e : QEntry} {q : List QEntry} (hd : s.drain = true) (hq : s.queue = e :: q)
    (hc : s.drainClk < e.delay.toNat) : s.drainStep = s := by
  simp [State.drainStep, hd, hq, Nat.not_le.2 hc]

/-- The drain writes the head of the queue and removes it, or leaves the queue alone. -/
theorem drainStep_queue (s : State) :
    s.drainStep.queue = s.queue ∨
      ∃ e, s.queue = e :: s.drainStep.queue ∧
        s.drainStep.trace = s.trace ++ [.drained e.addr e.value e.delay] ∧ s.drain = true := by
  cases hd : s.drain with
  | false => rw [drainStep_stopped hd]; exact .inl rfl
  | true =>
    cases hq : s.queue with
    | nil => rw [drainStep_empty hd hq]; exact .inl hq
    | cons e q =>
      by_cases hc : e.delay.toNat ≤ s.drainClk
      · rw [drainStep_due hd hq hc]; exact .inr ⟨e, rfl, rfl, rfl⟩
      · rw [drainStep_early hd hq (Nat.lt_of_not_le hc)]; exact .inl hq

theorem step_drain {es : List Event} (hp : paramsOk s.params = true) (hi : s.inbox = .drain :: es) :
    step s = .next (State.drainStep { s with inbox := es }) :=
  step_event hp hi

/-- Clocks pass for the head entry of a queue that drains (20_memory.md R86). -/
theorem step_emcClocks {n : Nat} {es : List Event} (hp : paramsOk s.params = true) (hi : s.inbox = .emcClocks n :: es)
    (hd : s.drain = true) : step s = .next { s with inbox := es, drainClk := s.drainClk + n } := by
  rw [step_event hp hi]
  simp [handleEvent, State.passClocks, hd]

end

/-- Settles O53. -/
theorem drainWritesTheHead : Obligations.DrainWritesTheHead := by
  intro s es hp hi
  rw [step_drain hp hi]
  refine ⟨fun hd => ?_, fun hd hq => ?_, fun e q hd hq => ⟨fun hc => ?_, fun hc => ?_⟩⟩
  · rw [drainStep_stopped (s := { s with inbox := es }) hd]
  · rw [drainStep_empty (s := { s with inbox := es }) hd hq]
  · rw [drainStep_due (s := { s with inbox := es }) hd hq hc]
  · rw [drainStep_early (s := { s with inbox := es }) hd hq hc]

/-! ## Draining the whole queue -/

/-- A run goes on after a step that answers. -/
theorem run_next {M : Host.Core} {s t : M.State} (h : M.step s = .next t) (k : Nat) : M.run (k + 1) s = M.run k t := by
  rw [Host.Core.run, h]

/-- Two steps of a run. -/
theorem run_twice {s t u : State} (h : step s = .next t) (h' : step t = .next u) (k : Nat) :
    Host.Core.run core (k + 2) s = Host.Core.run core k u :=
  (run_next (M := core) h (k + 1)).trans (run_next (M := core) h' k)

/-- The state after the drain has written the head `e`, with `q` behind it and `es` still to happen. -/
def headWritten (s : State) (e : QEntry) (q : List QEntry) (es : List Event) : State :=
  { s with
    inbox := es, queue := q, drainClk := 0, trace := s.trace ++ [.drained e.addr e.value e.delay] }

/-- The head entry's clocks pass and the drain writes it: two steps, after which the next entry waits from 0. -/
theorem run_drainHead {s : State} {e : QEntry} {q : List QEntry} {es : List Event} (k : Nat)
    (hp : paramsOk s.params = true) (hd : s.drain = true) (hc : s.drainClk = 0) (hq : s.queue = e :: q)
    (hi : s.inbox = .emcClocks e.delay.toNat :: .drain :: es) :
    Host.Core.run core (k + 2) s = Host.Core.run core k (headWritten s e q es) := by
  refine run_twice (step_emcClocks hp hi hd) ((step_drain (es := es) (by exact hp) rfl).trans (congrArg _ ?_)) k
  exact drainStep_due hd hq (by simp [hc])

/-- Settles O54, by induction on the queue. -/
theorem queueDrainsInOrder : Obligations.QueueDrainsInOrder := by
  intro s es hp hd hc hi
  induction hq : s.queue generalizing s with
  | nil =>
    rw [hq] at hi
    have hdrain := step_drain (es := es) hp hi
    rw [drainStep_empty (s := { s with inbox := es }) hd hq] at hdrain
    refine (run_next (M := core) hdrain 0).trans ?_
    simp [Host.Core.run, hq]
  | cons e q ih =>
    rw [hq] at hi
    have hrest := ih (headWritten s e q ((q.flatMap fun e => [.emcClocks e.delay.toNat, .drain]) ++ .drain :: es))
      hp hd rfl rfl rfl
    refine (run_drainHead (2 * q.length + 1) hp hd hc hq hi).trans (hrest.trans ?_)
    simp [headWritten]

/-! ## The queue over any step -/

/-- Nothing the engine does takes an entry from the queue (20_memory.md R81, R83). -/
theorem queueGrows_ops (q : List QEntry) :
    OpsKeep (fun s => q <+: s.queue) (fun s => q <+: s.queue) (fun _ => True) (fun _ => True) (fun _ => True) where
  tick _ h := h
  reg _ _ _ h := h
  smp _ _ _ h := h
  tim _ _ _ _ h := h
  pto _ h := h
  write _ _ _ _ h := h
  enqueue _ _ _ _ _ h he := by
    obtain ⟨_, _, rfl⟩ := enqueue_cases he
    exact h.trans (List.prefix_append _ _)
  save _ _ _ h := h
  value _ _ h := h
  rampWait _ b _ h := by cases b <;> exact h
  commit _ _ _ h := by unfold estCommit; exact h
  clearAcc _ h := by unfold State.clearAcc; simpa using h
  curFromTrn _ _ h he := by obtain ⟨_, rfl, _⟩ := curFromTrn_cases he; exact h
  compareDrift _ _ h he := by obtain ⟨_, _, _, _, _, _, rfl⟩ := compareDrift_cases he; exact h
  fspWr _ _ h := h
  fspOp _ h := h
  clockSource _ _ h he := by obtain ⟨_, _, rfl⟩ := clockSource_cases he; exact h
  capture _ _ _ _ h := by unfold State.captureItem; simpa using h
  finish _ _ h := h
  fresh _ _ _ := trivial
  next _ _ _ _ _ _ _ _ := trivial
  items _ _ _ _ := trivial
  enter g _ _ h := by cases g <;> exact h

theorem queueGrows_run_state {q : List QEntry} {r : Run} {T : Task → Prop} {U : Part → Prop} {G : Stage → Prop}
    (h : r.All (fun s => q <+: s.queue) (fun s => q <+: s.queue) T U G) : q <+: r.state.queue := by
  cases r with
  | done s => exact h
  | paused c s => exact h.1
  | ended s => exact h
  | abort c s => exact h

theorem queueGrows_resume (s : State) : s.queue <+: s.resume.queue := by
  unfold State.resume
  split
  · exact queueGrows_run_state (runCont_all (queueGrows_ops s.queue).engine _ s (fun t _ => taskOk_true t)
      (fun p _ => partOk_true p) (fun _ _ => trivial) List.prefix_rfl)
  · exact List.prefix_rfl

theorem queue_illegalCommand (s : State) : s.illegalCommand.queue = s.queue := by
  unfold State.illegalCommand
  split <;> rfl

theorem queueGrows_exec {i : Instr} {s t : State} (h : exec i s = .next t) : s.queue <+: t.queue := by
  cases hw : i.wellFormed with
  | false =>
    rw [exec_ill i hw] at h
    cases h
    rw [queue_illegalCommand]
  | true =>
    rw [exec_eq i hw] at h
    cases h
    cases hb : s.busy with
    | true => rw [launch_busy hb]; exact List.prefix_rfl
    | false =>
      rw [launch_idle hb]
      exact queueGrows_run_state (runStages_all (queueGrows_ops s.queue).engine (stagesOf i) (s.accept i)
        (fun _ _ => trivial) List.prefix_rfl)

theorem queue_writeCsr (s : State) (c : Csr) (w : Word) : (s.writeCsr c w).queue = s.queue := by
  cases c with
  | cmd | status | result | step | fsp | id => rfl
  | cfg | srcIdx | dstIdx | entryCount => simp only [State.writeCsr]; split <;> rfl

theorem queue_writeEntry (s : State) (i o : Nat) (w : Word) : (s.writeEntry i o w).queue = s.queue := by
  unfold State.writeEntry
  split <;> rfl

theorem queue_passClocks (s : State) (n : Nat) : (s.passClocks n).queue = s.queue := by
  unfold State.passClocks
  split <;> rfl

/-- What a step may do to the queue: append at the tail, or write and remove the head (20_memory.md R81). -/
def FifoChange (s t : State) : Prop :=
  (∃ new, t.queue = s.queue ++ new) ∨
    ∃ e, s.queue = e :: t.queue ∧ t.trace = s.trace ++ [.drained e.addr e.value e.delay] ∧ s.drain = true

theorem fifoChange_of_grows {s t : State} (h : s.queue <+: t.queue) : FifoChange s t := by
  obtain ⟨new, hnew⟩ := h
  exact .inl ⟨new, hnew.symm⟩

theorem fifoChange_of_same {s t : State} (h : t.queue = s.queue) : FifoChange s t :=
  fifoChange_of_grows (h ▸ List.prefix_rfl)

theorem fifoChange_drainStep (s : State) : FifoChange s s.drainStep := by
  obtain hq | hhead := drainStep_queue s
  · exact fifoChange_of_same hq
  · exact .inr hhead

/-- The engine appends, the drain takes the head, and nothing else touches the queue. -/
theorem fifoChange_stepCase {u t : State} (h : StepCase u t) : FifoChange u t := by
  cases h with
  | resume q => exact fifoChange_of_grows (queueGrows_resume { u with quantum := q })
  | exec i he => exact fifoChange_of_grows (queueGrows_exec he)
  | illegal => exact fifoChange_of_same (queue_illegalCommand u)
  | csr c w => exact fifoChange_of_same (queue_writeCsr u c w)
  | entry w => exact fifoChange_of_same (queue_writeEntry u _ _ w)
  | drain => exact fifoChange_drainStep u
  | clocks n => exact fifoChange_of_same (queue_passClocks u n)
  | same | reply | accerr | accerrReply | reg | smp | tim => exact fifoChange_of_same rfl

/-- Settles O55. -/
theorem queueIsFifo : Obligations.QueueIsFifo := by
  intro s t h hr
  obtain hc | ⟨p, es, hi, -, -⟩ := step_case h
  · have hchange : FifoChange s.popInbox t := fifoChange_stepCase hc
    exact hchange
  · rw [nextIsReset, hi] at hr
    cases hr

end Sys2Proof.Proofs.Queue
end

section
/-! Proofs of the statements of the memory and its agents: polls, spins, delays and the timing update (spec 20_memory.md
R64 to R75, 44_periodic_control.md R215). -/

namespace Sys2Proof.Proofs.Waits

open Sys2Proof Sys2Proof.Machine

/-! ## Polls and spins (20_memory.md R64, R65, R75) -/

/-- The state after register reads at one address, with `vs` the answers left. -/
def readsTaken (s : State) (sp : Space) (a : Word) (rs vs : List Word) : State :=
  { s with regIn := vs, trace := s.trace ++ rs.map (.read sp a) }

theorem readsTaken_nil {s : State} {vs : List Word} (sp : Space) (a : Word) (h : s.regIn = vs) :
    readsTaken s sp a [] vs = s := by
  subst h
  simp [readsTaken]

theorem readsTaken_append (s : State) (sp : Space) (a : Word) (qs rs us vs : List Word) :
    readsTaken (readsTaken s sp a qs us) sp a rs vs = readsTaken s sp a (qs ++ rs) vs := by
  simp [readsTaken]

/-- Reads and one more, in the terms of the statements. -/
theorem readsTaken_concat (s : State) (sp : Space) (a : Word) (rs : List Word) (r : Word) (vs : List Word) :
    readsTaken s sp a (rs ++ [r]) vs =
      { s with regIn := vs, trace := s.trace ++ rs.map (.read sp a) ++ [.read sp a r] } := by
  simp [readsTaken]

section

variable {s : State} {sp : Space} {a mask e : Word}

theorem regRead_cons {v : Word} {vs : List Word} (sp : Space) (a : Word) (h : s.regIn = v :: vs) :
    s.regRead sp a = some (v, readsTaken s sp a [v] vs) := by
  simp [State.regRead, h, readsTaken]

/-- One read of a poll with no gap. -/
theorem pollLoop_read {v : Word} {vs : List Word} (n : Nat) (hg : s.params.pollGapUs = 0) (h : s.regIn = v :: vs) :
    pollLoop sp a mask e (n + 1) .none s =
      if v &&& mask = e then .done (readsTaken s sp a [v] vs)
      else pollLoop sp a mask e n .none (readsTaken s sp a [v] vs) := by
  have hgap : pollGap (readsTaken s sp a [v] vs).params = .none := if_pos hg
  simp only [pollLoop, runDelay, regRead_cons sp a h, hgap]

/-- Reads that do not match use the budget of a poll with no gap, one each. -/
theorem pollLoop_fails {fails vs : List Word} (n : Nat) (hf : ∀ f ∈ fails, f &&& mask ≠ e)
    (hg : s.params.pollGapUs = 0) (h : s.regIn = fails ++ vs) :
    pollLoop sp a mask e (fails.length + n) .none s = pollLoop sp a mask e n .none (readsTaken s sp a fails vs) := by
  induction fails generalizing s with
  | nil => rw [readsTaken_nil (vs := vs) sp a h, List.length_nil, Nat.zero_add]
  | cons f fails ih =>
    rw [List.length_cons, Nat.add_right_comm, pollLoop_read (vs := fails ++ vs) _ hg h,
      if_neg (hf f List.mem_cons_self),
      ih (s := readsTaken s sp a [f] (fails ++ vs)) (fun g hm => hf g (List.mem_cons_of_mem _ hm)) hg rfl,
      readsTaken_append, List.singleton_append]

/-- One read of a spin. -/
theorem spinLoop_read (v : Word) (vs : List Word) :
    spinLoop sp a mask e (v :: vs) s =
      if v &&& mask = e then (readsTaken s sp a [v] vs, true)
      else spinLoop sp a mask e vs (readsTaken s sp a [v] vs) := rfl

/-- Reads that do not match leave a spin where it was. -/
theorem spinLoop_fails {fails vs : List Word} (hf : ∀ f ∈ fails, f &&& mask ≠ e) (h : s.regIn = fails ++ vs) :
    spinLoop sp a mask e (fails ++ vs) s = spinLoop sp a mask e vs (readsTaken s sp a fails vs) := by
  induction fails generalizing s with
  | nil => rw [readsTaken_nil (vs := vs) sp a h, List.nil_append]
  | cons f fails ih =>
    rw [List.cons_append, spinLoop_read, if_neg (hf f List.mem_cons_self),
      ih (s := readsTaken s sp a [f] (fails ++ vs)) (fun g hm => hf g (List.mem_cons_of_mem _ hm)) rfl,
      readsTaken_append, List.singleton_append]

/-- A spin ends at the first read that matches. -/
theorem runTask_spin_match {fails vs : List Word} {v : Word} (hf : ∀ f ∈ fails, f &&& mask ≠ e) (hv : v &&& mask = e)
    (h : s.regIn = fails ++ v :: vs) :
    runTask (.spin sp a mask e) s = .done (readsTaken s sp a (fails ++ [v]) vs) := by
  simp only [runTask]
  rw [h, spinLoop_fails hf h, spinLoop_read, if_pos hv, readsTaken_append]

end

/-- Settles O50. -/
theorem pollsAreBoundedAndSpinsAreNot : Obligations.PollsAreBoundedAndSpinsAreNot := by
  intro s sp a mask e v fails vs n hf
  refine ⟨fun hg h => ?_, fun hg hv h => ?_, fun h => ?_, fun hv h => ?_⟩
  · have hpoll := pollLoop_fails (sp := sp) (a := a) 0 hf hg h
    rw [Nat.add_zero] at hpoll
    exact hpoll
  · have hread := pollLoop_read (s := readsTaken s sp a fails (v :: vs)) (sp := sp) (a := a) (mask := mask) (e := e) n
      hg rfl
    simp only [runTask]
    rw [Nat.add_assoc, Nat.add_comm 1 n, pollLoop_fails _ hf hg h, hread, if_pos hv, readsTaken_append,
      readsTaken_concat]
  · have hall : s.regIn = fails ++ [] := by simpa using h
    simp only [runTask]
    rw [hall, spinLoop_fails hf hall]
    rfl
  · rw [runTask_spin_match hf hv h, readsTaken_concat]

/-! ## The timing update (20_memory.md R70) -/

/-- A spin that ends at its first read, and what follows it. -/
theorem runTasks_spin_first {s : State} {sp : Space} {a mask e v : Word} {vs : List Word} (ts : List Task)
    (hq : s.quantum = none) (hv : v &&& mask = e) (h : s.regIn = v :: vs) :
    runTasks (.spin sp a mask e :: ts) s = runTasks ts (readsTaken s sp a [v] vs) :=
  runTasks_done hq (runTask_spin_match (fails := []) (by simp) hv h)

theorem tupdTasks_eq (s : State) :
    s.tupdTasks =
      .write .emc s.params.tupd.regAddr s.params.tupd.regValue ::
        .spin .emc s.params.tupd.ackAddr s.params.tupd.ackMask s.params.tupd.ackExpect ::
          (if s.cfg.getLsbD 1 then
            [.spin .emc1 s.params.tupd.ackAddr s.params.tupd.ackMask s.params.tupd.ackExpect]
          else []) := rfl

/-- Settles O52: the trigger write, and a spin per channel present that ends at its first read. -/
theorem timingUpdateAwaitsBothChannels : Obligations.TimingUpdateAwaitsBothChannels := by
  intro s v0 v1 vs hq h0 h1 hin
  have hwrite : runTask (.write .emc s.params.tupd.regAddr s.params.tupd.regValue) s =
      .done (s.regWrite .emc s.params.tupd.regAddr s.params.tupd.regValue) := rfl
  rw [tupdTasks_eq]
  refine (runTasks_done hq hwrite).trans ((runTasks_spin_first _ (by exact hq) h0 (by exact hin)).trans ?_)
  by_cases hdual : s.cfg.getLsbD 1 = true
  · simp only [if_pos hdual]
    refine (runTasks_spin_first [] (by exact hq) h1 (by rfl)).trans ?_
    simp [readsTaken, State.regWrite]
  · simp only [if_neg hdual]
    simp [readsTaken, State.regWrite]

/-! ## Delays (20_memory.md R67) -/

/-- `s'` is `s` after the readings `t :: ts` of the timer, and nothing else. -/
structure TimerRead (s : State) (t : Word) (ts : List Word) (s' : State) : Prop where
  trace : s'.trace = s.trace ++ .timer t :: ts.map PortEvent.timer
  last : s'.timerUs = (t :: ts).getLast (by simp)
  frame : s' = { s with timerIn := s.timerIn.drop (1 + ts.length), timerUs := s'.timerUs, trace := s'.trace }

theorem timerRead_single {s : State} {a : Word} {as : List Word} (t : Word) (hin : s.timerIn = a :: as) :
    TimerRead s t [] (s.tookTimer as t) where
  trace := rfl
  last := rfl
  frame := by simp [State.tookTimer, hin]

theorem TimerRead.cons {s s' : State} {a t u : Word} {as ts : List Word} (hin : s.timerIn = a :: as)
    (h : TimerRead (s.tookTimer as t) u ts s') : TimerRead s t (u :: ts) s' where
  trace := by rw [h.trace]; simp [State.tookTimer]
  last := h.last.trans (List.getLast_cons (by simp)).symm
  frame := by
    have hdrop : s.timerIn.drop (1 + (u :: ts).length) = as.drop (1 + ts.length) := by
      rw [hin, List.length_cons, Nat.add_comm 1 (ts.length + 1), List.drop_succ_cons, Nat.add_comm ts.length 1]
    rw [hdrop]
    exact h.frame

/-- A wait for a later reading that is over has read the timer until a reading `n` or more after `t0`. -/
theorem delayLoop_over {t0 n : Word} {as : List Word} {s s' : State} (hin : s.timerIn = as)
    (h : delayLoop t0 n as s = (s', true)) : ∃ t ts, TimerRead s t ts s' ∧ n ≤ s'.timerUs - t0 := by
  induction as generalizing s with
  | nil => cases h
  | cons a as ih =>
    simp only [delayLoop] at h
    split at h
    · next hlate =>
      cases h
      exact ⟨s.timerUs + timerStep true a, [], timerRead_single _ hin, hlate⟩
    · obtain ⟨t, ts, hread, hlate⟩ := ih rfl h
      exact ⟨s.timerUs + timerStep true a, t :: ts, hread.cons hin, hlate⟩

/-- A delay that is over has taken a first reading, and if it is not a delay of 0 a later one that is late enough. -/
theorem delay_over {s s' : State} {n : Word} (h : runTask (.delay (.start n)) s = .done s') :
    ∃ t0 ts, TimerRead s t0 ts s' ∧ (n = 0 ↔ ts = []) ∧ n ≤ s'.timerUs - t0 := by
  simp only [runTask, runDelay] at h
  cases hr : s.readTimer false with
  | none => rw [hr] at h; cases h
  | some p =>
    obtain ⟨t0, s1⟩ := p
    obtain ⟨a, as, hin, -, hs1⟩ := readTimer_cases hr
    replace hs1 : s1 = s.tookTimer as t0 := hs1
    subst hs1
    rw [hr] at h
    dsimp only at h
    by_cases hn : n = 0
    · rw [if_pos hn] at h
      cases h
      exact ⟨t0, [], timerRead_single t0 hin, iff_of_true hn rfl, by simp [hn, BitVec.le_def]⟩
    · rw [if_neg hn] at h
      cases hd : delayLoop t0 n as (s.tookTimer as t0) with
      | mk u b =>
        rw [show (s.tookTimer as t0).timerIn = as from rfl, hd] at h
        cases b with
        | false => cases h
        | true =>
          cases h
          obtain ⟨t, ts, hread, hlate⟩ := delayLoop_over (s := s.tookTimer as t0) rfl hd
          exact ⟨t0, t :: ts, hread.cons hin, iff_of_false hn (List.cons_ne_nil t ts), hlate⟩

/-- Settles O51. -/
theorem delayWaitsItsTime : Obligations.DelayWaitsItsTime := by
  intro s s' n h
  obtain ⟨t0, ts, hread, hzero, hlate⟩ := delay_over h
  exact ⟨t0, ts, hread.trace, hzero, hread.last, hlate, hread.frame⟩

end Sys2Proof.Proofs.Waits
end

section
/-! Proofs of the statements of the memory and its agents: ramps that end with `DIV0` or `QUEUE_OVF` (spec 20_memory.md
R84, 42_power_ramp.md R155, R165). -/

namespace Sys2Proof.Proofs.RampAborts

open Sys2Proof Sys2Proof.Machine

/-! ## Enqueuing into a queue too full (20_memory.md R84) -/

/-- A full queue refuses an entry, if the delay is in range. -/
theorem enqueue_full {s : State} (e : QEntry) (hw : s.pass.pendingWait = 0) (h : s.params.qDepth ≤ s.queue.length) :
    s.enqueue e.addr e.value e.delay = .error .queueOvf := by
  have hdelay : e.delay.toNat + 0 < 4294967296 := e.delay.isLt
  unfold State.enqueue
  rw [hw, chk32u_ok hdelay, bind_ok, if_pos h]

/-- Entries queued with no pending wait into a queue too full: those that fit are queued, the next one is refused. -/
theorem runTasks_enqueues_full {es : List QEntry} {s : State} (ts : List Task) (hq : s.quantum = none)
    (hw : s.pass.pendingWait = 0) (hr : s.queue.length ≤ s.params.qDepth)
    (hfull : s.params.qDepth < s.queue.length + es.length) :
    runTasks (es.map (fun e => .enqueue e.addr e.value e.delay) ++ ts) s =
      .abort .queueOvf { s with queue := s.queue ++ es.take (s.params.qDepth - s.queue.length) } := by
  obtain ⟨k, hk⟩ : ∃ k, s.params.qDepth - s.queue.length = k := ⟨_, rfl⟩
  have hlen : (es.take k).length = k := by rw [List.length_take]; omega
  obtain ⟨e, rest, hdrop⟩ := List.exists_cons_of_length_pos (l := es.drop k) (by rw [List.length_drop]; omega)
  have hsplit : es = es.take k ++ e :: rest := by rw [← hdrop, List.take_append_drop]
  have hrefused : runTask (.enqueue e.addr e.value e.delay) { s with queue := s.queue ++ es.take k } =
      .abort .queueOvf { s with queue := s.queue ++ es.take k } := by
    have hdepth : s.params.qDepth ≤ (s.queue ++ es.take k).length := by rw [List.length_append]; omega
    simp only [runTask]
    rw [enqueue_full (s := { s with queue := s.queue ++ es.take k }) e hw hdepth]
    rfl
  rw [hk]
  conv_lhs => rw [hsplit]
  rw [List.map_append, List.append_assoc, runTasks_enqueues _ _ _ hq hw (by omega), List.map_cons, List.cons_append]
  exact runTasks_abort hq hrefused

/-! ## Ramps -/

section

variable {i : Instr} {dir : Dir} {f ofDst : Bool} {s : State}

/-- What `RAMP_FN` gives for the entries the accepted ramp uses, at a frequency that is not 0. -/
theorem rampOutput_accept {e : Nat} (he : (if ofDst then (s.accept i).dstEntry else (s.accept i).srcEntry) = e)
    (hsrc : (s.accept i).srcEntry = srcOf s) (hm : s.marked e offFreq = true) (h0 : freqAt s e ≠ 0) :
    (s.accept i).rampOutput dir f ofDst = .ok (rampOf s dir f e) := by
  have hfield : (s.accept i).field (if ofDst then (s.accept i).dstEntry else (s.accept i).srcEntry) offFreq =
      .ok (freqAt s e) := by
    rw [he]
    exact field_ok hm
  rw [rampOutput_ok hfield h0, hsrc]
  rfl

theorem rampOutput_accept_zero {e : Nat} (he : (if ofDst then (s.accept i).dstEntry else (s.accept i).srcEntry) = e)
    (hm : s.marked e offFreq = true) (h0 : freqAt s e = 0) :
    (s.accept i).rampOutput dir f ofDst = .error .div0 := by
  refine rampOutput_zero ?_
  rw [he, ← h0]
  exact field_ok hm

/-- A command that is a ramp, on a free engine with nothing draining, whose checks succeed. -/
structure RampStarts (i : Instr) (dir : Dir) (f ofDst : Bool) (s : State) : Prop where
  stages : stagesOf i = .interlock :: unitStages
  body : commandBody i = [.ramp dir f ofDst false]
  legal : i.wellFormed = true
  keepsCompw : cmdIsSwitch i = false
  idle : Idle s
  stopped : s.drain = false
  passes : Passes i s

/-- A ramp runs its body at once. -/
theorem RampStarts.exec_eq_run (h : RampStarts i dir f ofDst s) :
    exec i s = .next (runStages unitStages (s.accept i)).state := by
  obtain ⟨hbusy, hq⟩ := h.idle
  rw [exec_eq i h.legal, launch_idle hbusy, h.stages, runStages_interlock (by exact hq) (by exact h.stopped)]

/-- A ramp at a frequency of 0 (42_power_ramp.md R155). -/
theorem RampStarts.exec_div0 (h : RampStarts i dir f ofDst s)
    (ho : (s.accept i).rampOutput dir f ofDst = .error .div0) : exec i s = .next (endedAbort s 0 .div0) := by
  have hexpand : (s.accept i).expand (.ramp dir f ofDst false) = .error .div0 := by
    simp only [State.expand, State.rampTasks]
    rw [ho, bind_error]
  rw [h.exec_eq_run, runStages_unit h.body rfl (by exact h.idle.2) h.passes, runParts_error hexpand, andThen_abort,
    Run.state_abort, abort_accept (by decide)]
  simp [h.keepsCompw, endedAbort]

/-- A ramp of more entries than the queue has room for (20_memory.md R84, 42_power_ramp.md R165). -/
theorem RampStarts.exec_queueOvf (h : RampStarts i dir f ofDst s) {es : List QEntry} {w : Word}
    (ho : (s.accept i).rampOutput dir f ofDst = .ok (es, w)) (hr : s.queue.length ≤ s.params.qDepth)
    (hfull : s.params.qDepth < s.queue.length + es.length) :
    exec i s = .next
      { endedAbort s 0 .queueOvf with queue := s.queue ++ es.take (s.params.qDepth - s.queue.length) } := by
  have hexpand : (s.accept i).expand (.ramp dir f ofDst false) =
      .ok (es.map (fun e => .enqueue e.addr e.value e.delay) ++ [.rampWait false w]) := by
    simp only [State.expand, State.rampTasks]
    rw [ho, bind_ok]
  have hrun := runTasks_enqueues_full (s := s.accept i) (es := es) [.rampWait false w] h.idle.2 rfl hr hfull
  rw [h.exec_eq_run, runStages_unit_abort h.body rfl (by exact h.idle.2) h.passes hexpand hrun]
  simp [State.abort, State.endFlags, endedAbort, State.accept, statusCode, h.keepsCompw]

end

theorem rampdn_starts {f : Bool} {s : State} (hi : Idle s) (hd : s.drain = false) (hc : Passes (.rampdn f) s) :
    RampStarts (.rampdn f) .down f false s :=
  ⟨rfl, rfl, rfl, rfl, hi, hd, hc⟩

theorem rampup_starts {f : Bool} {s : State} (hi : Idle s) (hd : s.drain = false) (hc : Passes (.rampup f) s) :
    RampStarts (.rampup f) .up f true s :=
  ⟨rfl, rfl, rfl, rfl, hi, hd, hc⟩

/-- The checks of a ramp make sure of the frequency it uses (42_power_ramp.md R162). -/
theorem marked_of_passes_rampdn {f : Bool} {s : State} (h : Passes (.rampdn f) s) :
    s.marked (srcOf s) offFreq = true := by
  obtain ⟨_, _, hmarked⟩ := (checkCause_none_iff _).1 h
  exact hmarked (srcOf s, offFreq) List.mem_cons_self

theorem marked_of_passes_rampup {f : Bool} {s : State} (h : Passes (.rampup f) s) :
    s.marked (dstOf s) offFreq = true := by
  obtain ⟨_, _, hmarked⟩ := (checkCause_none_iff _).1 h
  exact hmarked (dstOf s, offFreq) List.mem_cons_self

/-- Settles O39. -/
theorem rampAbortsKeepWhatIsQueued : Obligations.RampAbortsKeepWhatIsQueued := by
  intro f s hi hd
  refine ⟨fun hc h0 => ?_, fun hc h0 => ?_, fun hc h0 hr hfull => ?_, fun hc h0 hr hfull => ?_⟩
  · exact (rampdn_starts hi hd hc).exec_div0 (rampOutput_accept_zero rfl (marked_of_passes_rampdn hc) h0)
  · exact (rampup_starts hi hd hc).exec_div0 (rampOutput_accept_zero rfl (marked_of_passes_rampup hc) h0)
  · exact (rampdn_starts hi hd hc).exec_queueOvf (rampOutput_accept rfl rfl (marked_of_passes_rampdn hc) h0) hr hfull
  · exact (rampup_starts hi hd hc).exec_queueOvf (rampOutput_accept rfl rfl (marked_of_passes_rampup hc) h0) hr hfull

end Sys2Proof.Proofs.RampAborts
end

section
/-! Proofs of the statements of the memory and its agents: snapshots within one command (spec 20_memory.md R77, R78,
R80, 44_periodic_control.md R221). -/

namespace Sys2Proof.Proofs.Snapshots

open Sys2Proof Sys2Proof.Machine

/-! ## What the engine does to a slot: only a `SAVE` of it changes it -/

/-- The snapshots are those of `m`, while the command goes on. -/
abbrev SnapIs (m : List (Option Word)) : TaskResult → Prop :=
  TaskResult.All (fun u => u.snap = m) (fun _ => True) (fun _ => True)

theorem delayLoop_snap (t0 n : Word) (as : List Word) (s : State) : (delayLoop t0 n as s).1.snap = s.snap := by
  induction as generalizing s with
  | nil => rfl
  | cons a as ih =>
    simp only [delayLoop]
    split
    · rfl
    · exact ih _

theorem runDelay_snap (d : Delay) (s : State) : (runDelay d s).2.snap = s.snap := by
  cases d with
  | none => rfl
  | since t0 n =>
    have h := delayLoop_snap t0 n s.timerIn s
    simp only [runDelay]
    split <;> (next heq => rw [heq] at h; exact h)
  | start n =>
    simp only [runDelay]
    split
    · rfl
    · next t0 s1 hr =>
      obtain ⟨a, as, -, -, rfl⟩ := readTimer_cases hr
      split
      · rfl
      · have h := delayLoop_snap t0 n as { s with timerIn := as, timerUs := t0, trace := s.trace ++ [.timer t0] }
        split <;> (next heq => rw [heq] at h; exact h)

theorem regRead_snap {s s' : State} {sp : Space} {a v : Word} (h : s.regRead sp a = some (v, s')) :
    s'.snap = s.snap := by
  obtain ⟨vs, -, rfl⟩ := regRead_cases h
  rfl

theorem readTimer_snap {s s' : State} {b : Bool} {t : Word} (h : s.readTimer b = some (t, s')) :
    s'.snap = s.snap := by
  obtain ⟨a, as, -, -, rfl⟩ := readTimer_cases h
  rfl

theorem spinLoop_snap (sp : Space) (a mask e : Word) (vs : List Word) (s : State) :
    (spinLoop sp a mask e vs s).1.snap = s.snap := by
  induction vs generalizing s with
  | nil => rfl
  | cons v vs ih =>
    simp only [spinLoop]
    split
    · rfl
    · exact ih _

theorem pollLoop_snap (sp : Space) (a mask e : Word) (n : Nat) (d : Delay) (s : State) :
    SnapIs s.snap (pollLoop sp a mask e n d s) := by
  induction n generalizing d s with
  | zero => rfl
  | succ n ih =>
    have hd := runDelay_snap d s
    simp only [pollLoop]
    split
    · next s1 heq =>
      rw [heq] at hd
      split
      · exact ⟨trivial, hd⟩
      · next v s2 hr =>
        have h2 : s2.snap = s.snap := (regRead_snap hr).trans hd
        split
        · exact h2
        · rw [← h2]; exact ih _ _
    · next heq =>
      rw [heq] at hd
      exact ⟨trivial, hd⟩

theorem ccLoop_snap (t0 : Word) (vs : List Word) (s : State) : SnapIs s.snap (ccLoop t0 vs s) := by
  induction vs generalizing s with
  | nil => exact ⟨trivial, rfl⟩
  | cons v vs ih =>
    rw [ccLoop_cons]
    split
    · rfl
    · split
      · exact ⟨trivial, rfl⟩
      · next t s2 hr =>
        have h2 : s2.snap = s.snap := (readTimer_snap hr).trans rfl
        split
        · exact h2
        · rw [← h2]; exact ih _

theorem runCcWait_snap (ph : CcPhase) (s : State) : SnapIs s.snap (runCcWait ph s) := by
  cases ph with
  | start =>
    simp only [runCcWait]
    split
    · exact ⟨trivial, rfl⟩
    · next t0 s1 hr => rw [← readTimer_snap hr]; exact ccLoop_snap _ _ _
  | read t0 => exact ccLoop_snap _ _ _
  | timer t0 =>
    simp only [runCcWait]
    split
    · exact ⟨trivial, rfl⟩
    · next t s1 hr =>
      rw [← readTimer_snap hr]
      split
      · rfl
      · exact ccLoop_snap _ _ _

theorem estLoop_snap (more : Nat) (ls : List Nat) (w : EstWork) (s : State) :
    SnapIs s.snap (estLoop more ls w s) := by
  induction ls generalizing w s with
  | nil => rfl
  | cons l ls ih =>
    simp only [estLoop]
    split
    · exact ⟨trivial, rfl⟩
    · next n s1 hr =>
      obtain ⟨ns, -, rfl⟩ := sample_cases hr
      split
      · rfl
      · exact ih _ _

theorem runEst_snap (k : Nat) (w : EstWork) (s : State) : SnapIs s.snap (runEst k w s) := by
  induction k generalizing w s with
  | zero => exact estLoop_snap _ _ _ _
  | succ k ih =>
    have h := estLoop_snap (k + 1) w.todo w s
    simp only [runEst]
    generalize estLoop (k + 1) w.todo w s = r at h
    cases r with
    | done s' => rw [← show s'.snap = s.snap from h]; exact ih _ _
    | hold t s' => exact h
    | ended s' => exact h
    | abort c s' => exact h

theorem clockSource_snap {s s' : State} (h : s.clockSource = .ok s') : s'.snap = s.snap := by
  obtain ⟨_, _, rfl⟩ := clockSource_cases h
  rfl

theorem clearAcc_snap (s : State) : s.clearAcc.snap = s.snap := by
  unfold State.clearAcc
  simp

theorem captureItem_snap (s : State) (i : CapItem) (v : Word) : (s.captureItem i v).snap = s.snap := by
  unfold State.captureItem
  simp

/-- No operation but a `SAVE` changes a snapshot. -/
theorem runTask_snap (t : Task) (s : State) (h : ∀ slot sp a, t ≠ .save slot sp a) : SnapIs s.snap (runTask t s) := by
  cases t with
  | save slot sp a => exact absurd rfl (h slot sp a)
  | awaitDrain =>
    simp only [runTask]
    split
    · exact ⟨trivial, rfl⟩
    · rfl
  | check => simp only [runTask]; split <;> rfl
  | trim id | trimWrite id | restore slot sp a => simp only [runTask]; split <;> rfl
  | read sp a =>
    simp only [runTask]
    split
    · exact ⟨trivial, rfl⟩
    · next hr => exact regRead_snap hr
  | capture i =>
    simp only [runTask]
    split
    · exact ⟨trivial, rfl⟩
    · next hr => exact (captureItem_snap _ _ _).trans (regRead_snap hr)
  | poll => exact pollLoop_snap _ _ _ _ _ _ _
  | spin sp a mask e =>
    have h := spinLoop_snap sp a mask e s.regIn s
    simp only [runTask]
    split
    · next heq => rw [heq] at h; exact h
    · next heq => rw [heq] at h; exact ⟨trivial, h⟩
  | delay d =>
    have h := runDelay_snap d s
    simp only [runTask]
    split
    · next heq => rw [heq] at h; exact h
    · next heq => rw [heq] at h; exact ⟨trivial, h⟩
  | est w k => exact runEst_snap _ _ _
  | ccWait ph => exact runCcWait_snap _ _
  | enqueue a v d => exact ofExcept_all rfl fun s' he => by obtain ⟨_, _, rfl⟩ := enqueue_cases he; rfl
  | curFromTrn => exact ofExcept_all rfl fun s' he => by obtain ⟨_, rfl, _⟩ := curFromTrn_cases he; rfl
  | compareDrift =>
    exact ofExcept_all rfl fun s' he => by obtain ⟨_, _, _, _, _, _, rfl⟩ := compareDrift_cases he; rfl
  | clkSrc => exact ofExcept_all rfl fun s' he => clockSource_snap he
  | rampWait b w => cases b <;> rfl
  | finish r => trivial
  | clearAcc => exact clearAcc_snap s
  | write | stageFsp | commitFsp => rfl

/-- What a slot holds stays over an operation that is no `SAVE` of it (20_memory.md R77). -/
theorem slot_runTask {slot : Nat} {t : Task} {s u : State} (ht : ∀ sp a, t ≠ .save slot sp a)
    (h : runTask t s = .done u) : u.snap.getD slot none = s.snap.getD slot none := by
  by_cases hsave : ∃ other sp a, t = .save other sp a
  · obtain ⟨other, sp, a, rfl⟩ := hsave
    have hne : other ≠ slot := fun heq => ht sp a (heq ▸ rfl)
    simp only [runTask] at h
    split at h
    · cases h
    · next v s1 hr =>
      cases h
      rw [← regRead_snap hr, List.getD_eq_getElem?_getD, List.getD_eq_getElem?_getD, List.getElem?_set_ne hne]
  · have hsnap := runTask_snap t s fun other sp a heq => hsave ⟨other, sp, a, heq⟩
    rw [h] at hsnap
    rw [show u.snap = s.snap from hsnap]

/-- What a slot holds stays, over operations none of which is a `SAVE` of it. -/
theorem slot_runTasks {slot : Nat} {ts : List Task} {s t : State} (hts : ∀ sp a, .save slot sp a ∉ ts)
    (h : runTasks ts s = .done t) : t.snap.getD slot none = s.snap.getD slot none := by
  induction ts generalizing s with
  | nil => cases h; rfl
  | cons k ts ih =>
    have hrest : ∀ sp a, .save slot sp a ∉ ts := fun sp a hm => hts sp a (List.mem_cons_of_mem _ hm)
    simp only [runTasks] at h
    split at h
    · cases h
    · cases hr : runTask k s.tick with
      | done u =>
        rw [hr] at h
        rw [ih hrest h]
        exact slot_runTask (s := s.tick) (fun sp a hk => hts sp a (hk ▸ List.mem_cons_self)) hr
      | hold | ended | abort => rw [hr] at h; cases h

/-! ## Running on with no other agent -/

/-- No operation of the engine sets a quantum. -/
theorem noQuantum_ops :
    OpsKeep (fun s => s.quantum = none) (fun _ => True) (fun _ => True) (fun _ => True) (fun _ => True) where
  tick _ h := by simp [State.tick, h]
  reg _ _ _ h := h
  smp _ _ _ h := h
  tim _ _ _ _ h := h
  pto _ h := h
  write _ _ _ _ h := h
  enqueue _ _ _ _ _ h he := by obtain ⟨_, _, rfl⟩ := enqueue_cases he; exact h
  save _ _ _ h := h
  value _ _ h := h
  rampWait _ b _ h := by cases b <;> exact h
  commit _ _ _ h := by unfold estCommit; exact h
  clearAcc _ h := by unfold State.clearAcc; simpa using h
  curFromTrn _ _ h he := by obtain ⟨_, rfl, _⟩ := curFromTrn_cases he; exact h
  compareDrift _ _ h he := by obtain ⟨_, _, _, _, _, _, rfl⟩ := compareDrift_cases he; exact h
  fspWr _ _ h := h
  fspOp _ h := h
  clockSource _ _ h he := by obtain ⟨_, _, rfl⟩ := clockSource_cases he; exact h
  capture _ _ _ _ h := by unfold State.captureItem; simpa using h
  finish _ _ _ := trivial
  fresh _ _ _ := trivial
  next _ _ _ _ _ _ _ _ := trivial
  items _ _ _ _ := trivial
  enter g _ _ h := by cases g <;> exact h

theorem runTasks_quantum {ts : List Task} {s t : State} (hq : s.quantum = none) (h : runTasks ts s = .done t) :
    t.quantum = none := by
  have hall := runTasks_all noQuantum_ops.engine ts s (fun t _ => taskOk_true t) hq
  rw [h] at hall
  exact hall

/-- A `RESTORE` of a slot that holds a value writes it (20_memory.md R78). -/
theorem runTask_restore {s : State} {slot : Nat} {v : Word} (sp : Space) (a : Word)
    (h : s.snap.getD slot none = some v) : runTask (.restore slot sp a) s = .done (s.regWrite sp a v) := by
  simp only [runTask, h]

/-- A `RESTORE` of a slot that holds nothing (20_memory.md R78). -/
theorem runTask_restore_empty {s : State} {slot : Nat} (sp : Space) (a : Word) (h : s.snap.getD slot none = none) :
    runTask (.restore slot sp a) s = .abort .uninit s := by
  simp only [runTask, h]

/-- The state after a `SAVE` (20_memory.md R77). -/
def saved (s : State) (slot : Nat) (sp : Space) (a v : Word) (vs : List Word) : State :=
  { s with regIn := vs, trace := s.trace ++ [.read sp a v], snap := s.snap.set slot (some v) }

theorem runTask_save {s : State} {v : Word} {vs : List Word} (slot : Nat) (sp : Space) (a : Word)
    (h : s.regIn = v :: vs) : runTask (.save slot sp a) s = .done (saved s slot sp a v vs) := by
  simp [runTask, State.regRead, h, saved]

theorem saved_slot {s : State} {slot : Nat} (sp : Space) (a v : Word) (vs : List Word) (h : slot < s.snap.length) :
    (saved s slot sp a v vs).snap.getD slot none = some v := by
  simp [saved, h]

/-- A `RESTORE` carries what a `SAVE` read, past any operations that come through and save nothing to the slot. -/
theorem runTasks_save_restore {s t : State} {slot : Nat} {sp sp' : Space} {a b v : Word} {vs : List Word}
    {between : List Task} (hq : s.quantum = none) (hslot : slot < s.snap.length) (hin : s.regIn = v :: vs)
    (hbetween : ∀ sp a, .save slot sp a ∉ between) (h : runTasks between (saved s slot sp a v vs) = .done t) :
    runTasks (.save slot sp a :: between ++ [.restore slot sp' b]) s =
      .done { t with trace := t.trace ++ [.write sp' b v] } := by
  have hq' : t.quantum = none := runTasks_quantum (by exact hq) h
  have hv : t.snap.getD slot none = some v := (slot_runTasks hbetween h).trans (saved_slot sp a v vs hslot)
  rw [List.cons_append, runTasks_done hq (runTask_save slot sp a hin), runTasks_append h,
    runTasks_done hq' (runTask_restore sp' b hv)]
  rfl

/-! ## The phases of a PCOMP (44_periodic_control.md R212 to R215) -/

/-- `u` sees the contexts of a `pcomp` issued in `s`, no entry having been written since. -/
structure SeesPcomp (s u : State) : Prop where
  quantum : u.quantum = none
  cmd : u.pass.cmd = .pcomp
  dst : u.pass.dstIdx = s.dstIdx
  mask : u.pass.mask = 0
  mem : u.mem = s.mem
  params : u.params = s.params
  cfg : u.cfg = s.cfg
  fspOp : u.fspOp = s.fspOp
  fspWr : u.fspWr = s.fspWr
  compw : u.compw = s.compw

theorem seesPcomp_accept {s : State} (hq : s.quantum = none) : SeesPcomp s (s.accept .pcomp) :=
  ⟨hq, rfl, rfl, rfl, rfl, rfl, rfl, rfl, rfl, by simp [State.accept, cmdIsSwitch]⟩

section

variable {s u : State} (h : SeesPcomp s u)

include h

/-- The context of a list of a `pcomp` (44_periodic_control.md R211, R214). -/
theorem SeesPcomp.ctx_eq (l : Label) : u.ctx l = periodicCtx s s.mem l := by
  have hdst : u.dstEntry = dstOf s := by rw [State.dstEntry, h.dst, dstOf]
  have hsrc : u.srcEntry = dstOf s := by simp only [State.srcEntry, h.cmd, h.dst, dstOf]
  simp only [State.ctx, periodicCtx, hdst, hsrc, h.mask, h.mem, h.params, h.cfg, h.fspOp, h.fspWr, h.compw]
  simp [tristate]

/-- The operations of the list of a phase. -/
theorem SeesPcomp.expand_ops {l : Label} (hl : l ≠ .step 11) :
    u.expand (.ops l) = .ok ((stepOps s.params (periodicCtx s s.mem l)).flatMap u.microTasks) := by
  have hsubst : ¬((u.compw && l == .step 11) = true) := by simp [hl]
  simp only [State.expand, State.opsTasks]
  rw [if_neg hsubst, h.ctx_eq, h.params]

theorem SeesPcomp.enter (k : Nat) : SeesPcomp s (u.enter (.phase k)) := { h with }

/-- A phase whose list comes through. -/
theorem SeesPcomp.runStages_list {k : Nat} {l : Label} {t : State} (gs : List Stage) (hk : phaseBody k = [.ops l])
    (hl : l ≠ .step 11)
    (hr : runTasks ((stepOps s.params (periodicCtx s s.mem l)).flatMap (u.enter (.phase k)).microTasks)
      (u.enter (.phase k)) = .done t) : runStages (.phase k :: gs) u = runStages gs t := by
  refine runStages_step h.quantum ?_
  rw [show (u.enter (.phase k)).stageParts (.phase k) = phaseBody k from rfl, hk,
    runParts_step ((h.enter k).expand_ops hl) hr, runParts_nil]

/-- A phase whose list begins with a `RESTORE` of a slot that holds nothing. -/
theorem SeesPcomp.runStages_restore_empty {k slot : Nat} {l : Label} {sp : Space} {a : Word} {ops : List MicroOp}
    (gs : List Stage) (hk : phaseBody k = [.ops l]) (hl : l ≠ .step 11)
    (hops : stepOps s.params (periodicCtx s s.mem l) = .restore slot sp a :: ops)
    (hslot : u.snap.getD slot none = none) : runStages (.phase k :: gs) u = .abort .uninit (u.enter (.phase k)) := by
  have hrestore := runTasks_abort (ts := ops.flatMap (u.enter (.phase k)).microTasks) (h.enter k).quantum
    (runTask_restore_empty (s := u.enter (.phase k)) sp a hslot)
  rw [runStages_none h.quantum, show (u.enter (.phase k)).stageParts (.phase k) = phaseBody k from rfl, hk,
    runParts_ok ((h.enter k).expand_ops hl), hops]
  simp only [List.flatMap_cons, State.microTasks, List.singleton_append]
  rw [hrestore]
  rfl

/-- Phase P4 waits while the timer is not read (44_periodic_control.md R215). -/
theorem SeesPcomp.runStages_settle_holds (gs : List Stage) (hin : u.timerIn = []) :
    ∃ c, runStages (.phase 0x104 :: gs) u = .paused c (u.enter (.phase 0x104)) := by
  obtain ⟨n, hn⟩ : ∃ n, settleUs u.params (entryImage u.params u.mem u.dstEntry) = n := ⟨_, rfl⟩
  have hexpand : (u.enter (.phase 0x104)).expand .settle = .ok [.delay (.start n)] := by rw [← hn]; rfl
  have hhold : runTask (.delay (.start n)) (u.enter (.phase 0x104)) =
      .hold (.delay (.start n)) (u.enter (.phase 0x104)) := by
    have hread : (u.enter (.phase 0x104)).readTimer false = none := by
      unfold State.readTimer
      rw [show (u.enter (.phase 0x104)).timerIn = [] from hin]
    simp only [runTask, runDelay, hread]
  rw [runStages_none h.quantum, show (u.enter (.phase 0x104)).stageParts (.phase 0x104) = [.settle] from rfl,
    runParts_ok hexpand, runTasks_hold (h.enter 0x104).quantum hhold]
  exact ⟨_, rfl⟩

end

/-- The phases of a `pcomp` whose checks succeed. -/
theorem exec_pcomp_passes {s : State} (hi : Idle s) (hc : Passes .pcomp s) :
    exec .pcomp s = .next (runStages [.phase 0x101, .phase 0x102, .phase 0x103, .phase 0x104, .phase 0x105,
      .phase 0x106, .phase 0x107, .finish .value] (s.accept .pcomp)).state := by
  obtain ⟨hbusy, hq⟩ := hi
  rw [exec_eq .pcomp rfl, launch_idle hbusy]
  exact congrArg (fun r => Host.Outcome.next r.state) (runStages_checks (s := s.accept .pcomp) hq hc)

theorem getD_emptySnap (p : Params) (slot : Nat) : (emptySnap p).getD slot none = none := by
  rw [emptySnap, List.getD_eq_getElem?_getD, List.getElem?_replicate]
  split <;> rfl

/-- A `pcomp` whose first operation restores a slot (20_memory.md R78, R80). -/
theorem exec_pcomp_restore_first {s : State} {slot : Nat} {sp : Space} {a : Word} {ops : List MicroOp} (hi : Idle s)
    (hc : Passes .pcomp s) (hops : stepOps s.params (periodicCtx s s.mem .p1) = .restore slot sp a :: ops) :
    exec .pcomp s = .next (endedAbort s 0x101 .uninit) := by
  have hsees : SeesPcomp s (s.accept .pcomp) := seesPcomp_accept hi.2
  rw [exec_pcomp_passes hi hc,
    hsees.runStages_restore_empty _ rfl (by decide) hops (getD_emptySnap s.params slot)]
  simp [State.enter, State.abort, State.endFlags, endedAbort, State.accept, statusCode, cmdIsSwitch]

/-- A `pcomp` that saves a slot in P1 and restores it in P2 comes to P4. -/
theorem exec_pcomp_save_restore {s : State} {slot : Nat} {sp sp' : Space} {a b v : Word} (hi : Idle s)
    (hc : Passes .pcomp s) (hslot : slot < s.params.nSnap)
    (h1 : stepOps s.params (periodicCtx s s.mem .p1) = [.save slot sp a])
    (h2 : stepOps s.params (periodicCtx s s.mem .p2) = [.restore slot sp' b])
    (h3 : stepOps s.params (periodicCtx s s.mem .p3) = []) (hreg : s.regIn = [v]) (htimer : s.timerIn = []) :
    ∃ t, exec .pcomp s = .next t ∧ t.busy = true ∧ t.stepNo = 0x104 ∧
      t.trace = s.trace ++ [.read sp a v, .write sp' b v] ∧ t.mem = s.mem ∧ t.queue = s.queue := by
  have hsees : SeesPcomp s (s.accept .pcomp) := seesPcomp_accept hi.2
  obtain ⟨u1, hu1⟩ : ∃ u, u = saved ((s.accept .pcomp).enter (.phase 0x101)) slot sp a v [] := ⟨_, rfl⟩
  have hsees1 : SeesPcomp s u1 := hu1 ▸ { hsees with }
  have hv : (u1.enter (.phase 0x102)).snap.getD slot none = some v := by
    rw [hu1]
    exact saved_slot sp a v [] (by simpa [State.accept, State.enter, emptySnap] using hslot)
  obtain ⟨u2, hu2⟩ : ∃ u, u = (u1.enter (.phase 0x102)).regWrite sp' b v := ⟨_, rfl⟩
  have hsees2 : SeesPcomp s u2 := hu2 ▸ { hsees1 with }
  have hsees3 : SeesPcomp s (u2.enter (.phase 0x103)) := hsees2.enter 0x103
  have hp1 : runTasks [.save slot sp a] ((s.accept .pcomp).enter (.phase 0x101)) = .done u1 := by
    rw [runTasks_done (hsees.enter 0x101).quantum (runTask_save slot sp a hreg), hu1, runTasks_nil]
  have hp2 : runTasks [.restore slot sp' b] (u1.enter (.phase 0x102)) = .done u2 := by
    rw [runTasks_done (hsees1.enter 0x102).quantum (runTask_restore sp' b hv), hu2, runTasks_nil]
  obtain ⟨c, hp4⟩ := hsees3.runStages_settle_holds [.phase 0x105, .phase 0x106, .phase 0x107, .finish .value]
    (by rw [hu2, hu1]; exact htimer)
  refine ⟨((u2.enter (.phase 0x103)).enter (.phase 0x104)).suspend c, ?_, ?_⟩
  · rw [exec_pcomp_passes hi hc, hsees.runStages_list _ rfl (by decide) (by rw [h1]; exact hp1),
      hsees1.runStages_list _ rfl (by decide) (by rw [h2]; exact hp2),
      hsees2.runStages_list _ rfl (by decide) (by rw [h3]; rfl), hp4]
    rfl
  · subst hu2 hu1
    simp [State.suspend, State.enter, State.regWrite, saved, State.accept]

/-- Settles O48. -/
theorem snapshotsCarryWithinOneCommand : Obligations.SnapshotsCarryWithinOneCommand :=
  ⟨fun _ _ _ _ _ hi hc hops => exec_pcomp_restore_first hi hc hops,
    fun _ _ _ _ _ _ _ _ _ _ hq hslot hin hbetween h => runTasks_save_restore hq hslot hin hbetween h,
    fun _ _ _ _ _ _ _ hi hc hslot h1 h2 h3 hreg htimer =>
      exec_pcomp_save_restore hi hc hslot h1 h2 h3 hreg htimer⟩

end Sys2Proof.Proofs.Snapshots
end

section
/-! Proofs of the statements of the encoding: the decoder and the encoder are inverse to each other, and the illegal
words are those of the table (spec 30_encoding.md R95 to R108, 60_exceptions.md R225). -/

namespace Sys2Proof.Proofs.Encoding

open Sys2Proof Sys2Proof.Machine

/-! ## One check of the decoder -/

section

variable {α ε : Type} {c : Prop} [Decidable c] {r : Except ε α} {e : ε}

/-- A word that decodes passed this check and those after it. -/
theorem check_eq_ok {a : α} : (if c then r else .error e) = .ok a ↔ c ∧ r = .ok a := by
  split <;> simp [*]

/-- A word that is illegal failed this check or one after it. -/
theorem check_eq_error : (∃ e', (if c then r else .error e) = .error e') ↔ ¬ c ∨ ∃ e', r = .error e' := by
  split <;> simp [*]

end

/-! ## The round trips -/

theorem decode_encode {i : Instr} (hw : i.wellFormed = true) : decode (encode i) = .ok i := by
  cases i with
  | trim id =>
    have hid : id.toNat ≤ 9 := of_decide_eq_true hw
    simp [decode, encode, opField_packWord, modeField_packWord, argField_packWord, rsvField_packWord, hid]
  | switch mask =>
    simp [decode, encode, opField_packWord, modeField_packWord, argField_packWord, rsvField_packWord]
  | rampdn flip | rampup flip => cases flip <;> rfl
  | nop | estDvfsPartial | estDvfsFinal | estTrainPartial | estTrainFinal | estPeriodic | pcomp => rfl

/-- Settles O1: the bytes the window holds are those of the word. -/
theorem decodeOfEncodeIsTheCommand : Obligations.DecodeOfEncodeIsTheCommand := by
  intro i rest hw
  have h := decode_encode hw
  exact ⟨h, by simp only [decodeBytes_bytesOfWord, h]⟩

/-- A word whose reserved bits are 0 is known by the numbers in its other fields (R95). -/
theorem packWord_eq {w : Word} {op mode : BitVec 4} {arg : BitVec 8} (ho : (opField w).toNat = op.toNat)
    (hm : (modeField w).toNat = mode.toNat) (ha : argField w = arg) (hr : rsvField w = 0) :
    packWord op mode arg = w := by
  rw [← BitVec.eq_of_toNat_eq ho, ← BitVec.eq_of_toNat_eq hm, ← ha, packWord_fields w hr]

theorem wellFormed_encode_of_decode {w : Word} {i : Instr} (h : decode w = .ok i) :
    i.wellFormed = true ∧ encode i = w := by
  simp only [decode] at h
  split at h
  case h_1 ho | h_7 ho => -- `nop`, `pcomp`
    simp only [check_eq_ok, Except.ok.injEq] at h
    obtain ⟨hm, ha, hr, rfl⟩ := h
    exact ⟨rfl, packWord_eq ho hm ha hr⟩
  case h_2 ho => -- `est`, by mode
    split at h
    case h_6 => cases h
    all_goals
      next hm =>
      simp only [check_eq_ok, Except.ok.injEq] at h
      obtain ⟨ha, hr, rfl⟩ := h
      exact ⟨rfl, packWord_eq ho hm ha hr⟩
  case h_3 ho => -- `trim`
    simp only [check_eq_ok, Except.ok.injEq] at h
    obtain ⟨hm, hid, hr, rfl⟩ := h
    exact ⟨decide_eq_true hid, packWord_eq ho hm rfl hr⟩
  case h_4 ho | h_5 ho => -- `rampdn`, `rampup`, whose `MODE` is the flip flag
    simp only [check_eq_ok, Except.ok.injEq] at h
    obtain ⟨hm, ha, hr, rfl⟩ := h
    refine ⟨rfl, packWord_eq ho ?_ ha hr⟩
    interval_cases (modeField w).toNat <;> rfl
  case h_6 ho => -- `switch`
    simp only [check_eq_ok, Except.ok.injEq] at h
    obtain ⟨hm, hr, rfl⟩ := h
    exact ⟨rfl, packWord_eq ho hm rfl hr⟩
  case h_8 => cases h

/-- Settles O2. -/
theorem encodeOfDecodeIsTheWord : Obligations.EncodeOfDecodeIsTheWord := fun _ _ => wellFormed_encode_of_decode

/-! ## Illegal words -/

/-- The fields of an illegal word (R96 to R98, R100): a reserved `OP`, an `RSV` other than 0, a `MODE` or an `ARG` that
is illegal for the `OP`. -/
def IllegalFields (w : Word) : Prop :=
  7 ≤ (opField w).toNat ∨ rsvField w ≠ 0 ∨
  ((opField w).toNat = 1 ∧ 5 ≤ (modeField w).toNat) ∨
  (((opField w).toNat = 3 ∨ (opField w).toNat = 4) ∧ 2 ≤ (modeField w).toNat) ∨
  (((opField w).toNat = 0 ∨ (opField w).toNat = 2 ∨ (opField w).toNat = 5 ∨ (opField w).toNat = 6) ∧
    modeField w ≠ 0) ∨
  ((opField w).toNat = 2 ∧ 10 ≤ (argField w).toNat) ∨
  (((opField w).toNat = 0 ∨ (opField w).toNat = 1 ∨ (opField w).toNat = 3 ∨ (opField w).toNat = 4 ∨
    (opField w).toNat = 6) ∧ argField w ≠ 0)

/-- In every row of the table, the checks that can fail are those of the fields listed for its `OP`. -/
theorem decode_error_iff (w : Word) : (∃ e, decode w = .error e) ↔ IllegalFields w := by
  have hmode : modeField w ≠ 0 ↔ (modeField w).toNat ≠ 0 := (BitVec.toNat_inj (y := 0)).not.symm
  simp only [IllegalFields, hmode, decode]
  split
  case h_2 ho => -- `est`, by mode
    split <;> simp only [check_eq_error, Except.error.injEq, exists_eq', reduceCtorEq, exists_false] <;> grind
  all_goals
    simp only [check_eq_error, Except.error.injEq, exists_eq', reduceCtorEq, exists_false]
    grind

/-- Writing an illegal word to `CMD` while the engine is free ends at once with cause `ILLEGAL` (R225). -/
theorem step_illegalWrite {s : State} {es : List Event} {w : Word} {e : DecodeError} (hd : decode w = .error e)
    (hp : paramsOk s.params = true) (hb : s.busy = false)
    (hi : s.inbox = .host ⟨true, .word, s.params.dteBase, w⟩ :: es) :
    step s = .next { s with inbox := es, done := true, code := 4, cause := .illegal } := by
  have hillegal : ({ s with inbox := es } : State).illegalCommand = ({ s with inbox := es } : State).illegalWord := by
    simp [State.illegalCommand, hb]
  rw [step_host (off := 0) hp hi (by decide) (by decide)]
  simp only [if_true, show locate s.params 0 = .csr .cmd from rfl, hostWrite, commandWrite,
    decodeBytes_bytesOfWord_nil, hd, hillegal]
  rfl

/-- Settles O3. -/
theorem illegalWordsAreThoseOfTheTable : Obligations.IllegalWordsAreThoseOfTheTable := fun w _ _ =>
  ⟨decode_error_iff w, fun ⟨_, hd⟩ => step_illegalWrite hd⟩

/-- Settles O4. -/
theorem workedEncodingsDecode : Obligations.WorkedEncodingsDecode := by
  unfold Obligations.WorkedEncodingsDecode
  decide

end Sys2Proof.Proofs.Encoding
end

section
/-! Proofs of the statements of the estimator: the active lanes and the periodic filter (spec 40_estimator.md R113,
R121, R136). -/

namespace Sys2Proof.Proofs.LanesAndFilter

open Sys2Proof Sys2Proof.Machine Sys2Proof.Proofs.TrimOverflow

/-! ## The active lanes -/

theorem mem_activeLanes_iff {cfg : BitVec 5} {l : Nat} : l ∈ activeLanes cfg ↔ l < 8 ∧ laneActive cfg l = true := by
  rw [activeLanes, List.mem_filter, mem_allLanes_iff]

theorem laneActive_iff (cfg : BitVec 5) (l : Nat) :
    laneActive cfg l = true ↔
      (l / 4 = 0 ∨ cfg.getLsbD 1 = true) ∧ l / 2 % 2 < (if cfg.getLsbD 0 = true then 2 else 1) := by
  rw [laneActive, Bool.and_eq_true, Bool.or_eq_true, decide_eq_true_iff, decide_eq_true_iff]
  rfl

/-- The lanes are taken in increasing order (R114). -/
theorem activeLanes_pairwise (cfg : BitVec 5) : (activeLanes cfg).Pairwise (· < ·) :=
  List.Pairwise.filter _ (by decide)

theorem activeLanes_nodup (cfg : BitVec 5) : (activeLanes cfg).Nodup :=
  (activeLanes_pairwise cfg).imp fun h => Nat.ne_of_lt h

/-- Lane 0 is active whatever `CFG` holds, and comes first. -/
theorem activeLanes_eq_cons (cfg : BitVec 5) : ∃ ls, activeLanes cfg = 0 :: ls := by
  have h0 : laneActive cfg 0 = true := by
    refine (laneActive_iff cfg 0).2 ⟨.inl rfl, ?_⟩
    split <;> decide
  exact ⟨_, List.filter_cons_of_pos h0⟩

/-- Settles O19. -/
theorem activeLanesFollowCfg : Obligations.ActiveLanesFollowCfg := by
  intro cfg c d u hc hd hu
  have hlane : (4 * c + 2 * d + u) / 4 = c := by omega
  have hrank : (4 * c + 2 * d + u) / 2 % 2 = d := by omega
  refine ⟨?_, activeLanes_pairwise cfg⟩
  rw [mem_activeLanes_iff, laneActive_iff, hlane, hrank]
  exact and_iff_right (by omega)

/-! ## The periodic filter -/

/-- The blend of two values by a weight, rounded down, lies between them; from below it is the larger value less the
weighted distance rounded up, and meets the smaller value exactly within the weight of it (R136). -/
theorem blend_from_below {a b w n : Int} (hw : 1 ≤ w) (hlow : n * (w + 1) ≤ b + w * a)
    (hhigh : b + w * a < (n + 1) * (w + 1)) (hab : a ≤ b) :
    a ≤ n ∧ n ≤ b ∧ (n = a ↔ b - w ≤ a) ∧
      ∃ c : Int, n = b - c ∧ w * (b - a) ≤ c * (w + 1) ∧ c * (w + 1) < w * (b - a) + (w + 1) := by
  have hge : a ≤ n := by
    have : a * (w + 1) < (n + 1) * (w + 1) := by linarith
    have := lt_of_mul_lt_mul_right this (by omega)
    omega
  have hle : n ≤ b := by
    have : n * (w + 1) ≤ b * (w + 1) := by nlinarith
    exact le_of_mul_le_mul_right this (by omega)
  refine ⟨hge, hle, ⟨?_, fun h => ?_⟩, b - n, by omega, by linarith, by linarith⟩
  · rintro rfl
    linarith
  · have : n * (w + 1) < (a + 1) * (w + 1) := by linarith
    have := lt_of_mul_lt_mul_right this (by omega)
    omega

/-- From above the blend falls, and not below the smaller value. -/
theorem blend_from_above {a b w n : Int} (hw : 1 ≤ w) (hlow : n * (w + 1) ≤ b + w * a)
    (hhigh : b + w * a < (n + 1) * (w + 1)) (hab : b < a) : b ≤ n ∧ n < a := by
  constructor
  · have : b * (w + 1) < (n + 1) * (w + 1) := by nlinarith
    have := lt_of_mul_lt_mul_right this (by omega)
    omega
  · have : n * (w + 1) < a * (w + 1) := by linarith
    exact lt_of_mul_lt_mul_right this (by omega)

/-- Settles O20: on operands that are not negative the division of R121 rounds down. -/
theorem periodicAccumulatorConverges : Obligations.PeriodicAccumulatorConverges := by
  intro a s w ha hs hw h1 h2 h3 h4
  have hw' : (1 : Int) ≤ w := by exact_mod_cast hw
  have hnum : 0 ≤ 100 * s + w * a := by positivity
  refine ⟨_, periodicAcc_ok h1 h2 h3 h4, ?_⟩
  rw [Int.tdiv_eq_ediv_of_nonneg hnum]
  have hlow := Int.ediv_mul_le (100 * s + w * a) (b := (w : Int) + 1) (by omega)
  have hhigh := Int.lt_ediv_add_one_mul_self (100 * s + w * a) (b := (w : Int) + 1) (by omega)
  exact ⟨blend_from_below hw' hlow hhigh, blend_from_above hw' hlow hhigh⟩

end Sys2Proof.Proofs.LanesAndFilter
end

section
/-! Proofs of the statements of the estimator: the fields a command's checks read (spec 40_estimator.md R111, 41_trim.md
R149, 42_power_ramp.md R162, 44_periodic_control.md R219, 60_exceptions.md R226). -/

namespace Sys2Proof.Proofs.ReadSets

open Sys2Proof Sys2Proof.Machine Sys2Proof.Proofs.TrimOverflow Sys2Proof.Proofs.LanesAndFilter

/-- Every field of a read set has its mark. -/
def AllMarked (s : State) (rs : List (Nat × Nat)) : Prop := ∀ r ∈ rs, s.marked r.1 r.2 = true

section

variable {s : State}

theorem allMarked_cons {r : Nat × Nat} {rs : List (Nat × Nat)} :
    AllMarked s (r :: rs) ↔ s.marked r.1 r.2 = true ∧ AllMarked s rs := List.forall_mem_cons

theorem allMarked_nil : AllMarked s [] := nofun

theorem allMarked_append {rs qs : List (Nat × Nat)} : AllMarked s (rs ++ qs) ↔ AllMarked s rs ∧ AllMarked s qs :=
  List.forall_mem_append

theorem allMarked_singleton {r : Nat × Nat} : AllMarked s [r] ↔ s.marked r.1 r.2 = true := by
  rw [allMarked_cons, and_iff_left allMarked_nil]

theorem allMarked_pair {r q : Nat × Nat} :
    AllMarked s [r, q] ↔ s.marked r.1 r.2 = true ∧ s.marked q.1 q.2 = true := by
  rw [allMarked_cons, allMarked_singleton]

/-- One field of each lane, all eight. -/
theorem allMarked_allLanes {dst : Nat} {off : Nat → Nat} :
    AllMarked s (allLanes.map fun l => (dst, off l)) ↔ ∀ l < 8, s.marked dst (off l) = true := by
  simp only [AllMarked, List.forall_mem_map, mem_allLanes_iff]

/-- One field of each active lane. -/
theorem allMarked_activeLanes {dst : Nat} {off : Nat → Nat} {cfg : BitVec 5} :
    AllMarked s ((activeLanes cfg).map fun l => (dst, off l)) ↔
      ∀ l < 8, laneActive cfg l = true → s.marked dst (off l) = true := by
  simp only [AllMarked, List.forall_mem_map, mem_activeLanes_iff, and_imp]

/-- The two delays of each lane of a rank group. -/
theorem allMarked_rankLanes {dst r : Nat} :
    AllMarked s ([0, 1, 2, 3].flatMap fun i => [(dst, offCur (groupLane r i)), (dst, offTrn (groupLane r i))]) ↔
      ∀ i < 4, s.marked dst (offCur (groupLane r i)) = true ∧ s.marked dst (offTrn (groupLane r i)) = true := by
  simp only [AllMarked, List.forall_mem_flatMap, mem_lanes_iff]
  exact forall₂_congr fun i _ => allMarked_pair

/-- Count and indices in range, for the entries a command uses, and the fields it reads marked. -/
theorem passes_iff (i : Instr) (s : State) :
    Passes i s ↔ s.entryCount.toNat ≤ 900 ∧ (∀ k ∈ (s.accept i).usedEntries, k < s.entryCount.toNat) ∧
      AllMarked s (s.accept i).readSet := checkCause_none_iff (s.accept i)

/-- The checks of a command that uses the destination entry. -/
theorem passes_iff_of_dst {i : Instr} {rs : List (Nat × Nat)} (hu : (s.accept i).usedEntries = [dstOf s])
    (hr : (s.accept i).readSet = rs) :
    Passes i s ↔ (s.entryCount.toNat ≤ 900 ∧ dstOf s < s.entryCount.toNat) ∧ AllMarked s rs := by
  rw [passes_iff, hu, hr, List.forall_mem_singleton, and_assoc]

/-- The checks of a command that uses the source and the destination entry. -/
theorem passes_iff_of_both {i : Instr} {rs : List (Nat × Nat)} (hu : (s.accept i).usedEntries = [srcOf s, dstOf s])
    (hr : (s.accept i).readSet = rs) :
    Passes i s ↔ ((s.entryCount.toNat ≤ 900 ∧ dstOf s < s.entryCount.toNat) ∧ srcOf s < s.entryCount.toNat) ∧
      AllMarked s rs := by
  rw [passes_iff, hu, hr, List.forall_mem_cons, List.forall_mem_singleton]
  tauto

end

/-! ## The estimator's modes -/

/-- The estimator command of a mode (30_encoding.md R96). -/
def estInstr : EstMode → Instr
  | .dvfsPartial => .estDvfsPartial
  | .dvfsFinal => .estDvfsFinal
  | .trainPartial => .estTrainPartial
  | .trainFinal => .estTrainFinal
  | .periodic => .estPeriodic

theorem isEst_iff {i : Instr} : IsEst i ↔ ∃ m, i = estInstr m := by
  constructor
  · rintro (rfl | rfl | rfl | rfl | rfl)
    exacts [⟨.dvfsPartial, rfl⟩, ⟨.dvfsFinal, rfl⟩, ⟨.trainPartial, rfl⟩, ⟨.trainFinal, rfl⟩, ⟨.periodic, rfl⟩]
  · rintro ⟨m, rfl⟩
    cases m <;> simp [IsEst, estInstr]

theorem passes_est_iff {m : EstMode} {s : State} :
    Passes (estInstr m) s ↔
      ((s.entryCount.toNat ≤ 900 ∧ dstOf s < s.entryCount.toNat) ∧ srcOf s < s.entryCount.toNat) ∧
        AllMarked s (estReads m s.cfg (srcOf s) (dstOf s)) :=
  passes_iff_of_both (by cases m <;> rfl) (by cases m <;> rfl)

/-- What every mode reads: both frequencies and the accumulators of the active lanes. -/
structure BaseMarked (s : State) (src dst : Nat) : Prop where
  srcFreq : s.marked src offFreq = true
  dstFreq : s.marked dst offFreq = true
  acc : ∀ l < 8, laneActive s.cfg l = true → s.marked dst (offAcc l) = true

section

variable {s : State} {src dst : Nat}

theorem baseMarked_iff_fields :
    BaseMarked s src dst ↔ (s.marked src offFreq = true ∧ s.marked dst offFreq = true) ∧
      ∀ l < 8, laneActive s.cfg l = true → s.marked dst (offAcc l) = true :=
  ⟨fun ⟨hs, hd, ha⟩ => ⟨⟨hs, hd⟩, ha⟩, fun ⟨⟨hs, hd⟩, ha⟩ => ⟨hs, hd, ha⟩⟩

theorem baseMarked_iff :
    BaseMarked s src dst ↔
      AllMarked s ([(src, offFreq), (dst, offFreq)] ++ (activeLanes s.cfg).map fun l => (dst, offAcc l)) := by
  rw [baseMarked_iff_fields, allMarked_append, allMarked_pair, allMarked_activeLanes]

theorem baseMarked_and_iff {P : Prop} :
    BaseMarked s src dst ∧ P ↔ (s.marked src offFreq = true ∧ s.marked dst offFreq = true) ∧
      (∀ l < 8, laneActive s.cfg l = true → s.marked dst (offAcc l) = true) ∧ P := by
  rw [baseMarked_iff_fields, and_assoc]

theorem allMarked_partial {m : EstMode} (hm : modeIsPartial m = true) :
    AllMarked s (estReads m s.cfg src dst) ↔ BaseMarked s src dst := by
  rw [baseMarked_iff]
  cases m with
  | dvfsPartial | trainPartial => rfl
  | dvfsFinal | trainFinal | periodic => cases hm

theorem allMarked_dvfsFinal :
    AllMarked s (estReads .dvfsFinal s.cfg src dst) ↔ BaseMarked s src dst ∧
      (∀ l < 8, laneActive s.cfg l = true → s.marked dst (offCur l) = true) ∧ s.marked dst offMargin = true ∧
      s.marked dst offSampleCount = true := by
  rw [baseMarked_iff, estReads, allMarked_append, allMarked_append, allMarked_pair, allMarked_activeLanes, and_assoc]

theorem allMarked_trainFinal :
    AllMarked s (estReads .trainFinal s.cfg src dst) ↔ BaseMarked s src dst ∧
      (∀ l < 8, s.marked dst (offCur l) = true) ∧ s.marked dst offMargin = true ∧
      s.marked dst offSampleCount = true := by
  rw [baseMarked_iff, estReads, allMarked_append, allMarked_append, allMarked_pair, allMarked_allLanes, and_assoc]

theorem allMarked_periodic :
    AllMarked s (estReads .periodic s.cfg src dst) ↔ BaseMarked s src dst ∧
      (∀ l < 8, laneActive s.cfg l = true → s.marked dst (offCur l) = true) ∧ s.marked dst offMargin = true ∧
      s.marked dst offWeight = true := by
  rw [baseMarked_iff, estReads, allMarked_append, allMarked_append, allMarked_pair, allMarked_activeLanes, and_assoc]

theorem allMarked_trim {id : Nat} :
    AllMarked s (trimReads id dst) ↔ s.marked dst offFreq = true ∧ s.marked dst offMargin = true ∧
      (∀ i < 4, s.marked dst (offCur (groupLane (trimRank id) i)) = true ∧
        s.marked dst (offTrn (groupLane (trimRank id) i)) = true) ∧
      ∀ k < 8, s.marked dst (offTrimVal (trimRank id) k) = true := by
  rw [trimReads, allMarked_append, allMarked_append, allMarked_pair, allMarked_rankLanes, allMarked_allLanes]
  tauto

theorem allMarked_pcomp :
    AllMarked s (s.accept .pcomp).readSet ↔ s.marked (dstOf s) offFreq = true ∧ s.marked (dstOf s) offMargin = true ∧
      s.marked (dstOf s) offWeight = true ∧
      (∀ l < 8, laneActive s.cfg l = true → s.marked (dstOf s) (offAcc l) = true) ∧
      ∀ l < 8, s.marked (dstOf s) (offCur l) = true ∧ s.marked (dstOf s) (offTrn l) = true ∧
        s.marked (dstOf s) (offTrimVal 0 l) = true ∧ s.marked (dstOf s) (offTrimVal 1 l) = true := by
  have hreads : (s.accept .pcomp).readSet =
      (dstOf s, offFreq) :: [(dstOf s, offMargin), (dstOf s, offWeight)] ++
        ((activeLanes s.cfg).map fun l => (dstOf s, offAcc l)) ++ (allLanes.map fun l => (dstOf s, offCur l)) ++
        (allLanes.map fun l => (dstOf s, offTrn l)) ++ ((allLanes.map fun k => (dstOf s, offTrimVal 0 k)) ++
          allLanes.map fun k => (dstOf s, offTrimVal 1 k)) := rfl
  simp only [hreads, allMarked_append, List.cons_append, allMarked_cons, allMarked_activeLanes, allMarked_allLanes,
    forall_and]
  tauto

end

/-- Settles O24. -/
theorem checksReadTheListedFields : Obligations.ChecksReadTheListedFields := by
  intro s id f _
  refine ⟨?_, ?_, ?_, ?_, ?_, ?_, ?_, ?_, ?_⟩
  · exact (passes_est_iff (m := .dvfsPartial)).trans
      (and_congr_right' ((allMarked_partial rfl).trans baseMarked_iff_fields))
  · exact (passes_est_iff (m := .trainPartial)).trans
      (and_congr_right' ((allMarked_partial rfl).trans baseMarked_iff_fields))
  · exact passes_est_iff.trans (and_congr_right' (allMarked_dvfsFinal.trans baseMarked_and_iff))
  · exact passes_est_iff.trans (and_congr_right' (allMarked_trainFinal.trans baseMarked_and_iff))
  · exact passes_est_iff.trans (and_congr_right' (allMarked_periodic.trans baseMarked_and_iff))
  · exact (passes_iff_of_dst rfl rfl).trans (and_congr_right' allMarked_trim)
  · exact (passes_iff_of_both rfl rfl).trans (and_congr_right' allMarked_singleton)
  · exact (passes_iff_of_both rfl rfl).trans (and_congr_right' allMarked_singleton)
  · exact (passes_iff_of_dst rfl rfl).trans (and_congr_right' allMarked_pcomp)

end Sys2Proof.Proofs.ReadSets
end

section
/-! Proofs of the statements of the estimator: what a run samples, commits and returns, and the runs that do not come to
their end (spec 40_estimator.md R116 to R133). -/

namespace Sys2Proof.Proofs.EstimatorRuns

open Sys2Proof Sys2Proof.Machine Sys2Proof.Proofs.TrimOverflow Sys2Proof.Proofs.LanesAndFilter
  Sys2Proof.Proofs.ReadSets

/-! ## Stores -/

theorem holds_memSetWords {m : List Host.Cell} {ws us : List (Nat × Word)}
    (hapart : ws.Pairwise fun q r => Apart q.1 r.1) (hsub : ∀ p ∈ us, p ∈ ws) : Holds (memSetWords m ws) us :=
  fun p hp => memWord_memSetWords_mem (hsub p hp) hapart

theorem sameOutside_memSetWords {m : List Host.Cell} {ws us : List (Nat × Word)} (hsub : ∀ p ∈ ws, p ∈ us) :
    SameOutside m (memSetWords m ws) us :=
  fun _ hb => memByte_memSetWords_other fun p hp => hb p (hsub p hp)

/-! ## The words a run commits -/

/-- A lane's accumulator, and its delay where it is replaced (R116). -/
theorem mem_commitWords_iff {rs : List LaneResult} {q : Nat × Word} :
    q ∈ commitWords rs ↔ ∃ r ∈ rs, q = (offAcc r.lane, BitVec.ofInt 32 r.acc) ∨
      ∃ c, r.cur = some c ∧ q = (offCur r.lane, BitVec.ofInt 32 c) := by
  induction rs with
  | nil => simp [commitWords]
  | cons r rs ih =>
    rw [commitWords, List.mem_cons, List.mem_append, ih, List.exists_mem_cons_iff, or_assoc]
    cases r.cur <;> simp

/-- The fields of different lanes do not overlap. -/
theorem commitWords_apart {rs : List LaneResult} (hlt : ∀ r ∈ rs, r.lane < 8) (hne : (rs.map LaneResult.lane).Nodup) :
    (commitWords rs).Pairwise fun q r => Apart q.1 r.1 := by
  induction rs with
  | nil => exact List.Pairwise.nil
  | cons r rs ih =>
    rw [List.map_cons, List.nodup_cons] at hne
    have hr := hlt r List.mem_cons_self
    have hrest := ih (fun x hx => hlt x (List.mem_cons_of_mem _ hx)) hne.2
    have hother : ∀ q ∈ commitWords rs, Apart (offAcc r.lane) q.1 ∧ Apart (offCur r.lane) q.1 := by
      intro q hq
      obtain ⟨x, hx, ho⟩ := commitWords_offsets rs q hq
      have hxl := hlt x (List.mem_cons_of_mem _ hx)
      have hxr : r.lane ≠ x.lane := fun h => hne.1 (h ▸ List.mem_map_of_mem hx)
      unfold offAcc offCur at *
      omega
    rw [commitWords]
    cases hcur : r.cur with
    | none => exact List.pairwise_cons.2 ⟨fun q hq => (hother q hq).1, hrest⟩
    | some c =>
      refine List.pairwise_cons.2 ⟨fun q hq => ?_, List.pairwise_cons.2 ⟨fun q hq => (hother q hq).2, hrest⟩⟩
      rcases List.mem_cons.1 hq with rfl | hq
      · unfold offAcc offCur
        omega
      · exact (hother q hq).1

theorem trainWords_eq_nil {w : EstWork} (hm : w.mode ≠ .trainFinal) (s : State) : trainWords s w = [] := by
  unfold trainWords
  split
  · next h => exact absurd h hm
  all_goals rfl

theorem trainWords_offsets {s : State} {w : EstWork} {q : Nat × Word} (hq : q ∈ trainWords s w) :
    ∃ l < 8, q.1 = offTrn l := by
  unfold trainWords at hq
  split at hq
  · obtain ⟨l, hl, rfl⟩ := List.mem_map.1 hq
    exact ⟨l, mem_allLanes_iff.1 hl, rfl⟩
  all_goals cases hq

theorem trainWords_apart (s : State) (w : EstWork) : (trainWords s w).Pairwise fun q r => Apart q.1 r.1 := by
  unfold trainWords
  split
  · rw [List.pairwise_map]
    refine List.Pairwise.imp (R := fun l k => l < k) (fun hlk => ?_) (by decide)
    unfold offTrn
    omega
  all_goals exact List.Pairwise.nil

/-- What a run commits, by entry offset. -/
def runWords (s : State) (w : EstWork) : List (Nat × Word) := commitWords w.done ++ trainWords s w

theorem runWords_apart {s : State} {w : EstWork} (hlt : ∀ r ∈ w.done, r.lane < 8)
    (hne : (w.done.map LaneResult.lane).Nodup) : (runWords s w).Pairwise fun q r => Apart q.1 r.1 := by
  refine List.pairwise_append.2 ⟨commitWords_apart hlt hne, trainWords_apart s w, fun q hq p hp => ?_⟩
  obtain ⟨r, hr, ho⟩ := commitWords_offsets _ q hq
  obtain ⟨l, hl, ht⟩ := trainWords_offsets hp
  have := hlt r hr
  unfold offAcc offCur at ho
  unfold offTrn at ht
  omega

/-- The words at their window offsets. -/
def placed (s : State) (i : Nat) (ws : List (Nat × Word)) : List (Nat × Word) := ws.map fun q => (wordAt s i q.1, q.2)

theorem placed_apart {s : State} {i : Nat} {ws : List (Nat × Word)} (h : ws.Pairwise fun q r => Apart q.1 r.1) :
    (placed s i ws).Pairwise fun q r => Apart q.1 r.1 := by
  rw [placed, List.pairwise_map]
  refine h.imp fun hqr => ?_
  unfold wordAt
  omega

/-- The commit depends on the entry table and on what the run has computed. -/
theorem runWords_congr {s t : State} {w v : EstWork} (hm : t.mem = s.mem) (hp : t.params = s.params)
    (hmode : v.mode = w.mode) (hdst : v.dst = w.dst) (hdone : v.done = w.done) : runWords t v = runWords s w := by
  simp only [runWords, trainWords, newCur, fieldD_congr hm hp, hmode, hdst, hdone]

/-! ## A run to its end -/

/-- The run of an estimator command, as it begins. -/
def firstRun (s : State) (m : EstMode) : EstWork := ⟨m, srcOf s, dstOf s, activeLanes s.cfg, [], 0⟩

/-- The same run when its lanes are done. -/
def lastRun (s : State) (m : EstMode) (rs : List LaneResult) : EstWork := { firstRun s m with done := rs }

section

variable {m : EstMode} {s : State}

theorem exec_est_eq (hi : Idle s) (m : EstMode) :
    exec (estInstr m) s = .next (runStages unitStages (s.accept (estInstr m))).state := by
  obtain ⟨hbusy, _⟩ := hi
  rw [exec_eq _ (by cases m <;> rfl), launch_idle hbusy]
  cases m <;> rfl

/-- Once its checks succeed, the command is its run and then its end. -/
theorem exec_est_passes (hi : Idle s) (hc : Passes (estInstr m) s) :
    exec (estInstr m) s = .next ((runTasks [.est (firstRun s m) 0] (s.accept (estInstr m))).andThen
      (fun c => { c with parts := [], stages := [.finish .value] }) (runStages [.finish .value])).state := by
  have hq : (s.accept (estInstr m)).quantum = none := hi.2
  have hfresh : (s.accept (estInstr m)).expand (.est m) = .ok [.est (firstRun s m) 0] := by cases m <;> rfl
  rw [exec_est_eq hi, runStages_unit (p := .est m) (by cases m <;> rfl) rfl hq hc, runParts_ok hfresh]
  cases runTasks [.est (firstRun s m) 0] (s.accept (estInstr m)) <;> rfl

/-- What the first operation of a command makes of its run. -/
theorem runTask_firstRun :
    runTask (.est (firstRun s m) 0) (s.accept (estInstr m)) =
      estLoop 0 (activeLanes s.cfg) (firstRun s m) (s.accept (estInstr m)) := rfl

theorem exec_est_done {u : State} (hi : Idle s) (hc : Passes (estInstr m) s)
    (hr : estLoop 0 (activeLanes s.cfg) (firstRun s m) (s.accept (estInstr m)) = .done u) (hq : u.quantum = none) :
    exec (estInstr m) s = .next (u.succeed .value) := by
  rw [exec_est_passes hi hc, runTasks_done (by exact hi.2) (runTask_firstRun.trans hr), runTasks_nil, andThen_done,
    runStages_finish hq, Run.state_ended]

theorem exec_est_abort {c : Cause} {u : State} (hi : Idle s) (hc : Passes (estInstr m) s)
    (hr : estLoop 0 (activeLanes s.cfg) (firstRun s m) (s.accept (estInstr m)) = .abort c u) :
    exec (estInstr m) s = .next (u.abort c) := by
  rw [exec_est_passes hi hc, runTasks_abort (by exact hi.2) (runTask_firstRun.trans hr), andThen_abort, Run.state_abort]

theorem exec_est_hold {t : Task} {u : State} (hi : Idle s) (hc : Passes (estInstr m) s)
    (hr : estLoop 0 (activeLanes s.cfg) (firstRun s m) (s.accept (estInstr m)) = .hold t u) :
    exec (estInstr m) s = .next (u.suspend ⟨[t], [], [.finish .value]⟩) := by
  rw [exec_est_passes hi hc, runTasks_hold (by exact hi.2) (runTask_firstRun.trans hr), andThen_paused,
    Run.state_paused]

theorem map_fst_lanesWith {ns : List Word} (hn : ns.length = (activeLanes s.cfg).length) :
    (lanesWith s ns).map Prod.fst = activeLanes s.cfg := by
  rw [lanesWith, List.map_fst_zip (by omega)]

/-- The lanes done are the active ones, each once. -/
theorem lanes_of_results {f : Nat × Word → LaneResult × Int} {ns : List Word}
    (hn : ns.length = (activeLanes s.cfg).length) (hf : ∀ p ∈ lanesWith s ns, (f p).1.lane = p.1) :
    ((lanesWith s ns).map fun p => (f p).1).map LaneResult.lane = activeLanes s.cfg := by
  rw [List.map_map, ← map_fst_lanesWith hn]
  exact List.map_congr_left hf

/-- A commit changes the entry table and the return value, whatever has been sampled. -/
theorem estCommit_sampled (w : EstWork) (s : State) (rest : List Word) (tr : List PortEvent) :
    estCommit w { s with sampleIn := rest, trace := tr } =
      { s with
        sampleIn := rest, trace := tr, mem := memSetWords s.mem (placed s w.dst (runWords s w))
        pass := { s.pass with value := BitVec.ofInt 32 w.maxDelta } } := rfl

/-- The success of an estimator command, in the terms of the statements. -/
theorem succeed_sampled (mem : List Host.Cell) (rest : List Word) (tr : List PortEvent) (r : Word) :
    ({ s.accept (estInstr m) with
        sampleIn := rest, trace := tr, mem := mem
        pass := { (s.accept (estInstr m)).pass with value := r } } : State).succeed .value =
      { endedOk s 0 r with mem := mem, sampleIn := rest, trace := tr } := by
  have hcompw : cmdIsSwitch (estInstr m) = false := by cases m <;> rfl
  simp [State.succeed, State.endFlags, endedOk, State.accept, statusCode, causeIsFault, hcompw]

/-- An estimator command whose lanes all come through: what it leaves, for the words that its run commits (R114, R116,
R125, R126, R128, R132). -/
theorem exec_est_stores {f : Nat × Word → LaneResult × Int} {ns rest : List Word} {stores : List (Nat × Word)}
    (hi : Idle s) (hc : Passes (estInstr m) s) (hin : s.sampleIn = ns ++ rest)
    (hn : ns.length = (activeLanes s.cfg).length)
    (hl : ∀ p ∈ lanesWith s ns, estLane s (firstRun s m) p.1 p.2 = .ok (f p))
    (hw : ∀ q, q ∈ placed s (dstOf s) (runWords s (lastRun s m ((lanesWith s ns).map fun p => (f p).1))) ↔
      q ∈ stores) :
    ∃ mem, exec (estInstr m) s = .next
        { endedOk s 0 (BitVec.ofInt 32 (largest ((lanesWith s ns).map fun p => (f p).2))) with
          mem := mem, sampleIn := rest, trace := s.trace ++ sampleTrace (lanesWith s ns) } ∧
      Holds mem stores ∧ SameOutside s.mem mem stores := by
  have hlanes := lanes_of_results hn fun p hp => estLane_lane (hl p hp)
  have hapart := placed_apart (s := s) (i := dstOf s)
    (runWords_apart (s := s) (w := lastRun s m ((lanesWith s ns).map fun p => (f p).1))
      (fun r hr => (mem_activeLanes_iff.1 (hlanes ▸ List.mem_map_of_mem hr)).1)
      (hlanes.symm ▸ activeLanes_nodup s.cfg))
  obtain ⟨w, hmode, -, hdst, hdone, hmax, hrun⟩ := estLoop_done 0 f (activeLanes s.cfg) ns rest (firstRun s m)
    (s.accept (estInstr m)) hn hin
    (fun p hp => (estLane_congr (s := s) (w := firstRun s m) rfl rfl rfl rfl rfl p.1 p.2).trans (hl p hp))
  have hwords : runWords (s.accept (estInstr m)) w =
      runWords s (lastRun s m ((lanesWith s ns).map fun p => (f p).1)) := runWords_congr rfl rfl hmode hdst hdone
  refine ⟨_, ?_, holds_memSetWords hapart fun q hq => (hw q).2 hq, sameOutside_memSetWords fun q hq => (hw q).1 hq⟩
  rw [exec_est_done hi hc hrun (by exact hi.2), estCommit_sampled, hwords, succeed_sampled, hmax, hdst]
  rfl

/-! ## The modes -/

theorem mem_placed_commitWords_iff {i : Nat} {rs : List LaneResult} {q : Nat × Word} :
    q ∈ placed s i (commitWords rs) ↔ ∃ r ∈ rs, q = (wordAt s i (offAcc r.lane), BitVec.ofInt 32 r.acc) ∨
      ∃ c, r.cur = some c ∧ q = (wordAt s i (offCur r.lane), BitVec.ofInt 32 c) := by
  simp only [placed, List.mem_map, mem_commitWords_iff]
  constructor
  · rintro ⟨_, ⟨r, hr, rfl | ⟨c, hc, rfl⟩⟩, rfl⟩
    exacts [⟨r, hr, .inl rfl⟩, ⟨r, hr, .inr ⟨c, hc, rfl⟩⟩]
  · rintro ⟨r, hr, rfl | ⟨c, hc, rfl⟩⟩
    exacts [⟨_, ⟨r, hr, .inl rfl⟩, rfl⟩, ⟨_, ⟨r, hr, .inr ⟨c, hc, rfl⟩⟩, rfl⟩]

/-- Without Training-final a run commits the fields of its lanes and nothing else. -/
theorem runWords_lastRun {rs : List LaneResult} (hm : m ≠ .trainFinal) :
    runWords s (lastRun s m rs) = commitWords rs := by
  rw [runWords, trainWords_eq_nil hm, List.append_nil]
  rfl

theorem mem_activeLanes_of_lanesWith {ns : List Word} {p : Nat × Word} (hp : p ∈ lanesWith s ns) :
    p.1 < 8 ∧ laneActive s.cfg p.1 = true := mem_activeLanes_iff.1 (List.of_mem_zip hp).1

/-- What a partial pass makes of a lane (R119). -/
def partialResult (s : State) (p : Nat × Word) : LaneResult × Int := (⟨p.1, summed s (srcOf s) (dstOf s) p, none⟩, 0)

theorem mem_partialStores_iff {ps : List (Nat × Word)} (hm : m ≠ .trainFinal) (q : Nat × Word) :
    q ∈ placed s (dstOf s) (runWords s (lastRun s m (ps.map fun p => (partialResult s p).1))) ↔
      q ∈ partialStores s (srcOf s) (dstOf s) ps := by
  rw [runWords_lastRun hm, mem_placed_commitWords_iff, partialStores]
  simp [partialResult, eq_comm]

theorem largest_zeros (ps : List (Nat × Word)) : largest (ps.map fun p => (partialResult s p).2) = 0 := by
  induction ps with
  | nil => rfl
  | cons p ps ih => exact ih

/-- What a final pass makes of a lane (R120, R122 to R124). -/
def finalResult (s : State) (l : Nat) : LaneResult × Int :=
  (⟨l, averaged s (dstOf s) l, some (Int.tdiv (averaged s (dstOf s) l) 100)⟩,
    driftOf s (dstOf s) l (averaged s (dstOf s) l))

theorem mem_finalStores_iff {ls : List Nat} {q : Nat × Word} :
    q ∈ placed s (dstOf s) (commitWords (ls.map fun l => (finalResult s l).1)) ↔ q ∈ finalStores s (dstOf s) ls := by
  rw [mem_placed_commitWords_iff, finalStores]
  simp [finalResult, eq_comm, and_or_left, exists_or]

/-- A lane of a final pass has the new delay, another one the old (R131). -/
theorem newCur_finalResult (ls : List Nat) (l : Nat) :
    newCur s (dstOf s) (ls.map fun l => (finalResult s l).1) l =
      if l ∈ ls then BitVec.ofInt 32 (Int.tdiv (averaged s (dstOf s) l) 100) else s.fieldD (dstOf s) (offCur l) := by
  unfold newCur
  induction ls with
  | nil => rfl
  | cons k ls ih =>
    by_cases hk : k = l
    · subst hk
      simp [finalResult]
    · have hmem : l ∈ k :: ls ↔ l ∈ ls := by simp [Ne.symm hk]
      rw [List.map_cons, List.find?_cons_of_neg (by simpa [finalResult] using hk), ih]
      simp only [hmem]

theorem placed_trainWords (ls : List Nat) :
    placed s (dstOf s) (trainWords s (lastRun s .trainFinal (ls.map fun l => (finalResult s l).1))) =
      trainedStores s (dstOf s) ls := by
  have hwords : trainWords s (lastRun s .trainFinal (ls.map fun l => (finalResult s l).1)) =
      allLanes.map fun l => (offTrn l, newCur s (dstOf s) (ls.map fun l => (finalResult s l).1) l) := rfl
  simp only [placed, hwords, newCur_finalResult, trainedStores, List.map_map, Function.comp_def]

theorem mem_trainStores_iff {ls : List Nat} {q : Nat × Word} :
    q ∈ placed s (dstOf s) (runWords s (lastRun s .trainFinal (ls.map fun l => (finalResult s l).1))) ↔
      q ∈ finalStores s (dstOf s) ls ++ trainedStores s (dstOf s) ls := by
  rw [runWords, placed, List.map_append, List.mem_append, List.mem_append, ← placed, ← placed, placed_trainWords]
  exact or_congr_left mem_finalStores_iff

/-- What a periodic pass makes of a lane (R121 to R124). -/
def periodicResult (s : State) (p : Nat × Word) : LaneResult × Int :=
  (⟨p.1, blended s (srcOf s) (dstOf s) p,
    if (marginAt s (dstOf s) : Int) <
        scaledTo s (dstOf s) (driftOf s (dstOf s) p.1 (blended s (srcOf s) (dstOf s) p)) then
      some (Int.tdiv (blended s (srcOf s) (dstOf s) p) 100) else none⟩,
    driftOf s (dstOf s) p.1 (blended s (srcOf s) (dstOf s) p))

theorem mem_periodicStores_iff {ps : List (Nat × Word)} {q : Nat × Word} :
    q ∈ placed s (dstOf s) (runWords s (lastRun s .periodic (ps.map fun p => (periodicResult s p).1))) ↔
      q ∈ periodicStores s (srcOf s) (dstOf s) ps := by
  rw [runWords_lastRun (m := .periodic) nofun, mem_placed_commitWords_iff, periodicStores]
  simp [periodicResult, eq_comm, and_or_left, exists_or, and_assoc]

end

/-- A partial mode (R110), on a free engine whose checks succeed. -/
theorem exec_est_partial {m : EstMode} {s : State} {ns rest : List Word} (hm : modeIsPartial m = true) (hi : Idle s)
    (hc : Passes (estInstr m) s) (hin : s.sampleIn = ns ++ rest) (hn : ns.length = (activeLanes s.cfg).length)
    (hrange : ∀ p ∈ lanesWith s ns, InS32 (100 * rawSample s (srcOf s) (dstOf s) p.2) ∧
      InS32 (summed s (srcOf s) (dstOf s) p)) :
    ∃ mem, exec (estInstr m) s = .next
        { endedOk s 0 0 with
          mem := mem, sampleIn := rest, trace := s.trace ++ sampleTrace (lanesWith s ns) } ∧
      Holds mem (partialStores s (srcOf s) (dstOf s) (lanesWith s ns)) ∧
      SameOutside s.mem mem (partialStores s (srcOf s) (dstOf s) (lanesWith s ns)) := by
  obtain ⟨hsrc, hdst, hacc⟩ := (allMarked_partial hm).1 (passes_est_iff.1 hc).2
  have hlane : ∀ p ∈ lanesWith s ns, estLane s (firstRun s m) p.1 p.2 = .ok (partialResult s p) := fun p hp =>
    estLane_partial hm hsrc hdst (hacc p.1 (mem_activeLanes_of_lanesWith hp).1 (mem_activeLanes_of_lanesWith hp).2)
      (hrange p hp).1 (hrange p hp).2
  have hrun := exec_est_stores hi hc hin hn hlane (mem_partialStores_iff (by rintro rfl; cases hm))
  rwa [largest_zeros] at hrun

/-- Settles O29. -/
theorem estPartialAddsSamples : Obligations.EstPartialAddsSamples := by
  rintro i s ns rest (rfl | rfl) hi hc hin hn hrange
  · exact exec_est_partial (m := .dvfsPartial) rfl hi hc hin hn hrange
  · exact exec_est_partial (m := .trainPartial) rfl hi hc hin hn hrange

/-- What the checks of a final mode make sure of, in both modes. -/
structure FinalMarked (s : State) (src dst : Nat) : Prop extends BaseMarked s src dst where
  cur : ∀ l < 8, laneActive s.cfg l = true → s.marked dst (offCur l) = true
  margin : s.marked dst offMargin = true
  count : s.marked dst offSampleCount = true

theorem finalMarked_of_passes {m : EstMode} {s : State} (hm : modeIsFinal m = true) (hc : Passes (estInstr m) s) :
    FinalMarked s (srcOf s) (dstOf s) := by
  cases m with
  | dvfsPartial | trainPartial | periodic => cases hm
  | dvfsFinal =>
    obtain ⟨hbase, hcur, hmargin, hcount⟩ := allMarked_dvfsFinal.1 (passes_est_iff.1 hc).2
    exact { hbase with cur := hcur, margin := hmargin, count := hcount }
  | trainFinal =>
    obtain ⟨hbase, hcur, hmargin, hcount⟩ := allMarked_trainFinal.1 (passes_est_iff.1 hc).2
    exact { hbase with cur := fun l hl _ => hcur l hl, margin := hmargin, count := hcount }

section

variable {m : EstMode} {s : State} {ns rest : List Word}

/-- The lanes of a final pass, every difference in range. -/
theorem estLane_firstRun_final (hm : modeIsFinal m = true) (hc : Passes (estInstr m) s)
    (h0 : countAt s (dstOf s) ≠ 0)
    (hrange : ∀ l ∈ activeLanes s.cfg, JudgesInRange s (dstOf s) l (averaged s (dstOf s) l)) :
    ∀ p ∈ lanesWith s ns, estLane s (firstRun s m) p.1 p.2 = .ok (finalResult s p.1) := by
  intro p hp
  have hmarked := finalMarked_of_passes hm hc
  obtain ⟨hlt, hactive⟩ := mem_activeLanes_of_lanesWith hp
  exact estLane_final hm hmarked.srcFreq hmarked.dstFreq (hmarked.acc p.1 hlt hactive) (hmarked.cur p.1 hlt hactive)
    hmarked.margin hmarked.count h0 (hrange p.1 (mem_activeLanes_iff.2 ⟨hlt, hactive⟩))

/-- What is computed of the lanes alone does not depend on the counts. -/
theorem map_lanesWith {α : Type} (g : Nat → α) (hn : ns.length = (activeLanes s.cfg).length) :
    (lanesWith s ns).map (fun p => g p.1) = (activeLanes s.cfg).map g := by
  rw [← map_fst_lanesWith hn, List.map_map]
  rfl

/-- A final mode, on a free engine whose checks succeed, for the words that its run commits. -/
theorem exec_est_final {stores : List (Nat × Word)} (hm : modeIsFinal m = true) (hi : Idle s)
    (hc : Passes (estInstr m) s) (hin : s.sampleIn = ns ++ rest) (hn : ns.length = (activeLanes s.cfg).length)
    (h0 : countAt s (dstOf s) ≠ 0)
    (hrange : ∀ l ∈ activeLanes s.cfg, JudgesInRange s (dstOf s) l (averaged s (dstOf s) l))
    (hw : ∀ q, q ∈ placed s (dstOf s)
        (runWords s (lastRun s m ((activeLanes s.cfg).map fun l => (finalResult s l).1))) ↔ q ∈ stores) :
    ∃ mem, exec (estInstr m) s = .next
        { endedOk s 0 (BitVec.ofInt 32 (finalDelta s (dstOf s) (activeLanes s.cfg))) with
          mem := mem, sampleIn := rest, trace := s.trace ++ sampleTrace (lanesWith s ns) } ∧
      Holds mem stores ∧ SameOutside s.mem mem stores := by
  have hrun := exec_est_stores (f := fun p => finalResult s p.1) (stores := stores) hi hc hin hn
    (estLane_firstRun_final hm hc h0 hrange) (by rwa [map_lanesWith (fun l => (finalResult s l).1) hn])
  rwa [map_lanesWith (fun l => (finalResult s l).2) hn] at hrun

end

/-- Settles O30. -/
theorem estDvfsFinalReplacesDelays : Obligations.EstDvfsFinalReplacesDelays := by
  intro s ns rest hi hc hin hn h0 hrange
  refine exec_est_final (m := .dvfsFinal) rfl hi hc hin hn h0 hrange fun q => ?_
  rw [runWords_lastRun (m := .dvfsFinal) nofun]
  exact mem_finalStores_iff

/-- Settles O31. -/
theorem estTrainFinalCopiesDelays : Obligations.EstTrainFinalCopiesDelays := by
  intro s ns rest hi hc hin hn h0 hrange
  exact exec_est_final (m := .trainFinal) rfl hi hc hin hn h0 hrange fun q => mem_trainStores_iff

/-- Settles O32. -/
theorem estPeriodicBlendsAndReplaces : Obligations.EstPeriodicBlendsAndReplaces := by
  intro s ns rest hi hc hin hn hrange
  obtain ⟨⟨hsrc, hdst, hacc⟩, hcur, hmargin, hweight⟩ :=
    allMarked_periodic.1 (passes_est_iff (m := .periodic) |>.1 hc).2
  refine exec_est_stores (m := .periodic) (f := periodicResult s) hi hc hin hn (fun p hp => ?_)
    fun q => mem_periodicStores_iff
  obtain ⟨hlt, hactive⟩ := mem_activeLanes_of_lanesWith hp
  exact estLane_periodic rfl hsrc hdst (hacc p.1 hlt hactive) (hcur p.1 hlt hactive) hmargin hweight (hrange p hp).1
    (hrange p hp).2

/-! ## Runs that do not come to their end -/

section

variable {more l : Nat} {ls : List Nat} {w : EstWork} {s : State} {n : Word} {rest : List Word}

/-- One lane of a run: no count yet, a cause, or a result. -/
theorem estLoop_holds (hin : s.sampleIn = []) :
    estLoop more (l :: ls) w s = .hold (.est { w with todo := l :: ls } more) s := by
  simp only [estLoop, State.sample, hin]

theorem estLoop_error {c : Cause} (hin : s.sampleIn = n :: rest) (hl : estLane s w l n = .error c) :
    estLoop more (l :: ls) w s = .abort c { s with sampleIn := rest, trace := s.trace ++ [.sample l n] } := by
  have hlane : estLane { s with sampleIn := rest, trace := s.trace ++ [.sample l n] } w l n = .error c :=
    (estLane_congr (s := s) (w := w) rfl rfl rfl rfl rfl l n).trans hl
  simp only [estLoop, State.sample, hin, hlane]

theorem estLoop_ok {r : LaneResult × Int} (hin : s.sampleIn = n :: rest) (hl : estLane s w l n = .ok r) :
    estLoop more (l :: ls) w s =
      estLoop more ls { w with todo := ls, done := w.done ++ [r.1], maxDelta := max w.maxDelta r.2 }
        { s with sampleIn := rest, trace := s.trace ++ [.sample l n] } := by
  have hlane : estLane { s with sampleIn := rest, trace := s.trace ++ [.sample l n] } w l n = .ok r :=
    (estLane_congr (s := s) (w := w) rfl rfl rfl rfl rfl l n).trans hl
  simp only [estLoop, State.sample, hin, hlane]

end

/-- A zero sample count in a final mode ends the command at lane 0, which is always active (R130). -/
theorem exec_est_div0 {m : EstMode} {s : State} {n : Word} {rest : List Word} (hm : modeIsFinal m = true) (hi : Idle s)
    (hc : Passes (estInstr m) s) (h0 : countAt s (dstOf s) = 0) (hin : s.sampleIn = n :: rest) :
    exec (estInstr m) s = .next
      { endedAbort s 0 .div0 with sampleIn := rest, trace := s.trace ++ [.sample 0 n] } := by
  have hmarked := finalMarked_of_passes hm hc
  obtain ⟨ls, hlanes⟩ := activeLanes_eq_cons s.cfg
  obtain ⟨hlt, hactive⟩ := mem_activeLanes_iff.1 (hlanes ▸ List.mem_cons_self : 0 ∈ activeLanes s.cfg)
  have hlane : estLane (s.accept (estInstr m)) (firstRun s m) 0 n = .error .div0 :=
    estLane_final_zero hm hmarked.srcFreq hmarked.dstFreq (hmarked.acc 0 hlt hactive) (hmarked.cur 0 hlt hactive)
      hmarked.margin hmarked.count h0
  have hrun : estLoop 0 (activeLanes s.cfg) (firstRun s m) (s.accept (estInstr m)) =
      .abort .div0 { s.accept (estInstr m) with sampleIn := rest, trace := s.trace ++ [.sample 0 n] } := by
    rw [hlanes]
    exact estLoop_error hin hlane
  have hcompw : cmdIsSwitch (estInstr m) = false := by cases m <;> rfl
  rw [exec_est_abort hi hc hrun]
  simp [State.abort, State.endFlags, endedAbort, State.accept, statusCode, hcompw]

/-- Settles O33. -/
theorem zeroSampleCountIsDiv0 : Obligations.ZeroSampleCountIsDiv0 := by
  rintro i s n rest (rfl | rfl) hi hc h0 hin
  · exact exec_est_div0 (m := .dvfsFinal) rfl hi hc h0 hin
  · exact exec_est_div0 (m := .trainFinal) rfl hi hc h0 hin

/-- From `s` to `u` the lanes of a list have been sampled up to some point, and nothing else has happened. -/
def SampledOnly (s u : State) (ls : List Nat) : Prop :=
  ∃ k, k ≤ ls.length ∧ k ≤ s.sampleIn.length ∧
    u = { s with sampleIn := s.sampleIn.drop k, trace := s.trace ++ sampleTrace (ls.zip (s.sampleIn.take k)) }

theorem SampledOnly.refl (s : State) (ls : List Nat) : SampledOnly s s ls := ⟨0, by simp [sampleTrace]⟩

theorem SampledOnly.cons {s u : State} {l : Nat} {ls : List Nat} {n : Word} {ns : List Word}
    (hin : s.sampleIn = n :: ns)
    (h : SampledOnly { s with sampleIn := ns, trace := s.trace ++ [.sample l n] } u ls) :
    SampledOnly s u (l :: ls) := by
  obtain ⟨k, hk, hkn, rfl⟩ := h
  refine ⟨k + 1, Nat.succ_le_succ hk, ?_, ?_⟩
  · rw [hin]
    exact Nat.succ_le_succ hkn
  · simp [hin, sampleTrace]

/-- A run that waits, or in which a cause is raised, has only sampled: the commit comes at its end (R129, R133). -/
theorem estLoop_cases (more : Nat) (ls : List Nat) (w : EstWork) (s : State) :
    (∃ w' u, estLoop more ls w s = .done (estCommit w' u) ∧ u.quantum = s.quantum) ∨
      (∃ t u, estLoop more ls w s = .hold t u ∧ SampledOnly s u ls) ∨
      ∃ c u, estLoop more ls w s = .abort c u ∧ SampledOnly s u ls := by
  induction ls generalizing w s with
  | nil => exact .inl ⟨w, s, rfl, rfl⟩
  | cons l ls ih =>
    cases hs : s.sampleIn with
    | nil => exact .inr (.inl ⟨_, s, estLoop_holds hs, .refl s _⟩)
    | cons n ns =>
      cases hl : estLane s w l n with
      | error c => exact .inr (.inr ⟨c, _, estLoop_error hs hl, .cons hs (.refl _ _)⟩)
      | ok r =>
        rw [estLoop_ok hs hl]
        rcases ih { w with todo := ls, done := w.done ++ [r.1], maxDelta := max w.maxDelta r.2 }
            { s with sampleIn := ns, trace := s.trace ++ [.sample l n] } with
          hdone | ⟨t, u, hr, hu⟩ | ⟨c, u, hr, hu⟩
        · exact .inl hdone
        · exact .inr (.inl ⟨t, u, hr, .cons hs hu⟩)
        · exact .inr (.inr ⟨c, u, hr, .cons hs hu⟩)

/-- What an unsuccessful `est` leaves as it was, and the samples it has taken (R129, R133). -/
def NothingCommitted (s t : State) : Prop :=
  t.mem = s.mem ∧ t.result = s.result ∧ t.queue = s.queue ∧ t.fspOp = s.fspOp ∧ t.fspWr = s.fspWr ∧
    ∃ k, k ≤ (activeLanes s.cfg).length ∧ k ≤ s.sampleIn.length ∧ t.sampleIn = s.sampleIn.drop k ∧
      t.trace = s.trace ++ sampleTrace (lanesWith s (s.sampleIn.take k))

section

variable {m : EstMode} {s : State}

theorem SampledOnly.suspend {i : Instr} {u : State} (h : SampledOnly (s.accept i) u (activeLanes s.cfg)) (c : Cont) :
    NothingCommitted s (u.suspend c) := by
  obtain ⟨k, hk, hkn, rfl⟩ := h
  exact ⟨rfl, rfl, rfl, rfl, rfl, k, hk, hkn, rfl, rfl⟩

theorem SampledOnly.abort {i : Instr} {u : State} (h : SampledOnly (s.accept i) u (activeLanes s.cfg)) (c : Cause) :
    NothingCommitted s (u.abort c) := by
  obtain ⟨k, hk, hkn, rfl⟩ := h
  exact ⟨rfl, rfl, rfl, rfl, rfl, k, hk, hkn, rfl, rfl⟩

/-- An `est` that has not succeeded: its checks have refused it, or its run has only sampled. -/
theorem exec_est_nothingCommitted {t : State} (hi : Idle s) (he : exec (estInstr m) s = .next t)
    (ht : t.busy = true ∨ t.cause ≠ .none) : NothingCommitted s t := by
  by_cases hc : Passes (estInstr m) s
  · rcases estLoop_cases 0 (activeLanes s.cfg) (firstRun s m) (s.accept (estInstr m)) with
      ⟨w, u, hr, hq⟩ | ⟨task, u, hr, hu⟩ | ⟨c, u, hr, hu⟩
    · rw [exec_est_done hi hc hr (by exact hq.trans hi.2)] at he
      cases he
      rcases ht with hbusy | hcause
      · cases hbusy
      · exact absurd rfl hcause
    · rw [exec_est_hold hi hc hr] at he
      cases he
      exact hu.suspend _
    · rw [exec_est_abort hi hc hr] at he
      cases he
      exact hu.abort _
  · rw [exec_est_eq hi, unitStages, runStages_checks_abort (by exact hi.2) hc, Run.state_abort] at he
    cases he
    exact (SampledOnly.refl _ _).abort _

/-- With no count supplied the run waits at lane 0, its first (R69, R235). -/
theorem exec_est_waits (hi : Idle s) (hc : Passes (estInstr m) s) (hin : s.sampleIn = []) :
    exec (estInstr m) s = .next ((s.accept (estInstr m)).suspend
      ⟨[.est { firstRun s m with todo := activeLanes s.cfg } 0], [], [.finish .value]⟩) := by
  obtain ⟨ls, hlanes⟩ := activeLanes_eq_cons s.cfg
  refine exec_est_hold hi hc ?_
  rw [hlanes]
  exact estLoop_holds hin

end

/-- Settles O34. -/
theorem estIsAllOrNothing : Obligations.EstIsAllOrNothing := by
  intro i s t hest hi he
  obtain ⟨m, rfl⟩ := isEst_iff.1 hest
  refine ⟨exec_est_nothingCommitted hi he, fun hc hin => ?_⟩
  rw [exec_est_waits hi hc hin] at he
  cases he
  exact ⟨rfl, rfl, rfl⟩

end Sys2Proof.Proofs.EstimatorRuns
end

section
/-! Proofs of the statements of the estimator and its neighbours: the causes each command can raise (spec
40_estimator.md R133, 41_trim.md R151, 42_power_ramp.md R165, 44_periodic_control.md R221). -/

namespace Sys2Proof.Proofs.CausesRaised

open Sys2Proof Sys2Proof.Machine Sys2Proof.Proofs.ReadSets

/-! ## Computations -/

/-- The causes a computation can raise are of a set. -/
def Within {α : Type} (K : Cause → Prop) (e : Except Cause α) : Prop := ∀ c, e = .error c → K c

section

variable {α β : Type} {K : Cause → Prop}

theorem within_ok (a : α) : Within K (.ok a) := nofun

theorem within_error {c : Cause} (h : K c) : Within K (.error c : Except Cause α) := by
  rintro _ ⟨⟩
  exact h

theorem within_bind {e : Except Cause α} {f : α → Except Cause β} (he : Within K e) (hf : ∀ a, Within K (f a)) :
    Within K (e >>= f) := by
  cases e with
  | ok a => rw [bind_ok]; exact hf a
  | error c => rw [bind_error]; exact within_error (he c rfl)

theorem within_mapM {f : α → Except Cause β} (hf : ∀ a, Within K (f a)) (l : List α) : Within K (l.mapM f) := by
  induction l with
  | nil => exact within_ok _
  | cons a l ih =>
    rw [List.mapM_cons]
    exact within_bind (hf a) fun _ => within_bind ih fun _ => within_ok _

theorem Within.mono {K' : Cause → Prop} {e : Except Cause α} (h : Within K e) (hK : ∀ c, K c → K' c) : Within K' e :=
  fun c hc => hK c (h c hc)

end

/-- The causes of a computation that divides by nothing that can be 0: a mark missing, or a value out of range. -/
def Arithmetic (c : Cause) : Prop := c = .uninit ∨ c = .overflow

/-- The causes of an estimator run: `DIV0` in the final modes only (R130). -/
def EstCause (m : EstMode) (c : Cause) : Prop := Arithmetic c ∨ (modeIsFinal m = true ∧ c = .div0)

theorem within_chk32 (v : Int) : Within Arithmetic (chk32 v) := by
  unfold chk32
  split
  · exact within_ok v
  · exact within_error (.inr rfl)

theorem within_tdiv (K : Cause → Prop) (a : Int) {b : Int} (hb : b ≠ 0) : Within K (tdiv a b) := by
  rw [tdiv_ok a hb]
  exact within_ok _

theorem within_scaled (d : Int) (f : Nat) : Within Arithmetic (scaled d f) := fun _ h => .inr (scaled_error h)

theorem within_partialAcc (acc smp : Int) : Within Arithmetic (partialAcc acc smp) := by
  unfold partialAcc
  exact within_bind (within_chk32 _) fun _ => within_chk32 _

/-- The divisor of the periodic filter is the weight and 1 (R121). -/
theorem within_periodicAcc (acc smp : Int) (w : Nat) : Within Arithmetic (periodicAcc acc smp w) := by
  unfold periodicAcc
  refine within_bind (within_chk32 _) fun _ => within_bind (within_chk32 _) fun _ => within_bind (within_chk32 _)
    fun _ => ?_
  by_cases hw : InS32 ((w : Int) + 1)
  · rw [chk32_ok hw, bind_ok]
    exact within_tdiv _ _ (by omega)
  · rw [chk32_error hw, bind_error]
    exact within_error (.inr rfl)

theorem within_judge (final : Bool) (acc cur : Int) (f margin : Nat) :
    Within Arithmetic (judge final acc cur f margin) := by
  unfold judge
  exact within_bind (within_chk32 _) fun _ => within_bind (within_chk32 _) fun _ =>
    within_bind (within_scaled _ _) fun _ => within_ok _

theorem within_tapOf (cur trn : Int) (f : Nat) : Within Arithmetic (tapOf cur trn f) := by
  unfold tapOf
  exact within_bind (within_chk32 _) fun _ => within_bind (within_chk32 _) fun _ =>
    within_bind (within_chk32 _) fun _ => within_tdiv _ _ (by decide)

theorem within_adjusted (v tap : Int) (margin : Nat) : Within Arithmetic (adjusted v tap margin) := by
  unfold adjusted adjustment
  exact within_bind (within_bind (within_chk32 _) fun _ => within_ok _) fun _ => within_chk32 _

/-- A component of a trim value is taken by 64 (41_trim.md R145, R146). -/
theorem within_component (K : Cause → Prop) (id : Nat) (t : Int) : Within K (component (trimIsByteShift id) t) := by
  rw [component_ok]
  exact within_ok _

section

variable (s : State)

theorem within_field (i off : Nat) : Within Arithmetic (s.field i off) := fun _ h => .inl (field_error h)

theorem within_fieldU (i off : Nat) : Within Arithmetic (s.fieldU i off) :=
  within_bind (within_field s i off) fun _ => within_ok _

theorem within_fieldS (i off : Nat) : Within Arithmetic (s.fieldS i off) :=
  within_bind (within_field s i off) fun _ => within_ok _

/-- A lane: only the division by the sample count, in a final mode, can raise `DIV0`. -/
theorem within_estLane (w : EstWork) (l : Nat) (n : Word) : Within (EstCause w.mode) (estLane s w l n) := by
  have arithmetic {α : Type} {e : Except Cause α} (h : Within Arithmetic e) : Within (EstCause w.mode) e :=
    h.mono fun _ => .inl
  unfold estLane
  refine within_bind (arithmetic (within_field _ _ _)) fun fs => within_bind (arithmetic (within_field _ _ _)) fun ft =>
    within_bind (arithmetic (within_fieldS _ _ _)) fun acc => ?_
  split
  · exact within_bind (arithmetic (within_partialAcc _ _)) fun _ => within_ok _
  · refine within_bind (arithmetic (within_fieldS _ _ _)) fun cur =>
      within_bind (arithmetic (within_fieldU _ _ _)) fun margin => ?_
    split
    · next hfinal =>
      refine within_bind (arithmetic (within_fieldU _ _ _)) fun count => within_bind ?_ fun _ =>
        within_bind (arithmetic (within_judge _ _ _ _ _)) fun _ => within_ok _
      unfold finalAcc tdiv
      split
      · exact within_error (.inr ⟨hfinal, rfl⟩)
      · exact within_ok _
    · exact within_bind (arithmetic (within_fieldU _ _ _)) fun _ =>
        within_bind (arithmetic (within_periodicAcc _ _ _)) fun _ =>
          within_bind (arithmetic (within_judge _ _ _ _ _)) fun _ => within_ok _

theorem within_trimValue (dst id : Nat) : Within Arithmetic (s.trimValue dst id) := by
  unfold State.trimValue State.adjustedValues
  refine within_bind (within_bind (within_mapM (fun i => ?tap) _) fun _ => within_bind (within_fieldU _ _ _) fun _ =>
    within_mapM (fun k => ?value) _) fun _ => within_bind (within_mapM (fun _ => within_component _ _ _) _) fun _ =>
      within_ok _
  case tap =>
    unfold State.laneTap
    exact within_bind (within_field _ _ _) fun _ => within_bind (within_fieldS _ _ _) fun _ =>
      within_bind (within_fieldS _ _ _) fun _ => within_tapOf _ _ _
  case value => exact within_bind (within_fieldS _ _ _) fun _ => within_adjusted _ _ _

theorem within_curFromTrn : Within Arithmetic s.curFromTrn := by
  unfold State.curFromTrn
  exact within_bind (within_mapM (fun _ => within_bind (within_field _ _ _) fun _ => within_ok _) _) fun _ =>
    within_ok _

theorem within_compareDrift : Within Arithmetic s.compareDrift := by
  unfold State.compareDrift
  exact within_bind (within_field _ _ _) fun _ => within_bind (within_fieldU _ _ _) fun _ =>
    within_bind (within_scaled _ _) fun _ => within_ok _

theorem within_clockSource : Within Arithmetic s.clockSource := by
  unfold State.clockSource
  exact within_bind (within_field _ _ _) fun _ => within_ok _

/-- An entry refused: its delay with the pending wait exceeds a u32, or the queue is full (20_memory.md R63). -/
theorem enqueue_error {a v d : Word} {c : Cause} (h : s.enqueue a v d = .error c) :
    (c = .overflow ∧ 4294967296 ≤ d.toNat + s.pass.pendingWait) ∨ c = .queueOvf := by
  unfold State.enqueue at h
  by_cases hd : d.toNat + s.pass.pendingWait < 4294967296
  · rw [chk32u_ok hd, bind_ok] at h
    split at h
    · cases h
      exact .inr rfl
    · cases h
  · rw [chk32u, if_neg hd, bind_error] at h
    cases h
    exact .inl ⟨rfl, by omega⟩

theorem checkCause_cases : s.checkCause = .none ∨ s.checkCause = .config ∨ s.checkCause = .uninit := by
  unfold State.checkCause
  split
  · exact .inr (.inl rfl)
  · split
    · exact .inl rfl
    · exact .inr (.inr rfl)

end

/-! ## Operations -/

/-- The causes an engine operation can raise. -/
def TaskCause : Task → Cause → Prop
  | .check, c => c = .config ∨ c = .uninit
  | .enqueue _ _ _, c => c = .overflow ∨ c = .queueOvf
  | .restore _ _ _, c => c = .uninit
  | .est w _, c => EstCause w.mode c
  | .trim _, c => Arithmetic c
  | .trimWrite _, c => Arithmetic c
  | .curFromTrn, c => Arithmetic c
  | .compareDrift, c => Arithmetic c
  | .clkSrc, c => Arithmetic c
  | .ccWait _, c => c = .ccTimeout
  | _, _ => False

/-- An engine operation goes on with `P`, and a cause it raises is of `K`. -/
def ResultWithin (P : State → Prop) (K : Cause → Prop) : TaskResult → Prop
  | .done u => P u
  | .abort c _ => K c
  | .hold _ _ => True
  | .ended _ => True

theorem resultWithin_ofExcept {K : Cause → Prop} {s : State} {e : Except Cause State} (h : Within K e) :
    ResultWithin (fun _ => True) K (.ofExcept s e) := by
  cases e with
  | ok t => trivial
  | error c => exact h c rfl

theorem resultWithin_estLoop (more : Nat) (ls : List Nat) (w : EstWork) (s : State) :
    ResultWithin (fun _ => True) (EstCause w.mode) (estLoop more ls w s) := by
  induction ls generalizing w s with
  | nil => trivial
  | cons l ls ih =>
    simp only [estLoop]
    split
    · trivial
    · next n s1 _ =>
      cases he : estLane s1 w l n with
      | error c => exact within_estLane s1 w l n c he
      | ok r => exact ih _ _

theorem resultWithin_runEst (k : Nat) (w : EstWork) (s : State) :
    ResultWithin (fun _ => True) (EstCause w.mode) (runEst k w s) := by
  induction k generalizing w s with
  | zero => exact resultWithin_estLoop _ _ _ _
  | succ k ih =>
    have hloop := resultWithin_estLoop (k + 1) w.todo w s
    simp only [runEst]
    generalize estLoop (k + 1) w.todo w s = r at hloop
    cases r with
    | done t => exact ih (freshEst t w.mode) t
    | hold | ended => trivial
    | abort c u => exact hloop

theorem resultWithin_pollLoop (K : Cause → Prop) (sp : Space) (a mask e : Word) (n : Nat) (due : Delay) (s : State) :
    ResultWithin (fun _ => True) K (pollLoop sp a mask e n due s) := by
  induction n generalizing due s with
  | zero => trivial
  | succ n ih =>
    simp only [pollLoop]
    split
    · split
      · trivial
      · split
        · trivial
        · exact ih _ _
    · trivial

theorem resultWithin_ccLoop (t0 : Word) (vs : List Word) (s : State) :
    ResultWithin (fun _ => True) (· = .ccTimeout) (ccLoop t0 vs s) := by
  induction vs generalizing s with
  | nil => trivial
  | cons v vs ih =>
    rw [ccLoop_cons]
    split
    · trivial
    · split
      · trivial
      · split
        · exact rfl
        · exact ih _

theorem resultWithin_runCcWait (ph : CcPhase) (s : State) :
    ResultWithin (fun _ => True) (· = .ccTimeout) (runCcWait ph s) := by
  cases ph with
  | start =>
    simp only [runCcWait]
    split
    · trivial
    · exact resultWithin_ccLoop _ _ _
  | read t0 => exact resultWithin_ccLoop _ _ _
  | timer t0 =>
    simp only [runCcWait]
    split
    · trivial
    · split
      · exact rfl
      · exact resultWithin_ccLoop _ _ _

theorem resultWithin_runTask (t : Task) (s : State) : ResultWithin (fun _ => True) (TaskCause t) (runTask t s) := by
  cases t with
  | check =>
    simp only [runTask]
    split
    · trivial
    · next h => exact (checkCause_cases s).resolve_left h
  | enqueue a v d => exact resultWithin_ofExcept fun c h => (enqueue_error s h).imp_left And.left
  | curFromTrn => exact resultWithin_ofExcept (within_curFromTrn s)
  | compareDrift => exact resultWithin_ofExcept (within_compareDrift s)
  | clkSrc => exact resultWithin_ofExcept (within_clockSource s)
  | est w more => exact resultWithin_runEst more w s
  | poll sp a mask e left due => exact resultWithin_pollLoop _ _ _ _ _ _ _ _
  | ccWait ph => exact resultWithin_runCcWait ph s
  | trim id | trimWrite id =>
    simp only [runTask]
    split
    · trivial
    · next c hc => exact within_trimValue s s.dstEntry id c hc
  | restore slot sp a =>
    simp only [runTask]
    split
    · trivial
    · exact rfl
  | awaitDrain | read | spin | delay | save | capture =>
    simp only [runTask]
    split <;> trivial
  | write | rampWait | clearAcc | stageFsp | commitFsp | finish => trivial

/-! ## Running -/

section

variable {P : State → Prop} {K : Cause → Prop}

/-- From states with `P` an operation goes on with `P` and raises only causes of `K`. -/
def TaskWithin (P : State → Prop) (K : Cause → Prop) (t : Task) : Prop :=
  ∀ s, P s → ResultWithin P K (runTask t s)

/-- The same of a part and the operations it becomes. -/
def PartWithin (P : State → Prop) (K : Cause → Prop) (p : Part) : Prop :=
  ∀ s, P s → Within K (s.expand p) ∧ ∀ ts, s.expand p = .ok ts → ∀ t ∈ ts, TaskWithin P K t

/-- The same of a stage and its parts. -/
def StageWithin (P : State → Prop) (K : Cause → Prop) (g : Stage) : Prop :=
  ∀ s, P s → P (s.enter g) ∧ ∀ p ∈ (s.enter g).stageParts g, PartWithin P K p

/-- A run goes on with `P` and raises only causes of `K`. -/
def RunWithin (P : State → Prop) (K : Cause → Prop) : Run → Prop
  | .done u => P u
  | .abort c _ => K c
  | .paused _ _ => True
  | .ended _ => True

theorem RunWithin.andThen {r : Run} {f : Cont → Cont} {k : State → Run} (h : RunWithin P K r)
    (hk : ∀ u, P u → RunWithin P K (k u)) : RunWithin P K (r.andThen f k) := by
  cases r with
  | done u => exact hk u h
  | abort c u => exact h
  | paused | ended => trivial

theorem runTasks_within (htick : ∀ s, P s → P s.tick) {ts : List Task} (ht : ∀ t ∈ ts, TaskWithin P K t) {s : State}
    (hs : P s) : RunWithin P K (runTasks ts s) := by
  induction ts generalizing s with
  | nil => exact hs
  | cons t ts ih =>
    have hresult := ht t List.mem_cons_self s.tick (htick s hs)
    simp only [runTasks]
    split
    · trivial
    · generalize runTask t s.tick = r at hresult
      cases r with
      | done u => exact ih (fun x hx => ht x (List.mem_cons_of_mem _ hx)) hresult
      | abort c u => exact hresult
      | hold | ended => trivial

theorem runParts_within (htick : ∀ s, P s → P s.tick) {ps : List Part} (hp : ∀ p ∈ ps, PartWithin P K p) {s : State}
    (hs : P s) : RunWithin P K (runParts ps s) := by
  induction ps generalizing s with
  | nil => exact hs
  | cons p ps ih =>
    obtain ⟨herror, htasks⟩ := hp p List.mem_cons_self s hs
    cases he : s.expand p with
    | error c => rw [runParts_error he]; exact herror c he
    | ok ts =>
      rw [runParts_ok he]
      exact (runTasks_within htick (htasks ts he) hs).andThen fun u hu =>
        ih (fun x hx => hp x (List.mem_cons_of_mem _ hx)) hu

theorem runStages_within (htick : ∀ s, P s → P s.tick) {gs : List Stage} (hg : ∀ g ∈ gs, StageWithin P K g) {s : State}
    (hs : P s) : RunWithin P K (runStages gs s) := by
  induction gs generalizing s with
  | nil => exact hs
  | cons g gs ih =>
    obtain ⟨henter, hparts⟩ := hg g List.mem_cons_self s.tick (htick s hs)
    simp only [runStages]
    split
    · trivial
    · exact (runParts_within htick hparts henter).andThen fun u hu =>
        ih (fun x hx => hg x (List.mem_cons_of_mem _ hx)) hu

end

/-! ## A command in progress -/

/-- The command `i` runs in a session with parameters `p`, and nothing is reported. -/
structure Underway (i : Instr) (p : Params) (s : State) : Prop where
  cause : s.cause = .none
  cmd : s.pass.cmd = i
  params : s.params = p

theorem Underway.setFields {i : Instr} {p : Params} {s : State} (h : Underway i p s) (e : Nat)
    (ws : List (Nat × Word)) : Underway i p (s.setFields e ws) := { h with }

theorem underway_ops (i : Instr) (p : Params) :
    OpsKeep (Underway i p) (fun s => s.cause = .none) (fun _ => True) (fun _ => True) (fun _ => True) where
  tick _ h := { h with }
  reg _ _ _ h := { h with }
  smp _ _ _ h := { h with }
  tim _ _ _ _ h := { h with }
  pto _ h := { h with }
  write _ _ _ _ h := { h with }
  enqueue _ _ _ _ _ h he := by obtain ⟨_, _, rfl⟩ := enqueue_cases he; exact { h with }
  save _ _ _ h := { h with }
  value _ _ h := { h with }
  rampWait _ b _ h := by cases b <;> exact { h with }
  commit _ _ _ h := { h.setFields _ _ with }
  clearAcc _ h := h.setFields _ _
  curFromTrn _ _ h he := by obtain ⟨_, rfl, _⟩ := curFromTrn_cases he; exact h.setFields _ _
  compareDrift _ _ h he := by obtain ⟨_, _, _, _, _, _, rfl⟩ := compareDrift_cases he; exact { h with }
  fspWr _ _ h := { h with }
  fspOp _ h := { h with }
  clockSource _ _ h he := by obtain ⟨_, _, rfl⟩ := clockSource_cases he; exact { h with }
  capture _ _ _ _ h := h.setFields _ _
  finish _ _ _ := rfl
  fresh _ _ _ := trivial
  next _ _ _ _ _ _ _ _ := trivial
  items _ _ _ _ := trivial
  enter g _ _ h := by cases g <;> exact { h with }

section

variable {i : Instr} {p : Params} {K : Cause → Prop}

/-- An operation of a command in progress raises its own causes. -/
theorem taskWithin_underway {t : Task} (h : ∀ c, TaskCause t c → K c) : TaskWithin (Underway i p) K t := by
  intro s hs
  have hkeep := (underway_ops i p).runTask t s (taskOk_true t) hs
  have hcause := resultWithin_runTask t s
  generalize runTask t s = r at hkeep hcause
  cases r with
  | done u => exact hkeep
  | abort c u => exact h c hcause
  | hold | ended => trivial

theorem partWithin_one {P : State → Prop} {t : Task} (h : TaskWithin P K t) : PartWithin P K (.one t) := by
  refine fun s _ => ⟨within_ok _, fun ts hts x hx => ?_⟩
  cases hts
  rwa [List.mem_singleton.1 hx]

/-- The stages of a command that checks, runs its body and ends. -/
theorem unitStages_within {P : State → Prop} (henter : ∀ g s, P s → P (s.enter g)) (hcmd : ∀ s, P s → s.pass.cmd = i)
    (hcheck : TaskWithin P K .check) (hfinish : TaskWithin P K (.finish .value))
    (hbody : ∀ q ∈ commandBody i, PartWithin P K q) : ∀ g ∈ unitStages, StageWithin P K g := by
  intro g hg s hs
  refine ⟨henter g s hs, fun q hq => ?_⟩
  rcases List.mem_cons.1 hg with rfl | hg
  · rw [List.mem_singleton.1 hq]
    exact partWithin_one hcheck
  rcases List.mem_cons.1 hg with rfl | hg
  · refine hbody q ?_
    rwa [show (s.enter .body).stageParts .body = commandBody s.pass.cmd from rfl, hcmd s hs] at hq
  · obtain rfl := List.mem_singleton.1 hg
    rw [List.mem_singleton.1 hq]
    exact partWithin_one hfinish

/-- How an accepted command stands as to its cause: it has none, or one of its own. -/
theorem exec_cause {P : State → Prop} {s t : State} (hw : i.wellFormed = true) (hb : s.busy = false)
    (he : exec i s = .next t) (htick : ∀ s, P s → P s.tick) (hstages : ∀ g ∈ stagesOf i, StageWithin P K g)
    (hP : P (s.accept i)) : t.cause = .none ∨ K t.cause := by
  rw [exec_eq i hw, launch_idle hb] at he
  cases he
  have hcause := runStages_within htick hstages hP
  have hkeep := runStages_all (underway_ops i s.params).engine (stagesOf i) (s.accept i) (fun _ _ => trivial)
    ⟨rfl, rfl, rfl⟩
  cases hr : runStages (stagesOf i) (s.accept i) with
  | done u => rw [hr] at hkeep; exact .inl hkeep.cause
  | paused c u => rw [hr] at hkeep; exact .inl hkeep.1.cause
  | ended u => rw [hr] at hkeep; exact .inl hkeep
  | abort c u => rw [hr] at hcause; exact .inr hcause

end

/-! ## The commands -/

/-- The causes of an `est`: those of its checks and of its run. -/
theorem exec_est_cause {m : EstMode} {s t : State} (hb : s.busy = false) (he : exec (estInstr m) s = .next t) :
    t.cause = .none ∨ t.cause = .config ∨ EstCause m t.cause := by
  have hbody : commandBody (estInstr m) = [.est m] := by cases m <;> rfl
  have hstages : stagesOf (estInstr m) = unitStages := by cases m <;> rfl
  refine exec_cause (P := Underway (estInstr m) s.params) (K := fun c => c = .config ∨ EstCause m c)
    (by cases m <;> rfl) hb he (underway_ops _ _).tick ?_ ⟨rfl, rfl, rfl⟩
  rw [hstages]
  refine unitStages_within (fun g u => (underway_ops _ _).enter g u trivial) (fun _ h => h.cmd)
    (taskWithin_underway fun c hc => hc.imp_right fun h => .inl (.inl h)) (taskWithin_underway nofun) fun q hq => ?_
  rw [hbody] at hq
  rw [List.mem_singleton.1 hq]
  refine fun u _ => ⟨within_ok _, fun ts hts x hx => ?_⟩
  cases hts
  rw [List.mem_singleton.1 hx]
  exact taskWithin_underway fun c hc => .inr hc

theorem estInstr_of_modeIsFinal {m : EstMode} (hm : modeIsFinal m = true) :
    estInstr m = .estDvfsFinal ∨ estInstr m = .estTrainFinal := by
  cases m with
  | dvfsPartial | trainPartial | periodic => cases hm
  | dvfsFinal => exact .inl rfl
  | trainFinal => exact .inr rfl

/-- The causes of the checks and of the arithmetic. -/
def Checked (c : Cause) : Prop := c = .config ∨ Arithmetic c

theorem checked_of_check {c : Cause} (h : TaskCause .check c) : Checked c := h.imp_right .inl

theorem exec_trim_cause {id : BitVec 8} {s t : State} (hw : (Instr.trim id).wellFormed = true) (hb : s.busy = false)
    (he : exec (.trim id) s = .next t) : t.cause = .none ∨ Checked t.cause := by
  refine exec_cause (P := Underway (.trim id) s.params) hw hb he (underway_ops _ _).tick ?_ ⟨rfl, rfl, rfl⟩
  refine unitStages_within (fun g u => (underway_ops _ _).enter g u trivial) (fun _ h => h.cmd)
    (taskWithin_underway fun c => checked_of_check) (taskWithin_underway nofun) fun q hq => ?_
  rw [List.mem_singleton.1 hq]
  exact partWithin_one (taskWithin_underway fun c hc => .inr hc)

/-! ### Ramps: no wait is pending before a standalone ramp's entries, so no delay overflows -/

/-- A ramp in progress: its wait is its value, not a pending one (42_power_ramp.md R158). -/
structure Ramping (i : Instr) (p : Params) (s : State) : Prop extends Underway i p s where
  pending : s.pass.pendingWait = 0

/-- The causes of a ramp: those of its checks, a frequency of 0, and a full queue. -/
def RampCause (c : Cause) : Prop := c = .config ∨ c = .uninit ∨ c = .div0 ∨ c = .queueOvf

section

variable {i : Instr} {p : Params}

theorem taskWithin_rampCheck : TaskWithin (Ramping i p) RampCause .check := by
  intro s hs
  simp only [runTask]
  split
  · exact hs
  · next h => exact ((checkCause_cases s).resolve_left h).imp_right .inl

theorem taskWithin_rampInterlock : TaskWithin (Ramping i p) RampCause .awaitDrain := by
  intro s hs
  simp only [runTask]
  split
  · trivial
  · exact hs

theorem taskWithin_rampEnqueue (a v d : Word) : TaskWithin (Ramping i p) RampCause (.enqueue a v d) := by
  intro s hs
  rw [show runTask (.enqueue a v d) s = .ofExcept s (s.enqueue a v d) from rfl]
  cases he : s.enqueue a v d with
  | ok u =>
    obtain ⟨_, _, rfl⟩ := enqueue_cases he
    exact { hs with pending := rfl }
  | error c =>
    rcases enqueue_error s he with ⟨_, hover⟩ | rfl
    · rw [hs.pending] at hover
      exact absurd hover (Nat.not_le.2 d.isLt)
    · exact .inr (.inr (.inr rfl))

theorem taskWithin_rampValue (w : Word) : TaskWithin (Ramping i p) RampCause (.rampWait false w) := fun _ hs =>
  { hs with }

theorem within_periodPs (f : Word) : Within RampCause (periodPs f) := by
  unfold periodPs
  split
  · exact within_error (.inr (.inr (.inl rfl)))
  · exact within_ok _

theorem partWithin_ramp (dir : Dir) (flip ofDst : Bool) :
    PartWithin (Ramping i p) RampCause (.ramp dir flip ofDst false) := by
  intro s _
  have houtput : Within RampCause (s.rampOutput dir flip ofDst) :=
    within_bind (fun c h => .inr (.inl (field_error h))) fun f => within_bind (within_periodPs f) fun _ => within_ok _
  refine ⟨within_bind houtput fun _ => within_ok _, fun ts hts t ht => ?_⟩
  cases ho : s.rampOutput dir flip ofDst with
  | error c => rw [State.expand, State.rampTasks, ho, bind_error] at hts; cases hts
  | ok qw =>
    rw [State.expand, State.rampTasks, ho, bind_ok] at hts
    cases hts
    rcases List.mem_append.1 ht with ht | ht
    · obtain ⟨e, _, rfl⟩ := List.mem_map.1 ht
      exact taskWithin_rampEnqueue e.addr e.value e.delay
    · rw [List.mem_singleton.1 ht]
      exact taskWithin_rampValue qw.2

theorem exec_ramp_cause {dir : Dir} {flip ofDst : Bool} {s t : State} (hw : i.wellFormed = true) (hb : s.busy = false)
    (hstages : stagesOf i = .interlock :: unitStages) (hbody : commandBody i = [.ramp dir flip ofDst false])
    (he : exec i s = .next t) : t.cause = .none ∨ RampCause t.cause := by
  have henter : ∀ g u, Ramping i s.params u → Ramping i s.params (u.enter g) := fun g u h => by
    cases g <;> exact { h with }
  refine exec_cause (P := Ramping i s.params) hw hb he (fun u h => { h with }) ?_
    { cause := rfl, cmd := rfl, params := rfl, pending := rfl }
  rw [hstages]
  intro g hg
  rcases List.mem_cons.1 hg with rfl | hg
  · refine fun u hu => ⟨hu, fun q hq => ?_⟩
    rw [List.mem_singleton.1 hq]
    exact partWithin_one taskWithin_rampInterlock
  · refine unitStages_within henter (fun _ h => h.cmd) taskWithin_rampCheck (fun u _ => trivial)
      (fun q hq => ?_) g hg
    rw [hbody] at hq
    rw [List.mem_singleton.1 hq]
    exact partWithin_ramp dir flip ofDst

end

/-! ### `pcomp`: its lists are late ones, which queue nothing (20_memory.md R79) -/

theorem rowFor_cases {κ υ : Type} [DecidableEq κ] (k : κ) (dflt : υ) (rs : List (Row κ υ)) :
    rowFor k dflt rs = dflt ∨ ∃ r ∈ rs, rowFor k dflt rs = r.out := by
  induction rs with
  | nil => exact .inl rfl
  | cons r rs ih =>
    have hrest : rowFor k dflt rs = dflt ∨ ∃ q ∈ r :: rs, rowFor k dflt rs = q.out :=
      ih.imp_right fun ⟨q, hq, h⟩ => ⟨q, List.mem_cons_of_mem _ hq, h⟩
    unfold rowFor
    split
    · exact .inr ⟨r, List.mem_cons_self, rfl⟩
    · split
      · exact .inr ⟨r, List.mem_cons_self, rfl⟩
      · exact hrest

/-- An operation of a list may stand in the list of its label. -/
theorem microOpOk_of_mem_stepOps {p : Params} {ctx : Ctx} {o : MicroOp} (hp : paramsOk p = true)
    (ho : o ∈ stepOps p ctx) : microOpOk p ctx.label o = true := by
  unfold stepOps at ho
  rcases rowFor_cases ctx [] ((p.stepOps.filter fun r => decide (r.label = ctx.label)).map fun r => ⟨r.key, r.ops⟩) with
    h | ⟨q, hq, h⟩
  · rw [h] at ho
    cases ho
  · rw [h] at ho
    obtain ⟨r, hr, rfl⟩ := List.mem_map.1 hq
    obtain ⟨hr, hlabel⟩ := List.mem_filter.1 hr
    exact of_decide_eq_true hlabel ▸ ((Parameters.paramsOk_iff p).1 hp).ops r hr o ho

/-- What a micro-operation other than `ENQ` does raises no cause but `UNINIT` (20_memory.md R78). -/
theorem taskCause_microTasks {s : State} {o : MicroOp} {t : Task} {c : Cause} (ho : ∀ a v d, o ≠ .enq a v d)
    (ht : t ∈ s.microTasks o) (hc : TaskCause t c) : c = .uninit := by
  cases o with
  | enq a v d => exact absurd rfl (ho a v d)
  | restore => rw [List.mem_singleton.1 ht] at hc; exact hc
  | rd | wr | poll | spin | delay | save => rw [List.mem_singleton.1 ht] at hc; exact hc.elim
  | tupd =>
    simp only [State.microTasks, State.tupdTasks, List.mem_append, List.mem_cons, List.not_mem_nil, or_false] at ht
    rcases ht with (rfl | rfl) | ht
    · exact hc.elim
    · exact hc.elim
    · split at ht
      · rw [List.mem_singleton.1 ht] at hc
        exact hc.elim
      · cases ht

section

variable {i : Instr} {p : Params}

theorem partWithin_lateList (hp : paramsOk p = true) {l : Label} (hl : labelIsLate l = true) :
    PartWithin (Underway i p) Checked (.ops l) := by
  intro s hs
  refine ⟨within_ok _, fun ts hts t ht => taskWithin_underway fun c hc => .inr (.inl ?_)⟩
  cases hts
  have hstep : (l == Label.step 11) = false := by
    rw [beq_eq_false_iff_ne]
    rintro rfl
    cases hl
  rw [State.opsTasks, hstep, Bool.and_false] at ht
  obtain ⟨o, ho, ht⟩ := List.mem_flatMap.1 ht
  refine taskCause_microTasks (fun a v d h => ?_) ht hc
  have hok : microOpOk s.params l o = true := microOpOk_of_mem_stepOps (hs.params ▸ hp) ho
  simp [h, microOpOk, hl] at hok

theorem partWithin_settle : PartWithin (Underway i p) Checked .settle := by
  refine fun s _ => ⟨within_ok _, fun ts hts t ht => ?_⟩
  cases hts
  rw [List.mem_singleton.1 ht]
  exact taskWithin_underway nofun

theorem partWithin_estPeriodic : PartWithin (Underway i p) Checked (.est .periodic) := by
  refine fun s _ => ⟨within_ok _, fun ts hts t ht => ?_⟩
  cases hts
  rw [List.mem_singleton.1 ht]
  exact taskWithin_underway fun c hc => .inr (hc.resolve_right fun h => Bool.false_ne_true h.1)

theorem trimAllTasks_cases {s : State} {ts : List Task} (h : s.trimAllTasks = .ok ts) {t : Task} (ht : t ∈ ts) :
    ∃ id, t = .trimWrite id := by
  unfold State.trimAllTasks at h
  cases hf : s.field s.dstEntry offFreq with
  | error c => rw [hf, bind_error] at h; cases h
  | ok f =>
    cases hm : s.fieldU s.dstEntry offMargin with
    | error c => rw [hf, bind_ok, hm, bind_error] at h; cases h
    | ok m =>
      cases hx : scaled s.pass.value.toNat (fmhz f) with
      | error c => rw [hf, bind_ok, hm, bind_ok, hx, bind_error] at h; cases h
      | ok x =>
        rw [hf, bind_ok, hm, bind_ok, hx, bind_ok] at h
        cases h
        split at ht
        · obtain ⟨id, _, rfl⟩ := List.mem_map.1 ht
          exact ⟨id, rfl⟩
        · cases ht

theorem partWithin_trimAll : PartWithin (Underway i p) Checked .trimAll := by
  intro s _
  have htasks : Within Arithmetic s.trimAllTasks :=
    within_bind (within_field _ _ _) fun _ => within_bind (within_fieldU _ _ _) fun _ =>
      within_bind (within_scaled _ _) fun _ => within_ok _
  refine ⟨htasks.mono fun _ => .inr, fun ts hts t ht => ?_⟩
  obtain ⟨id, rfl⟩ := trimAllTasks_cases hts ht
  exact taskWithin_underway fun c hc => .inr hc

/-- The phases P1 to P7 (44_periodic_control.md R212). -/
theorem partWithin_phaseBody (hp : paramsOk p = true) (k : Nat) :
    ∀ q ∈ phaseBody k, PartWithin (Underway i p) Checked q := by
  intro q hq
  unfold phaseBody at hq
  split at hq
  case h_8 => cases hq
  all_goals rw [List.mem_singleton.1 hq]
  case h_4 => exact partWithin_settle
  case h_5 => exact partWithin_estPeriodic
  case h_6 => exact partWithin_trimAll
  all_goals exact partWithin_lateList hp rfl

end

theorem exec_pcomp_cause {s t : State} (hp : paramsOk s.params = true) (hb : s.busy = false)
    (he : exec .pcomp s = .next t) : t.cause = .none ∨ Checked t.cause := by
  refine exec_cause (P := Underway .pcomp s.params) rfl hb he (underway_ops _ _).tick (fun g hg u hu => ?_)
    ⟨rfl, rfl, rfl⟩
  refine ⟨(underway_ops _ _).enter g u trivial hu, fun q hq => ?_⟩
  simp only [stagesOf, pcompStages, List.mem_append, List.mem_singleton, List.mem_map] at hg
  rcases hg with (rfl | ⟨k, _, rfl⟩) | rfl
  · rw [List.mem_singleton.1 hq]
    exact partWithin_one (taskWithin_underway fun c => checked_of_check)
  · exact partWithin_phaseBody hp _ q hq
  · rw [List.mem_singleton.1 hq]
    exact partWithin_one (taskWithin_underway nofun)

/-- Settles O28. -/
theorem causesEachCommandRaises : Obligations.CausesEachCommandRaises := by
  intro i s t hw hb hp he
  refine ⟨fun hest => ?_, ?_, ?_, ?_⟩
  · obtain ⟨m, rfl⟩ := isEst_iff.1 hest
    have hcause := exec_est_cause hb he
    have hfinal := estInstr_of_modeIsFinal (m := m)
    simp only [EstCause, Arithmetic] at hcause
    grind
  · rintro id rfl
    have hcause := exec_trim_cause hw hb he
    simp only [Checked, Arithmetic] at hcause
    grind
  · rintro ⟨f, rfl | rfl⟩
    · have hcause := exec_ramp_cause hw hb rfl rfl he
      simp only [RampCause] at hcause
      grind
    · have hcause := exec_ramp_cause hw hb rfl rfl he
      simp only [RampCause] at hcause
      grind
  · rintro rfl
    have hcause := exec_pcomp_cause hp hb he
    simp only [Checked, Arithmetic] at hcause
    grind

end Sys2Proof.Proofs.CausesRaised
end

section
/-! Refutation of a statement of the clock switch: the estimates of steps 3 and 13 (spec 43_clock_switch.md R175, R176,
R188) in a session whose entries overlap. -/

namespace Sys2Proof.Proofs.OverlappingEntries

open Sys2Proof Sys2Proof.Machine

/-! ## Entries that overlap

The statement does not ask for well-formed parameters. `exec` does not test them either (log entry 24), so it must hold
for an entry stride below 0x100 too, which 00_scope.md R7 excludes. With a stride of 0x60 the frequency of the source
entry is the accumulator of lane 0 of the destination entry before it: step 3 clears it before the first partial run,
and `SAMPLE_FN` is asked about another source frequency than the one before the command. -/

/-- The stride of 0x60, and a `SAMPLE_FN` that answers otherwise for the source frequency before the command. -/
def overlapParams : Params :=
  { Params.reference with entryStride := 0x60, sampleFn := [⟨some (7, 1600000, 40), .value 1⟩] }

/-- The fields of entry 0 that the pass reads; `ACC[0]` is also `FREQ_KHZ` of entry 1. -/
def overlapWords : List (Nat × Word) :=
  [(offFreq, 1600000), (offClkSrc, 0x80000001), (offFlags, 2), (offMargin, 1), (offSampleCount, 1), (offAcc 0, 7)] ++
    (allLanes.map fun l => (offTrn l, 40)) ++ (allLanes.map fun k => (offTrimVal 0 k, 0)) ++
    allLanes.map fun k => (offTrimVal 1 k, 0)

/-- A pass from entry 1 to entry 0, with two active lanes, one partial run and the final one. -/
def overlapState : State :=
  { State.reset with
    params := overlapParams
    entryCount := 2
    srcIdx := 1
    mem := memSetWords [] (overlapWords.map fun q => (entryBase overlapParams 0 + q.1, q.2))
    sampleIn := [40, 40, 40, 40]
    timerIn := [100]
    regIn := [1] }

/-- The state meets the hypotheses of the statement's first clause. -/
theorem overlapState_estimatingPass :
    EstimatingPass overlapState 0 [[40, 40]] [40, 40] (trnAt overlapState (dstOf overlapState)) where
  idle := ⟨rfl, rfl⟩
  drained := rfl
  canonical := by decide +kernel
  passes := by unfold Passes; decide +kernel
  lists := rfl
  ptEn := by decide +kernel
  runsCount := ⟨by decide +kernel, nofun⟩
  counts := by decide
  partials := by decide +kernel
  finals := by unfold ScalesInRange; decide +kernel
  noCapture := fun _ => rfl
  noUpdate := fun _ => rfl

/-- The state that step 3 leaves, as the statement has it. -/
def overlapEstimated : State :=
  { overlapState with
    mem := stepThreeMem overlapState [[40, 40]]
    compw := decide ((marginAt overlapState (dstOf overlapState) : Int) <
      scaledTo overlapState (dstOf overlapState)
        (estimateDelta overlapState [[40, 40]] (trnAt overlapState (dstOf overlapState)))) }

theorem overlapEstimated_passRoom : PassRoom overlapEstimated 0 where
  freqs := by decide +kernel
  room := by decide +kernel
  trigDelay := by decide +kernel
  cmdDelay := nofun
  rampDelay := nofun

/-- `RESULT` in the state a command leaves. -/
def resultOf : Host.Outcome State Fault Refusal → Option Word
  | .next t => some t.result
  | .fault _ => none
  | .refused _ => none

/-- The estimator is answered 40 for every lane, the trained delay: no drift. -/
theorem resultOf_exec_overlapState : resultOf (exec (.switch 0) overlapState) = some 0 := by decide +kernel

/-- The statement computes with the samples of the source frequency before the command: a drift of 39. -/
theorem estimateDelta_overlapState :
    estimateDelta overlapState [[40, 40]] (trnAt overlapState (dstOf overlapState)) = 39 := by decide +kernel

/-- Refutes O44: without well-formed parameters the entries can overlap, and then step 3's own stores change the source
frequency that its samples depend on. -/
theorem not_stepsThreeAndThirteenEstimate : ¬ Obligations.StepsThreeAndThirteenEstimate := by
  rintro ⟨hthree, _, _⟩
  have hexec := hthree overlapState [[40, 40]] [40, 40] [] [] [] 100 1 overlapState_estimatingPass rfl rfl rfl
    (by decide) overlapEstimated_passRoom
  have hresult := congrArg resultOf hexec
  rw [resultOf_exec_overlapState] at hresult
  have hdelta : some (0 : Word) = some (BitVec.ofInt 32
      (estimateDelta overlapState [[40, 40]] (trnAt overlapState (dstOf overlapState)))) := hresult
  rw [estimateDelta_overlapState] at hdelta
  exact absurd hdelta (by decide)

end Sys2Proof.Proofs.OverlappingEntries
end

section
/-! Proofs of the statements of the trim compensator: the packed value `trim` returns, and its purity (spec 41_trim.md
R142 to R151). -/

namespace Sys2Proof.Proofs.TrimResult

open Sys2Proof Sys2Proof.Machine Sys2Proof.Proofs.TrimOverflow Sys2Proof.Proofs.SourceIndex

/-! ## The packed value -/

/-- The checks of `trim` mark what its computation reads, so the computation gives the packed value (R147, R150). -/
theorem trimValue_accept {id : BitVec 8} {s : State} (hid : id.toNat ≤ 9) (hpass : Passes (.trim id) s)
    (hparams : paramsOk s.params = true)
    (hrange : TrimsInRange s (dstOf s) (trimRank id.toNat) (curAt s (dstOf s))) :
    (s.accept (.trim id)).trimValue (s.accept (.trim id)).dstEntry id.toNat =
      .ok (trimWord s (dstOf s) id.toNat (curAt s (dstOf s))) := by
  obtain ⟨hfreq, hmargin, hcur, htrn, hval⟩ := trimMarked_of_checkCause (s := s.accept (.trim id)) rfl hpass
  exact trimValue_ok (by omega) hparams hfreq hmargin (fun i hi => ⟨hcur i hi, htrn i hi⟩) hval hrange

/-- The value computed becomes the unit's return value in `PASS`. -/
theorem runTask_trim_ok {id : Nat} {u : State} {v : Word} (h : u.trimValue u.dstEntry id = .ok v) :
    runTask (.trim id) u = .done { u with pass := { u.pass with value := v } } := by
  simp only [runTask, h]

/-- Settles O35: the one operation between the checks and the end leaves the packed value for `RESULT`. -/
theorem trimReturnsThePackedValue : Obligations.TrimReturnsThePackedValue := by
  intro id s hid ⟨hbusy, hquantum⟩ hpass hparams hrange
  have hq : (s.accept (.trim id)).quantum = none := hquantum
  have htask := runTask_trim_ok (trimValue_accept hid hpass hparams hrange)
  rw [exec_eq (.trim id) (decide_eq_true hid), launch_idle hbusy, show stagesOf (.trim id) = unitStages from rfl,
    runStages_unit_done (i := .trim id) rfl rfl hq hpass rfl (runTasks_done hq htask) hq, Run.state_ended,
    succeed_accept]
  simp [endedOk, cmdIsSwitch]

/-! ## Purity (R149) -/

/-- The state `s` with the bookkeeping of `u`: the status fields of a command, `STEP`, `RESULT`, the snapshots, `PASS`
and the quantum. -/
def withBookkeeping (s u : State) : State :=
  { s with
    busy := u.busy, done := u.done, code := u.code, cause := u.cause, fault := u.fault, stepNo := u.stepNo,
    result := u.result, snap := u.snap, pass := u.pass, quantum := u.quantum }

/-- From `s` to `u` only the bookkeeping has changed. -/
def OnlyBookkeeping (s u : State) : Prop := u = withBookkeeping s u

section

variable {s u : State}

/-- An update that takes its values from the bookkeeping and puts them there changes nothing else. -/
theorem OnlyBookkeeping.update {f : State → State} (h : OnlyBookkeeping s u)
    (hf : f (withBookkeeping s u) = withBookkeeping s (f u)) : OnlyBookkeeping s (f u) :=
  (congrArg f h).trans hf

theorem OnlyBookkeeping.tick (h : OnlyBookkeeping s u) : OnlyBookkeeping s u.tick := h.update rfl

theorem OnlyBookkeeping.value (h : OnlyBookkeeping s u) (v : Word) :
    OnlyBookkeeping s { u with pass := { u.pass with value := v } } :=
  h.update (f := fun u => { u with pass := { u.pass with value := v } }) rfl

theorem OnlyBookkeeping.succeed (h : OnlyBookkeeping s u) (r : ResultSel) : OnlyBookkeeping s (u.succeed r) :=
  h.update (f := fun u => u.succeed r) rfl

theorem OnlyBookkeeping.abort (h : OnlyBookkeeping s u) (c : Cause) : OnlyBookkeeping s (u.abort c) :=
  h.update (f := fun u => u.abort c) rfl

theorem OnlyBookkeeping.suspend (h : OnlyBookkeeping s u) (k : Cont) : OnlyBookkeeping s (u.suspend k) :=
  h.update (f := fun u => u.suspend k) rfl

/-- Acceptance clears `COMPW` for a SWITCH only (43_clock_switch.md R170). -/
theorem onlyBookkeeping_accept {i : Instr} (hi : cmdIsSwitch i = false) (s : State) :
    OnlyBookkeeping s (s.accept i) := by
  simp [OnlyBookkeeping, withBookkeeping, State.accept, hi]

theorem onlyBookkeeping_illegalWord (s : State) : OnlyBookkeeping s s.illegalWord := rfl

end

/-- The parts of `trim`: one of its operations each. -/
def TrimPart (p : Part) : Prop := ∃ t, TrimTask t ∧ p = .one t

/-- An operation of `trim` touches the bookkeeping only, and the command stays the one that runs. -/
theorem runTask_trim {s u : State} {t : Task} (ht : TrimTask t) (h : OnlyBookkeeping s u) (hrun : RunsTrim u) :
    (runTask t u).All (fun v => OnlyBookkeeping s v ∧ RunsTrim v) (OnlyBookkeeping s) TrimTask := by
  cases ht with
  | check =>
    simp only [runTask]
    split <;> exact ⟨h, hrun⟩
  | trim id =>
    simp only [runTask]
    split
    · exact ⟨h.value _, hrun⟩
    · exact ⟨h, hrun⟩
  | finish r => exact h.succeed r

/-- Every operation and stage of `trim` keeps all but the bookkeeping. -/
theorem trim_keeps (s : State) :
    EngineKeeps (fun u => OnlyBookkeeping s u ∧ RunsTrim u) (OnlyBookkeeping s) TrimTask TrimPart TrimStage where
  tick _ := fun ⟨h, hrun⟩ => ⟨h.tick, hrun⟩
  task _ _ ht := fun ⟨h, hrun⟩ => runTask_trim ht h hrun
  expand p _ ts hp _ he t htm := by
    obtain ⟨t', ht', rfl⟩ := hp
    cases he
    rwa [List.mem_singleton.1 htm]
  enter g u hg h := by
    cases hg <;> exact h
  parts g u hg := fun ⟨_, hrun⟩ p hp => by
    obtain ⟨_, _, _, t, ht, heq⟩ := hg.parts noCont 0 0 hrun
    rw [heq] at hp
    exact ⟨t, ht, List.mem_singleton.1 hp⟩

theorem trimStage_of_mem_unitStages {g : Stage} (hg : g ∈ unitStages) : TrimStage g := by
  simp only [unitStages, List.mem_cons, List.not_mem_nil, or_false] at hg
  rcases hg with rfl | rfl | rfl
  · exact .checks
  · exact .body
  · exact .finish .value

/-- The state a run leaves: an abort and a suspension touch the bookkeeping only. -/
theorem onlyBookkeeping_run_state {s : State} {r : Run} {P : State → Prop} {T : Task → Prop} {U : Part → Prop}
    {G : Stage → Prop} (h : r.All (fun u => OnlyBookkeeping s u ∧ P u) (OnlyBookkeeping s) T U G) :
    OnlyBookkeeping s r.state := by
  cases r with
  | done u =>
    obtain ⟨hu, _⟩ := h
    exact hu.suspend _
  | paused c u =>
    obtain ⟨⟨hu, _⟩, _⟩ := h
    exact hu.suspend c
  | ended u => exact h
  | abort c u =>
    obtain ⟨hu, _⟩ := h
    exact hu.abort c

/-- Settles O37: a legal identity runs the three operations of `trim`, an illegal one executes nothing. -/
theorem trimIsPure : Obligations.TrimIsPure := by
  intro id s t hbusy hexec
  show OnlyBookkeeping s t
  cases hw : (Instr.trim id).wellFormed with
  | true =>
    rw [exec_eq _ hw, launch_idle hbusy] at hexec
    cases hexec
    exact onlyBookkeeping_run_state (runStages_all (trim_keeps s) unitStages (s.accept (.trim id))
      (fun _ hg => trimStage_of_mem_unitStages hg) ⟨onlyBookkeeping_accept rfl s, id, rfl⟩)
  | false =>
    rw [exec_ill _ hw] at hexec
    cases hexec
    rw [State.illegalCommand, hbusy]
    exact onlyBookkeeping_illegalWord s

end Sys2Proof.Proofs.TrimResult
end

section
/-! Proofs of the statements of the power ramps: a ramp that runs through (spec 42_power_ramp.md R155 to R158, R165). -/

namespace Sys2Proof.Proofs.RampCompletes

open Sys2Proof Sys2Proof.Machine Sys2Proof.Proofs.RampAborts

/-- The operations of a ramp: its entries enqueued in order, then its wait (42_power_ramp.md R157, R158). -/
theorem expand_ramp {u : State} {dir : Dir} {flip ofDst : Bool} {r : List QEntry × Word} (inPass : Bool)
    (ho : u.rampOutput dir flip ofDst = .ok r) :
    u.expand (.ramp dir flip ofDst inPass) =
      .ok (r.1.map (fun e => .enqueue e.addr e.value e.delay) ++ [.rampWait inPass r.2]) := by
  simp only [State.expand, State.rampTasks]
  rw [ho, bind_ok]

/-- A standalone ramp with room for its entries: they go to the end of the queue and `RESULT` is the wait. -/
theorem exec_ramp_done {i : Instr} {dir : Dir} {f ofDst : Bool} {s : State} {r : List QEntry × Word}
    (h : RampStarts i dir f ofDst s) (ho : (s.accept i).rampOutput dir f ofDst = .ok r)
    (hr : s.queue.length + r.1.length ≤ s.params.qDepth) :
    exec i s = .next { endedOk s 0 r.2 with queue := s.queue ++ r.1 } := by
  have hq : (s.accept i).quantum = none := h.idle.2
  have hrun := runTasks_enqueues r.1 [.rampWait false r.2] (s.accept i) hq rfl hr
  rw [runTasks_done (by exact hq) rfl, runTasks_nil] at hrun
  rw [h.exec_eq_run, runStages_unit_done h.body rfl hq h.passes (expand_ramp false ho) hrun (by exact hq)]
  simp [State.succeed, State.endFlags, State.rampWait, endedOk, State.accept, statusCode, causeIsFault, h.keepsCompw]

/-- Settles O38. -/
theorem rampQueuesItsEntries : Obligations.RampQueuesItsEntries := by
  intro f s hi hd
  refine ⟨fun hc h0 hr => ?_, fun hc h0 hr => ?_⟩
  · exact exec_ramp_done (rampdn_starts hi hd hc) (rampOutput_accept rfl rfl (marked_of_passes_rampdn hc) h0) hr
  · exact exec_ramp_done (rampup_starts hi hd hc) (rampOutput_accept rfl rfl (marked_of_passes_rampup hc) h0) hr

end Sys2Proof.Proofs.RampCompletes
end

section
/-! Proofs of the statements of the clock switch: a pass whose lists only write registers performs its steps in order
(spec 43_clock_switch.md R171 to R201, 42_power_ramp.md R163). -/

namespace Sys2Proof.Proofs.PlainPasses

open Sys2Proof Sys2Proof.Machine Sys2Proof.Proofs.RampCompletes Sys2Proof.Proofs.CausesRaised
  Sys2Proof.Proofs.ReadSets

/-! ## Lists that only write -/

/-- The operations of a list stand in one of the session's rows. -/
theorem mem_stepOps {p : Params} {c : Ctx} {o : MicroOp} (ho : o ∈ stepOps p c) : ∃ r ∈ p.stepOps, o ∈ r.ops := by
  unfold stepOps at ho
  rcases rowFor_cases c [] ((p.stepOps.filter fun r => decide (r.label = c.label)).map fun r => ⟨r.key, r.ops⟩) with
    h | ⟨q, hq, h⟩
  · rw [h] at ho
    cases ho
  · rw [h] at ho
    obtain ⟨r, hr, rfl⟩ := List.mem_map.1 hq
    exact ⟨r, (List.mem_filter.1 hr).1, ho⟩

/-- A list of register writes as the writes it makes. -/
theorem eq_map_wr {os : List MicroOp} (h : ∀ o ∈ os, ∃ sp a v, o = .wr sp a v) :
    ∃ ws : List (Space × Word × Word), os = ws.map fun w => .wr w.1 w.2.1 w.2.2 := by
  induction os with
  | nil => exact ⟨[], rfl⟩
  | cons o os ih =>
    obtain ⟨sp, a, v, rfl⟩ := h o List.mem_cons_self
    obtain ⟨ws, rfl⟩ := ih fun q hq => h q (List.mem_cons_of_mem _ hq)
    exact ⟨(sp, a, v) :: ws, rfl⟩

/-- The operations of a list that only writes are its writes, and `listWrites` is their record. -/
theorem writes_of_writesOnly {p : Params} (h : WritesOnly p) (c : Ctx) (u : State) :
    ∃ ws : List (Space × Word × Word), (stepOps p c).flatMap u.microTasks = ws.map (fun w => .write w.1 w.2.1 w.2.2) ∧
      listWrites p c = ws.map fun w => .write w.1 w.2.1 w.2.2 := by
  obtain ⟨ws, hws⟩ := eq_map_wr (os := stepOps p c) fun o ho =>
    have ⟨r, hr, hor⟩ := mem_stepOps ho
    h r hr o hor
  refine ⟨ws, ?_, ?_⟩
  · rw [hws, List.flatMap_map]
    exact List.map_eq_flatMap.symm
  · rw [listWrites, hws, List.filterMap_map]
    exact List.filterMap_eq_map' ▸ rfl

/-- The writes of step 9 (43_clock_switch.md R182, R183). -/
theorem writes_of_precharge (is : List PreItem) :
    ∃ ws : List (Space × Word × Word), prechargeTasks is = ws.map (fun w => .write w.1 w.2.1 w.2.2) ∧
      prechargeWrites is = ws.map fun w => .write w.1 w.2.1 w.2.2 := by
  induction is with
  | nil => exact ⟨[], rfl, rfl⟩
  | cons i is ih =>
    obtain ⟨ws, htasks, hwrites⟩ := ih
    simp only [prechargeTasks]
    by_cases hv : i.pack.getD (clamp6 i.x) 0 = i.vSrc
    · refine ⟨ws, ?_, ?_⟩
      · rw [if_pos hv, htasks, List.nil_append]
      · rw [← hwrites, prechargeWrites, List.filter_cons_of_neg (by exact of_decide_eq_true.mt (not_not.2 hv))]
        rfl
    · refine ⟨(i.sp, i.addr, i.pack.getD (clamp6 i.x) 0) :: ws, ?_, ?_⟩
      · rw [if_neg hv, htasks, List.map_cons, List.singleton_append]
      · rw [List.map_cons, ← hwrites, prechargeWrites, List.filter_cons_of_pos (by exact decide_eq_true hv)]
        rfl

/-! ## How far a pass has come -/

/-- What the steps of a pass of register writes change: `STEP`, the banks, the queue, the pending wait, the record. -/
structure Progress where
  step : Nat
  operating : Bool
  staged : Bool
  queue : List QEntry
  wait : Nat
  trace : List PortEvent

/-- The state `b` with the progress `g`. -/
def reached (b : State) (g : Progress) : State :=
  { b with
    stepNo := BitVec.ofNat 32 g.step
    fspOp := g.operating
    fspWr := g.staged
    queue := g.queue
    trace := g.trace
    pass := { b.pass with pendingWait := g.wait } }

/-- Ports written. -/
def Progress.wrote (g : Progress) (es : List PortEvent) : Progress := { g with trace := g.trace ++ es }

/-- Entries queued: the first takes the pending wait (42_power_ramp.md R163). -/
def Progress.queued (g : Progress) (es : List QEntry) : Progress :=
  { g with
    queue := g.queue ++ delayFirst (BitVec.ofNat 32 g.wait) es
    wait := if es = [] then g.wait else 0 }

/-- A ramp run: its entries queued, its wait pending. -/
def Progress.ramped (g : Progress) (r : List QEntry × Word) : Progress :=
  { g.queued r.1 with wait := (g.queued r.1).wait + r.2.toNat }

/-- `b` runs the pass of a switch issued in `s`, no entry having been written since. -/
structure InPass (s : State) (mask : BitVec 8) (b : State) : Prop where
  quantum : b.quantum = none
  cmd : b.pass.cmd = .switch mask
  src : b.pass.srcIdx = s.srcIdx
  dst : b.pass.dstIdx = s.dstIdx
  mask : b.pass.mask = mask
  mem : b.mem = s.mem
  params : b.params = s.params
  cfg : b.cfg = s.cfg
  compw : b.compw = false

theorem inPass_accept {s : State} {mask : BitVec 8} (hq : s.quantum = none) :
    InPass s mask (s.accept (.switch mask)) :=
  ⟨hq, rfl, rfl, rfl, rfl, rfl, rfl, rfl, Bool.and_false _⟩

section

variable {s b : State} {mask : BitVec 8} (h : InPass s mask b)

include h

theorem InPass.keeps (g : Progress) : InPass s mask (reached b g) := { h with }

theorem InPass.srcEntry : b.srcEntry = srcOf s := by simp only [State.srcEntry, h.cmd, h.src, srcOf]

theorem InPass.dstEntry : b.dstEntry = dstOf s := by rw [State.dstEntry, h.dst, dstOf]

theorem InPass.fieldD (i off : Nat) : b.fieldD i off = s.fieldD i off := fieldD_congr h.mem h.params i off

/-- The context of a list of the pass (43_clock_switch.md R173). -/
theorem InPass.ctx (l : Label) : b.ctx l = passCtx (passStart s) mask b.fspOp b.fspWr l := by
  simp only [State.ctx, passCtx, h.srcEntry, h.dstEntry, h.fieldD, h.mask, h.mem, h.params, h.cfg, h.compw,
    tristate, bne_iff_ne]
  rfl

end

/-! ## Parts of a step -/

/-- An operation done goes on with the parts after it. -/
theorem runParts_one_done {t : Task} {ps : List Part} {u u' : State} (hq : u.quantum = none)
    (ht : runTask t u = .done u') : runParts (.one t :: ps) u = runParts ps u' :=
  runParts_step rfl (by rw [runTasks_done hq ht, runTasks_nil])

/-- An entry queued with the pending wait, with room for it and a delay in range (20_memory.md R63). -/
theorem enqueue_ok {u : State} {e : QEntry} (hroom : u.queue.length < u.params.qDepth)
    (hdelay : e.delay.toNat + u.pass.pendingWait < 4294967296) :
    u.enqueue e.addr e.value e.delay = .ok
      { u with
        queue := u.queue ++ [⟨e.addr, e.value, BitVec.ofNat 32 (e.delay.toNat + u.pass.pendingWait)⟩]
        pass := { u.pass with pendingWait := 0 } } := by
  unfold State.enqueue
  rw [chk32u_ok hdelay, bind_ok, if_neg (by omega)]

theorem length_delayFirst (w : Word) (es : List QEntry) : (delayFirst w es).length = es.length := by
  cases es <;> rfl

theorem delayFirst_zero (es : List QEntry) : delayFirst 0 es = es := by
  cases es with
  | nil => rfl
  | cons e es => simp [delayFirst]

/-- What the list of a label writes, with the banks as they are then. -/
def listAt (s : State) (mask : BitVec 8) (op wr : Bool) (l : Label) : List PortEvent :=
  listWrites s.params (passCtx (passStart s) mask op wr l)

section

variable {s b : State} {mask : BitVec 8} (h : InPass s mask b) (g : Progress) (ps : List Part)

include h

/-- A part that only writes. -/
theorem InPass.runParts_writes {p : Part} {ws : List (Space × Word × Word)}
    (hx : (reached b g).expand p = .ok (ws.map fun w => .write w.1 w.2.1 w.2.2)) :
    runParts (p :: ps) (reached b g) =
      runParts ps (reached b (g.wrote (ws.map fun w => .write w.1 w.2.1 w.2.2))) := by
  have hrun := runTasks_writes ws [] (reached b g) h.quantum
  rw [List.append_nil, runTasks_nil] at hrun
  exact runParts_step hx hrun

/-- The list of a label. -/
theorem InPass.runParts_ops (hw : WritesOnly s.params) (l : Label) :
    runParts (.ops l :: ps) (reached b g) =
      runParts ps (reached b (g.wrote (listAt s mask g.operating g.staged l))) := by
  obtain ⟨ws, htasks, hwrites⟩ := writes_of_writesOnly hw
    (passCtx (passStart s) mask g.operating g.staged l) (reached b g)
  have hexpand : (reached b g).expand (.ops l) = .ok (ws.map fun w => .write w.1 w.2.1 w.2.2) := by
    simp only [State.expand, State.opsTasks, (h.keeps g).ctx, (h.keeps g).compw, (h.keeps g).params,
      Bool.false_and, Bool.false_eq_true, if_false]
    exact congrArg _ htasks
  rw [listAt, hwrites]
  exact h.runParts_writes g ps hexpand

/-- The precharge of step 9. -/
theorem InPass.runParts_precharge :
    runParts (.precharge :: ps) (reached b g) =
      runParts ps (reached b (g.wrote (prechargeWrites (prechargeFn s.params
        (entryImage s.params s.mem (srcOf s)) (entryImage s.params s.mem (dstOf s)))))) := by
  obtain ⟨ws, htasks, hwrites⟩ := writes_of_precharge (prechargeFn s.params
    (entryImage s.params s.mem (srcOf s)) (entryImage s.params s.mem (dstOf s)))
  have hexpand : (reached b g).expand .precharge = .ok (ws.map fun w => .write w.1 w.2.1 w.2.2) := by
    simp only [State.expand, (h.keeps g).srcEntry, (h.keeps g).dstEntry, (h.keeps g).params, (h.keeps g).mem]
    exact congrArg _ htasks
  rw [hwrites]
  exact h.runParts_writes g ps hexpand

/-- Entries queued, the first with the pending wait. -/
theorem InPass.runTasks_queued (es : List QEntry) (ts : List Task)
    (hroom : g.queue.length + es.length ≤ s.params.qDepth)
    (hdelay : ∀ e, es.head? = some e → e.delay.toNat + g.wait < 4294967296) :
    runTasks (es.map (fun e => .enqueue e.addr e.value e.delay) ++ ts) (reached b g) =
      runTasks ts (reached b (g.queued es)) := by
  cases es with
  | nil => simp [Progress.queued, delayFirst]
  | cons e es =>
    rw [List.length_cons] at hroom
    have hfirst : runTask (.enqueue e.addr e.value e.delay) (reached b g) =
        .done (reached b (g.queued [e])) := by
      have hdepth : (reached b g).queue.length < (reached b g).params.qDepth := by
        rw [(h.keeps g).params]
        exact (by omega : g.queue.length < s.params.qDepth)
      simp only [runTask]
      rw [enqueue_ok hdepth (hdelay e rfl), BitVec.ofNat_add, BitVec.ofNat_toNat, BitVec.setWidth_eq]
      rfl
    have hrest : (reached b (g.queued [e])).queue.length + es.length ≤ (reached b (g.queued [e])).params.qDepth := by
      rw [(h.keeps _).params]
      simp only [reached, Progress.queued, List.length_append, length_delayFirst, List.length_singleton]
      omega
    rw [List.map_cons, List.cons_append, runTasks_done (h.keeps g).quantum hfirst,
      runTasks_enqueues es ts _ (h.keeps _).quantum rfl hrest]
    simp [reached, Progress.queued, delayFirst]

/-- One entry queued. -/
theorem InPass.runParts_enqueue (a v d : Word) (hroom : g.queue.length < s.params.qDepth)
    (hdelay : d.toNat + g.wait < 4294967296) :
    runParts (.one (.enqueue a v d) :: ps) (reached b g) = runParts ps (reached b (g.queued [⟨a, v, d⟩])) :=
  runParts_step rfl (h.runTasks_queued g [⟨a, v, d⟩] [] hroom (by rintro _ ⟨⟩; exact hdelay))

/-- A ramp of the pass, at a frequency that is not 0 (42_power_ramp.md R155 to R158, R163). -/
theorem InPass.runParts_ramp {dir : Dir} {flip ofDst : Bool} {e : Nat}
    (he : (if ofDst then dstOf s else srcOf s) = e) (hm : s.marked e offFreq = true) (h0 : freqAt s e ≠ 0)
    (hroom : g.queue.length + (rampOf s dir flip e).1.length ≤ s.params.qDepth)
    (hdelay : ∀ q, (rampOf s dir flip e).1.head? = some q → q.delay.toNat + g.wait < 4294967296) :
    runParts (.ramp dir flip ofDst true :: ps) (reached b g) =
      runParts ps (reached b (g.ramped (rampOf s dir flip e))) := by
  have hg := h.keeps g
  have hfield : (reached b g).field
      (if ofDst then (reached b g).dstEntry else (reached b g).srcEntry) offFreq =
        .ok (freqAt s e) := by
    rw [hg.dstEntry, hg.srcEntry, he, field_congr hg.mem hg.params]
    exact field_ok hm
  have hout : (reached b g).rampOutput dir flip ofDst = .ok (rampOf s dir flip e) := by
    rw [rampOutput_ok hfield h0, hg.params, hg.mem, hg.srcEntry, hg.dstEntry]
    rfl
  refine runParts_step (expand_ramp true hout) ?_
  rw [h.runTasks_queued g _ _ hroom hdelay, runTasks_done (h.keeps _).quantum rfl, runTasks_nil]
  rfl

end

/-! ## Steps -/

/-- A step entered, from wherever the pass stood (43_clock_switch.md R171). -/
def Progress.entered (g : Progress) (k : Nat) : Progress := { g with step := k }

section

variable {s b : State} {mask : BitVec 8} (h : InPass s mask b) (g : Progress) (gs : List Stage)

include h

/-- A step that runs through. -/
theorem InPass.runStages_step {k : Nat} {g' : Progress}
    (hr : runParts ((reached b (g.entered k)).stageParts (.step k)) (reached b (g.entered k)) =
      .done (reached b g')) : runStages (.step k :: gs) (reached b g) = runStages gs (reached b g') :=
  Machine.runStages_step (h.keeps g).quantum hr

/-- A step whose condition fails. -/
theorem InPass.runStages_skip {k : Nat} (hc : (reached b (g.entered k)).stepCond k = false) :
    runStages (.step k :: gs) (reached b g) = runStages gs (reached b (g.entered k)) := by
  refine h.runStages_step g gs ?_
  rw [State.stageParts, hc]
  rfl

/-- A step whose condition holds. -/
theorem InPass.runStages_body {k : Nat} {g' : Progress} (hc : (reached b (g.entered k)).stepCond k = true)
    (hr : runParts ((reached b (g.entered k)).stepBody k) (reached b (g.entered k)) = .done (reached b g')) :
    runStages (.step k :: gs) (reached b g) = runStages gs (reached b g') := by
  refine h.runStages_step g gs ?_
  rw [State.stageParts, hc]
  exact hr

/-- A step with a condition whose body is its list. -/
theorem InPass.runStages_listIf (hw : WritesOnly s.params) {k : Nat} {c : Prop} [Decidable c]
    (hbody : ∀ u : State, u.stepBody k = [.ops (.step k)])
    (hc : (reached b (g.entered k)).stepCond k = decide c) :
    runStages (.step k :: gs) (reached b g) =
      runStages gs (reached b ((g.entered k).wrote (if c then listAt s mask g.operating g.staged (.step k) else []))) := by
  by_cases hcond : c
  · rw [if_pos hcond]
    refine h.runStages_body g gs (hc.trans (decide_eq_true hcond)) ?_
    rw [hbody, h.runParts_ops _ _ hw]
    rfl
  · rw [if_neg hcond, h.runStages_skip g gs (hc.trans (decide_eq_false hcond))]
    simp [Progress.wrote]

/-- A step without a condition whose body is its list. -/
theorem InPass.runStages_list (hw : WritesOnly s.params) (k : Nat)
    (hbody : ∀ u : State, u.stepBody k = [.ops (.step k)]) (hc : ∀ u : State, u.stepCond k = true) :
    runStages (.step k :: gs) (reached b g) =
      runStages gs (reached b ((g.entered k).wrote (listAt s mask g.operating g.staged (.step k)))) := by
  rw [h.runStages_listIf g gs hw hbody (c := True) (hc _), if_pos trivial]

/-! ### The conditions (43_clock_switch.md R172) -/

theorem InPass.stepCond_eight :
    b.stepCond 8 = decide (mask &&& 0x03 ≠ 0 ∧ s.cfg.getLsbD 0 = true) := by
  rw [show b.stepCond 8 = (caTrain b.pass.mask && decide (cfgRanks b.cfg = 2)) from rfl, h.mask, h.cfg,
    Bool.eq_iff_iff]
  simp [caTrain, cfgRanks]

theorem InPass.stepCond_nine : b.stepCond 9 = s.cfg.getLsbD 2 :=
  congrArg (fun c : BitVec 5 => c.getLsbD 2) h.cfg

theorem InPass.stepCond_twelve : b.stepCond 12 = false := h.compw

theorem InPass.stepCond_seventeen :
    b.stepCond 17 = decide (s.cfg.getLsbD 3 = true ∧ mask &&& 0x03 = 0) := by
  rw [show b.stepCond 17 = (cfgZqa b.cfg && !caTrain b.pass.mask) from rfl, h.mask, h.cfg, Bool.eq_iff_iff]
  simp [caTrain, cfgZqa]

theorem InPass.stepCond_eighteen :
    b.stepCond 18 = decide (mask ≠ 0 ∧ s.cfg.getLsbD 2 = true) := by
  rw [show b.stepCond 18 = (tristate b.pass.mask && cfgLp4 b.cfg) from rfl, h.mask, h.cfg, Bool.eq_iff_iff]
  simp [tristate, cfgLp4]

theorem InPass.ptEn : b.ptEn = (s.fieldD (dstOf s) offFlags).getLsbD 1 := by
  rw [State.ptEn, h.dstEntry, h.fieldD]

/-- Steps 3 and 13 do not run (43_clock_switch.md R175, R188). -/
theorem InPass.not_estimating
    (hu : (s.fieldD (dstOf s) offFlags).getLsbD 1 = false ∨ (mask ≠ 0 ∧ mask &&& 0x30 = 0)) :
    b.stepCond 3 = false ∧ b.stepCond 13 = false := by
  rw [show b.stepCond 3 = (b.ptEn && !tristate b.pass.mask) from rfl,
    show b.stepCond 13 = (wrTrain b.pass.mask && b.ptEn) from rfl, h.ptEn, h.mask]
  rcases hu with hflag | ⟨hmask, hwr⟩
  · rw [hflag, Bool.false_and, Bool.and_false]
    exact ⟨rfl, rfl⟩
  · rw [show tristate mask = true from bne_iff_ne.2 hmask, show wrTrain mask = false from by rw [wrTrain, hwr]; rfl]
    exact ⟨Bool.and_false _, rfl⟩

end

/-! ## Steps 1 to 9 -/

/-- What step 9 writes: its list and the precharge. -/
def prechargeStepWrites (s : State) (mask : BitVec 8) (op wr : Bool) : List PortEvent :=
  listAt s mask op wr (.step 9) ++ prechargeWrites (prechargeFn s.params (entryImage s.params s.mem (srcOf s))
    (entryImage s.params s.mem (dstOf s)))

/-- What steps 1 to 9 write. -/
def openingWrites (s : State) (mask : BitVec 8) (op wr : Bool) : List PortEvent :=
  listAt s mask op wr (.step 1) ++ listAt s mask op wr (.step 2) ++ listAt s mask op wr (.step 4) ++
    listAt s mask op wr (.step 5) ++ listAt s mask op wr (.step 6) ++ listAt s mask op wr (.step 7) ++
    (if mask &&& 0x03 ≠ 0 ∧ s.cfg.getLsbD 0 = true then listAt s mask op wr (.step 8) else []) ++
    if s.cfg.getLsbD 2 = true then prechargeStepWrites s mask op wr else []

section

variable {s b : State} {mask : BitVec 8} (h : InPass s mask b) (hp : PlainPass s mask) (g : Progress) (gs : List Stage)

include h

/-- Step 9: its list and the precharge (43_clock_switch.md R182). -/
theorem InPass.runStages_9 (hw : WritesOnly s.params) :
    runStages (.step 9 :: gs) (reached b g) =
      runStages gs (reached b ((g.entered 9).wrote
        (if s.cfg.getLsbD 2 = true then prechargeStepWrites s mask g.operating g.staged else []))) := by
  have hcond : (reached b (g.entered 9)).stepCond 9 = s.cfg.getLsbD 2 := (h.keeps _).stepCond_nine
  by_cases hlp4 : s.cfg.getLsbD 2 = true
  · rw [if_pos hlp4]
    refine h.runStages_body g gs (hcond.trans hlp4) ?_
    rw [show (reached b (g.entered 9)).stepBody 9 = [.ops (.step 9), .precharge] from rfl, h.runParts_ops _ _ hw,
      h.runParts_precharge]
    simp [Progress.wrote, Progress.entered, prechargeStepWrites]
  · rw [if_neg hlp4, h.runStages_skip g gs (hcond.trans (Bool.eq_false_of_not_eq_true hlp4))]
    simp [Progress.wrote]

include hp

/-- Steps 1 to 9, of which step 3 does not run. -/
theorem InPass.runStages_1_to_9 :
    runStages (.step 1 :: .step 2 :: .step 3 :: .step 4 :: .step 5 :: .step 6 :: .step 7 :: .step 8 :: .step 9 :: gs)
        (reached b g) =
      runStages gs (reached b ((g.entered 9).wrote (openingWrites s mask g.operating g.staged))) := by
  have hw := hp.writes
  rw [h.runStages_list g _ hw 1 (fun _ => rfl) (fun _ => rfl),
    h.runStages_list _ _ hw 2 (fun _ => rfl) (fun _ => rfl),
    h.runStages_skip _ _ ((h.keeps _).not_estimating hp.untrained).1,
    h.runStages_list _ _ hw 4 (fun _ => rfl) (fun _ => rfl),
    h.runStages_list _ _ hw 5 (fun _ => rfl) (fun _ => rfl),
    h.runStages_list _ _ hw 6 (fun _ => rfl) (fun _ => rfl),
    h.runStages_list _ _ hw 7 (fun _ => rfl) (fun _ => rfl),
    h.runStages_listIf _ _ hw (fun _ => rfl) (h.keeps _).stepCond_eight, h.runStages_9 _ _ hw]
  simp [Progress.wrote, Progress.entered, openingWrites]

end

/-! ## Steps 10 to 14: the staged bank -/

/-- What steps 10 to 14 write. -/
def stagingWrites (s : State) (mask : BitVec 8) (op wr : Bool) : List PortEvent :=
  listAt s mask op wr (.step 10) ++ listAt s mask op wr (.step 11) ++
    (if mask = 0 then listAt s mask op wr .mc14 else []) ++ listAt s mask op wr .lat14

/-- The lists after step 10 see the staged bank (43_clock_switch.md R184). -/
def Progress.staging (g : Progress) (bank : Bool) : Progress := { g with staged := bank }

section

variable {s b : State} {mask : BitVec 8} (h : InPass s mask b) (hp : PlainPass s mask) (g : Progress) (gs : List Stage)

include h

/-- Step 10: its list already sees the bank it stages (43_clock_switch.md R184). -/
theorem InPass.runStages_10 (hw : WritesOnly s.params) (ho : g.operating = s.fspOp) (hs : g.staged = s.fspWr) :
    runStages (.step 10 :: gs) (reached b g) =
      runStages gs (reached b (((g.entered 10).staging (stagedBank (passStart s) mask)).wrote
        (listAt s mask g.operating (stagedBank (passStart s) mask) (.step 10)))) := by
  have hbank : fspSwap (reached b (g.entered 10)).params ((reached b (g.entered 10)).ctx (.step 10)) =
      stagedBank (passStart s) mask := by
    have hctx : (reached b (g.entered 10)).ctx (.step 10) =
        passCtx (passStart s) mask g.operating g.staged (.step 10) := (h.keeps _).ctx _
    rw [hctx, ho, hs, (h.keeps _).params]
    rfl
  have hstage : runTask .stageFsp (reached b (g.entered 10)) =
      .done (reached b ((g.entered 10).staging (stagedBank (passStart s) mask))) := by
    rw [← hbank]
    rfl
  refine h.runStages_body g gs rfl ?_
  rw [show (reached b (g.entered 10)).stepBody 10 = [.one .stageFsp, .ops (.step 10)] from rfl,
    runParts_one_done (h.keeps _).quantum hstage, h.runParts_ops _ _ hw]
  rfl

/-- Step 14: one of its two lists is for passes without training (43_clock_switch.md R172). -/
theorem InPass.runStages_14 (hw : WritesOnly s.params) :
    runStages (.step 14 :: gs) (reached b g) =
      runStages gs (reached b ((g.entered 14).wrote
        ((if mask = 0 then listAt s mask g.operating g.staged .mc14 else []) ++
          listAt s mask g.operating g.staged .lat14))) := by
  refine h.runStages_body g gs rfl ?_
  rw [show (reached b (g.entered 14)).stepBody 14 =
    (if tristate b.pass.mask then [] else [.ops .mc14]) ++ [.ops .lat14] from rfl, h.mask]
  by_cases hmask : mask = 0
  · have htristate : ¬ tristate mask = true := by simp [tristate, hmask]
    rw [if_neg htristate, if_pos hmask, List.singleton_append, h.runParts_ops _ _ hw, h.runParts_ops _ _ hw]
    simp [Progress.wrote, Progress.entered]
  · have htristate : tristate mask = true := bne_iff_ne.2 hmask
    rw [if_pos htristate, if_neg hmask, List.nil_append, h.runParts_ops _ _ hw]
    rfl

include hp

/-- Steps 10 to 14, of which steps 12 and 13 do not run. -/
theorem InPass.runStages_10_to_14 (ho : g.operating = s.fspOp) (hs : g.staged = s.fspWr) :
    runStages (.step 10 :: .step 11 :: .step 12 :: .step 13 :: .step 14 :: gs) (reached b g) =
      runStages gs (reached b (((g.entered 14).staging (stagedBank (passStart s) mask)).wrote
        (stagingWrites s mask g.operating (stagedBank (passStart s) mask)))) := by
  rw [h.runStages_10 g _ hp.writes ho hs, h.runStages_list _ _ hp.writes 11 (fun _ => rfl) (fun _ => rfl),
    h.runStages_skip _ _ (h.keeps _).stepCond_twelve, h.runStages_skip _ _ ((h.keeps _).not_estimating hp.untrained).2,
    h.runStages_14 _ _ hp.writes]
  simp [Progress.wrote, Progress.entered, Progress.staging, stagingWrites]

end

/-! ## Steps 15 to 21: the ramps, the trigger and the training command -/

/-- The checks of a switch make sure of the frequencies and the clock source (43_clock_switch.md R170). -/
theorem marked_of_passes_switch {s : State} {mask : BitVec 8} (hc : Passes (.switch mask) s) :
    s.marked (srcOf s) offFreq = true ∧ s.marked (dstOf s) offFreq = true ∧ s.marked (dstOf s) offClkSrc = true := by
  obtain ⟨_, _, hmarked⟩ := (passes_iff _ s).1 hc
  have hbase : AllMarked s [(srcOf s, offFreq), (dstOf s, offFreq), (dstOf s, offClkSrc), (dstOf s, offFlags),
      (dstOf s, offMargin)] := fun r hr => hmarked r (List.mem_append_left _ (List.mem_append_left _ hr))
  simp only [allMarked_cons] at hbase
  obtain ⟨hsrc, hdst, hclk, _⟩ := hbase
  exact ⟨hsrc, hdst, hclk⟩

/-- The queue and the pending wait, as entries and ramps leave them. -/
def Progress.withQueue (g : Progress) (q : List QEntry) (w : Nat) : Progress := { g with queue := q, wait := w }

/-- With no wait pending a ramp queues its entries as they are. -/
theorem Progress.ramped_of_no_wait {g : Progress} (hg : g.wait = 0) (r : List QEntry × Word) :
    g.ramped r = g.withQueue (g.queue ++ r.1) r.2.toNat := by
  have hfirst : delayFirst (BitVec.ofNat 32 0) r.1 = r.1 := delayFirst_zero r.1
  simp [Progress.ramped, Progress.queued, Progress.withQueue, hg, hfirst]

/-- With no wait pending no delay overflows. -/
theorem delay_lt_of_no_wait {g : Progress} (hg : g.wait = 0) (q : QEntry) :
    q.delay.toNat + g.wait < 4294967296 := by
  rw [hg]
  exact q.delay.isLt

/-- One entry takes the wait of the ramp before it. -/
theorem Progress.queued_one {g : Progress} {w : Word} (hg : g.wait = w.toNat) (e : QEntry) :
    g.queued [e] = g.withQueue (g.queue ++ [⟨e.addr, e.value, e.delay + w⟩]) 0 := by
  simp [Progress.queued, Progress.withQueue, delayFirst, hg]

/-- The first pair of ramps, with the trigger between them (43_clock_switch.md R190, R191). -/
def clockEntries (s : State) : List QEntry :=
  (rampOf s .down false (srcOf s)).1 ++
    [⟨s.params.ccTrig.addr, s.params.ccTrig.value,
      s.params.ccTrig.delay + (rampOf s .down false (srcOf s)).2⟩] ++ (rampOf s .up false (dstOf s)).1

/-- The training command and the second pair of ramps (43_clock_switch.md R193). -/
def trainingEntries (s : State) (mask : BitVec 8) : List QEntry :=
  [⟨s.params.trainCmdAddr, (trainCmd s.params mask).1,
    (trainCmd s.params mask).2 + (rampOf s .up false (dstOf s)).2⟩] ++
    (rampOf s .down s.params.flip18 (dstOf s)).1 ++
    delayFirst (rampOf s .down s.params.flip18 (dstOf s)).2 (rampOf s .up s.params.flip18 (dstOf s)).1

/-- What steps 15 to 21 write. -/
def rampWrites (s : State) (mask : BitVec 8) (op wr : Bool) : List PortEvent :=
  listAt s mask op wr (.step 15) ++ listAt s mask op wr (.step 16) ++
    (if s.cfg.getLsbD 3 = true ∧ mask &&& 0x03 = 0 then listAt s mask op wr (.step 17) else []) ++
    (if mask ≠ 0 ∧ s.cfg.getLsbD 2 = true then listAt s mask op wr (.step 18) else []) ++
    listAt s mask op wr (.step 19) ++ listAt s mask op wr (.step 20) ++ listAt s mask op wr (.step 21)

/-- The writes of steps 1 to 21 by the bank their lists see. -/
theorem writesBefore_eq (s : State) (mask : BitVec 8) :
    writesBefore (passStart s) mask =
      openingWrites s mask s.fspOp s.fspWr ++ stagingWrites s mask s.fspOp (stagedBank (passStart s) mask) ++
        rampWrites s mask s.fspOp (stagedBank (passStart s) mask) := by
  simp only [openingWrites, stagingWrites, rampWrites, ← List.append_assoc]
  rfl

theorem passEntries_eq (s : State) (mask : BitVec 8) :
    passEntries s mask = clockEntries s ++ if mask ≠ 0 ∧ s.cfg.getLsbD 2 = true then trainingEntries s mask else [] :=
  rfl

section

variable {s b : State} {mask : BitVec 8} (h : InPass s mask b) (hp : PlainPass s mask) (g : Progress) (gs : List Stage)

include h hp

/-- A ramp with the period of the source entry, no wait pending. -/
theorem InPass.runParts_ramp_src {g : Progress} {ps : List Part} {dir : Dir} {flip : Bool} (hwait : g.wait = 0)
    (hroom : g.queue.length + (rampOf s dir flip (srcOf s)).1.length ≤ s.params.qDepth) :
    runParts (.ramp dir flip false true :: ps) (reached b g) =
      runParts ps (reached b (g.withQueue (g.queue ++ (rampOf s dir flip (srcOf s)).1)
        (rampOf s dir flip (srcOf s)).2.toNat)) := by
  obtain ⟨hmarked, _, _⟩ := marked_of_passes_switch hp.passes
  rw [h.runParts_ramp (ofDst := false) (e := srcOf s) g ps rfl hmarked hp.room.freqs.1 hroom
      fun q _ => delay_lt_of_no_wait hwait q,
    Progress.ramped_of_no_wait hwait]

/-- A ramp with the period of the destination entry, which may find a wait pending. -/
theorem InPass.runParts_ramp_dst {g : Progress} {ps : List Part} {dir : Dir} {flip : Bool}
    (hroom : g.queue.length + (rampOf s dir flip (dstOf s)).1.length ≤ s.params.qDepth)
    (hdelay : ∀ q, (rampOf s dir flip (dstOf s)).1.head? = some q → q.delay.toNat + g.wait < 4294967296) :
    runParts (.ramp dir flip true true :: ps) (reached b g) =
      runParts ps (reached b (g.ramped (rampOf s dir flip (dstOf s)))) :=
  have ⟨_, hmarked, _⟩ := marked_of_passes_switch hp.passes
  h.runParts_ramp (ofDst := true) (e := dstOf s) g ps rfl hmarked hp.room.freqs.2 hroom hdelay

/-- Step 15: the ramp-down, and the trigger delayed by its wait (43_clock_switch.md R190). -/
theorem InPass.runStages_15 (hwait : g.wait = 0)
    (hroom : g.queue.length + (rampOf s .down false (srcOf s)).1.length < s.params.qDepth) :
    runStages (.step 15 :: gs) (reached b g) =
      runStages gs (reached b (((g.entered 15).wrote (listAt s mask g.operating g.staged (.step 15))).withQueue
        (g.queue ++ (rampOf s .down false (srcOf s)).1 ++ [⟨s.params.ccTrig.addr, s.params.ccTrig.value,
          s.params.ccTrig.delay + (rampOf s .down false (srcOf s)).2⟩]) 0)) := by
  refine h.runStages_body g gs rfl ?_
  rw [show (reached b (g.entered 15)).stepBody 15 = [.ops (.step 15), .ramp .down false false true,
      .one (.enqueue b.params.ccTrig.addr b.params.ccTrig.value b.params.ccTrig.delay)] from rfl, h.params,
    h.runParts_ops _ _ hp.writes, h.runParts_ramp_src hp, h.runParts_enqueue, Progress.queued_one rfl]
  · rfl
  · rw [← List.length_append] at hroom
    exact hroom
  · exact hp.room.trigDelay
  · exact hwait
  · exact Nat.le_of_lt hroom

/-- Step 16: the ramp-up, whose wait stays pending (43_clock_switch.md R191). -/
theorem InPass.runStages_16 (hwait : g.wait = 0)
    (hroom : g.queue.length + (rampOf s .up false (dstOf s)).1.length ≤ s.params.qDepth) :
    runStages (.step 16 :: gs) (reached b g) =
      runStages gs (reached b (((g.entered 16).wrote (listAt s mask g.operating g.staged (.step 16))).withQueue
        (g.queue ++ (rampOf s .up false (dstOf s)).1) (rampOf s .up false (dstOf s)).2.toNat)) := by
  refine h.runStages_body g gs rfl ?_
  rw [show (reached b (g.entered 16)).stepBody 16 = [.ramp .up false true true, .ops (.step 16)] from rfl,
    h.runParts_ramp_dst hp, Progress.ramped_of_no_wait (by exact hwait), h.runParts_ops _ _ hp.writes]
  · rfl
  · exact hroom
  · exact fun q _ => delay_lt_of_no_wait hwait q

/-- The body of step 18 (43_clock_switch.md R193). -/
theorem InPass.runParts_18 (hmask : mask ≠ 0) (hlp4 : s.cfg.getLsbD 2 = true)
    (hwait : g.wait = (rampOf s .up false (dstOf s)).2.toNat)
    (hroom : g.queue.length + (trainingEntries s mask).length ≤ s.params.qDepth) :
    ∃ w, runParts ((reached b g).stepBody 18) (reached b g) = .done (reached b
      ((g.wrote (listAt s mask g.operating g.staged (.step 18))).withQueue
        (g.queue ++ trainingEntries s mask) w)) := by
  simp only [trainingEntries, List.length_append, List.length_singleton, length_delayFirst] at hroom
  refine ⟨(if (rampOf s .up s.params.flip18 (dstOf s)).1 = [] then (rampOf s .down s.params.flip18 (dstOf s)).2.toNat
    else 0) + (rampOf s .up s.params.flip18 (dstOf s)).2.toNat, ?_⟩
  rw [show (reached b g).stepBody 18 =
      [.one (.enqueue b.params.trainCmdAddr (trainCmd b.params b.pass.mask).1 (trainCmd b.params b.pass.mask).2),
        .ramp .down b.params.flip18 true true, .ramp .up b.params.flip18 true true, .ops (.step 18)] from rfl,
    h.params, h.mask, h.runParts_enqueue, Progress.queued_one hwait, h.runParts_ramp_dst hp,
    Progress.ramped_of_no_wait rfl, h.runParts_ramp_dst hp, h.runParts_ops _ _ hp.writes]
  · simp [Progress.ramped, Progress.queued, Progress.withQueue, Progress.wrote, trainingEntries]
  · simp only [Progress.withQueue, List.length_append, List.length_singleton]
    omega
  · exact hp.room.rampDelay hmask hlp4
  · simp only [Progress.withQueue, List.length_append, List.length_singleton]
    omega
  · exact fun q _ => delay_lt_of_no_wait rfl q
  · omega
  · rw [hwait]
    exact hp.room.cmdDelay hmask hlp4

/-- Step 18, on a training pass of LPDDR4 (43_clock_switch.md R193). The wait left pending is never used. -/
theorem InPass.runStages_18 (hwait : g.wait = (rampOf s .up false (dstOf s)).2.toNat)
    (hroom : g.queue.length + (if mask ≠ 0 ∧ s.cfg.getLsbD 2 = true then trainingEntries s mask else []).length ≤
      s.params.qDepth) :
    ∃ w, runStages (.step 18 :: gs) (reached b g) =
      runStages gs (reached b (((g.entered 18).wrote (if mask ≠ 0 ∧ s.cfg.getLsbD 2 = true then
          listAt s mask g.operating g.staged (.step 18) else [])).withQueue
        (g.queue ++ if mask ≠ 0 ∧ s.cfg.getLsbD 2 = true then trainingEntries s mask else []) w)) := by
  have hcond := (h.keeps (g.entered 18)).stepCond_eighteen
  by_cases hc : mask ≠ 0 ∧ s.cfg.getLsbD 2 = true
  · rw [if_pos hc] at hroom
    have ⟨hmask, hlp4⟩ := hc
    obtain ⟨w, hrun⟩ := h.runParts_18 hp (g.entered 18) hmask hlp4 hwait hroom
    refine ⟨w, ?_⟩
    rw [if_pos hc, if_pos hc]
    exact h.runStages_body g gs (hcond.trans (decide_eq_true hc)) hrun
  · refine ⟨g.wait, ?_⟩
    rw [if_neg hc, if_neg hc, h.runStages_skip g gs (hcond.trans (decide_eq_false hc))]
    simp [Progress.wrote, Progress.entered, Progress.withQueue]

/-- Steps 15 to 17: the first pair of ramps and the trigger are queued. -/
theorem InPass.runStages_15_to_17 (hwait : g.wait = 0)
    (hroom : g.queue.length + (clockEntries s).length ≤ s.params.qDepth) :
    runStages (.step 15 :: .step 16 :: .step 17 :: gs) (reached b g) =
      runStages gs (reached b (((g.entered 17).wrote
        (listAt s mask g.operating g.staged (.step 15) ++ listAt s mask g.operating g.staged (.step 16) ++
          if s.cfg.getLsbD 3 = true ∧ mask &&& 0x03 = 0 then
            listAt s mask g.operating g.staged (.step 17) else [])).withQueue (g.queue ++ clockEntries s)
              (rampOf s .up false (dstOf s)).2.toNat)) := by
  simp only [clockEntries, List.length_append, List.length_singleton] at hroom
  rw [h.runStages_15 hp g _ hwait (by omega), h.runStages_16 hp _ _ rfl
      (by simp only [Progress.withQueue, List.length_append, List.length_singleton]; omega),
    h.runStages_listIf _ _ hp.writes (fun _ => rfl) (h.keeps _).stepCond_seventeen]
  simp [Progress.wrote, Progress.entered, Progress.withQueue, clockEntries]

/-- Steps 15 to 21: the entries of the pass are queued. -/
theorem InPass.runStages_15_to_21 (hwait : g.wait = 0) (hqueue : g.queue = s.queue) :
    ∃ w, runStages (.step 15 :: .step 16 :: .step 17 :: .step 18 :: .step 19 :: .step 20 :: .step 21 :: gs)
        (reached b g) =
      runStages gs (reached b (((g.entered 21).wrote (rampWrites s mask g.operating g.staged)).withQueue
        (s.queue ++ passEntries s mask) w)) := by
  have hw := hp.writes
  have hroom := hp.room.room
  rw [passEntries_eq, List.length_append, ← hqueue] at hroom
  rw [h.runStages_15_to_17 hp g _ hwait (by omega)]
  refine (h.runStages_18 hp _ _ ?_ ?_).imp fun w h18 => h18.trans ?_
  · rfl
  · simp only [Progress.withQueue, List.length_append]
    omega
  · rw [h.runStages_list _ _ hw 19 (fun _ => rfl) (fun _ => rfl),
      h.runStages_list _ _ hw 20 (fun _ => rfl) (fun _ => rfl),
      h.runStages_list _ _ hw 21 (fun _ => rfl) (fun _ => rfl), passEntries_eq]
    simp [Progress.wrote, Progress.entered, Progress.withQueue, rampWrites, hqueue]

/-- Steps 1 to 21 (43_clock_switch.md R172): their writes, the staged bank, the entries queued. -/
theorem InPass.runStages_1_to_21 :
    ∃ w, runStages ((List.range 21).map (fun i => .step (i + 1)) ++ gs)
        (reached b ⟨0, s.fspOp, s.fspWr, s.queue, 0, s.trace⟩) =
      runStages gs (reached b ⟨21, s.fspOp, stagedBank (passStart s) mask, s.queue ++ passEntries s mask, w,
        s.trace ++ writesBefore (passStart s) mask⟩) := by
  rw [show (List.range 21).map (fun i => Stage.step (i + 1)) ++ gs = .step 1 :: .step 2 :: .step 3 :: .step 4 ::
      .step 5 :: .step 6 :: .step 7 :: .step 8 :: .step 9 :: .step 10 :: .step 11 :: .step 12 :: .step 13 ::
      .step 14 :: .step 15 :: .step 16 :: .step 17 :: .step 18 :: .step 19 :: .step 20 :: .step 21 :: gs from rfl,
    h.runStages_1_to_9 hp, h.runStages_10_to_14 hp]
  · refine (h.runStages_15_to_21 hp _ gs ?_ ?_).imp fun w h21 => h21.trans ?_
    · rfl
    · rfl
    · rw [writesBefore_eq]
      simp [Progress.wrote, Progress.entered, Progress.withQueue, Progress.staging]
  · rfl
  · rfl

end

/-! ## The clock change and the end -/

/-- The bank staged becomes the operating one (43_clock_switch.md R197). -/
def Progress.committed (g : Progress) : Progress := { g with operating := g.staged }

/-- The drain started (20_memory.md R85). -/
def drainStarted (b : State) : State := { b with drain := true, drainClk := 0 }

/-- One timer reading and one status read taken (43_clock_switch.md R196). -/
def statusRead (b : State) (a : Word) (as vs : List Word) : State :=
  { b with timerUs := b.timerUs + a, timerIn := as, regIn := vs }

theorem runTask_commitFsp (b : State) (g : Progress) :
    runTask .commitFsp (reached b g) = .done (reached b g.committed) := rfl

section

variable {s b : State} {mask : BitVec 8} (h : InPass s mask b) (g : Progress) (gs : List Stage)

include h

theorem InPass.of_drainStarted : InPass s mask (drainStarted b) := { h with }

theorem InPass.of_statusRead (a : Word) (as vs : List Word) : InPass s mask (statusRead b a as vs) := { h with }

/-- The clock-source write: the drain starts, a pending wait is discarded (43_clock_switch.md R195). -/
theorem InPass.runTask_clkSrc (hm : s.marked (dstOf s) offClkSrc = true) :
    runTask .clkSrc (reached b g) = .done (reached (drainStarted b)
      ((g.withQueue g.queue 0).wrote [.write .car s.params.clkSrcAddr (s.fieldD (dstOf s) offClkSrc)])) := by
  have hg := h.keeps g
  have hfield : (reached b g).field (reached b g).dstEntry offClkSrc = .ok (s.fieldD (dstOf s) offClkSrc) := by
    rw [hg.dstEntry, field_congr hg.mem hg.params]
    exact field_ok hm
  simp only [runTask, State.clockSource]
  rw [hfield, bind_ok, hg.params]
  rfl

/-- The wait for the clock change when the first status read matches (43_clock_switch.md R196). -/
theorem InPass.runTask_ccWait {a v : Word} {as vs : List Word} (ht : b.timerIn = a :: as) (hr : b.regIn = v :: vs)
    (hv : v &&& s.params.ccStatus.mask = s.params.ccStatus.mask) :
    runTask (.ccWait .start) (reached b g) = .done (reached (statusRead b a as vs)
      (g.wrote [.timer (b.timerUs + a), .read s.params.ccStatus.sp s.params.ccStatus.addr v])) := by
  have htimer : (reached b g).readTimer false =
      some (b.timerUs + a, (reached b g).tookTimer as (b.timerUs + a)) := by
    rw [State.readTimer, show (reached b g).timerIn = a :: as from ht]
    rfl
  have hreg : ((reached b g).tookTimer as (b.timerUs + a)).regIn = v :: vs := hr
  have hparams : ((reached b g).tookTimer as (b.timerUs + a)).params = s.params := h.params
  simp only [runTask, runCcWait, htimer]
  rw [hreg, ccLoop_cons, hparams, if_pos hv]
  simp [State.tookReg, State.tookTimer, State.ccRead, reached, Progress.wrote, statusRead, h.params]

variable (hp : PlainPass s mask)

include hp

/-- Step 22: the clock-source write, the wait for the status, the new bank, the list (43_clock_switch.md R195 to
R197). -/
theorem InPass.runStages_22 {a v : Word} {as vs : List Word} (ht : b.timerIn = a :: as) (hr : b.regIn = v :: vs)
    (hv : v &&& s.params.ccStatus.mask = s.params.ccStatus.mask) :
    runStages (.step 22 :: gs) (reached b g) =
      runStages gs (reached (statusRead (drainStarted b) a as vs)
        ((((g.entered 22).withQueue g.queue 0).committed).wrote
          ([.write .car s.params.clkSrcAddr (s.fieldD (dstOf s) offClkSrc), .timer (b.timerUs + a),
              .read s.params.ccStatus.sp s.params.ccStatus.addr v] ++
            listAt s mask g.staged g.staged (.step 22)))) := by
  obtain ⟨_, _, hmarked⟩ := marked_of_passes_switch hp.passes
  have hdrain := h.of_drainStarted
  have hread := hdrain.of_statusRead a as vs
  refine Machine.runStages_step (h.keeps g).quantum ?_
  rw [show ((reached b g).enter (.step 22)).stageParts (.step 22) =
      [.one .clkSrc, .one (.ccWait .start), .one .commitFsp, .ops (.step 22)] from rfl,
    show (reached b g).enter (.step 22) = reached b (g.entered 22) from rfl,
    runParts_one_done (h.keeps _).quantum (h.runTask_clkSrc _ hmarked),
    runParts_one_done (hdrain.keeps _).quantum (hdrain.runTask_ccWait _ ht hr hv),
    runParts_one_done (hread.keeps _).quantum (runTask_commitFsp _ _),
    hread.runParts_ops _ _ hp.writes, runParts_nil]
  simp [Progress.wrote, Progress.committed, Progress.withQueue, Progress.entered, drainStarted]

/-- Step 23 captures nothing. -/
theorem InPass.runStages_23 : runStages (.step 23 :: gs) (reached b g) = runStages gs (reached b (g.entered 23)) := by
  refine h.runStages_step g gs ?_
  have hnone : (reached b (g.entered 23)).expand .captureAll = .ok [] := by
    simp only [State.expand, (h.keeps _).params, hp.noCapture]
    rfl
  rw [State.stageParts]
  split
  · rw [show (reached b (g.entered 23)).stepBody 23 = [.captureAll] from rfl, runParts_step hnone (runTasks_nil _),
      runParts_nil]
  · rfl

/-- Step 24 does not run. -/
theorem InPass.runStages_24 : runStages (.step 24 :: gs) (reached b g) = runStages gs (reached b (g.entered 24)) := by
  refine h.runStages_skip g gs ?_
  rw [show (reached b (g.entered 24)).stepCond 24 = cond24 (reached b (g.entered 24)).params
    ((reached b (g.entered 24)).ctx (.step 24)) from rfl, (h.keeps _).params]
  exact hp.noUpdate _

/-- Step 25: its list, and that of the pass class (43_clock_switch.md R200). -/
theorem InPass.runStages_25 :
    runStages (.step 25 :: gs) (reached b g) =
      runStages gs (reached b ((g.entered 25).wrote (listAt s mask g.operating g.staged (.step 25) ++
        if mask ≠ 0 then listAt s mask g.operating g.staged .tri25
        else listAt s mask g.operating g.staged .dll25))) := by
  refine h.runStages_body g gs rfl ?_
  rw [show (reached b (g.entered 25)).stepBody 25 =
    [.ops (.step 25), if tristate b.pass.mask then .ops .tri25 else .ops .dll25] from rfl, h.mask,
    h.runParts_ops _ _ hp.writes]
  by_cases hmask : mask = 0
  · have htristate : ¬ tristate mask = true := by simp [tristate, hmask]
    rw [if_neg htristate, if_neg (not_not.2 hmask), h.runParts_ops _ _ hp.writes]
    simp [Progress.wrote, Progress.entered]
  · have htristate : tristate mask = true := bne_iff_ne.2 hmask
    rw [if_pos htristate, if_pos hmask, h.runParts_ops _ _ hp.writes]
    simp [Progress.wrote, Progress.entered]

end

/-- A switch whose checks succeed, with nothing draining, goes through its steps (43_clock_switch.md R203). -/
theorem exec_plainPass {s : State} {mask : BitVec 8} (hp : PlainPass s mask) :
    exec (.switch mask) s = .next (runStages ((List.range 21).map (fun i => .step (i + 1)) ++
      [.step 22, .step 23, .step 24, .step 25, .finish .stepThree])
        (reached (s.accept (.switch mask)) ⟨0, s.fspOp, s.fspWr, s.queue, 0, s.trace⟩)).state := by
  obtain ⟨hbusy, hq⟩ := hp.idle
  rw [exec_eq _ rfl, launch_idle hbusy, show stagesOf (.switch mask) = .interlock :: .checks ::
      ((List.range 21).map (fun i => .step (i + 1)) ++
        [.step 22, .step 23, .step 24, .step 25, .finish .stepThree]) from rfl,
    runStages_interlock (by exact hq) (by exact hp.drained), runStages_checks (by exact hq) hp.passes]
  rfl

theorem writesAfter_eq (s : State) (mask : BitVec 8) :
    writesAfter (passStart s) mask =
      listAt s mask (stagedBank (passStart s) mask) (stagedBank (passStart s) mask) (.step 22) ++
        listAt s mask (stagedBank (passStart s) mask) (stagedBank (passStart s) mask) (.step 25) ++
        if mask ≠ 0 then listAt s mask (stagedBank (passStart s) mask) (stagedBank (passStart s) mask) .tri25
        else listAt s mask (stagedBank (passStart s) mask) (stagedBank (passStart s) mask) .dll25 := rfl

/-- Settles O41. -/
theorem switchPerformsItsSteps : Obligations.SwitchPerformsItsSteps := by
  intro mask s a v as vs hp ht hr hv
  have hin : InPass s mask (s.accept (.switch mask)) := inPass_accept hp.idle.2
  have hend := hin.of_drainStarted.of_statusRead a as vs
  obtain ⟨w, h21⟩ := hin.runStages_1_to_21 hp [.step 22, .step 23, .step 24, .step 25, .finish .stepThree]
  rw [exec_plainPass hp, h21, hin.runStages_22 _ _ hp ht hr hv, hend.runStages_23 _ _ hp, hend.runStages_24 _ _ hp,
    hend.runStages_25 _ _ hp, runStages_finish (hend.keeps _).quantum, Run.state_ended, writesAfter_eq]
  simp [Progress.wrote, Progress.entered, Progress.committed, Progress.withQueue, State.succeed, State.endFlags, reached,
    statusRead, drainStarted, endedOk, State.accept, statusCode, causeIsFault, cmdIsSwitch]

end Sys2Proof.Proofs.PlainPasses
end

section
/-! Proofs of the statements of the clock switch: the fields its checks read (spec 43_clock_switch.md R170, R175,
R188). -/

namespace Sys2Proof.Proofs.SwitchReadSet

open Sys2Proof Sys2Proof.Machine Sys2Proof.Proofs.ReadSets

section

variable {s : State} {mask : BitVec 8}

/-- The fields of a step are read only if its condition holds. -/
theorem allMarked_ite {c : Bool} {rs : List (Nat × Nat)} :
    AllMarked s (if c then rs else []) ↔ (c = true → AllMarked s rs) := by
  cases c with
  | false => exact iff_of_true allMarked_nil nofun
  | true => exact ⟨fun h _ => h, fun h => h rfl⟩

/-- The condition of step 3 is known at acceptance (R175). -/
theorem cond3_accept :
    (s.accept (.switch mask)).cond3 = true ↔ (s.fieldD (dstOf s) offFlags).getLsbD 1 = true ∧ mask = 0 := by
  rw [show (s.accept (.switch mask)).cond3 = ((s.fieldD (dstOf s) offFlags).getLsbD 1 && !tristate mask) from rfl]
  simp [tristate]

/-- The condition of step 13 is known at acceptance (R188). -/
theorem cond13_accept :
    (s.accept (.switch mask)).cond13 = true ↔
      (s.fieldD (dstOf s) offFlags).getLsbD 1 = true ∧ mask &&& 0x30 ≠ 0 := by
  rw [show (s.accept (.switch mask)).cond13 = (wrTrain mask && (s.fieldD (dstOf s) offFlags).getLsbD 1) from rfl,
    Bool.and_eq_true, and_comm, wrTrain, bne_iff_ne]

/-- The accumulators are read where the runs do not clear them first (R170). -/
theorem allMarked_accReads :
    AllMarked s (s.accept (.switch mask)).accReads ↔
      (s.params.dvfsAccClear = false → ∀ l < 8, laneActive s.cfg l = true → s.marked (dstOf s) (offAcc l) = true) := by
  rw [show (s.accept (.switch mask)).accReads =
    if s.params.dvfsAccClear then [] else (activeLanes s.cfg).map fun l => (dstOf s, offAcc l) from rfl]
  cases s.params.dvfsAccClear with
  | false => exact allMarked_activeLanes.trans ⟨fun h _ => h, fun h => h rfl⟩
  | true => exact iff_of_true allMarked_nil nofun

/-- All sixteen stored trim values. -/
theorem allMarked_trimValReads {dst : Nat} :
    AllMarked s (trimValReads dst) ↔
      ∀ l < 8, s.marked dst (offTrimVal 0 l) = true ∧ s.marked dst (offTrimVal 1 l) = true := by
  simp only [trimValReads, allMarked_append, allMarked_allLanes, forall_and]

/-- What step 3 reads (R170, R175). -/
theorem allMarked_stepThree :
    AllMarked s ((allLanes.map fun l => (dstOf s, offTrn l)) ++ [(dstOf s, offSampleCount)] ++
        trimValReads (dstOf s) ++ (s.accept (.switch mask)).accReads) ↔
      (∀ l < 8, s.marked (dstOf s) (offTrn l) = true ∧ s.marked (dstOf s) (offTrimVal 0 l) = true ∧
        s.marked (dstOf s) (offTrimVal 1 l) = true) ∧ s.marked (dstOf s) offSampleCount = true ∧
      (s.params.dvfsAccClear = false → ∀ l < 8, laneActive s.cfg l = true → s.marked (dstOf s) (offAcc l) = true) := by
  simp only [allMarked_append, allMarked_allLanes, allMarked_singleton, allMarked_trimValReads, allMarked_accReads,
    forall_and]
  tauto

/-- What step 13 reads (R170, R188). -/
theorem allMarked_stepThirteen :
    AllMarked s ([(dstOf s, offSampleCount)] ++ (allLanes.map fun l => (dstOf s, offCur l)) ++
        (s.accept (.switch mask)).accReads) ↔
      s.marked (dstOf s) offSampleCount = true ∧ (∀ l < 8, s.marked (dstOf s) (offCur l) = true) ∧
      (s.params.dvfsAccClear = false → ∀ l < 8, laneActive s.cfg l = true → s.marked (dstOf s) (offAcc l) = true) := by
  simp only [allMarked_append, allMarked_allLanes, allMarked_singleton, allMarked_accReads, and_assoc]

/-- The five fields every switch reads (R170). -/
theorem allMarked_switchBase :
    AllMarked s [(srcOf s, offFreq), (dstOf s, offFreq), (dstOf s, offClkSrc), (dstOf s, offFlags),
        (dstOf s, offMargin)] ↔
      s.marked (srcOf s) offFreq = true ∧ s.marked (dstOf s) offFreq = true ∧
        s.marked (dstOf s) offClkSrc = true ∧ s.marked (dstOf s) offFlags = true ∧
        s.marked (dstOf s) offMargin = true := by
  simp only [allMarked_cons, iff_true_intro allMarked_nil, and_true]

/-- The read set of a switch, in its three parts. -/
theorem readSet_switch :
    (s.accept (.switch mask)).readSet =
      [(srcOf s, offFreq), (dstOf s, offFreq), (dstOf s, offClkSrc), (dstOf s, offFlags), (dstOf s, offMargin)] ++
        (if (s.accept (.switch mask)).cond3 then
          (allLanes.map fun l => (dstOf s, offTrn l)) ++ [(dstOf s, offSampleCount)] ++ trimValReads (dstOf s) ++
            (s.accept (.switch mask)).accReads
        else []) ++
        (if (s.accept (.switch mask)).cond13 then
          [(dstOf s, offSampleCount)] ++ (allLanes.map fun l => (dstOf s, offCur l)) ++
            (s.accept (.switch mask)).accReads
        else []) := rfl

end

/-- Settles O25: the read set is in three parts, each read if its step's condition holds at acceptance. -/
theorem switchChecksReadTheListedFields : Obligations.SwitchChecksReadTheListedFields := by
  intro s mask
  dsimp only
  rw [passes_iff_of_both rfl readSet_switch, allMarked_append, allMarked_append, allMarked_switchBase, allMarked_ite,
    allMarked_ite, cond3_accept, cond13_accept, allMarked_stepThree, allMarked_stepThirteen]
  tauto

end Sys2Proof.Proofs.SwitchReadSet
end

section
/-! Proofs of the statements of the clock switch: the wait for the clock change, and the pass it ends when it times out
(spec 43_clock_switch.md R196, R202). -/

namespace Sys2Proof.Proofs.ClockChange

open Sys2Proof Sys2Proof.Machine Sys2Proof.Proofs.PlainPasses

/-! ## The wait (R196) -/

/-- How far the timer has advanced over some status reads that failed, each with the advance given after it. -/
def elapsed (ps : List (Word × Word)) : Word := (ps.map fun p => p.2 &&& 0x7FFFFFFF).foldl (· + ·) 0

/-- The record of status reads that failed, each followed by a timer reading, from the reading `t0` on. -/
def failedReads (c : CcStatus) (t0 : Word) (ps : List (Word × Word)) : List PortEvent :=
  (List.range ps.length).flatMap fun k =>
    [.read c.sp c.addr ((ps.map Prod.fst).getD k 0), .timer (t0 + elapsed (ps.take (k + 1)))]

/-- The state after the first timer reading and status reads that failed, with the answers left. -/
def waited (s : State) (a : Word) (ps : List (Word × Word)) (as vs : List Word) : State :=
  { s with
    timerIn := as
    regIn := vs
    timerUs := s.timerUs + a + elapsed ps
    trace := s.trace ++ [.timer (s.timerUs + a)] ++ failedReads s.params.ccStatus (s.timerUs + a) ps }

theorem elapsed_concat (ps : List (Word × Word)) (p : Word × Word) :
    elapsed (ps ++ [p]) = elapsed ps + (p.2 &&& 0x7FFFFFFF) := by
  simp [elapsed]

theorem failedReads_concat (c : CcStatus) (t0 : Word) (ps : List (Word × Word)) (p : Word × Word) :
    failedReads c t0 (ps ++ [p]) =
      failedReads c t0 ps ++ [.read c.sp c.addr p.1, .timer (t0 + elapsed (ps ++ [p]))] := by
  have hearlier : ∀ k ∈ List.range ps.length,
      [PortEvent.read c.sp c.addr (((ps ++ [p]).map Prod.fst).getD k 0),
          .timer (t0 + elapsed ((ps ++ [p]).take (k + 1)))] =
        [.read c.sp c.addr ((ps.map Prod.fst).getD k 0), .timer (t0 + elapsed (ps.take (k + 1)))] := by
    intro k hk
    have hlt : k < ps.length := List.mem_range.1 hk
    rw [List.take_append_of_le_length hlt, List.map_append, List.getD_append _ _ _ _ (by simpa using hlt)]
  rw [failedReads, List.length_append, List.length_singleton, List.range_succ, List.flatMap_append,
    List.flatMap_congr hearlier]
  simp [failedReads, List.take_of_length_le]

section

variable {s : State}

/-- A status read that does not match, and the timer reading after it (R196). -/
theorem ccLoop_mismatch {t0 v b : Word} {vs bs : List Word} (ht : s.timerIn = b :: bs)
    (hv : v &&& s.params.ccStatus.mask ≠ s.params.ccStatus.mask) :
    ccLoop t0 (v :: vs) s =
      if s.params.ccTimeoutUs ≤ s.timerUs + (b &&& 0x7FFFFFFF) - t0 then
        .abort .ccTimeout ((s.tookReg vs (s.ccRead v)).tookTimer bs (s.timerUs + (b &&& 0x7FFFFFFF)))
      else ccLoop t0 vs ((s.tookReg vs (s.ccRead v)).tookTimer bs (s.timerUs + (b &&& 0x7FFFFFFF))) := by
  have hread : (s.tookReg vs (s.ccRead v)).readTimer true =
      some (s.timerUs + (b &&& 0x7FFFFFFF),
        (s.tookReg vs (s.ccRead v)).tookTimer bs (s.timerUs + (b &&& 0x7FFFFFFF))) := by
    rw [State.readTimer, show (s.tookReg vs (s.ccRead v)).timerIn = b :: bs from ht]
    rfl
  rw [ccLoop_cons, if_neg hv, hread]

/-- One more failed read of the wait. -/
theorem waited_concat (a : Word) (ps : List (Word × Word)) (p : Word × Word) (as bs us vs : List Word) :
    ((waited s a ps bs us).tookReg vs ((waited s a ps bs us).ccRead p.1)).tookTimer as
        ((waited s a ps bs us).timerUs + (p.2 &&& 0x7FFFFFFF)) = waited s a (ps ++ [p]) as vs := by
  simp [waited, State.tookReg, State.tookTimer, State.ccRead, elapsed_concat, failedReads_concat, BitVec.add_assoc]

/-- The state after a failed read, in the terms of the statements. -/
theorem waited_concat_eq (a v b : Word) (ps : List (Word × Word)) (bs vs : List Word) :
    waited s a (ps ++ [(v, b)]) bs vs =
      { s with
        timerIn := bs
        regIn := vs
        timerUs := s.timerUs + a + (elapsed ps + (b &&& 0x7FFFFFFF))
        trace := s.trace ++ [.timer (s.timerUs + a)] ++ failedReads s.params.ccStatus (s.timerUs + a) ps ++
          [s.ccRead v] ++ [.timer (s.timerUs + a + (elapsed ps + (b &&& 0x7FFFFFFF)))] } := by
  simp [waited, State.ccRead, elapsed_concat, failedReads_concat]

/-- Where the timer stands against the start of the wait. -/
theorem waited_timer_sub (a : Word) (ps : List (Word × Word)) (bs us : List Word) (b : Word) :
    (waited s a ps bs us).timerUs + b - (s.timerUs + a) = elapsed ps + b := by
  rw [show (waited s a ps bs us).timerUs = s.timerUs + a + elapsed ps from rfl, BitVec.add_assoc,
    BitVec.add_comm (s.timerUs + a), BitVec.add_sub_cancel]

/-- The answers to a wait whose first reads fail within the bound. -/
structure FailsInTime (s : State) (a : Word) (ps : List (Word × Word)) (as vs : List Word) : Prop where
  timer : s.timerIn = a :: ps.map Prod.snd ++ as
  reads : s.regIn = ps.map Prod.fst ++ vs
  mismatch : ∀ p ∈ ps, p.1 &&& s.params.ccStatus.mask ≠ s.params.ccStatus.mask
  inTime : ∀ k ≤ ps.length, elapsed (ps.take k) < s.params.ccTimeoutUs ∨ k = 0

theorem FailsInTime.init {a : Word} {ps : List (Word × Word)} {p : Word × Word} {as vs : List Word}
    (h : FailsInTime s a (ps ++ [p]) as vs) : FailsInTime s a ps (p.2 :: as) (p.1 :: vs) where
  timer := by rw [h.timer]; simp
  reads := by rw [h.reads]; simp
  mismatch q hq := h.mismatch q (List.mem_append_left _ hq)
  inTime k hk := by
    have := h.inTime k (by rw [List.length_append]; omega)
    rwa [List.take_append_of_le_length hk] at this

/-- Reads that fail within the bound leave the wait at its next read. -/
theorem runTask_ccWait_fails {a : Word} {ps : List (Word × Word)} {as vs : List Word}
    (h : FailsInTime s a ps as vs) :
    runTask (.ccWait .start) s = ccLoop (s.timerUs + a) vs (waited s a ps as vs) := by
  induction ps using List.reverseRecOn generalizing as vs with
  | nil =>
    have hread : s.readTimer false = some (s.timerUs + a, waited s a [] as vs) := by
      rw [State.readTimer, show s.timerIn = a :: as from h.timer]
      simp [waited, timerStep, elapsed, failedReads, show s.regIn = vs from h.reads]
    simp only [runTask, runCcWait, hread]
    rfl
  | append_singleton ps p ih =>
    have hlast : ¬ s.params.ccTimeoutUs ≤ elapsed ps + (p.2 &&& 0x7FFFFFFF) := by
      have := h.inTime (ps ++ [p]).length le_rfl
      rw [List.take_length, elapsed_concat] at this
      exact BitVec.not_le.2 (this.resolve_right (by simp))
    rw [ih h.init, ccLoop_mismatch (s := waited s a ps (p.2 :: as) (p.1 :: vs)) rfl (h.mismatch p (by simp)),
      waited_timer_sub, waited_concat]
    exact if_neg hlast

/-- The wait ends at the first read that matches. -/
theorem runTask_ccWait_matches {a v : Word} {ps : List (Word × Word)} {as vs : List Word}
    (h : FailsInTime s a ps as (v :: vs)) (hv : v &&& s.params.ccStatus.mask = s.params.ccStatus.mask) :
    runTask (.ccWait .start) s = .done ((waited s a ps as (v :: vs)).tookReg vs (s.ccRead v)) := by
  rw [runTask_ccWait_fails h, ccLoop_cons]
  exact if_pos hv

/-- The wait times out at the first failed read after which the timer has reached the bound. -/
theorem runTask_ccWait_timesOut {a v b : Word} {ps : List (Word × Word)} {bs vs : List Word}
    (h : FailsInTime s a ps (b :: bs) (v :: vs)) (hv : v &&& s.params.ccStatus.mask ≠ s.params.ccStatus.mask)
    (hb : s.params.ccTimeoutUs ≤ elapsed ps + (b &&& 0x7FFFFFFF)) :
    runTask (.ccWait .start) s = .abort .ccTimeout (waited s a (ps ++ [(v, b)]) bs vs) := by
  rw [runTask_ccWait_fails h, ccLoop_mismatch (s := waited s a ps (b :: bs) (v :: vs)) rfl hv, waited_timer_sub,
    waited_concat (p := (v, b))]
  exact if_pos hb

end

/-- Settles O43: reads that fail within the bound leave the wait at its next read, which ends it either way. -/
theorem clockChangeWaitIsBounded : Obligations.ClockChangeWaitIsBounded := by
  intro s a v fails as vs htimer hreads hmismatch hbound
  have h : FailsInTime s a fails as (v :: vs) := ⟨htimer, hreads, hmismatch, hbound⟩
  refine ⟨fun hv => runTask_ccWait_matches h hv, fun hv b bs hbs hb => ?_⟩
  subst hbs
  rw [runTask_ccWait_timesOut h hv hb, waited_concat_eq]
  rfl

/-! ## A pass that times out (R202) -/

/-- A cause raised by the wait of step 22 ends the command: the bank is not committed and no later step runs. -/
theorem runStages_22_abort {s b u : State} {mask : BitVec 8} {c : Cause} (h : InPass s mask b)
    (hm : s.marked (dstOf s) offClkSrc = true) (g : Progress) (gs : List Stage)
    (hwait : runTask (.ccWait .start) (reached (drainStarted b)
      (((g.entered 22).withQueue (g.entered 22).queue 0).wrote
        [.write .car s.params.clkSrcAddr (s.fieldD (dstOf s) offClkSrc)])) = .abort c u) :
    runStages (.step 22 :: gs) (reached b g) = .abort c u := by
  rw [runStages_none (h.keeps g).quantum, show ((reached b g).enter (.step 22)).stageParts (.step 22) =
      [.one .clkSrc, .one (.ccWait .start), .one .commitFsp, .ops (.step 22)] from rfl,
    show (reached b g).enter (.step 22) = reached b (g.entered 22) from rfl,
    runParts_one_done (h.keeps _).quantum (h.runTask_clkSrc _ hm), runParts_ok rfl,
    runTasks_abort (h.of_drainStarted.keeps _).quantum hwait, andThen_abort, andThen_abort]

/-- Settles O42: the pass reaches step 22 as in `switchPerformsItsSteps`, and there the wait raises the cause. -/
theorem switchTimesOutAtStep22 : Obligations.SwitchTimesOutAtStep22 := by
  intro mask s a b v as vs hp ht hr hv hb
  have hin : InPass s mask (s.accept (.switch mask)) := inPass_accept hp.idle.2
  obtain ⟨w, h21⟩ := hin.runStages_1_to_21 hp [.step 22, .step 23, .step 24, .step 25, .finish .stepThree]
  obtain ⟨_, _, hmarked⟩ := marked_of_passes_switch hp.passes
  have hbound : s.params.ccTimeoutUs ≤ elapsed [] + (b &&& 0x7FFFFFFF) := by simpa [elapsed] using hb
  rw [exec_plainPass hp, h21, runStages_22_abort hin hmarked _ _
    (runTask_ccWait_timesOut (ps := []) ⟨ht, hr, by simp, by simp⟩ hv hbound)]
  simp [waited, failedReads, elapsed, Progress.wrote, Progress.entered, Progress.withQueue, State.abort,
    State.endFlags, reached, drainStarted, endedAbort, State.accept, statusCode, causeIsFault, cmdIsSwitch]

end Sys2Proof.Proofs.ClockChange
end

section
/-! Proofs of the statements of the clock switch: the trim writes of step 11 and the captures of step 23 (spec
43_clock_switch.md R186, R198). -/

namespace Sys2Proof.Proofs.SwitchWrites

open Sys2Proof Sys2Proof.Machine Sys2Proof.Proofs.EstimatorRuns

/-! ## Step 11 (R186) -/

/-- The lowest identity of an address is found by it (log entry 14). -/
theorem trimIdOf_trimAddr {p : Params} {id : Nat} (hid : id < 10)
    (hlowest : ∀ k < id, trimAddr p k ≠ trimAddr p id) : trimIdOf p (trimAddr p id) = some id :=
  List.find?_range_eq_some.2 ⟨beq_self_eq_true _, List.mem_range.2 hid, fun k hk => by simp [hlowest k hk]⟩

section

variable {s : State}

/-- The operations of a list of one in step 11 (R186). -/
theorem opsTasks_eleven {o : MicroOp} (h : stepOps s.params (s.ctx (.step 11)) = [o]) :
    s.opsTasks (.step 11) = if s.compw then s.substTasks o else s.microTasks o := by
  simp [State.opsTasks, h]

/-- A write to an identity's address becomes the write of its trim value (R186). -/
theorem substTasks_trim {a v : Word} {id : Nat} (h : trimIdOf s.params a = some id) :
    s.substTasks (.wr .emc a v) = [.trimWrite id] := by
  simp only [State.substTasks, h]

/-- The write of a trim register with the trim compensator's value. -/
theorem runTask_trimWrite {id : Nat} {P : Word} (h : s.trimValue s.dstEntry id = .ok P) :
    runTask (.trimWrite id) s = .done (s.regWrite .emc (trimAddr s.params id) P) := by
  simp only [runTask, h]

end

/-- Settles O45: the list is one operation, the trim compensator's write or its own. -/
theorem stepElevenSubstitutesTrimValues : Obligations.StepElevenSubstitutesTrimValues := by
  intro s id v P hid hlowest hq hops hP
  have hrun : ∃ t, s.opsTasks (.step 11) = [t] ∧
      runTask t s = .done (s.regWrite .emc (trimAddr s.params id) (if s.compw then P else v)) := by
    rw [opsTasks_eleven hops]
    by_cases hc : s.compw = true
    · rw [if_pos hc, if_pos hc, substTasks_trim (trimIdOf_trimAddr hid hlowest)]
      exact ⟨_, rfl, runTask_trimWrite hP⟩
    · rw [if_neg hc, if_neg hc]
      exact ⟨.write .emc (trimAddr s.params id) v, rfl, rfl⟩
  obtain ⟨t, htask, hwrite⟩ := hrun
  have hexpand : s.expand (.ops (.step 11)) = .ok [t] := congrArg Except.ok htask
  rw [show s.stepBody 11 = [.ops (.step 11)] from rfl, runParts_step hexpand (runTasks_done hq hwrite)]
  rfl

/-! ## Step 23 (R198) -/

/-- The value a capture item stores of the one read. -/
def captured (s : State) (i : CapItem) (v : Word) : Word :=
  if i.corr then vrefCorr s.params v (entryImage s.params s.mem s.dstEntry) i else v

/-- A capture item done: read, corrected where it asks for it, stored. -/
theorem runTask_capture {s : State} {i : CapItem} {v : Word} {vs : List Word} (h : s.regIn = v :: vs) :
    runTask (.capture i) s = .done
      { s with
        mem := memSetWord s.mem (wordAt s s.dstEntry i.off) (captured s i v)
        regIn := vs
        trace := s.trace ++ [.read i.sp i.addr v] } := by
  have hread : s.regRead i.sp i.addr = some (v, s.tookReg vs (.read i.sp i.addr v)) := by
    rw [State.regRead, h]
    rfl
  simp only [runTask, hread]
  rfl

/-- Settles O46: the stores of the two items, one after the other, at words apart. -/
theorem captureStoresWhatItReads : Obligations.CaptureStoresWhatItReads := by
  intro s i j v w vs hq _ _ hapart hcorr hitems hreads
  have hfirst : captured s i v = v := if_neg (by simp [hcorr])
  have hexpand : s.expand .captureAll = .ok [.capture i, .capture j] := by
    simp only [State.expand, hitems, List.map_cons, List.map_nil]
  refine ⟨memSetWords s.mem [(wordAt s s.dstEntry i.off, v), (wordAt s s.dstEntry j.off, if j.corr then
    vrefCorr s.params w (entryImage s.params (memSetWord s.mem (wordAt s s.dstEntry i.off) v) s.dstEntry) j else w)],
    _, ?_, rfl, holds_memSetWords ?_ fun _ hp => hp, sameOutside_memSetWords fun _ hp => hp⟩
  · rw [show s.stepBody 23 = [.captureAll] from rfl, runParts_ok hexpand,
      runTasks_done hq (runTask_capture hreads), hfirst, runTasks_done (by exact hq) (runTask_capture (by rfl))]
    simp [memSetWords, captured, wordAt, State.dstEntry]
  · simp only [List.pairwise_pair, wordAt]
    omega

end Sys2Proof.Proofs.SwitchWrites
end

section
/-! Proofs of the statements of the periodic control: `nop`, and a `pcomp` whose lists only write registers (spec
44_periodic_control.md R211 to R222). -/

namespace Sys2Proof.Proofs.PeriodicControl

open Sys2Proof Sys2Proof.Machine Sys2Proof.Proofs.TrimOverflow Sys2Proof.Proofs.LanesAndFilter
  Sys2Proof.Proofs.ReadSets Sys2Proof.Proofs.EstimatorRuns Sys2Proof.Proofs.Snapshots Sys2Proof.Proofs.PlainPasses
  Sys2Proof.Proofs.SwitchWrites

/-- Settles O21: `nop` has one stage, its end. -/
theorem nopEndsAtOnce : Obligations.NopEndsAtOnce := by
  intro s ⟨hbusy, hq⟩
  rw [exec_eq .nop rfl, launch_idle hbusy, show stagesOf .nop = [.finish .keep] from rfl,
    runStages_finish (by exact hq), Run.state_ended]
  simp [State.succeed, State.endFlags, endedOk, State.accept, statusCode, causeIsFault, cmdIsSwitch]

/-! ## The phases P1, P2, P3 and P7: lists that only write (R212, R214) -/

/-- Port operations recorded. -/
def wrote (u : State) (es : List PortEvent) : State := { u with trace := u.trace ++ es }

theorem wrote_nil (u : State) : wrote u [] = u := by simp [wrote]

section

variable {s u : State} (h : SeesPcomp s u)

include h

theorem seesPcomp_wrote (es : List PortEvent) : SeesPcomp s (wrote u es) := { h with }

theorem dstEntry_of_seesPcomp : u.dstEntry = dstOf s := by rw [State.dstEntry, h.dst, dstOf]

theorem srcEntry_of_seesPcomp : u.srcEntry = dstOf s := by simp only [State.srcEntry, h.cmd, h.dst, dstOf]

/-- A phase whose list only writes. -/
theorem runStages_phaseWrites (hw : WritesOnly s.params) {k : Nat} {l : Label} (gs : List Stage)
    (hk : phaseBody k = [.ops l]) (hl : l ≠ .step 11) :
    runStages (.phase k :: gs) u =
      runStages gs (wrote (u.enter (.phase k)) (listWrites s.params (periodicCtx s s.mem l))) := by
  obtain ⟨ws, htasks, hwrites⟩ := writes_of_writesOnly hw (periodicCtx s s.mem l) (u.enter (.phase k))
  have hrun := runTasks_writes ws [] (u.enter (.phase k)) (h.enter k).quantum
  rw [List.append_nil, runTasks_nil] at hrun
  refine h.runStages_list gs hk hl ?_
  rw [htasks, hwrites]
  exact hrun

end

/-! ## The phase P4: the settle wait (R215) -/

/-- The later readings `bs` that end a wait of `n`: none if it is 0, else one that is late enough. -/
def SettlesAt (n : Word) (bs : List Word) : Prop :=
  if n = 0 then bs = [] else ∃ b, bs = [b] ∧ n ≤ b &&& 0x7FFFFFFF

/-- A first timer reading and the later ones `bs` taken, with the advances left. -/
def timed (u : State) (a : Word) (bs as : List Word) : State :=
  { u with
    timerIn := as
    timerUs := bs.foldl (fun t b => t + (b &&& 0x7FFFFFFF)) (u.timerUs + a)
    trace := u.trace ++ [.timer (u.timerUs + a)] ++ bs.map fun b => .timer (u.timerUs + a + (b &&& 0x7FFFFFFF)) }

/-- A later reading that is late enough ends a wait. -/
theorem delayLoop_late {u : State} {t0 n b : Word} {as : List Word}
    (hb : n ≤ u.timerUs + (b &&& 0x7FFFFFFF) - t0) :
    delayLoop t0 n (b :: as) u = (u.tookTimer as (u.timerUs + (b &&& 0x7FFFFFFF)), true) := if_pos hb

/-- A settle wait that is over has taken these readings. -/
theorem runTask_delay_settles {u : State} {n a : Word} {bs as : List Word} (hin : u.timerIn = a :: bs ++ as)
    (h : SettlesAt n bs) : runTask (.delay (.start n)) u = .done (timed u a bs as) := by
  have hread : u.readTimer false = some (u.timerUs + a, u.tookTimer (bs ++ as) (u.timerUs + a)) := by
    rw [State.readTimer, hin]
    rfl
  unfold SettlesAt at h
  simp only [runTask, runDelay, hread]
  by_cases hn : n = 0
  · rw [if_pos hn] at h ⊢
    subst h
    simp [timed, State.tookTimer]
  · rw [if_neg hn] at h ⊢
    obtain ⟨b, rfl, hb⟩ := h
    have hlate := delayLoop_late (u := u.tookTimer ([b] ++ as) (u.timerUs + a)) (t0 := u.timerUs + a) (as := as)
      (by rwa [State.tookTimer, BitVec.add_comm (u.timerUs + a), BitVec.add_sub_cancel])
    rw [show (u.tookTimer ([b] ++ as) (u.timerUs + a)).timerIn = b :: as from rfl, hlate]
    simp [timed, State.tookTimer]

section

variable {s u : State} (h : SeesPcomp s u)

include h

theorem seesPcomp_timed (a : Word) (bs as : List Word) : SeesPcomp s (timed u a bs as) := { h with }

/-- P4: the wait is that of the entry (R215). -/
theorem runStages_settle {a : Word} {bs as : List Word} (gs : List Stage) (hin : u.timerIn = a :: bs ++ as)
    (hb : SettlesAt (settleUs s.params (entryImage s.params s.mem (dstOf s))) bs) :
    runStages (.phase 0x104 :: gs) u = runStages gs (timed (u.enter (.phase 0x104)) a bs as) := by
  have hexpand : (u.enter (.phase 0x104)).expand .settle =
      .ok [.delay (.start (settleUs s.params (entryImage s.params s.mem (dstOf s))))] := by
    simp only [State.expand, dstEntry_of_seesPcomp (h.enter 0x104), (h.enter 0x104).params, (h.enter 0x104).mem]
  refine runStages_step h.quantum (runParts_step hexpand ?_)
  rw [runTasks_done (h.enter 0x104).quantum (runTask_delay_settles (by exact hin) hb), runTasks_nil]

end

/-! ## The phase P5: the periodic pass (R211, R216) -/

/-- The entry `DST_IDX` names as source too (R211): what the estimator's results are computed from in a `pcomp`. -/
def ownSource (s : State) : State := { s with srcIdx := s.dstIdx }

/-- What the pass over the lanes `ps` commits, by entry offset (R116). -/
def periodicWords (s : State) (ps : List (Nat × Word)) : List (Nat × Word) :=
  runWords s (lastRun (ownSource s) .periodic (ps.map fun p => (periodicResult (ownSource s) p).1))

/-- The memory the pass leaves. -/
def periodicMem (s : State) (ps : List (Nat × Word)) : List Host.Cell :=
  memSetWords s.mem (placed s (dstOf s) (periodicWords s ps))

/-- The state with the memory `m`. -/
def withMem (s : State) (m : List Host.Cell) : State := { s with mem := m }

/-- The list of a phase after the pass, in the terms of the statements. -/
theorem listWrites_withMem (s : State) (m : List Host.Cell) (l : Label) :
    listWrites (withMem s m).params (periodicCtx (withMem s m) (withMem s m).mem l) =
      listWrites s.params (periodicCtx s m l) := rfl

/-- A run's samples taken, with the counts left, the memory it commits and its maximum delta. -/
def estimatedTo (u : State) (es : List PortEvent) (rest : List Word) (m : List Host.Cell) (delta : Int) : State :=
  { u with
    sampleIn := rest
    trace := u.trace ++ es
    mem := m
    pass := { u.pass with value := BitVec.ofInt 32 delta } }

/-- What the checks of a `pcomp` make sure of (R219). -/
structure PcompMarked (s : State) : Prop where
  freq : s.marked (dstOf s) offFreq = true
  margin : s.marked (dstOf s) offMargin = true
  weight : s.marked (dstOf s) offWeight = true
  acc : ∀ l < 8, laneActive s.cfg l = true → s.marked (dstOf s) (offAcc l) = true
  cur : ∀ l < 8, s.marked (dstOf s) (offCur l) = true
  trn : ∀ l < 8, s.marked (dstOf s) (offTrn l) = true
  val : ∀ r < 2, ∀ k < 8, s.marked (dstOf s) (offTrimVal r k) = true

theorem pcompMarked_of_passes {s : State} (hc : Passes .pcomp s) : PcompMarked s := by
  obtain ⟨hfreq, hmargin, hweight, hacc, hlanes⟩ := allMarked_pcomp.1 ((passes_iff_of_dst rfl rfl).1 hc).2
  simp only [forall_and] at hlanes
  obtain ⟨hcur, htrn, hval0, hval1⟩ := hlanes
  refine ⟨hfreq, hmargin, hweight, hacc, hcur, htrn, ?_⟩
  rintro (_ | _ | r) hr
  · exact hval0
  · exact hval1
  · omega

/-- Every intermediate of the pass is in range. -/
def PassInRange (s : State) (ps : List (Nat × Word)) : Prop :=
  ∀ p ∈ ps, BlendsInRange s (dstOf s) (dstOf s) p ∧
    JudgesInRange s (dstOf s) p.1 (blended s (dstOf s) (dstOf s) p)

section

variable {s u : State} {ns rest : List Word}

/-- The words the pass commits. -/
theorem mem_periodicWords_iff {ps : List (Nat × Word)} (q : Nat × Word) :
    q ∈ placed s (dstOf s) (periodicWords s ps) ↔ q ∈ periodicStores s (dstOf s) (dstOf s) ps :=
  mem_periodicStores_iff (s := ownSource s)

theorem periodicMem_holds (hn : ns.length = (activeLanes s.cfg).length) :
    Holds (periodicMem s (lanesWith s ns)) (periodicStores s (dstOf s) (dstOf s) (lanesWith s ns)) := by
  have hlanes := lanes_of_results (s := s) (f := periodicResult (ownSource s)) hn fun _ _ => rfl
  refine holds_memSetWords (placed_apart (runWords_apart (fun r hr => ?_) ?_)) fun q hq =>
    (mem_periodicWords_iff q).2 hq
  · exact (mem_activeLanes_iff.1 (hlanes ▸ List.mem_map_of_mem hr)).1
  · exact hlanes.symm ▸ activeLanes_nodup s.cfg

theorem periodicMem_sameOutside (ps : List (Nat × Word)) :
    SameOutside s.mem (periodicMem s ps) (periodicStores s (dstOf s) (dstOf s) ps) :=
  sameOutside_memSetWords fun q hq => (mem_periodicWords_iff q).1 hq

/-- The lanes of the pass, every intermediate in range. -/
theorem estLane_pcomp (hm : PcompMarked s) (hr : PassInRange s (lanesWith s ns)) :
    ∀ p ∈ lanesWith s ns,
      estLane s (firstRun (ownSource s) .periodic) p.1 p.2 = .ok (periodicResult (ownSource s) p) := by
  intro p hp
  obtain ⟨hlt, hactive⟩ := mem_activeLanes_of_lanesWith hp
  obtain ⟨hblend, hjudge⟩ := hr p hp
  exact estLane_periodic rfl hm.freq hm.freq (hm.acc p.1 hlt hactive) (hm.cur p.1 hlt) hm.margin hm.weight hblend
    hjudge

variable (h : SeesPcomp s u)

include h

theorem seesPcomp_estimatedTo (es : List PortEvent) (rest : List Word) (m : List Host.Cell) (delta : Int) :
    SeesPcomp (withMem s m) (estimatedTo u es rest m delta) := { h with mem := rfl }

theorem freshEst_of_seesPcomp : freshEst u .periodic = firstRun (ownSource s) .periodic := by
  simp only [freshEst, srcEntry_of_seesPcomp h, dstEntry_of_seesPcomp h, h.cfg]
  rfl

/-- The run of the pass: its samples, its commit, its maximum delta. -/
theorem runTask_periodic (hm : PcompMarked s) (hin : u.sampleIn = ns ++ rest)
    (hn : ns.length = (activeLanes s.cfg).length) (hr : PassInRange s (lanesWith s ns)) :
    runTask (.est (freshEst u .periodic) 0) u =
      .done (estimatedTo u (sampleTrace (lanesWith s ns)) rest (periodicMem s (lanesWith s ns))
        (periodicDelta s (dstOf s) (dstOf s) (lanesWith s ns))) := by
  obtain ⟨w, hmode, -, hdst, hdone, hmax, hrun⟩ := estLoop_done 0 (periodicResult (ownSource s)) (activeLanes s.cfg)
    ns rest (firstRun (ownSource s) .periodic) u hn hin fun p hp =>
      (estLane_congr (s := s) (w := firstRun (ownSource s) .periodic) h.mem h.params rfl rfl rfl p.1 p.2).trans
        (estLane_pcomp hm hr p hp)
  have hwords : runWords u w = periodicWords s (lanesWith s ns) :=
    runWords_congr h.mem h.params hmode hdst hdone
  have hplaced (i : Nat) (ws : List (Nat × Word)) : placed u i ws = placed s i ws := by
    simp only [placed, wordAt, h.params]
  rw [freshEst_of_seesPcomp h]
  refine hrun.trans ?_
  rw [estCommit_sampled, hwords, hplaced, hmax, hdst, h.mem]
  rfl

/-- P5: the pass, with the one entry as source and destination (R216). -/
theorem runStages_periodic (hm : PcompMarked s) (gs : List Stage) (hin : u.sampleIn = ns ++ rest)
    (hn : ns.length = (activeLanes s.cfg).length) (hr : PassInRange s (lanesWith s ns)) :
    runStages (.phase 0x105 :: gs) u =
      runStages gs (estimatedTo (u.enter (.phase 0x105)) (sampleTrace (lanesWith s ns)) rest
        (periodicMem s (lanesWith s ns)) (periodicDelta s (dstOf s) (dstOf s) (lanesWith s ns))) :=
  runStages_step h.quantum
    (runParts_one_done (h.enter 0x105).quantum (runTask_periodic (h.enter 0x105) hm hin hn hr))

end

/-! ## What the pass leaves in the entry (R124, R217) -/

/-- The word at an entry offset is neither an accumulator nor a current delay (10_state.md R34). -/
abbrev OutsideDelays (off : Nat) : Prop := off + 4 ≤ 0x020 ∨ (0x040 ≤ off ∧ off + 4 ≤ 0x060) ∨ 0x080 ≤ off

/-- The pass replaces the delay of the lane (R124). -/
abbrev Replaced (s : State) (p : Nat × Word) : Prop :=
  (marginAt s (dstOf s) : Int) <
    scaledTo s (dstOf s) (driftOf s (dstOf s) p.1 (blended s (dstOf s) (dstOf s) p))

/-- `m` is the memory the pass over the lanes `ps` leaves, and what it stores is in range. -/
structure PassStored (s : State) (ps : List (Nat × Word)) (m : List Host.Cell) : Prop where
  lanes : ∀ p ∈ ps, p.1 < 8
  once : (ps.map Prod.fst).Nodup
  inRange : PassInRange s ps
  holds : Holds m (periodicStores s (dstOf s) (dstOf s) ps)
  outside : SameOutside s.mem m (periodicStores s (dstOf s) (dstOf s) ps)

theorem passStored_periodicMem {s : State} {ns : List Word} (hn : ns.length = (activeLanes s.cfg).length)
    (hr : PassInRange s (lanesWith s ns)) : PassStored s (lanesWith s ns) (periodicMem s (lanesWith s ns)) where
  lanes _ hp := (mem_activeLanes_of_lanesWith hp).1
  once := map_fst_lanesWith hn ▸ activeLanes_nodup s.cfg
  inRange := hr
  holds := periodicMem_holds hn
  outside := periodicMem_sameOutside _

theorem mem_periodicStores_cases {s : State} {ps : List (Nat × Word)} {q : Nat × Word}
    (hq : q ∈ periodicStores s (dstOf s) (dstOf s) ps) :
    ∃ p ∈ ps, q.1 = wordAt s (dstOf s) (offAcc p.1) ∨ q.1 = wordAt s (dstOf s) (offCur p.1) ∧ Replaced s p := by
  rcases List.mem_append.1 hq with hq | hq
  · obtain ⟨p, hp, rfl⟩ := List.mem_map.1 hq
    exact ⟨p, hp, .inl rfl⟩
  · obtain ⟨p, hp, rfl⟩ := List.mem_map.1 hq
    obtain ⟨hp, hrep⟩ := List.mem_filter.1 hp
    exact ⟨p, hp, .inr ⟨rfl, of_decide_eq_true hrep⟩⟩

/-- The estimate of a lane in range is an s32 value. -/
theorem inS32_estimate {s : State} {src dst : Nat} {p : Nat × Word} (h : BlendsInRange s src dst p) :
    InS32 (Int.tdiv (blended s src dst p) 100) := by
  obtain ⟨_, _, hsum, _⟩ := h
  have hblend : (blended s src dst p).natAbs ≤ 2147483648 := by
    rw [blended, Int.natAbs_tdiv]
    exact (Nat.div_le_self _ _).trans (by omega)
  have hest : (Int.tdiv (blended s src dst p) 100).natAbs = (blended s src dst p).natAbs / 100 :=
    Int.natAbs_tdiv _ _
  constructor <;> omega

theorem toInt_ofInt_of_inS32 {x : Int} (h : InS32 x) : (BitVec.ofInt 32 x).toInt = x :=
  BitVec.toInt_ofInt_eq_self (by decide) (by omega) (by omega)

section

variable {s : State} {ps : List (Nat × Word)} {m : List Host.Cell}

theorem delayAfter_kept {l : Nat} (hl : ∀ p ∈ ps, p.1 = l → ¬ Replaced s p) :
    delayAfter s (dstOf s) (dstOf s) ps l = curAt s (dstOf s) l := by
  unfold delayAfter
  split
  · next q hq =>
    obtain rfl : q.1 = l := by simpa using List.find?_some hq
    exact if_neg (hl q (List.mem_of_find?_eq_some hq) rfl)
  · rfl

variable (h : PassStored s ps m)

include h

theorem PassStored.unique {p q : Nat × Word} (hp : p ∈ ps) (hq : q ∈ ps) (hpq : p.1 = q.1) : p = q :=
  List.inj_on_of_nodup_map h.once hp hq hpq

/-- A word of the entry apart from what the pass stores is as it was. -/
theorem PassStored.memWord_apart {off : Nat}
    (hoff : ∀ p ∈ ps, Apart (offAcc p.1) off ∧ (Replaced s p → Apart (offCur p.1) off)) :
    memWord m (wordAt s (dstOf s) off) = memWord s.mem (wordAt s (dstOf s) off) := by
  refine memWord_congr fun b hb => h.outside b fun q hq hqb => ?_
  obtain ⟨p, hp, hacc | ⟨hcur, hrep⟩⟩ := mem_periodicStores_cases hq
  · have hapart := (hoff p hp).1
    unfold wordAt at *
    omega
  · have hapart := (hoff p hp).2 hrep
    unfold wordAt at *
    omega

theorem PassStored.memWord_fixed {off : Nat} (hoff : OutsideDelays off) :
    memWord m (wordAt s (dstOf s) off) = memWord s.mem (wordAt s (dstOf s) off) := by
  refine h.memWord_apart fun p hp => ?_
  have hlane := h.lanes p hp
  unfold offAcc offCur
  omega

/-- A lane whose delay is replaced has its estimate. -/
theorem PassStored.memWord_replaced {p : Nat × Word} (hp : p ∈ ps) (hrep : Replaced s p) :
    memWord m (wordAt s (dstOf s) (offCur p.1)) =
      some (BitVec.ofInt 32 (Int.tdiv (blended s (dstOf s) (dstOf s) p) 100)) :=
  h.holds _ (List.mem_append_right _
    (List.mem_map_of_mem (f := fun p => (wordAt s (dstOf s) (offCur p.1), _))
      (List.mem_filter.2 ⟨hp, decide_eq_true hrep⟩)))

theorem PassStored.delayAfter_replaced {p : Nat × Word} (hp : p ∈ ps) (hrep : Replaced s p) :
    delayAfter s (dstOf s) (dstOf s) ps p.1 = Int.tdiv (blended s (dstOf s) (dstOf s) p) 100 := by
  unfold delayAfter
  split
  · next q hq =>
    obtain rfl : q = p := h.unique (List.mem_of_find?_eq_some hq) hp (by simpa using List.find?_some hq)
    exact if_pos hrep
  · next hnone => exact absurd (List.find?_eq_none.1 hnone p hp) (by simp)

/-- The current delay of every lane after the pass, marked where it was. -/
theorem PassStored.memWord_cur {l : Nat} (hl : l < 8) (hm : s.marked (dstOf s) (offCur l) = true) :
    ∃ w, memWord m (wordAt s (dstOf s) (offCur l)) = some w ∧
      w.toInt = delayAfter s (dstOf s) (dstOf s) ps l := by
  by_cases hrep : ∃ p ∈ ps, p.1 = l ∧ Replaced s p
  · obtain ⟨p, hp, rfl, hrep⟩ := hrep
    refine ⟨_, h.memWord_replaced hp hrep, ?_⟩
    rw [h.delayAfter_replaced hp hrep, toInt_ofInt_of_inS32 (inS32_estimate (h.inRange p hp).1)]
  · have hkept : ∀ p ∈ ps, p.1 = l → ¬ Replaced s p := fun p hp hpl hr => hrep ⟨p, hp, hpl, hr⟩
    obtain ⟨w, hw⟩ := Option.isSome_iff_exists.1 (show (memWord s.mem (wordAt s (dstOf s) (offCur l))).isSome = true
      from hm)
    refine ⟨w, ?_, ?_⟩
    · rw [h.memWord_apart fun p hp => ?_, hw]
      refine ⟨?_, fun hr => ?_⟩
      · have hlane := h.lanes p hp
        unfold offAcc offCur
        omega
      · have hne : p.1 ≠ l := fun hpl => hkept p hp hpl hr
        unfold offCur
        omega
    · rw [delayAfter_kept hkept]
      exact congrArg (fun o => (Option.getD o 0).toInt) hw.symm

end

/-! ## The phase P6: the trim writes (R212, R217) -/

/-- In entry `dst` of `t` the current delays are `cur`, and what the trim compensator reads besides is as in `s`. -/
structure TrimsAlike (s t : State) (dst : Nat) (cur : Nat → Int) : Prop where
  params : t.params = s.params
  freq : freqAt t dst = freqAt s dst
  margin : marginAt t dst = marginAt s dst
  cur : ∀ l < 8, curAt t dst l = cur l
  trn : ∀ l < 8, trnAt t dst l = trnAt s dst l
  val : ∀ r < 2, ∀ k < 8, trimValAt t dst r k = trimValAt s dst r k

section

variable {s t : State} {dst r : Nat} {cur : Nat → Int} (h : TrimsAlike s t dst cur)

theorem groupLane_lt {i : Nat} (hr : r < 2) (hi : i < 4) : groupLane r i < 8 := by
  unfold groupLane
  omega

theorem trimRank_lt {id : Nat} (hid : id < 10) : trimRank id < 2 := by
  unfold trimRank
  split_ifs <;> omega

include h

theorem TrimsAlike.tapAt_eq (hr : r < 2) {i : Nat} (hi : i < 4) :
    tapAt t dst r (curAt t dst) i = tapAt s dst r cur i := by
  simp only [tapAt, h.freq, h.cur _ (groupLane_lt hr hi), h.trn _ (groupLane_lt hr hi)]

theorem TrimsAlike.trimmedAt_eq (hr : r < 2) {k : Nat} (hk : k < 8) :
    trimmedAt t dst r (curAt t dst) k = trimmedAt s dst r cur k := by
  simp only [trimmedAt, h.margin, h.val r hr k hk, h.tapAt_eq hr (show k / 2 < 4 by omega)]

theorem TrimsAlike.trimsInRange (hr : r < 2) (hin : TrimsInRange s dst r cur) :
    TrimsInRange t dst r (curAt t dst) := by
  obtain ⟨hlane, hval⟩ := hin
  refine ⟨fun i hi => ?_, fun k hk => ?_⟩
  · rw [h.tapAt_eq hr hi, h.freq, h.cur _ (groupLane_lt hr hi), h.trn _ (groupLane_lt hr hi)]
    exact hlane i hi
  · rw [h.trimmedAt_eq hr hk]
    exact hval k hk

/-- A layout of a well-formed session packs stored values 0 to 7 only (41_trim.md R147). -/
theorem TrimsAlike.trimWord_eq {id : Nat} (hp : paramsOk s.params = true) (hid : id < 10) :
    trimWord t dst id (curAt t dst) = trimWord s dst id cur := by
  unfold trimWord
  rw [h.params]
  refine List.foldr_ext _ _ _ fun f hf w => ?_
  rw [h.trimmedAt_eq (trimRank_lt hid) (layout_k hp hid f hf)]

end

section

variable {s : State} {ps : List (Nat × Word)} {m : List Host.Cell} (h : PassStored s ps m) (hm : PcompMarked s)

include h

theorem PassStored.fieldD_fixed {off : Nat} (hoff : OutsideDelays off) :
    (withMem s m).fieldD (dstOf s) off = s.fieldD (dstOf s) off :=
  congrArg (fun o => Option.getD o 0) (h.memWord_fixed hoff)

theorem PassStored.marked_fixed {off : Nat} (hoff : OutsideDelays off) :
    (withMem s m).marked (dstOf s) off = s.marked (dstOf s) off :=
  congrArg Option.isSome (h.memWord_fixed hoff)

include hm

/-- The trim compensator sees the delays after the pass (R217). -/
theorem PassStored.trimsAlike :
    TrimsAlike s (withMem s m) (dstOf s) (delayAfter s (dstOf s) (dstOf s) ps) where
  params := rfl
  freq := h.fieldD_fixed (by decide)
  margin := congrArg BitVec.toNat (h.fieldD_fixed (by decide))
  cur l hl := by
    obtain ⟨w, hw, hdelay⟩ := h.memWord_cur hl (hm.cur l hl)
    rw [← hdelay]
    exact congrArg (fun o => (Option.getD o 0).toInt) hw
  trn l hl := congrArg BitVec.toInt (h.fieldD_fixed (by unfold offTrn; omega))
  val r hr k hk := congrArg BitVec.toInt (h.fieldD_fixed (by unfold offTrimVal; omega))

/-- The pass keeps the marks of what the trim compensator reads. -/
theorem PassStored.trimMarked {r : Nat} (hr : r < 2) : TrimMarked (withMem s m) (dstOf s) r where
  freq := (h.marked_fixed (by decide)).trans hm.freq
  margin := (h.marked_fixed (by decide)).trans hm.margin
  cur i hi := by
    obtain ⟨w, hw, -⟩ := h.memWord_cur (groupLane_lt hr hi) (hm.cur _ (groupLane_lt hr hi))
    exact Option.isSome_of_eq_some hw
  trn i hi := by
    have hlane := groupLane_lt hr hi
    exact (h.marked_fixed (by unfold offTrn; omega)).trans (hm.trn _ hlane)
  val k hk := (h.marked_fixed (by unfold offTrimVal; omega)).trans (hm.val r hr k hk)

/-- The packed value of an identity after the pass. -/
theorem PassStored.trimValue {id : Nat} (hp : paramsOk s.params = true) (hid : id < 10)
    (hr : TrimsInRange s (dstOf s) (trimRank id) (delayAfter s (dstOf s) (dstOf s) ps)) :
    (withMem s m).trimValue (dstOf s) id =
      .ok (trimWord s (dstOf s) id (delayAfter s (dstOf s) (dstOf s) ps)) := by
  obtain ⟨hfreq, hmargin, hcur, htrn, hval⟩ := h.trimMarked hm (trimRank_lt hid)
  rw [trimValue_ok (s := withMem s m) hid hp hfreq hmargin (fun i hi => ⟨hcur i hi, htrn i hi⟩) hval
      ((h.trimsAlike hm).trimsInRange (trimRank_lt hid) hr),
    (h.trimsAlike hm).trimWord_eq hp hid]

end

/-- The trim compensator depends on the memory and the parameters alone (41_trim.md R138). -/
theorem trimValue_congr {s t : State} (hm : t.mem = s.mem) (hp : t.params = s.params) (dst id : Nat) :
    t.trimValue dst id = s.trimValue dst id := by
  have htap : t.laneTap dst (trimRank id) = s.laneTap dst (trimRank id) := funext fun i => by
    simp only [State.laneTap, State.fieldS, field_congr hm hp]
  simp only [State.trimValue, State.adjustedValues, htap, State.fieldS, State.fieldU, field_congr hm hp, hp]

/-- Trim writes, in order, each with the trim compensator's value. -/
theorem runTasks_trimWrites {ids : List Nat} {f : Nat → Word} {u : State} (hq : u.quantum = none)
    (hv : ∀ id ∈ ids, u.trimValue u.dstEntry id = .ok (f id)) :
    runTasks (ids.map .trimWrite) u =
      .done (wrote u (ids.map fun id => .write .emc (trimAddr u.params id) (f id))) := by
  induction ids generalizing u with
  | nil => simp [wrote]
  | cons id ids ih =>
    rw [List.map_cons, runTasks_done hq (runTask_trimWrite (hv id List.mem_cons_self)),
      ih (u := u.regWrite .emc (trimAddr u.params id) (f id)) hq fun k hk => hv k (List.mem_cons_of_mem _ hk)]
    simp [wrote, State.regWrite]

/-- The largest difference is at least 0. -/
theorem largest_nonneg (ds : List Int) : 0 ≤ largest ds := by
  have hfold : ∀ (ds : List Int) (d : Int), d ≤ ds.foldl max d := fun ds => by
    induction ds with
    | nil => exact fun d => le_rfl
    | cons x ds ih => exact fun d => (le_max_left d x).trans (ih _)
  exact hfold ds 0

/-- A difference that scales in range reads back from `RESULT`. -/
theorem toNat_ofInt_of_scales {s : State} {dst : Nat} {d : Int} (h0 : 0 ≤ d) (h : ScalesInRange s dst d) :
    ((BitVec.ofInt 32 d).toNat : Int) = d := by
  have ⟨hshift, _⟩ := h
  rw [BitVec.toNat_ofInt]
  omega

section

variable {s u : State} {ps : List (Nat × Word)} {m : List Host.Cell}

/-- The scaled largest difference of the pass exceeds the margin (R212). -/
abbrev Drifts (s : State) (ps : List (Nat × Word)) : Prop :=
  (marginAt s (dstOf s) : Int) < scaledTo s (dstOf s) (periodicDelta s (dstOf s) (dstOf s) ps)

/-- What P6 writes. -/
def trimWrites (s : State) (ps : List (Nat × Word)) : List PortEvent :=
  if Drifts s ps then
    (List.range 10).map fun id =>
      .write .emc (trimAddr s.params id) (trimWord s (dstOf s) id (delayAfter s (dstOf s) (dstOf s) ps))
  else []

variable (h : SeesPcomp (withMem s m) u) (hst : PassStored s ps m) (hm : PcompMarked s)

include h hst hm

/-- The ten trim writes are made if the scaled largest difference exceeds the margin (R212). -/
theorem expand_trimAll (hv : u.pass.value = BitVec.ofInt 32 (periodicDelta s (dstOf s) (dstOf s) ps))
    (hsc : ScalesInRange s (dstOf s) (periodicDelta s (dstOf s) (dstOf s) ps)) :
    u.expand .trimAll = .ok (if Drifts s ps then (List.range 10).map .trimWrite else []) := by
  have hdst : u.dstEntry = dstOf s := dstEntry_of_seesPcomp (s := withMem s m) h
  have hfreq : u.field (dstOf s) offFreq = .ok (freqAt s (dstOf s)) := by
    rw [field_congr h.mem h.params, field_ok ((hst.marked_fixed (by decide)).trans hm.freq),
      hst.fieldD_fixed (by decide)]
    rfl
  have hmargin : u.fieldU (dstOf s) offMargin = .ok (marginAt s (dstOf s)) := by
    rw [State.fieldU, field_congr h.mem h.params, field_ok ((hst.marked_fixed (by decide)).trans hm.margin), bind_ok,
      hst.fieldD_fixed (by decide)]
    rfl
  have hscaled : scaled u.pass.value.toNat (fmhz (freqAt s (dstOf s))) =
      .ok (scaledTo s (dstOf s) (periodicDelta s (dstOf s) (dstOf s) ps)) := by
    rw [hv, toNat_ofInt_of_scales (d := periodicDelta s (dstOf s) (dstOf s) ps) (largest_nonneg _) hsc]
    exact scaled_ok hsc.1 hsc.2
  simp only [State.expand, State.trimAllTasks]
  rw [hdst, hfreq, bind_ok, hmargin, bind_ok, hscaled, bind_ok]

/-- P6: the trim writes carry the values of the delays after the pass (R217). -/
theorem runStages_trims (hp : paramsOk s.params = true) (gs : List Stage)
    (hv : u.pass.value = BitVec.ofInt 32 (periodicDelta s (dstOf s) (dstOf s) ps))
    (hsc : ScalesInRange s (dstOf s) (periodicDelta s (dstOf s) (dstOf s) ps))
    (hr : Drifts s ps → ∀ r < 2, TrimsInRange s (dstOf s) r (delayAfter s (dstOf s) (dstOf s) ps)) :
    runStages (.phase 0x106 :: gs) u = runStages gs (wrote (u.enter (.phase 0x106)) (trimWrites s ps)) := by
  have h6 := h.enter 0x106
  refine runStages_step h.quantum (runParts_step (expand_trimAll h6 hst hm hv hsc) ?_)
  unfold trimWrites
  by_cases hexceeds : Drifts s ps
  · rw [if_pos hexceeds, if_pos hexceeds, runTasks_trimWrites h6.quantum fun id hid => ?_]
    · rw [h6.params]
      rfl
    · have hid : id < 10 := List.mem_range.1 hid
      rw [dstEntry_of_seesPcomp (s := withMem s m) h6, trimValue_congr h6.mem h6.params]
      exact hst.trimValue hm hp hid (hr hexceeds _ (trimRank_lt hid))
  · rw [if_neg hexceeds, if_neg hexceeds, runTasks_nil, wrote_nil]

end

/-- Settles O47: the phases in order; the pass of P5 leaves the delays P6 trims with and the memory P7 sees. -/
theorem pcompCompensatesTheDrift : Obligations.PcompCompensatesTheDrift := by
  intro s ns rest a bs as hi hc hp hw htimer hsettle hin hn hr hsc htrims
  have hm := pcompMarked_of_passes hc
  have hst := passStored_periodicMem hn hr
  refine ⟨periodicMem s (lanesWith s ns), ?_, hst.holds, hst.outside⟩
  have h0 : SeesPcomp s (s.accept .pcomp) := seesPcomp_accept hi.2
  have h1 := seesPcomp_wrote (h0.enter 0x101) (listWrites s.params (periodicCtx s s.mem .p1))
  have h2 := seesPcomp_wrote (h1.enter 0x102) (listWrites s.params (periodicCtx s s.mem .p2))
  have h3 := seesPcomp_wrote (h2.enter 0x103) (listWrites s.params (periodicCtx s s.mem .p3))
  have h4 := seesPcomp_timed (h3.enter 0x104) a bs as
  have h5 := seesPcomp_estimatedTo (h4.enter 0x105) (sampleTrace (lanesWith s ns)) rest
    (periodicMem s (lanesWith s ns)) (periodicDelta s (dstOf s) (dstOf s) (lanesWith s ns))
  have h6 := seesPcomp_wrote (h5.enter 0x106) (trimWrites s (lanesWith s ns))
  rw [exec_pcomp_passes hi hc, runStages_phaseWrites h0 hw _ rfl (by decide),
    runStages_phaseWrites h1 hw _ rfl (by decide), runStages_phaseWrites h2 hw _ rfl (by decide),
    runStages_settle h3 _ htimer hsettle, runStages_periodic h4 hm _ hin hn hr,
    runStages_trims h5 hst hm hp _ rfl hsc htrims, runStages_phaseWrites h6 hw _ rfl (by decide),
    runStages_finish (by exact hi.2), Run.state_ended, listWrites_withMem]
  simp [wrote, timed, estimatedTo, State.enter, State.succeed, State.endFlags, endedOk, State.accept, statusCode,
    causeIsFault, cmdIsSwitch, trimWrites]

end Sys2Proof.Proofs.PeriodicControl
end

section
/-! Proofs of the statements of the exceptions: host writes while a command runs, and which steps answer (spec
60_exceptions.md R223 to R225, R235, R241). -/

namespace Sys2Proof.Proofs.StepAnswers

open Sys2Proof Sys2Proof.Machine Sys2Proof.Proofs.HostWindow Sys2Proof.Proofs.RefusedAccess

/-! ## Host writes while a command runs (60_exceptions.md R224) -/

/-- A busy engine ignores every command, legal or not. -/
theorem exec_busy (i : Instr) {s : State} (hb : s.busy = true) : exec i s = .next s.setOvr := by
  cases hw : i.wellFormed with
  | true => rw [exec_eq i hw, launch_busy hb]
  | false => rw [exec_ill i hw, State.illegalCommand, if_pos hb]

theorem commandWrite_busy {s : State} (w : Word) (hb : s.busy = true) : commandWrite exec w s = .next s.setOvr := by
  unfold commandWrite
  split
  · exact exec_busy _ hb
  · rw [State.illegalCommand, if_pos hb]

/-- The places a host write reaches that are closed to it while a command runs. -/
inductive Guarded : Loc → Prop
  | cmd : Guarded (.csr .cmd)
  | cfg : Guarded (.csr .cfg)
  | srcIdx : Guarded (.csr .srcIdx)
  | dstIdx : Guarded (.csr .dstIdx)
  | entryCount : Guarded (.csr .entryCount)
  | entry (i o : Nat) : Guarded (.entry i o)

theorem hostWrite_guarded {s : State} {loc : Loc} (w : Word) (hb : s.busy = true) (hloc : Guarded loc) :
    hostWrite exec loc w s = .next s.setOvr := by
  cases hloc with
  | cmd => exact commandWrite_busy w hb
  | cfg | srcIdx | dstIdx | entryCount | entry => exact congrArg Host.Outcome.next (if_pos hb)

/-- Settles O6: an offset reaches a guarded place, `STATUS`, or a place a host write does not change. -/
theorem writesWhileBusyAreIgnored : Obligations.WritesWhileBusyAreIgnored := by
  intro s es off w hp hi h4 hlt
  refine ⟨fun hb hoff => ?_, ?_, fun hoff => ?_⟩
  · have hguarded : Guarded (locate s.params off) := by
      rcases hoff with rfl | rfl | rfl | rfl | rfl | ⟨i, o, hentry, ho, hopen, rfl⟩
      · exact .cmd
      · exact .cfg
      · exact .srcIdx
      · exact .dstIdx
      · exact .entryCount
      · rw [locate_entry hp hentry ho, hopen]
        exact .entry i o
    rw [step_host hp hi h4 hlt, if_pos rfl]
    exact hostWrite_guarded (s := { s with inbox := es }) w hb hguarded
  · rintro rfl
    exact step_csrWrite (c := .status) hp hi h4 (by decide) rfl (by decide)
  · rcases hoff with rfl | rfl | rfl | rfl | ⟨hlow, hhigh⟩ | habove | ⟨i, o, hentry, ho, hres, rfl⟩
    · exact step_csrWrite (c := .result) hp hi h4 (by decide) rfl (by decide)
    · exact step_csrWrite (c := .step) hp hi h4 (by decide) rfl (by decide)
    · exact step_csrWrite (c := .fsp) hp hi h4 (by decide) rfl (by decide)
    · exact step_csrWrite (c := .id) hp hi h4 (by decide) rfl (by decide)
    · exact step_reserved hp hi h4 hlt (locate_hole hlow hhigh)
    · exact step_reserved hp hi h4 hlt (locate_above hp habove)
    · refine step_reserved hp hi h4 hlt ?_
      rw [locate_entry hp hentry ho, if_pos hres]

/-! ## Every step answers but two (log entries 18 and 24) -/

/-- With no event to come the engine goes on. -/
theorem step_undisturbed {s : State} (hp : paramsOk s.params = true) (hi : s.inbox = []) :
    step s = .next { s with quantum := none }.resume := by
  simp only [step, stepWith, hi, hp, if_true]

theorem exec_answers (i : Instr) (s : State) : ∃ t, exec i s = .next t := by
  cases hw : i.wellFormed with
  | true => exact ⟨_, exec_eq i hw s⟩
  | false => exact ⟨_, exec_ill i hw s⟩

theorem hostWrite_answers (loc : Loc) (w : Word) (s : State) : ∃ t, hostWrite exec loc w s = .next t := by
  cases loc with
  | csr c =>
    cases c with
    | cmd =>
      simp only [hostWrite, commandWrite]
      split
      · exact exec_answers _ s
      · exact ⟨_, rfl⟩
    | _ => exact ⟨_, rfl⟩
  | entry | reserved => exact ⟨_, rfl⟩

/-- Honoured or refused, a host access in the window is answered (20_memory.md R60, R68). -/
theorem hostAccess_answers {a : HostAccess} {s : State}
    (hin : ¬(a.addr < s.params.dteBase ∨ s.params.dteBase + 4294967296 ≤ a.addr)) :
    ∃ t, hostAccess exec a s = .next t := by
  simp only [hostAccess]
  rw [if_neg hin]
  split
  · split
    · exact hostWrite_answers _ _ s
    · exact ⟨_, rfl⟩
  · split <;> exact ⟨_, rfl⟩

/-- Settles O16: by the next event, of which only a host access and a reset input can fail to be answered. -/
theorem everyStepAnswers : Obligations.EveryStepAnswers := by
  intro s hp
  cases hi : s.inbox with
  | nil => exact .inl ⟨_, step_undisturbed hp hi⟩
  | cons e es =>
    rw [step_event hp hi]
    cases e with
    | host a =>
      by_cases hout : a.addr < s.params.dteBase ∨ s.params.dteBase + 4294967296 ≤ a.addr
      · exact .inr (.inl ⟨a, es, rfl, hout, if_pos hout⟩)
      · exact .inl (hostAccess_answers (s := { s with inbox := es }) hout)
    | reset p =>
      cases hq : paramsOk p with
      | true => exact .inl ⟨_, if_pos hq⟩
      | false => exact .inr (.inr ⟨p, es, rfl, hq, if_neg (by simp [hq])⟩)
    | engine | drain | emcClocks | regAnswer | sampleAnswer | timerAdvance => exact .inl ⟨_, rfl⟩

end Sys2Proof.Proofs.StepAnswers
end

section
/-! Proofs of the statements of the exceptions: the `CONFIG` check, and how an accepted command stands (spec
60_exceptions.md R226 to R235). -/

namespace Sys2Proof.Proofs.CommandOutcomes

open Sys2Proof Sys2Proof.Machine Sys2Proof.Proofs.Invariant Sys2Proof.Proofs.CommandEnds Sys2Proof.Proofs.CausesRaised

/-! ## The checks of the count and the indices (60_exceptions.md R226 (1)) -/

/-- A count above 900, or an entry used at or above the count: the cause is `CONFIG`, whatever is marked. -/
theorem checkCause_config {s : State}
    (h : 900 < s.entryCount.toNat ∨ ∃ k ∈ s.usedEntries, s.entryCount.toNat ≤ k) : s.checkCause = .config := by
  unfold State.checkCause
  rw [if_pos]
  simpa only [Bool.or_eq_true, List.any_eq_true, decide_eq_true_eq] using h

theorem dstOf_mem_usedEntries {i : Instr} (s : State) (hi : i ≠ .nop) : dstOf s ∈ (s.accept i).usedEntries :=
  dstEntry_mem_usedEntries (s := s.accept i) hi

/-- An `est`, a ramp and a `switch` use the source entry too. -/
theorem srcOf_mem_usedEntries {i : Instr} (s : State) (hi : IsEst i ∨ CanEnqueue i) :
    srcOf s ∈ (s.accept i).usedEntries := by
  rcases hi with (rfl | rfl | rfl | rfl | rfl) | ⟨_, rfl⟩ | ⟨_, rfl⟩ | ⟨_, rfl⟩ <;> exact List.mem_cons_self

/-- Settles O22. -/
theorem configCheckEndsTheCommand : Obligations.ConfigCheckEndsTheCommand := by
  intro i s hi hw ⟨hb, hq⟩ hd h
  have hc : (s.accept i).checkCause = .config := by
    refine checkCause_config ?_
    rcases h with hcount | hdst | ⟨huses, hsrc⟩
    · exact .inl hcount
    · exact .inr ⟨_, dstOf_mem_usedEntries s hi, hdst⟩
    · exact .inr ⟨_, srcOf_mem_usedEntries s huses, hsrc⟩
  rw [exec_eq i hw, launch_idle hb, runStages_refused hi hq hd (by rw [hc]; decide), hc, Run.state_abort,
    abort_accept (by decide)]

/-! ## The causes of an abort (60_exceptions.md R228) -/

/-- A cause an accepted command can be ended by: `ILLEGAL` is of a word that is no command (R225). -/
def AbortCause (c : Cause) : Prop := c ≠ .none ∧ c ≠ .illegal

theorem abortCause_of_arithmetic {c : Cause} (h : Arithmetic c) : AbortCause c := by
  rcases h with rfl | rfl <;> exact ⟨by decide, by decide⟩

theorem abortCause_of_taskCause {t : Task} {c : Cause} (h : TaskCause t c) : AbortCause c := by
  cases t with
  | check | enqueue => rcases h with rfl | rfl <;> exact ⟨by decide, by decide⟩
  | est w more =>
    rcases h with h | ⟨_, rfl⟩
    · exact abortCause_of_arithmetic h
    · exact ⟨by decide, by decide⟩
  | trim | trimWrite | curFromTrn | compareDrift | clkSrc => exact abortCause_of_arithmetic h
  | restore | ccWait => cases h; exact ⟨by decide, by decide⟩
  | _ => exact h.elim

theorem taskWithin_abortCause (t : Task) : TaskWithin (fun _ => True) AbortCause t := by
  intro s _
  have hcause := resultWithin_runTask t s
  generalize runTask t s = r at hcause
  cases r with
  | abort c u => exact abortCause_of_taskCause hcause
  | done | hold | ended => trivial

theorem within_expand (p : Part) (s : State) : Within AbortCause (s.expand p) := by
  have arithmetic {α : Type} {e : Except Cause α} (h : Within Arithmetic e) : Within AbortCause e :=
    h.mono fun _ => abortCause_of_arithmetic
  cases p with
  | one | ops | est | precharge | captureAll | settle => exact within_ok _
  | estRepeat m => exact arithmetic (within_bind (within_fieldU _ _ _) fun _ => within_ok _)
  | trimAll =>
    exact arithmetic (within_bind (within_field _ _ _) fun _ => within_bind (within_fieldU _ _ _) fun _ =>
      within_bind (within_scaled _ _) fun _ => within_ok _)
  | ramp dir flip ofDst inPass =>
    have hperiod (f : Word) : Within AbortCause (periodPs f) := (within_periodPs f).mono fun c hc => by
      rcases hc with rfl | rfl | rfl | rfl <;> exact ⟨by decide, by decide⟩
    exact within_bind (within_bind (arithmetic (within_field _ _ _)) fun f => within_bind (hperiod f) fun _ =>
      within_ok _) fun _ => within_ok _

/-- Whatever the stages of a run, an abort in it has a cause of an abort. -/
theorem runStages_abortCause (gs : List Stage) (s : State) : RunWithin (fun _ => True) AbortCause (runStages gs s) :=
  runStages_within (fun _ _ => trivial)
    (fun _ _ _ _ => ⟨trivial, fun p _ u _ => ⟨within_expand p u, fun _ _ t _ => taskWithin_abortCause t⟩⟩) trivial

/-! ## How an accepted command stands (60_exceptions.md R227, R229, R230, R235) -/

/-- A command runs with nothing reported; `RESULT` and `FAULT` stand as they stood. -/
structure RunsOn (r : Word) (f : Bool) (s : State) : Prop where
  busy : s.busy = true
  done : s.done = false
  code : s.code = 0
  cause : s.cause = .none
  result : s.result = r
  fault : s.fault = f

/-- A command has ended in success. -/
structure EndedWell (f : Bool) (s : State) : Prop where
  busy : s.busy = false
  done : s.done = true
  code : s.code = 0
  cause : s.cause = .none
  fault : s.fault = f
  pass : s.pass = Pass.idle

/-- A command has been ended by an abort. -/
structure EndedIll (r : Word) (f : Bool) (s : State) : Prop where
  busy : s.busy = false
  done : s.done = true
  code : s.code = 4
  cause : AbortCause s.cause
  result : s.result = r
  fault : s.fault = (f || causeIsFault s.cause)
  pass : s.pass = Pass.idle

section

variable {r : Word} {f : Bool} {s : State}

theorem RunsOn.setFields (h : RunsOn r f s) (i : Nat) (ws : List (Nat × Word)) : RunsOn r f (s.setFields i ws) :=
  { h with }

theorem RunsOn.suspend (h : RunsOn r f s) (c : Cont) : RunsOn r f (s.suspend c) := { h with }

theorem RunsOn.succeed (h : RunsOn r f s) (q : ResultSel) : EndedWell f (s.succeed q) where
  busy := rfl
  done := rfl
  code := rfl
  cause := rfl
  fault := by simp [State.succeed, h.fault, causeIsFault]
  pass := rfl

theorem RunsOn.abort {c : Cause} (h : RunsOn r f s) (hc : AbortCause c) : EndedIll r f (s.abort c) where
  busy := rfl
  done := rfl
  code := if_neg hc.1
  cause := hc
  result := h.result
  fault := congrArg (· || causeIsFault c) h.fault
  pass := rfl

end

/-- No elementary update of a running command reports anything but the end in success. -/
theorem runsOn_ops (r : Word) (f : Bool) :
    OpsKeep (RunsOn r f) (EndedWell f) (fun _ => True) (fun _ => True) (fun _ => True) where
  tick _ h := { h with }
  reg _ _ _ h := { h with }
  smp _ _ _ h := { h with }
  tim _ _ _ _ h := { h with }
  pto _ h := { h with }
  write _ _ _ _ h := { h with }
  enqueue _ _ _ _ _ h he := by obtain ⟨_, _, rfl⟩ := enqueue_cases he; exact { h with }
  save _ _ _ h := { h with }
  value _ _ h := { h with }
  rampWait _ b _ h := by cases b <;> exact { h with }
  commit s w _ h := { h.setFields w.dst (commitWords w.done ++ trainWords s w) with }
  clearAcc _ h := h.setFields _ _
  curFromTrn _ _ h he := by obtain ⟨_, rfl, _⟩ := curFromTrn_cases he; exact h.setFields _ _
  compareDrift _ _ h he := by obtain ⟨_, _, _, _, _, _, rfl⟩ := compareDrift_cases he; exact { h with }
  fspWr _ _ h := { h with }
  fspOp _ h := { h with }
  clockSource _ _ h he := by obtain ⟨_, _, rfl⟩ := clockSource_cases he; exact { h with }
  capture _ _ _ _ h := h.setFields _ _
  finish _ q h := h.succeed q
  fresh _ _ _ := trivial
  next _ _ _ _ _ _ _ _ := trivial
  items _ _ _ _ := trivial
  enter g _ _ h := by cases g <;> exact { h with }

/-- A command accepted runs on, ends in success, or is ended by an abort. -/
theorem exec_outcome {i : Instr} {s t : State} (hw : i.wellFormed = true) (hb : s.busy = false)
    (he : exec i s = .next t) : RunsOn s.result s.fault t ∨ EndedWell s.fault t ∨ EndedIll s.result s.fault t := by
  rw [exec_eq i hw, launch_idle hb] at he
  cases he
  have hstand := runStages_all (runsOn_ops s.result s.fault).engine (stagesOf i) (s.accept i) (fun _ _ => trivial)
    ⟨rfl, rfl, rfl, rfl, rfl, rfl⟩
  have hcause := runStages_abortCause (stagesOf i) (s.accept i)
  cases hr : runStages (stagesOf i) (s.accept i) with
  | done u => rw [hr] at hstand; exact .inl (RunsOn.suspend hstand _)
  | paused c u => rw [hr] at hstand; exact .inl (hstand.1.suspend c)
  | ended u => rw [hr] at hstand; exact .inr (.inl hstand)
  | abort c u => rw [hr] at hstand hcause; exact .inr (.inr (RunsOn.abort hstand hcause))

/-- The causes of class fault (60_exceptions.md R230). -/
theorem causeIsFault_iff (c : Cause) :
    causeIsFault c = true ↔ c = .div0 ∨ c = .overflow ∨ c = .uninit ∨ c = .queueOvf := by
  cases c <;> simp [causeIsFault]

/-- Settles O26. -/
theorem commandRunsOnOrEnds : Obligations.CommandRunsOnOrEnds := by
  intro i s t hw hb he
  rcases exec_outcome hw hb he with h | h | h
  · exact .inl ⟨h.busy, h.done, h.code, h.cause, h.result, h.fault⟩
  · exact .inr (.inl ⟨h.busy, h.done, h.code, h.cause, h.fault, h.pass⟩)
  · refine .inr (.inr ⟨h.busy, h.done, h.code, h.cause.1, h.cause.2, h.result, ?_, h.pass⟩)
    rw [h.fault, Bool.or_eq_true, causeIsFault_iff]

end Sys2Proof.Proofs.CommandOutcomes
end

section
/-! Proofs of the statements of reset and the hazards: what reset leaves (spec 70_reset_and_hazards.md R253 to R255),
and the drain interlock (R264). -/

namespace Sys2Proof.Proofs.ResetAndHazards

open Sys2Proof Sys2Proof.Machine Sys2Proof.Proofs.LateAnswers Sys2Proof.Proofs.Invariant

/-! ## Reset (70_reset_and_hazards.md R253 to R255) -/

/-- With an empty entry table no field has its mark (10_state.md R36). -/
theorem marked_of_mem_nil {s : State} (h : s.mem = []) (i off : Nat) : s.marked i off = false := by
  rw [State.marked, h]
  rfl

/-- No slot of a new session is readable, whatever its number (20_memory.md R80). -/
theorem emptySnap_getD (p : Params) (k : Nat) : (emptySnap p).getD k none = none := by
  rw [emptySnap, List.getD_eq_getElem?_getD, List.getElem?_replicate]
  split <;> rfl

/-- Settles O13: the marks are clear because no byte is written, the slots because each is made unreadable. -/
theorem resetStateIsTheSpecs : Obligations.ResetStateIsTheSpecs :=
  ⟨by decide, rfl, rfl, rfl, rfl, rfl, rfl, by decide, rfl, marked_of_mem_nil rfl, emptySnap_getD Params.reference,
    rfl, rfl⟩

/-- The reset input as the next event begins the session of its parameters. -/
theorem step_reset {s : State} {p : Params} {es : List Event} (hs : paramsOk s.params = true)
    (hp : paramsOk p = true) (hi : s.inbox = .reset p :: es) :
    step s = .next (State.resetInput { s with inbox := es } p) := by
  rw [step_event hs hi]
  exact if_pos hp

/-- Settles O14: the statement's state is what `State.resetInput` makes of the state with the event taken. -/
theorem resetInputFromAnyState : Obligations.ResetInputFromAnyState := fun _ _ _ => step_reset

/-- The parameters of the reset state are well formed (log entry 5). -/
theorem paramsOk_reference : paramsOk Params.reference = true := by decide

/-- Settles O57: the reset state differs from what the reset input makes of it in the count of sessions only, of which
the invariant says nothing. -/
theorem resetHasTheInvariant : Obligations.ResetHasTheInvariant :=
  { inv_resetInput paramsOk_reference State.reset with }

/-! ## The drain interlock (70_reset_and_hazards.md R264) -/

/-- While the queue drains, the engine waits at the interlock with the other stages left. -/
theorem runStages_interlock_draining {s : State} {gs : List Stage} (hq : s.quantum = none) (hd : s.drain = true) :
    runStages (.interlock :: gs) s = .paused ⟨[.awaitDrain], [], gs⟩ s := by
  have hwait : runTask .awaitDrain s = .hold .awaitDrain s := if_pos hd
  have hparts : runParts [.one .awaitDrain] s = .paused ⟨[.awaitDrain], [], []⟩ s := by
    rw [runParts_ok (ts := [.awaitDrain]) rfl, runTasks_hold hq hwait]
    rfl
  rw [runStages_none hq, show (s.enter .interlock).stageParts .interlock = [.one .awaitDrain] from rfl,
    show s.enter .interlock = s from rfl, hparts]
  rfl

/-- Left at the interlock with nothing draining any more, the engine goes on with the other stages. -/
theorem runCont_awaitDrain {s : State} {gs : List Stage} (hq : s.quantum = none) (hd : s.drain = false) :
    runCont ⟨[.awaitDrain], [], gs⟩ s = runStages gs s := by
  have hpass : runTask .awaitDrain s = .done s := if_neg (by rw [hd]; decide)
  rw [runCont, runTasks_done hq hpass]
  rfl

/-- A command that can enqueue is well formed and comes to the interlock first. -/
theorem stagesOf_canEnqueue {i : Instr} (h : CanEnqueue i) :
    i.wellFormed = true ∧ ∃ gs, stagesOf i = .interlock :: gs := by
  rcases h with ⟨f, rfl⟩ | ⟨f, rfl⟩ | ⟨m, rfl⟩ <;> exact ⟨rfl, _, rfl⟩

/-- The drain has stopped, with a queue and records it left. -/
def afterDrain (q : List QEntry) (tr : List PortEvent) (s : State) : State :=
  { s with drain := false, drainClk := 0, queue := q, trace := tr }

/-- A command issued while the queue drains is accepted and left at the interlock. -/
theorem launch_draining {i : Instr} {gs : List Stage} {s : State} (h : Idle s) (hd : s.drain = true) :
    launch i (.interlock :: gs) s = (s.accept i).suspend ⟨[.awaitDrain], [], gs⟩ := by
  obtain ⟨hbusy, hq⟩ := h
  rw [launch_idle hbusy, runStages_interlock_draining (s := s.accept i) hq hd]
  rfl

/-- Once the drain has stopped, going on from the interlock is issuing the command then: what the interlock left in
`PASS` leaves no trace (`resume_suspend`). -/
theorem launch_drained {i : Instr} {gs : List Stage} {s : State} (h : Idle s) (q : List QEntry)
    (tr : List PortEvent) :
    launch i (.interlock :: gs) (afterDrain q tr s) =
      (afterDrain q tr ((s.accept i).suspend ⟨[.awaitDrain], [], gs⟩)).resume := by
  obtain ⟨hbusy, hq⟩ := h
  have hqu : ((afterDrain q tr s).accept i).quantum = none := hq
  calc launch i (.interlock :: gs) (afterDrain q tr s)
      = (runStages (.interlock :: gs) ((afterDrain q tr s).accept i)).state := launch_idle hbusy
    _ = (runCont ⟨[.awaitDrain], [], gs⟩ ((afterDrain q tr s).accept i)).state := by
        rw [runStages_interlock hqu rfl, runCont_awaitDrain hqu rfl]
    _ = (((afterDrain q tr s).accept i).suspend ⟨[.awaitDrain], [], gs⟩).resume := (resume_suspend rfl _).symm

/-- Settles O40: the state left waiting is the accepted one with the interlock and the other stages still to come
(`launch_draining`), and it goes on as a command issued after the drain does (`launch_drained`). -/
theorem drainInterlockDelaysTheCommand : Obligations.DrainInterlockDelaysTheCommand := by
  intro i s hi h hd
  obtain ⟨hw, gs, hgs⟩ := stagesOf_canEnqueue hi
  refine ⟨(s.accept i).suspend ⟨[.awaitDrain], [], gs⟩, ?_, rfl, rfl, rfl, rfl, rfl, rfl, fun q tr => ?_⟩
  · rw [exec_eq i hw, hgs, launch_draining h hd]
  · rw [exec_eq i hw, hgs]
    exact congrArg Host.Outcome.next (launch_drained h q tr)

end Sys2Proof.Proofs.ResetAndHazards
end
